-- ==== Sys2Proof/Word.lean ====
section
/-! DEFINITION. The bit-vector types of the machine: bytes, the 80-bit register word, and the widths of the
control registers. -/

namespace Sys2Proof

/-- One byte of memory or of an instruction (rule R90). -/
abbrev Byte := BitVec 8

/-- The 80 bits of a data register (rule R32): sign in bit 79, exponent in bits 78:64, significand in bits 63:0. -/
abbrev Ext := BitVec 80

/-- A 16-bit register: control word, status word, tag word, selectors, AX. -/
abbrev Word16 := BitVec 16

/-- A 32-bit address or offset: pc, FIP, FDP, displacements. -/
abbrev Addr := BitVec 32

end Sys2Proof
end

