-- ==== Sys2Proof/Config.lean ====
section
/-! DEFINITION. What is fixed for a run: the implementation parameters of rule R9, and the values no document
gives, as constants without a body (free values): nothing in Lean can evaluate them. -/

namespace Sys2Proof

/-- The processor generations of rule R1, in the order of rule R9. -/
inductive Gen where
  | g8087 | g287 | g387 | g486 | pentium | pentiumPro
deriving DecidableEq, Repr, Inhabited

/-- The place of a generation in the order of rule R9. -/
def Gen.rank : Gen → Nat
  | .g8087 => 0 | .g287 => 1 | .g387 => 2 | .g486 => 3 | .pentium => 4 | .pentiumPro => 5

/-- Width of addresses and displacements, or of operands (rule R9). -/
inductive Size where
  | s16 | s32
deriving DecidableEq, Repr, Inhabited

/-- The operating mode of the host, which selects the layout of the environment image (rules R9, R106). -/
inductive CpuMode where
  | real | prot
deriving DecidableEq, Repr, Inhabited

/-- The two kinds of the parameter FP_TRAP (rule R531): `stop` ends the run with the floating-point trap,
`resume` hands the state to a handler and goes on with the state the handler leaves. -/
inductive TrapPolicy where
  | stop | resume
deriving DecidableEq, Repr, Inhabited

/-- A run of provided memory: the bytes at `base`, …, `base + size - 1` (rule R90). -/
structure Region where
  base : Nat
  size : Nat
deriving DecidableEq, Repr, Inhabited

/-- The implementation parameters of rule R9, fixed for a run and set by no instruction. `noWaitWindow` is
the choice of rule R536; `provided` is the memory the host has provided (rule R90). `fusedWait` is the model's own
(DESIGN CHOICE, assumption 1): false, and 9BH is a step of its own, as rules R145 and R588 say; true, and 9BH with a
no-wait instruction behind it is read as the one instruction of the opcode table, which makes the two steps in one. -/
structure Params where
  gen          : Gen := .pentiumPro
  addrSize     : Size := .s32
  opSize       : Size := .s32
  cpuMode      : CpuMode := .prot
  fpTrap       : TrapPolicy := .stop
  noWaitWindow : Bool := false
  csSel        : Word16 := 0#16
  dsSel        : Word16 := 0#16
  provided     : List Region := [⟨0, 4294967296⟩]
  fusedWait    : Bool := false
deriving DecidableEq, Repr, Inhabited

/-- Rounding control, the four codes of CW.RC (rule R46). -/
inductive Rounding where
  | nearest | down | up | chop
deriving DecidableEq, Repr, Inhabited

/-- What a transcendental function answers (rule R200): the nonzero real
`± (2^63 + frac) · 2^(exp - 63)`, which has at most 64 significant bits and an unbounded exponent, the
inexact bit and the direction reported in C1. -/
structure Trans where
  neg  : Bool
  exp  : Int
  frac : BitVec 63
  pe   : Bool
  c1   : Bool
deriving DecidableEq, Repr, Inhabited

/-- The n-th arbitrary bit of the run (`undefined` and `any` of rule R14). No body: a free value. -/
opaque Config.freeBit : Nat → Bool

/-- The n-th arbitrary 32-bit field of the run (rules R52, R106). No body: a free value. -/
opaque Config.freeWord : Nat → BitVec 32

/-- The n-th arbitrary register value of the run, for a result no document states. No body: a free value. -/
opaque Config.freeExt : Nat → Ext

/-- TRANS.f2xm1 of rule R200, before the constraint of rule R202 is applied. No body: a parameter. -/
opaque Config.f2xm1 : Ext → Rounding → Trans

/-- TRANS.cos of rule R200, before the constraint of rule R203 is applied. No body: a parameter. -/
opaque Config.cos : Ext → Rounding → Trans

/-- TRANS.sin of rule R200, before the constraint of rule R206 is applied. No body: a parameter. -/
opaque Config.sin : Ext → Rounding → Trans

/-- TRANS.tan of rule R200. No body: a parameter. -/
opaque Config.tan : Ext → Rounding → Trans

/-- TRANS.atan2 of rule R200 (arguments y, x), before the constraints of rule R204. No body: a parameter. -/
opaque Config.atan2 : Ext → Ext → Rounding → Trans

/-- TRANS.yl2x of rule R200 (arguments y, x), before the constraint of rule R208. No body: a parameter. -/
opaque Config.yl2x : Ext → Ext → Rounding → Trans

/-- TRANS.yl2xp1 of rule R200 (arguments y, x), before the constraint of rule R209. No body: a parameter. -/
opaque Config.yl2xp1 : Ext → Ext → Rounding → Trans

/-- PREM_N of rule R9 as its distance above 32: PREM_N(D) = 32 + premStep D lies in 32, …, 63.
No body: a parameter. -/
opaque Config.premStep : Nat → BitVec 5

end Sys2Proof
end

