-- ==== Sys2Proof/Syntax.lean ====
section
/-! DEFINITION. The instructions: one constructor per row of spec/opcode_table.json, in the table's order.
A memory operand is its displacement, zero-extended to 32 bits (rule R97); `i` is the register number of ST(i). -/

namespace Sys2Proof

/-- The 148 rows of the opcode table (rules R136 to R146). Constructors in -O66 are the rows that carry the
operand-size byte 66H (rule R146); the last group are the wait forms (rule R145). -/
inductive Instr where
  | faddM32 (addr : Addr)  -- FADD m32real: 11011000 mm000bbb (R240)
  | faddM64 (addr : Addr)  -- FADD m64real: 11011100 mm000bbb (R241)
  | faddSt0 (i : BitVec 3)  -- FADD ST(0),ST(i): 11011000 11000iii (R242)
  | faddSti (i : BitVec 3)  -- FADD ST(i),ST(0): 11011100 11000iii (R243)
  | faddp (i : BitVec 3)  -- FADDP ST(i),ST(0): 11011110 11000iii (R244)
  | fiaddM16 (addr : Addr)  -- FIADD m16int: 11011110 mm000bbb (R245)
  | fiaddM32 (addr : Addr)  -- FIADD m32int: 11011010 mm000bbb (R246)
  | fdivM32 (addr : Addr)  -- FDIV m32real: 11011000 mm110bbb (R247)
  | fdivM64 (addr : Addr)  -- FDIV m64real: 11011100 mm110bbb (R248)
  | fdivSt0 (i : BitVec 3)  -- FDIV ST(0),ST(i): 11011000 11110iii (R249)
  | fdivSti (i : BitVec 3)  -- FDIV ST(i),ST(0): 11011100 11111iii (R250)
  | fdivp (i : BitVec 3)  -- FDIVP ST(i),ST(0): 11011110 11111iii (R251)
  | fidivM16 (addr : Addr)  -- FIDIV m16int: 11011110 mm110bbb (R252)
  | fidivM32 (addr : Addr)  -- FIDIV m32int: 11011010 mm110bbb (R253)
  | fdivrM32 (addr : Addr)  -- FDIVR m32real: 11011000 mm111bbb (R254)
  | fdivrM64 (addr : Addr)  -- FDIVR m64real: 11011100 mm111bbb (R255)
  | fdivrSt0 (i : BitVec 3)  -- FDIVR ST(0),ST(i): 11011000 11111iii (R256)
  | fdivrSti (i : BitVec 3)  -- FDIVR ST(i),ST(0): 11011100 11110iii (R257)
  | fdivrp (i : BitVec 3)  -- FDIVRP ST(i),ST(0): 11011110 11110iii (R258)
  | fidivrM16 (addr : Addr)  -- FIDIVR m16int: 11011110 mm111bbb (R259)
  | fidivrM32 (addr : Addr)  -- FIDIVR m32int: 11011010 mm111bbb (R260)
  | fmulM32 (addr : Addr)  -- FMUL m32real: 11011000 mm001bbb (R261)
  | fmulM64 (addr : Addr)  -- FMUL m64real: 11011100 mm001bbb (R262)
  | fmulSt0 (i : BitVec 3)  -- FMUL ST(0),ST(i): 11011000 11001iii (R263)
  | fmulSti (i : BitVec 3)  -- FMUL ST(i),ST(0): 11011100 11001iii (R264)
  | fmulp (i : BitVec 3)  -- FMULP ST(i),ST(0): 11011110 11001iii (R265)
  | fimulM16 (addr : Addr)  -- FIMUL m16int: 11011110 mm001bbb (R266)
  | fimulM32 (addr : Addr)  -- FIMUL m32int: 11011010 mm001bbb (R267)
  | fsubM32 (addr : Addr)  -- FSUB m32real: 11011000 mm100bbb (R268)
  | fsubM64 (addr : Addr)  -- FSUB m64real: 11011100 mm100bbb (R269)
  | fsubSt0 (i : BitVec 3)  -- FSUB ST(0),ST(i): 11011000 11100iii (R270)
  | fsubSti (i : BitVec 3)  -- FSUB ST(i),ST(0): 11011100 11101iii (R271)
  | fsubp (i : BitVec 3)  -- FSUBP ST(i),ST(0): 11011110 11101iii (R272)
  | fisubM16 (addr : Addr)  -- FISUB m16int: 11011110 mm100bbb (R273)
  | fisubM32 (addr : Addr)  -- FISUB m32int: 11011010 mm100bbb (R274)
  | fsubrM32 (addr : Addr)  -- FSUBR m32real: 11011000 mm101bbb (R275)
  | fsubrM64 (addr : Addr)  -- FSUBR m64real: 11011100 mm101bbb (R276)
  | fsubrSt0 (i : BitVec 3)  -- FSUBR ST(0),ST(i): 11011000 11101iii (R277)
  | fsubrSti (i : BitVec 3)  -- FSUBR ST(i),ST(0): 11011100 11100iii (R278)
  | fsubrp (i : BitVec 3)  -- FSUBRP ST(i),ST(0): 11011110 11100iii (R279)
  | fisubrM16 (addr : Addr)  -- FISUBR m16int: 11011110 mm101bbb (R280)
  | fisubrM32 (addr : Addr)  -- FISUBR m32int: 11011010 mm101bbb (R281)
  | f2xm1  -- F2XM1: 11011001 11110000 (R202)
  | fcos  -- FCOS: 11011001 11111111 (R203)
  | fpatan  -- FPATAN: 11011001 11110011 (R204)
  | fptan  -- FPTAN: 11011001 11110010 (R205)
  | fsin  -- FSIN: 11011001 11111110 (R206)
  | fsincos  -- FSINCOS: 11011001 11111011 (R207)
  | fyl2x  -- FYL2X: 11011001 11110001 (R208)
  | fyl2xp1  -- FYL2XP1: 11011001 11111001 (R209)
  | fabs  -- FABS: 11011001 11100001 (R301)
  | fchs  -- FCHS: 11011001 11100000 (R302)
  | fprem  -- FPREM: 11011001 11111000 (R303)
  | fprem1  -- FPREM1: 11011001 11110101 (R304)
  | frndint  -- FRNDINT: 11011001 11111100 (R305)
  | fscale  -- FSCALE: 11011001 11111101 (R306)
  | fsqrt  -- FSQRT: 11011001 11111010 (R307)
  | fxtract  -- FXTRACT: 11011001 11110100 (R308)
  | fbld (addr : Addr)  -- FBLD m80bcd: 11011111 mm100bbb (R330)
  | fbstp (addr : Addr)  -- FBSTP m80bcd: 11011111 mm110bbb (R331)
  | fcmovb (i : BitVec 3)  -- FCMOVB ST(0),ST(i): 11011010 11000iii (R333)
  | fcmove (i : BitVec 3)  -- FCMOVE ST(0),ST(i): 11011010 11001iii (R334)
  | fcmovbe (i : BitVec 3)  -- FCMOVBE ST(0),ST(i): 11011010 11010iii (R335)
  | fcmovu (i : BitVec 3)  -- FCMOVU ST(0),ST(i): 11011010 11011iii (R336)
  | fcmovnb (i : BitVec 3)  -- FCMOVNB ST(0),ST(i): 11011011 11000iii (R337)
  | fcmovne (i : BitVec 3)  -- FCMOVNE ST(0),ST(i): 11011011 11001iii (R338)
  | fcmovnbe (i : BitVec 3)  -- FCMOVNBE ST(0),ST(i): 11011011 11010iii (R339)
  | fcmovnu (i : BitVec 3)  -- FCMOVNU ST(0),ST(i): 11011011 11011iii (R340)
  | fildM16 (addr : Addr)  -- FILD m16int: 11011111 mm000bbb (R341)
  | fildM32 (addr : Addr)  -- FILD m32int: 11011011 mm000bbb (R342)
  | fildM64 (addr : Addr)  -- FILD m64int: 11011111 mm101bbb (R343)
  | fistM16 (addr : Addr)  -- FIST m16int: 11011111 mm010bbb (R345)
  | fistM32 (addr : Addr)  -- FIST m32int: 11011011 mm010bbb (R346)
  | fistpM16 (addr : Addr)  -- FISTP m16int: 11011111 mm011bbb (R347)
  | fistpM32 (addr : Addr)  -- FISTP m32int: 11011011 mm011bbb (R348)
  | fistpM64 (addr : Addr)  -- FISTP m64int: 11011111 mm111bbb (R349)
  | fldM32 (addr : Addr)  -- FLD m32real: 11011001 mm000bbb (R350)
  | fldM64 (addr : Addr)  -- FLD m64real: 11011101 mm000bbb (R351)
  | fldM80 (addr : Addr)  -- FLD m80real: 11011011 mm101bbb (R352)
  | fldSt (i : BitVec 3)  -- FLD ST(i): 11011001 11000iii (R353)
  | fld1  -- FLD1: 11011001 11101000 (R355)
  | fldl2t  -- FLDL2T: 11011001 11101001 (R356)
  | fldl2e  -- FLDL2E: 11011001 11101010 (R357)
  | fldpi  -- FLDPI: 11011001 11101011 (R358)
  | fldlg2  -- FLDLG2: 11011001 11101100 (R359)
  | fldln2  -- FLDLN2: 11011001 11101101 (R360)
  | fldz  -- FLDZ: 11011001 11101110 (R361)
  | fstM32 (addr : Addr)  -- FST m32real: 11011001 mm010bbb (R363)
  | fstM64 (addr : Addr)  -- FST m64real: 11011101 mm010bbb (R364)
  | fstSt (i : BitVec 3)  -- FST ST(i): 11011101 11010iii (R365)
  | fstpM32 (addr : Addr)  -- FSTP m32real: 11011001 mm011bbb (R366)
  | fstpM64 (addr : Addr)  -- FSTP m64real: 11011101 mm011bbb (R367)
  | fstpM80 (addr : Addr)  -- FSTP m80real: 11011011 mm111bbb (R368)
  | fstpSt (i : BitVec 3)  -- FSTP ST(i): 11011101 11011iii (R369)
  | fxch (i : BitVec 3)  -- FXCH ST(i): 11011001 11001iii (R370)
  | fnclex  -- FNCLEX: 11011011 11100010 (R402)
  | fdecstp  -- FDECSTP: 11011001 11110110 (R403)
  | fndisi  -- FNDISI: 11011011 11100001 (R405)
  | fneni  -- FNENI: 11011011 11100000 (R407)
  | ffree (i : BitVec 3)  -- FFREE ST(i): 11011101 11000iii (R408)
  | fincstp  -- FINCSTP: 11011001 11110111 (R409)
  | fninit  -- FNINIT: 11011011 11100011 (R411)
  | fldcw (addr : Addr)  -- FLDCW m16: 11011001 mm101bbb (R412)
  | fldenv (addr : Addr)  -- FLDENV m14/28byte: 11011001 mm100bbb (R413)
  | fnop  -- FNOP: 11011001 11010000 (R414)
  | frstor (addr : Addr)  -- FRSTOR m94/108byte: 11011101 mm100bbb (R415)
  | fnsave (addr : Addr)  -- FNSAVE m94/108byte: 11011101 mm110bbb (R417)
  | fsetpm  -- FSETPM: 11011011 11100100 (R418)
  | fnstcw (addr : Addr)  -- FNSTCW m16: 11011001 mm111bbb (R420)
  | fnstenv (addr : Addr)  -- FNSTENV m14/28byte: 11011001 mm110bbb (R422)
  | fnstswM16 (addr : Addr)  -- FNSTSW m16: 11011101 mm111bbb (R424)
  | fnstswAx  -- FNSTSW AX: 11011111 11100000 (R426)
  | fcomM32 (addr : Addr)  -- FCOM m32real: 11011000 mm010bbb (R472)
  | fcomM64 (addr : Addr)  -- FCOM m64real: 11011100 mm010bbb (R473)
  | fcomSt (i : BitVec 3)  -- FCOM ST(i): 11011000 11010iii (R474)
  | fcompM32 (addr : Addr)  -- FCOMP m32real: 11011000 mm011bbb (R475)
  | fcompM64 (addr : Addr)  -- FCOMP m64real: 11011100 mm011bbb (R476)
  | fcompSt (i : BitVec 3)  -- FCOMP ST(i): 11011000 11011iii (R477)
  | fcompp  -- FCOMPP: 11011110 11011001 (R478)
  | fcomi (i : BitVec 3)  -- FCOMI ST(0),ST(i): 11011011 11110iii (R479)
  | fcomip (i : BitVec 3)  -- FCOMIP ST(0),ST(i): 11011111 11110iii (R480)
  | fucomi (i : BitVec 3)  -- FUCOMI ST(0),ST(i): 11011011 11101iii (R481)
  | fucomip (i : BitVec 3)  -- FUCOMIP ST(0),ST(i): 11011111 11101iii (R482)
  | ficomM16 (addr : Addr)  -- FICOM m16int: 11011110 mm010bbb (R483)
  | ficomM32 (addr : Addr)  -- FICOM m32int: 11011010 mm010bbb (R484)
  | ficompM16 (addr : Addr)  -- FICOMP m16int: 11011110 mm011bbb (R485)
  | ficompM32 (addr : Addr)  -- FICOMP m32int: 11011010 mm011bbb (R486)
  | ftst  -- FTST: 11011001 11100100 (R487)
  | fucom (i : BitVec 3)  -- FUCOM ST(i): 11011101 11100iii (R488)
  | fucomp (i : BitVec 3)  -- FUCOMP ST(i): 11011101 11101iii (R489)
  | fucompp  -- FUCOMPP: 11011010 11101001 (R490)
  | fxam  -- FXAM: 11011001 11100101 (R491)
  | fwait  -- FWAIT: 10011011 (R427)
  | fclex  -- FCLEX: 10011011 11011011 11100010 (R401)
  | fdisi  -- FDISI: 10011011 11011011 11100001 (R404)
  | feni  -- FENI: 10011011 11011011 11100000 (R406)
  | finit  -- FINIT: 10011011 11011011 11100011 (R410)
  | fsave (addr : Addr)  -- FSAVE m94/108byte: 10011011 11011101 mm110bbb (R416)
  | fstcw (addr : Addr)  -- FSTCW m16: 10011011 11011001 mm111bbb (R419)
  | fstenv (addr : Addr)  -- FSTENV m14/28byte: 10011011 11011001 mm110bbb (R421)
  | fstswM16 (addr : Addr)  -- FSTSW m16: 10011011 11011101 mm111bbb (R423)
  | fstswAx  -- FSTSW AX: 10011011 11011111 11100000 (R425)
  | fldenvO66 (addr : Addr)  -- FLDENV m14/28byte: 01100110 11011001 mm100bbb (R413)
  | fnstenvO66 (addr : Addr)  -- FNSTENV m14/28byte: 01100110 11011001 mm110bbb (R422)
  | frstorO66 (addr : Addr)  -- FRSTOR m94/108byte: 01100110 11011101 mm100bbb (R415)
  | fnsaveO66 (addr : Addr)  -- FNSAVE m94/108byte: 01100110 11011101 mm110bbb (R417)
  | fstenvO66 (addr : Addr)  -- FSTENV m14/28byte: 10011011 01100110 11011001 mm110bbb (R421)
  | fsaveO66 (addr : Addr)  -- FSAVE m94/108byte: 10011011 01100110 11011101 mm110bbb (R416)
deriving DecidableEq, Repr, Inhabited

end Sys2Proof
end

