-- ==== Sys2Proof/Decode.lean ====
section
/-! DEFINITION. From bytes to instructions and back (30_encoding.md): the encoding of every row, its length and
least processor generation, the decoder (total, refusing by name) and the encoder. The byte-order helpers stand
here because instruction bytes and operands are laid out alike (rule R91). -/

namespace Sys2Proof

/-- The `n` low bytes of `v`, least significant first (rule R91). -/
def leBytes : Nat → Nat → List Byte
  | 0, _ => []
  | n + 1, v => BitVec.ofNat 8 v :: leBytes n (v / 256)

/-- The unsigned integer whose bytes are `bs`, least significant first (rule R91). -/
def leNat : List Byte → Nat
  | [] => 0
  | b :: bs => b.toNat + 256 * leNat bs

/-- Does this run use 16-bit displacements? The 8087 and 287 do whatever the parameter says (rule R9). -/
def Params.addr16 (p : Params) : Bool :=
  decide (p.gen.rank < Gen.g387.rank) || decide (p.addrSize = .s16)

/-- How many displacement bytes a memory operand has: ADDR_SIZE / 8 (rule R130). -/
def Params.dispBytes (p : Params) : Nat := if p.addr16 then 2 else 4

/-- One past the last address: 2 to the power ADDR_SIZE (rule R90). -/
def Params.addrLimit (p : Params) : Nat := if p.addr16 then 65536 else 4294967296

/-- The escape byte and what follows it (rules R132, R133): a register form with its three 3-bit fields, or a
memory form with its opcode extension and displacement. -/
inductive Core where
  | reg (ooo reg rm : BitVec 3)
  | mem (ooo digit : BitVec 3) (addr : Addr)
deriving DecidableEq, Repr

/-- The layout of an instruction (rule R131): is there a 9BH byte, is there a 66H byte, and the escape part,
which FWAIT has not. -/
structure Form where
  wait : Bool
  o66  : Bool
  core : Option Core
deriving DecidableEq, Repr

/-- A register or no-operand form without 9BH or 66H (formats ESC-REG and ESC-FIX of rule R131). -/
def Form.ofReg (ooo reg rm : BitVec 3) : Form := ⟨false, false, some (.reg ooo reg rm)⟩

/-- A memory form without 9BH or 66H (format ESC-MEM of rule R131). -/
def Form.ofMem (ooo digit : BitVec 3) (addr : Addr) : Form := ⟨false, false, some (.mem ooo digit addr)⟩

/-- The same form after a 9BH byte (rule R145). -/
def Form.waiting (f : Form) : Form := { f with wait := true }

/-- The same form with the operand-size byte 66H (rule R146). -/
def Form.sized (f : Form) : Form := { f with o66 := true }

/-- The encoding of every row of the opcode table (rules R136 to R146). -/
def Instr.form : Instr → Form
  | .faddM32 addr => Form.ofMem 0#3 0#3 addr
  | .faddM64 addr => Form.ofMem 4#3 0#3 addr
  | .faddSt0 i => Form.ofReg 0#3 0#3 i
  | .faddSti i => Form.ofReg 4#3 0#3 i
  | .faddp i => Form.ofReg 6#3 0#3 i
  | .fiaddM16 addr => Form.ofMem 6#3 0#3 addr
  | .fiaddM32 addr => Form.ofMem 2#3 0#3 addr
  | .fdivM32 addr => Form.ofMem 0#3 6#3 addr
  | .fdivM64 addr => Form.ofMem 4#3 6#3 addr
  | .fdivSt0 i => Form.ofReg 0#3 6#3 i
  | .fdivSti i => Form.ofReg 4#3 7#3 i
  | .fdivp i => Form.ofReg 6#3 7#3 i
  | .fidivM16 addr => Form.ofMem 6#3 6#3 addr
  | .fidivM32 addr => Form.ofMem 2#3 6#3 addr
  | .fdivrM32 addr => Form.ofMem 0#3 7#3 addr
  | .fdivrM64 addr => Form.ofMem 4#3 7#3 addr
  | .fdivrSt0 i => Form.ofReg 0#3 7#3 i
  | .fdivrSti i => Form.ofReg 4#3 6#3 i
  | .fdivrp i => Form.ofReg 6#3 6#3 i
  | .fidivrM16 addr => Form.ofMem 6#3 7#3 addr
  | .fidivrM32 addr => Form.ofMem 2#3 7#3 addr
  | .fmulM32 addr => Form.ofMem 0#3 1#3 addr
  | .fmulM64 addr => Form.ofMem 4#3 1#3 addr
  | .fmulSt0 i => Form.ofReg 0#3 1#3 i
  | .fmulSti i => Form.ofReg 4#3 1#3 i
  | .fmulp i => Form.ofReg 6#3 1#3 i
  | .fimulM16 addr => Form.ofMem 6#3 1#3 addr
  | .fimulM32 addr => Form.ofMem 2#3 1#3 addr
  | .fsubM32 addr => Form.ofMem 0#3 4#3 addr
  | .fsubM64 addr => Form.ofMem 4#3 4#3 addr
  | .fsubSt0 i => Form.ofReg 0#3 4#3 i
  | .fsubSti i => Form.ofReg 4#3 5#3 i
  | .fsubp i => Form.ofReg 6#3 5#3 i
  | .fisubM16 addr => Form.ofMem 6#3 4#3 addr
  | .fisubM32 addr => Form.ofMem 2#3 4#3 addr
  | .fsubrM32 addr => Form.ofMem 0#3 5#3 addr
  | .fsubrM64 addr => Form.ofMem 4#3 5#3 addr
  | .fsubrSt0 i => Form.ofReg 0#3 5#3 i
  | .fsubrSti i => Form.ofReg 4#3 4#3 i
  | .fsubrp i => Form.ofReg 6#3 4#3 i
  | .fisubrM16 addr => Form.ofMem 6#3 5#3 addr
  | .fisubrM32 addr => Form.ofMem 2#3 5#3 addr
  | .f2xm1 => Form.ofReg 1#3 6#3 0#3
  | .fcos => Form.ofReg 1#3 7#3 7#3
  | .fpatan => Form.ofReg 1#3 6#3 3#3
  | .fptan => Form.ofReg 1#3 6#3 2#3
  | .fsin => Form.ofReg 1#3 7#3 6#3
  | .fsincos => Form.ofReg 1#3 7#3 3#3
  | .fyl2x => Form.ofReg 1#3 6#3 1#3
  | .fyl2xp1 => Form.ofReg 1#3 7#3 1#3
  | .fabs => Form.ofReg 1#3 4#3 1#3
  | .fchs => Form.ofReg 1#3 4#3 0#3
  | .fprem => Form.ofReg 1#3 7#3 0#3
  | .fprem1 => Form.ofReg 1#3 6#3 5#3
  | .frndint => Form.ofReg 1#3 7#3 4#3
  | .fscale => Form.ofReg 1#3 7#3 5#3
  | .fsqrt => Form.ofReg 1#3 7#3 2#3
  | .fxtract => Form.ofReg 1#3 6#3 4#3
  | .fbld addr => Form.ofMem 7#3 4#3 addr
  | .fbstp addr => Form.ofMem 7#3 6#3 addr
  | .fcmovb i => Form.ofReg 2#3 0#3 i
  | .fcmove i => Form.ofReg 2#3 1#3 i
  | .fcmovbe i => Form.ofReg 2#3 2#3 i
  | .fcmovu i => Form.ofReg 2#3 3#3 i
  | .fcmovnb i => Form.ofReg 3#3 0#3 i
  | .fcmovne i => Form.ofReg 3#3 1#3 i
  | .fcmovnbe i => Form.ofReg 3#3 2#3 i
  | .fcmovnu i => Form.ofReg 3#3 3#3 i
  | .fildM16 addr => Form.ofMem 7#3 0#3 addr
  | .fildM32 addr => Form.ofMem 3#3 0#3 addr
  | .fildM64 addr => Form.ofMem 7#3 5#3 addr
  | .fistM16 addr => Form.ofMem 7#3 2#3 addr
  | .fistM32 addr => Form.ofMem 3#3 2#3 addr
  | .fistpM16 addr => Form.ofMem 7#3 3#3 addr
  | .fistpM32 addr => Form.ofMem 3#3 3#3 addr
  | .fistpM64 addr => Form.ofMem 7#3 7#3 addr
  | .fldM32 addr => Form.ofMem 1#3 0#3 addr
  | .fldM64 addr => Form.ofMem 5#3 0#3 addr
  | .fldM80 addr => Form.ofMem 3#3 5#3 addr
  | .fldSt i => Form.ofReg 1#3 0#3 i
  | .fld1 => Form.ofReg 1#3 5#3 0#3
  | .fldl2t => Form.ofReg 1#3 5#3 1#3
  | .fldl2e => Form.ofReg 1#3 5#3 2#3
  | .fldpi => Form.ofReg 1#3 5#3 3#3
  | .fldlg2 => Form.ofReg 1#3 5#3 4#3
  | .fldln2 => Form.ofReg 1#3 5#3 5#3
  | .fldz => Form.ofReg 1#3 5#3 6#3
  | .fstM32 addr => Form.ofMem 1#3 2#3 addr
  | .fstM64 addr => Form.ofMem 5#3 2#3 addr
  | .fstSt i => Form.ofReg 5#3 2#3 i
  | .fstpM32 addr => Form.ofMem 1#3 3#3 addr
  | .fstpM64 addr => Form.ofMem 5#3 3#3 addr
  | .fstpM80 addr => Form.ofMem 3#3 7#3 addr
  | .fstpSt i => Form.ofReg 5#3 3#3 i
  | .fxch i => Form.ofReg 1#3 1#3 i
  | .fnclex => Form.ofReg 3#3 4#3 2#3
  | .fdecstp => Form.ofReg 1#3 6#3 6#3
  | .fndisi => Form.ofReg 3#3 4#3 1#3
  | .fneni => Form.ofReg 3#3 4#3 0#3
  | .ffree i => Form.ofReg 5#3 0#3 i
  | .fincstp => Form.ofReg 1#3 6#3 7#3
  | .fninit => Form.ofReg 3#3 4#3 3#3
  | .fldcw addr => Form.ofMem 1#3 5#3 addr
  | .fldenv addr => Form.ofMem 1#3 4#3 addr
  | .fnop => Form.ofReg 1#3 2#3 0#3
  | .frstor addr => Form.ofMem 5#3 4#3 addr
  | .fnsave addr => Form.ofMem 5#3 6#3 addr
  | .fsetpm => Form.ofReg 3#3 4#3 4#3
  | .fnstcw addr => Form.ofMem 1#3 7#3 addr
  | .fnstenv addr => Form.ofMem 1#3 6#3 addr
  | .fnstswM16 addr => Form.ofMem 5#3 7#3 addr
  | .fnstswAx => Form.ofReg 7#3 4#3 0#3
  | .fcomM32 addr => Form.ofMem 0#3 2#3 addr
  | .fcomM64 addr => Form.ofMem 4#3 2#3 addr
  | .fcomSt i => Form.ofReg 0#3 2#3 i
  | .fcompM32 addr => Form.ofMem 0#3 3#3 addr
  | .fcompM64 addr => Form.ofMem 4#3 3#3 addr
  | .fcompSt i => Form.ofReg 0#3 3#3 i
  | .fcompp => Form.ofReg 6#3 3#3 1#3
  | .fcomi i => Form.ofReg 3#3 6#3 i
  | .fcomip i => Form.ofReg 7#3 6#3 i
  | .fucomi i => Form.ofReg 3#3 5#3 i
  | .fucomip i => Form.ofReg 7#3 5#3 i
  | .ficomM16 addr => Form.ofMem 6#3 2#3 addr
  | .ficomM32 addr => Form.ofMem 2#3 2#3 addr
  | .ficompM16 addr => Form.ofMem 6#3 3#3 addr
  | .ficompM32 addr => Form.ofMem 2#3 3#3 addr
  | .ftst => Form.ofReg 1#3 4#3 4#3
  | .fucom i => Form.ofReg 5#3 4#3 i
  | .fucomp i => Form.ofReg 5#3 5#3 i
  | .fucompp => Form.ofReg 2#3 5#3 1#3
  | .fxam => Form.ofReg 1#3 4#3 5#3
  | .fwait => ⟨true, false, none⟩
  | .fclex => (Form.ofReg 3#3 4#3 2#3).waiting
  | .fdisi => (Form.ofReg 3#3 4#3 1#3).waiting
  | .feni => (Form.ofReg 3#3 4#3 0#3).waiting
  | .finit => (Form.ofReg 3#3 4#3 3#3).waiting
  | .fsave addr => (Form.ofMem 5#3 6#3 addr).waiting
  | .fstcw addr => (Form.ofMem 1#3 7#3 addr).waiting
  | .fstenv addr => (Form.ofMem 1#3 6#3 addr).waiting
  | .fstswM16 addr => (Form.ofMem 5#3 7#3 addr).waiting
  | .fstswAx => (Form.ofReg 7#3 4#3 0#3).waiting
  | .fldenvO66 addr => (Form.ofMem 1#3 4#3 addr).sized
  | .fnstenvO66 addr => (Form.ofMem 1#3 6#3 addr).sized
  | .frstorO66 addr => (Form.ofMem 5#3 4#3 addr).sized
  | .fnsaveO66 addr => (Form.ofMem 5#3 6#3 addr).sized
  | .fstenvO66 addr => (Form.ofMem 1#3 6#3 addr).sized.waiting
  | .fsaveO66 addr => (Form.ofMem 5#3 6#3 addr).sized.waiting

/-- The least generation on which the instruction exists (rules R10, R147; the 66H forms from the 387,
rule R146). -/
def Instr.minGen : Instr → Gen
  | .faddM32 _ => .g8087
  | .faddM64 _ => .g8087
  | .faddSt0 _ => .g8087
  | .faddSti _ => .g8087
  | .faddp _ => .g8087
  | .fiaddM16 _ => .g8087
  | .fiaddM32 _ => .g8087
  | .fdivM32 _ => .g8087
  | .fdivM64 _ => .g8087
  | .fdivSt0 _ => .g8087
  | .fdivSti _ => .g8087
  | .fdivp _ => .g8087
  | .fidivM16 _ => .g8087
  | .fidivM32 _ => .g8087
  | .fdivrM32 _ => .g8087
  | .fdivrM64 _ => .g8087
  | .fdivrSt0 _ => .g8087
  | .fdivrSti _ => .g8087
  | .fdivrp _ => .g8087
  | .fidivrM16 _ => .g8087
  | .fidivrM32 _ => .g8087
  | .fmulM32 _ => .g8087
  | .fmulM64 _ => .g8087
  | .fmulSt0 _ => .g8087
  | .fmulSti _ => .g8087
  | .fmulp _ => .g8087
  | .fimulM16 _ => .g8087
  | .fimulM32 _ => .g8087
  | .fsubM32 _ => .g8087
  | .fsubM64 _ => .g8087
  | .fsubSt0 _ => .g8087
  | .fsubSti _ => .g8087
  | .fsubp _ => .g8087
  | .fisubM16 _ => .g8087
  | .fisubM32 _ => .g8087
  | .fsubrM32 _ => .g8087
  | .fsubrM64 _ => .g8087
  | .fsubrSt0 _ => .g8087
  | .fsubrSti _ => .g8087
  | .fsubrp _ => .g8087
  | .fisubrM16 _ => .g8087
  | .fisubrM32 _ => .g8087
  | .f2xm1 => .g8087
  | .fcos => .g387
  | .fpatan => .g8087
  | .fptan => .g8087
  | .fsin => .g387
  | .fsincos => .g387
  | .fyl2x => .g8087
  | .fyl2xp1 => .g8087
  | .fabs => .g8087
  | .fchs => .g8087
  | .fprem => .g8087
  | .fprem1 => .g387
  | .frndint => .g8087
  | .fscale => .g8087
  | .fsqrt => .g8087
  | .fxtract => .g8087
  | .fbld _ => .g8087
  | .fbstp _ => .g8087
  | .fcmovb _ => .pentiumPro
  | .fcmove _ => .pentiumPro
  | .fcmovbe _ => .pentiumPro
  | .fcmovu _ => .pentiumPro
  | .fcmovnb _ => .pentiumPro
  | .fcmovne _ => .pentiumPro
  | .fcmovnbe _ => .pentiumPro
  | .fcmovnu _ => .pentiumPro
  | .fildM16 _ => .g8087
  | .fildM32 _ => .g8087
  | .fildM64 _ => .g8087
  | .fistM16 _ => .g8087
  | .fistM32 _ => .g8087
  | .fistpM16 _ => .g8087
  | .fistpM32 _ => .g8087
  | .fistpM64 _ => .g8087
  | .fldM32 _ => .g8087
  | .fldM64 _ => .g8087
  | .fldM80 _ => .g8087
  | .fldSt _ => .g8087
  | .fld1 => .g8087
  | .fldl2t => .g8087
  | .fldl2e => .g8087
  | .fldpi => .g8087
  | .fldlg2 => .g8087
  | .fldln2 => .g8087
  | .fldz => .g8087
  | .fstM32 _ => .g8087
  | .fstM64 _ => .g8087
  | .fstSt _ => .g8087
  | .fstpM32 _ => .g8087
  | .fstpM64 _ => .g8087
  | .fstpM80 _ => .g8087
  | .fstpSt _ => .g8087
  | .fxch _ => .g8087
  | .fnclex => .g8087
  | .fdecstp => .g8087
  | .fndisi => .g8087
  | .fneni => .g8087
  | .ffree _ => .g8087
  | .fincstp => .g8087
  | .fninit => .g8087
  | .fldcw _ => .g8087
  | .fldenv _ => .g8087
  | .fnop => .g8087
  | .frstor _ => .g8087
  | .fnsave _ => .g8087
  | .fsetpm => .g287
  | .fnstcw _ => .g8087
  | .fnstenv _ => .g8087
  | .fnstswM16 _ => .g8087
  | .fnstswAx => .g287
  | .fcomM32 _ => .g8087
  | .fcomM64 _ => .g8087
  | .fcomSt _ => .g8087
  | .fcompM32 _ => .g8087
  | .fcompM64 _ => .g8087
  | .fcompSt _ => .g8087
  | .fcompp => .g8087
  | .fcomi _ => .pentiumPro
  | .fcomip _ => .pentiumPro
  | .fucomi _ => .pentiumPro
  | .fucomip _ => .pentiumPro
  | .ficomM16 _ => .g8087
  | .ficomM32 _ => .g8087
  | .ficompM16 _ => .g8087
  | .ficompM32 _ => .g8087
  | .ftst => .g8087
  | .fucom _ => .g387
  | .fucomp _ => .g387
  | .fucompp => .g387
  | .fxam => .g8087
  | .fwait => .g8087
  | .fclex => .g8087
  | .fdisi => .g8087
  | .feni => .g8087
  | .finit => .g8087
  | .fsave _ => .g8087
  | .fstcw _ => .g8087
  | .fstenv _ => .g8087
  | .fstswM16 _ => .g8087
  | .fstswAx => .g287
  | .fldenvO66 _ => .g387
  | .fnstenvO66 _ => .g387
  | .frstorO66 _ => .g387
  | .fnsaveO66 _ => .g387
  | .fstenvO66 _ => .g387
  | .fsaveO66 _ => .g387

/-- Does the instruction exist for the run's generation (rule R10)? -/
def Instr.available (p : Params) (i : Instr) : Bool := decide (i.minGen.rank ≤ p.gen.rank)

/-- How many bytes an escape part takes (rule R155). -/
def Core.length (p : Params) : Core → Nat
  | .reg _ _ _ => 2
  | .mem _ _ _ => 2 + p.dispBytes

/-- The length of an instruction in bytes (rule R155; the wait forms are one byte longer, rule R145). -/
def Instr.length (p : Params) (i : Instr) : Nat :=
  (if i.form.wait then 1 else 0) + (if i.form.o66 then 1 else 0) +
    (match i.form.core with | none => 0 | some c => c.length p)

/-- The operand address of a memory form (rule R97). -/
def Instr.operand (i : Instr) : Option Addr :=
  match i.form.core with
  | some (.mem _ _ a) => some a
  | _ => none

/-- The escape byte `11011 ooo` (rule R132). -/
def escapeByte (ooo : BitVec 3) : Byte := 0b11011#5 ++ ooo

/-- The second byte of a register form (rule R133). -/
def regByte (reg rm : BitVec 3) : Byte := (0b11#2 ++ reg : BitVec 5) ++ rm

/-- The second byte of the one admitted memory form: `rm` is 110B with a 16-bit and 101B with a 32-bit
displacement (rule R134). -/
def memByte (p : Params) (digit : BitVec 3) : Byte :=
  (0b00#2 ++ digit : BitVec 5) ++ (if p.addr16 then 0b110#3 else 0b101#3)

/-- The second byte of an escape part (rule R133). -/
def Core.second (p : Params) : Core → Byte
  | .reg _ g r => regByte g r
  | .mem _ digit _ => memByte p digit

/-- The field `ooo` of an escape part (rule R132). -/
def Core.ooo : Core → BitVec 3
  | .reg ooo _ _ => ooo
  | .mem ooo _ _ => ooo

/-- The last opcode FOP of an instruction: `ooo` and the second byte (rule R53). FWAIT has none. -/
def Instr.fop (p : Params) (i : Instr) : BitVec 11 :=
  match i.form.core with
  | none => 0#11
  | some c => c.ooo ++ c.second p

/-- Why the bytes are not an instruction of this spec (rule R135). -/
inductive DecodeReason where
  | notFpu (b : Byte)
  | illegal
  | unsupportedAddressing (modrm : Byte)
  | unsupportedPrefix (b : Byte)
  | truncated
deriving DecidableEq, Repr

/-- A decoding that failed, and how many bytes were read to find out. -/
structure DecodeError where
  used   : Nat
  reason : DecodeReason
deriving DecidableEq, Repr

/-- The register forms of escape byte D8H (rule R136). -/
def decodeRegD8 (reg i : BitVec 3) : Option Instr :=
  match reg.toNat with
  | 0 => some (.faddSt0 i)
  | 1 => some (.fmulSt0 i)
  | 2 => some (.fcomSt i)
  | 3 => some (.fcompSt i)
  | 4 => some (.fsubSt0 i)
  | 5 => some (.fsubrSt0 i)
  | 6 => some (.fdivSt0 i)
  | _ => some (.fdivrSt0 i)

/-- The register forms of escape byte D9H (rule R137). -/
def decodeRegD9 (reg i : BitVec 3) : Option Instr :=
  match reg.toNat with
  | 0 => some (.fldSt i)
  | 1 => some (.fxch i)
  | 2 =>
    match i.toNat with
    | 0 => some .fnop
    | _ => none
  | 4 =>
    match i.toNat with
    | 0 => some .fchs
    | 1 => some .fabs
    | 4 => some .ftst
    | 5 => some .fxam
    | _ => none
  | 5 =>
    match i.toNat with
    | 0 => some .fld1
    | 1 => some .fldl2t
    | 2 => some .fldl2e
    | 3 => some .fldpi
    | 4 => some .fldlg2
    | 5 => some .fldln2
    | 6 => some .fldz
    | _ => none
  | 6 =>
    match i.toNat with
    | 0 => some .f2xm1
    | 1 => some .fyl2x
    | 2 => some .fptan
    | 3 => some .fpatan
    | 4 => some .fxtract
    | 5 => some .fprem1
    | 6 => some .fdecstp
    | _ => some .fincstp
  | 7 =>
    match i.toNat with
    | 0 => some .fprem
    | 1 => some .fyl2xp1
    | 2 => some .fsqrt
    | 3 => some .fsincos
    | 4 => some .frndint
    | 5 => some .fscale
    | 6 => some .fsin
    | _ => some .fcos
  | _ => none

/-- The register forms of escape byte DAH (rule R138). -/
def decodeRegDA (reg i : BitVec 3) : Option Instr :=
  match reg.toNat with
  | 0 => some (.fcmovb i)
  | 1 => some (.fcmove i)
  | 2 => some (.fcmovbe i)
  | 3 => some (.fcmovu i)
  | 5 =>
    match i.toNat with
    | 1 => some .fucompp
    | _ => none
  | _ => none

/-- The register forms of escape byte DBH (rule R139). -/
def decodeRegDB (reg i : BitVec 3) : Option Instr :=
  match reg.toNat with
  | 0 => some (.fcmovnb i)
  | 1 => some (.fcmovne i)
  | 2 => some (.fcmovnbe i)
  | 3 => some (.fcmovnu i)
  | 4 =>
    match i.toNat with
    | 0 => some .fneni
    | 1 => some .fndisi
    | 2 => some .fnclex
    | 3 => some .fninit
    | 4 => some .fsetpm
    | _ => none
  | 5 => some (.fucomi i)
  | 6 => some (.fcomi i)
  | _ => none

/-- The register forms of escape byte DCH (rule R140). -/
def decodeRegDC (reg i : BitVec 3) : Option Instr :=
  match reg.toNat with
  | 0 => some (.faddSti i)
  | 1 => some (.fmulSti i)
  | 4 => some (.fsubrSti i)
  | 5 => some (.fsubSti i)
  | 6 => some (.fdivrSti i)
  | 7 => some (.fdivSti i)
  | _ => none

/-- The register forms of escape byte DDH (rule R141). -/
def decodeRegDD (reg i : BitVec 3) : Option Instr :=
  match reg.toNat with
  | 0 => some (.ffree i)
  | 2 => some (.fstSt i)
  | 3 => some (.fstpSt i)
  | 4 => some (.fucom i)
  | 5 => some (.fucomp i)
  | _ => none

/-- The register forms of escape byte DEH (rule R142). -/
def decodeRegDE (reg i : BitVec 3) : Option Instr :=
  match reg.toNat with
  | 0 => some (.faddp i)
  | 1 => some (.fmulp i)
  | 3 =>
    match i.toNat with
    | 1 => some .fcompp
    | _ => none
  | 4 => some (.fsubrp i)
  | 5 => some (.fsubp i)
  | 6 => some (.fdivrp i)
  | 7 => some (.fdivp i)
  | _ => none

/-- The register forms of escape byte DFH (rule R143). -/
def decodeRegDF (reg i : BitVec 3) : Option Instr :=
  match reg.toNat with
  | 4 =>
    match i.toNat with
    | 0 => some .fnstswAx
    | _ => none
  | 5 => some (.fucomip i)
  | 6 => some (.fcomip i)
  | _ => none

/-- The register form an escape part stands for (rules R136 to R143); none where it is reserved. -/
def decodeReg (ooo reg i : BitVec 3) : Option Instr :=
  match ooo.toNat with
  | 0 => decodeRegD8 reg i
  | 1 => decodeRegD9 reg i
  | 2 => decodeRegDA reg i
  | 3 => decodeRegDB reg i
  | 4 => decodeRegDC reg i
  | 5 => decodeRegDD reg i
  | 6 => decodeRegDE reg i
  | _ => decodeRegDF reg i

/-- The memory form an escape part stands for (rules R136 to R143); none where it is reserved. -/
def decodeMem (ooo digit : BitVec 3) (addr : Addr) : Option Instr :=
  match ooo.toNat, digit.toNat with
  | 0, 0 => some (.faddM32 addr)
  | 0, 1 => some (.fmulM32 addr)
  | 0, 2 => some (.fcomM32 addr)
  | 0, 3 => some (.fcompM32 addr)
  | 0, 4 => some (.fsubM32 addr)
  | 0, 5 => some (.fsubrM32 addr)
  | 0, 6 => some (.fdivM32 addr)
  | 0, 7 => some (.fdivrM32 addr)
  | 1, 0 => some (.fldM32 addr)
  | 1, 2 => some (.fstM32 addr)
  | 1, 3 => some (.fstpM32 addr)
  | 1, 4 => some (.fldenv addr)
  | 1, 5 => some (.fldcw addr)
  | 1, 6 => some (.fnstenv addr)
  | 1, 7 => some (.fnstcw addr)
  | 2, 0 => some (.fiaddM32 addr)
  | 2, 1 => some (.fimulM32 addr)
  | 2, 2 => some (.ficomM32 addr)
  | 2, 3 => some (.ficompM32 addr)
  | 2, 4 => some (.fisubM32 addr)
  | 2, 5 => some (.fisubrM32 addr)
  | 2, 6 => some (.fidivM32 addr)
  | 2, 7 => some (.fidivrM32 addr)
  | 3, 0 => some (.fildM32 addr)
  | 3, 2 => some (.fistM32 addr)
  | 3, 3 => some (.fistpM32 addr)
  | 3, 5 => some (.fldM80 addr)
  | 3, 7 => some (.fstpM80 addr)
  | 4, 0 => some (.faddM64 addr)
  | 4, 1 => some (.fmulM64 addr)
  | 4, 2 => some (.fcomM64 addr)
  | 4, 3 => some (.fcompM64 addr)
  | 4, 4 => some (.fsubM64 addr)
  | 4, 5 => some (.fsubrM64 addr)
  | 4, 6 => some (.fdivM64 addr)
  | 4, 7 => some (.fdivrM64 addr)
  | 5, 0 => some (.fldM64 addr)
  | 5, 2 => some (.fstM64 addr)
  | 5, 3 => some (.fstpM64 addr)
  | 5, 4 => some (.frstor addr)
  | 5, 6 => some (.fnsave addr)
  | 5, 7 => some (.fnstswM16 addr)
  | 6, 0 => some (.fiaddM16 addr)
  | 6, 1 => some (.fimulM16 addr)
  | 6, 2 => some (.ficomM16 addr)
  | 6, 3 => some (.ficompM16 addr)
  | 6, 4 => some (.fisubM16 addr)
  | 6, 5 => some (.fisubrM16 addr)
  | 6, 6 => some (.fidivM16 addr)
  | 6, 7 => some (.fidivrM16 addr)
  | 7, 0 => some (.fildM16 addr)
  | 7, 2 => some (.fistM16 addr)
  | 7, 3 => some (.fistpM16 addr)
  | 7, 4 => some (.fbld addr)
  | 7, 5 => some (.fildM64 addr)
  | 7, 6 => some (.fbstp addr)
  | 7, 7 => some (.fistpM64 addr)
  | _, _ => none

/-- The row with the operand-size byte 66H, for the four instructions that allow it (rules R146, R151). -/
def Instr.sizedForm : Instr → Option Instr
  | .fldenv addr => some (.fldenvO66 addr)
  | .fnstenv addr => some (.fnstenvO66 addr)
  | .frstor addr => some (.frstorO66 addr)
  | .fnsave addr => some (.fnsaveO66 addr)
  | _ => none

/-- Is the instruction a wait form: 9BH and more behind it (rule R145)? -/
def Instr.isWaitForm (i : Instr) : Bool := i.form.wait && i.form.core.isSome

/-- The wait form of a no-wait instruction (rule R145). -/
def Instr.waitForm : Instr → Option Instr
  | .fnclex => some .fclex
  | .fndisi => some .fdisi
  | .fneni => some .feni
  | .fninit => some .finit
  | .fnsave addr => some (.fsave addr)
  | .fnstcw addr => some (.fstcw addr)
  | .fnstenv addr => some (.fstenv addr)
  | .fnstswM16 addr => some (.fstswM16 addr)
  | .fnstswAx => some .fstswAx
  | .fnstenvO66 addr => some (.fstenvO66 addr)
  | .fnsaveO66 addr => some (.fsaveO66 addr)
  | _ => none

/-- Is the byte one of D8H, …, DFH (rule R132)? -/
def isEscape (b : Byte) : Bool := decide (b.extractLsb' 3 5 = 0b11011#5)

/-- The other bytes a host instruction may begin with before its opcode: address size, segment, LOCK, REP, and
66H itself (rule R151). -/
def isModifier (b : Byte) : Bool :=
  decide (b ∈ [0x66#8, 0x67#8, 0x26#8, 0x2E#8, 0x36#8, 0x3E#8, 0x64#8, 0x65#8, 0xF0#8, 0xF2#8, 0xF3#8])

/-- Do the bytes lead, past such bytes, to an FPU instruction? -/
def leadsToFpu : List Byte → Bool
  | [] => false
  | b :: rest => isEscape b || decide (b = 0x9B#8) || (isModifier b && leadsToFpu rest)

/-- The rest of the decoding of rule R135 once the row is known: availability, then the 66H byte. `n` is the
length with the 66H byte counted. -/
def admitRow (p : Params) (o66 : Bool) (n : Nat) (row : Option Instr) : Except DecodeError (Instr × Nat) :=
  match row with
  | none => .error ⟨n, .illegal⟩
  | some i =>
    if !i.available p then .error ⟨n, .illegal⟩
    else if o66 then
      match i.sizedForm with
      | some j => .ok (j, n)
      | none => .error ⟨n, .unsupportedPrefix 0x66#8⟩
    else .ok (i, n)

/-- Decoding from the escape byte on (rule R135); `pre` bytes (0 or 1) stand before it. -/
def decodeEscape (p : Params) (o66 : Bool) (pre : Nat) (b0 : Byte) (rest : List Byte) :
    Except DecodeError (Instr × Nat) :=
  match rest with
  | [] => .error ⟨pre + 1, .truncated⟩
  | b1 :: tail =>
    let ooo := b0.extractLsb' 0 3
    let reg := b1.extractLsb' 3 3
    if b1.extractLsb' 6 2 = 0b11#2 then admitRow p o66 (pre + 2) (decodeReg ooo reg (b1.extractLsb' 0 3))
    else if b1 = memByte p reg then
      if tail.length < p.dispBytes then .error ⟨pre + 2, .truncated⟩
      else admitRow p o66 (pre + 2 + p.dispBytes)
        (decodeMem ooo reg (BitVec.ofNat 32 (leNat (tail.take p.dispBytes))))
    else .error ⟨pre + 2, .unsupportedAddressing b1⟩

/-- Decoding of an instruction that does not begin with 9BH (rules R135, R146, R151). -/
def decodeNoWait (p : Params) (bs : List Byte) : Except DecodeError (Instr × Nat) :=
  match bs with
  | [] => .error ⟨0, .truncated⟩
  | b :: rest =>
    if isEscape b then decodeEscape p false 0 b rest
    else if b = 0x66#8 then
      if p.gen.rank < Gen.g387.rank then .error ⟨1, .illegal⟩
      else
        match rest with
        | [] => .error ⟨1, .truncated⟩
        | b0 :: tail =>
          if isEscape b0 then decodeEscape p true 1 b0 tail
          else if leadsToFpu rest then .error ⟨1, .unsupportedPrefix b⟩
          else .error ⟨2, .notFpu b0⟩
    else if isModifier b && leadsToFpu rest then .error ⟨1, .unsupportedPrefix b⟩
    else .error ⟨1, .notFpu b⟩

/-- The wait form that stands behind a 9BH byte (rule R145), and its length with that byte. -/
def decodeWaitForm (p : Params) (rest : List Byte) : Option (Instr × Nat) :=
  match decodeNoWait p rest with
  | .ok (i, n) => i.waitForm.map fun w => (w, n + 1)
  | .error _ => none

/-- The decoder (rule R135): the instruction at the head of the bytes and its length, or the reason there is
none. The byte 9BH is FWAIT of length 1, whatever follows (rules R135, R145, R588); only with the parameter
`fusedWait`, the model's own, is 9BH before a no-wait instruction of rule R145 the wait form of the opcode table.
DESIGN CHOICE (assumption 1): that form is one instruction, executed as the two steps of rule R145. -/
def decode (p : Params) (bs : List Byte) : Except DecodeError (Instr × Nat) :=
  match bs with
  | [] => .error ⟨0, .truncated⟩
  | b :: rest =>
    if b = 0x9B#8 then
      if p.fusedWait then .ok ((decodeWaitForm p rest).getD (.fwait, 1)) else .ok (.fwait, 1)
    else decodeNoWait p bs

/-- The bytes of an escape part (rules R131 to R134). -/
def Core.bytes (p : Params) (c : Core) : List Byte :=
  escapeByte c.ooo :: c.second p ::
    (match c with
     | .reg _ _ _ => []
     | .mem _ _ a => leBytes p.dispBytes a.toNat)

/-- The encoder: the bytes of an instruction, lowest address first (rules R131, R145, R146). -/
def encode (p : Params) (i : Instr) : List Byte :=
  (if i.form.wait then [0x9B#8] else []) ++ (if i.form.o66 then [0x66#8] else []) ++
    (match i.form.core with | none => [] | some c => c.bytes p)

/-- The `n` bytes of a word whose FIRST byte is the most significant one, as the `fixed` fields of
spec/opcode_table.json number them. -/
def tableBytes (n w : Nat) : List Byte := (leBytes n w).reverse

/-- How many bytes stand before the escape byte: 9BH and 66H. -/
def leadBytes : List Byte → Nat
  | b :: rest => if b = 0x9B#8 ∨ b = 0x66#8 then leadBytes rest + 1 else 0
  | [] => 0

/-- A table word leaves `mod` and `rm` of a memory form open (mask FF38, rule R156): fill them with the admitted
direct form of rule R134. -/
def fillModRM (p : Params) (bs : List Byte) : List Byte :=
  let k := leadBytes bs
  match bs.drop k with
  | b0 :: b1 :: tail =>
    if isEscape b0 && decide (b1.extractLsb' 6 2 ≠ 0b11#2)
    then bs.take k ++ b0 :: memByte p (b1.extractLsb' 3 3) :: tail
    else bs
  | _ => bs

/-- The bytes a table word stands for, followed by operand bytes of zero up to eight bytes: first byte most
significant as the table numbers it where that decodes, else first byte least significant (assumption 2). Both
orders decode or not whether or not wait forms are fused. -/
def wordBytes (p : Params) (nbits w : Nat) : List Byte :=
  let n := nbits / 8
  let pad := List.replicate (8 - n) 0#8
  let high := fillModRM p (tableBytes n w) ++ pad
  let low := fillModRM p (leBytes n w) ++ pad
  match decode p high with
  | .ok _ => high
  | .error _ => match decode p low with
    | .ok _ => low
    | .error _ => high

/-- The instruction the decoder reads from a word of the opcode table, under the default parameters but for
`fusedWait`: the rows of the table that begin with 9BH are the wait forms (assumptions 1 and 2). -/
def decodeTableWord (nbits w : Nat) : Option Instr :=
  match decode { fusedWait := true } (wordBytes { fusedWait := true } nbits w) with
  | .ok (i, _) => some i
  | .error _ => none

end Sys2Proof
end

