-- ==== Sys2Proof/Machine/State.lean ====
section
/-! DEFINITION. The state of the machine (10_state.md rule R30), the reasons a step can stop, and the state a run
starts in. -/

namespace Sys2Proof.Machine

/-- The four tag codes, 00B, 01B, 10B and 11B (rule R48). -/
inductive Tag where
  | valid | zero | special | empty
deriving DecidableEq, Repr, Inhabited

/-- The status word SW without its two derived bits (rule R36): ES and B are functions of the flags and the
masks (rules R39, R40) and are computed when SW is read. -/
structure Status where
  ie  : Bool := false
  de  : Bool := false
  ze  : Bool := false
  oe  : Bool := false
  ue  : Bool := false
  pe  : Bool := false
  sf  : Bool := false
  c0  : Bool := false
  c1  : Bool := false
  c2  : Bool := false
  c3  : Bool := false
  top : BitVec 3 := 0#3
deriving DecidableEq, Repr, Inhabited

/-- What the floating-point trap reports (rule R531). -/
structure TrapReport where
  sw  : Word16
  fip : Addr
  fcs : Word16
  fdp : Addr
  fds : Word16
  fop : BitVec 11
  pc  : Addr
deriving DecidableEq, Repr

/-- Why the machine stops with a fault. -/
inductive Fault where
  /-- Raised by decoding and by every instruction the run's generation lacks (rule R147, decisions D13, D14).
  Safe: no state changes and nothing is said of what real parts do there. -/
  | illegalInstruction
  /-- Raised by a data access or fetch that touches a byte the host has not provided (rule R90, decision D6).
  Safe: no state of the instruction is committed. -/
  | memFault (addr : Nat)
  /-- Raised by a waiting instruction that finds an unmasked exception pending, when FP_TRAP is `stop`
  (rules R530, R531). Safe: it is the outcome the spec gives, with the state as it was at the check. -/
  | floatingPointTrap (report : TrapReport)
deriving DecidableEq, Repr

/-- Why the model refuses to say what the machine does. -/
inductive Refusal where
  /-- An arm of exec whose instruction has no meaning yet. Safe: nothing is claimed. No arm answers it. -/
  | notModelled (mnemonic : String)
  /-- Raised by decoding: the byte at pc begins no FPU instruction (rule R135). Safe: host code is outside. -/
  | notFpu (b : Byte)
  /-- Raised by decoding: a memory operand not in the direct form (rules R134, R135). Safe: nothing is claimed. -/
  | unsupportedAddressing (modrm : Byte)
  /-- Raised by decoding: a byte such as LOCK or 67H before an FPU instruction (rule R151). Safe. -/
  | unsupportedPrefix (b : Byte)
  /-- Raised by fetching: an instruction byte that the run has stored to (rule R115). Safe: nothing is claimed. -/
  | selfModify (addr : Nat)
  /-- Raised where a byte of the instruction would lie past the top of the address range (rules R20, R55). Safe:
  refused, not wrapped. -/
  | pastTop (addr : Nat)
deriving DecidableEq, Repr

/-- The machine (rule R30). `cfg` holds the parameters of the run. Four fields are the model's own: `pcOver` says that
pc is one past the last address, where the instruction before ended at the top of the address range (rule R55), `mem`
lists the bytes that differ from what an unlisted byte reads as, `written` the addresses stored to (rule R115), and
`draws` counts the free values handed out. -/
structure State where
  cfg     : Params := {}
  regs    : Vector Ext 8 := Vector.replicate 8 0#80
  tags    : Vector Tag 8 := Vector.replicate 8 .empty
  sw      : Status := {}
  cw      : Word16 := 0x037F#16
  fip     : Addr := 0#32
  fcs     : Word16 := 0#16
  fdp     : Addr := 0#32
  fds     : Word16 := 0#16
  fop     : BitVec 11 := 0#11
  pc      : Addr := 0#32
  pcOver  : Bool := false
  ax      : Word16 := 0#16
  zf      : Bool := false
  pf      : Bool := false
  cf      : Bool := false
  pm287   : Bool := false
  mem     : List Host.Cell := []
  written : List Nat := []
  draws   : Nat := 0
deriving DecidableEq, Repr, Inhabited

/-- The state a run starts in: the state after FNINIT, the launch premise of rule R580 (rules R62, R63).
DESIGN CHOICE (assumptions 3 to 6): register contents, pc, AX, host flags, PM287, and memory with nothing
listed. -/
def State.reset : State := {}

end Sys2Proof.Machine
end

