-- ==== Sys2Proof/Machine/Number.lean ====
section
/-! DEFINITION. Exact numbers and their rounding (10_state.md rules R60, R61): dyadic numbers, magnitudes that are
quotients or square roots, and rounding to a multiple of a power of two. -/

namespace Sys2Proof.Machine

/-- The exact number `± mant · 2^exp`. -/
structure Dyad where
  neg  : Bool
  mant : Nat
  exp  : Int
deriving DecidableEq, Repr

/-- The signed multiple of `2^e` that the number is, for `e ≤ exp`. -/
def Dyad.atExp (x : Dyad) (e : Int) : Int :=
  let m : Int := x.mant * 2 ^ (x.exp - e).toNat
  if x.neg then -m else m

/-- The exact sum. -/
def Dyad.add (x y : Dyad) : Dyad :=
  let e := min x.exp y.exp
  let n := x.atExp e + y.atExp e
  ⟨decide (n < 0), n.natAbs, e⟩

/-- The number with its sign inverted. -/
def Dyad.negate (x : Dyad) : Dyad := { x with neg := !x.neg }

/-- Is the first number below the second? -/
def Dyad.less (x y : Dyad) : Bool :=
  let e := min x.exp y.exp
  decide (x.atExp e < y.atExp e)

/-- Do the two denote the same number? -/
def Dyad.same (x y : Dyad) : Bool :=
  let e := min x.exp y.exp
  decide (x.atExp e = y.atExp e)

/-- The bits of the integer square root of `n` from bit `b - 1` down, `r` holding those above. -/
def isqrtFrom : Nat → Nat → Nat → Nat
  | 0, _, r => r
  | b + 1, n, r =>
    let t := r + 2 ^ b
    isqrtFrom b n (if t * t ≤ n then t else r)

/-- The integer square root, rounded down. -/
def isqrt (n : Nat) : Nat := isqrtFrom (n.log2 / 2 + 1) n 0

/-- The integer part of `m · 2^k`. -/
def scaleFloor (m : Nat) (k : Int) : Nat :=
  if 0 ≤ k then m * 2 ^ k.toNat else m / 2 ^ (-k).toNat

/-- Is `m · 2^k` an integer? -/
def scaleExact (m : Nat) (k : Int) : Bool :=
  decide (0 ≤ k) || decide (m % 2 ^ (-k).toNat = 0)

/-- The magnitude of an exact nonzero result: `num / den · 2^exp`, or the square root of `mant · 2^exp`. -/
inductive Mag where
  | ratio (num den : Nat) (exp : Int)
  | root (mant : Nat) (exp : Int)
deriving DecidableEq, Repr

/-- The exponent of the leading bit: the `e` with `2^e ≤ x < 2^(e+1)` (rule R60). -/
def Mag.log2 : Mag → Int
  | .ratio num den exp =>
    let e : Int := (num.log2 : Int) - den.log2
    if den * 2 ^ e.toNat ≤ num * 2 ^ (-e).toNat then e + exp else e - 1 + exp
  | .root mant exp => ((mant.log2 : Int) + exp) / 2

/-- The integer part of `x / 2^k`. A magnitude below `2^k` gives 0 at once, so that no power of two of the
size of its exponent is formed. -/
def Mag.floorAt (x : Mag) (k : Int) : Nat :=
  if x.log2 < k then 0
  else
    match x with
    | .ratio num den exp => num * 2 ^ (exp - k).toNat / (den * 2 ^ (k - exp).toNat)
    | .root mant exp => isqrt (scaleFloor mant (exp - 2 * k))

/-- Is the nonzero `x` a multiple of `2^k`? -/
def Mag.exactAt (x : Mag) (k : Int) : Bool :=
  if x.log2 < k then false
  else
    match x with
    | .ratio num den exp => decide (num * 2 ^ (exp - k).toNat % (den * 2 ^ (k - exp).toNat) = 0)
    | .root mant exp =>
      let n := scaleFloor mant (exp - 2 * k)
      scaleExact mant (exp - 2 * k) && decide (isqrt n * isqrt n = n)

/-- A rounded magnitude `mant · 2^exp`, whether it differs from the exact one, and whether it is above it
(rule R60). -/
structure Rounded where
  mant    : Nat
  exp     : Int
  inexact : Bool
  up      : Bool
deriving DecidableEq, Repr

/-- Rounding of the magnitude `x` of a number of sign `neg` to a multiple of `2^k` (rules R60, R61). The integer
part at half the spacing tells which neighbour is nearer. -/
def Mag.roundTo (x : Mag) (neg : Bool) (k : Int) (rc : Rounding) : Rounded :=
  let h := x.floorAt (k - 1)
  let lo := h / 2
  let half := x.exactAt (k - 1)
  if half && decide (h % 2 = 0) then ⟨lo, k, false, false⟩
  else
    let up :=
      match rc with
      | .chop => false
      | .down => neg
      | .up => !neg
      | .nearest => decide (h % 2 = 1) && (!half || decide (lo % 2 = 1))
    ⟨if up then lo + 1 else lo, k, true, up⟩

/-- The rounding function of rule R60: to `p` significant bits, the exponent unbounded. -/
def Mag.roundPrec (x : Mag) (neg : Bool) (p : Nat) (rc : Rounding) : Rounded :=
  x.roundTo neg (x.log2 - p + 1) rc

/-- The magnitude of a nonzero dyadic number. -/
def Dyad.mag (x : Dyad) : Mag := .ratio x.mant 1 x.exp

/-- The exponent of the leading bit of a nonzero `mant · 2^exp`. -/
def leadExp (mant : Nat) (exp : Int) : Int := (mant.log2 : Int) + exp

end Sys2Proof.Machine
end

