-- ==== Sys2Proof/Machine/Operands.lean ====
section
/-! DEFINITION. Operand formats: the classes and values of register contents (10_state.md rules R32 to R35), and
the memory formats with their conversions (20_memory.md rules R98 to R104, 41_arith_basic.md rule R235,
43_data_transfer.md rule R362). -/

namespace Sys2Proof.Machine

/-- The classes of register contents (rule R33); Empty is a property of the tag. -/
inductive Class where
  | unsupported | nan | normal | infinity | zero | denormal
deriving DecidableEq, Repr

/-- The sign bit of a register value (rule R32). -/
def signOf (x : Ext) : Bool := x.getLsbD 79

/-- The biased exponent (rule R32). -/
def expoOf (x : Ext) : Nat := (x.extractLsb' 64 15).toNat

/-- The 64-bit significand, integer bit included (rule R32). -/
def sigOf (x : Ext) : Nat := (x.extractLsb' 0 64).toNat

/-- The integer bit J (rule R32). -/
def intBit (x : Ext) : Bool := x.getLsbD 63

/-- The fraction field F (rule R32). -/
def fracOf (x : Ext) : BitVec 63 := x.extractLsb' 0 63

/-- The class of a register value (rule R33). -/
def classOf (x : Ext) : Class :=
  if expoOf x = 0 then
    if sigOf x = 0 then .zero else .denormal
  else if expoOf x = 0x7FFF then
    if intBit x then (if fracOf x = 0#63 then .infinity else .nan) else .unsupported
  else if intBit x then .normal else .unsupported

/-- Is the value a quiet NaN (rule R33)? -/
def isQNaN (x : Ext) : Bool := decide (classOf x = .nan) && x.getLsbD 62

/-- Is the value a signalling NaN (rule R33)? -/
def isSNaN (x : Ext) : Bool := decide (classOf x = .nan) && !x.getLsbD 62

/-- Is the value finite and nonzero, a "finite-real number" of the tables (rule R34)? -/
def isFinite (x : Ext) : Bool := decide (classOf x = .normal) || decide (classOf x = .denormal)

/-- The exact value of a zero or finite register value (rule R34). -/
def valOf (x : Ext) : Dyad := ⟨signOf x, sigOf x, (max (expoOf x) 1 : Nat) - 16446⟩

/-- A register value from its sign, biased exponent and significand (rule R32). -/
def mkExt (neg : Bool) (expo sig : Nat) : Ext :=
  (BitVec.ofBool neg ++ BitVec.ofNat 15 expo) ++ BitVec.ofNat 64 sig

/-- The register encoding of `± mant · 2^exp`, which must be exactly representable (`ext` of rule R538). -/
def extOf (neg : Bool) (mant : Nat) (exp : Int) : Ext :=
  if mant = 0 then mkExt neg 0 0
  else
    let e := leadExp mant exp
    if e < -16382 then mkExt neg 0 (scaleFloor mant (exp + 16445))
    else mkExt neg (e + 16383).toNat (mant * 2 ^ 63 / 2 ^ mant.log2)

/-- A zero of the given sign (rule R35). -/
def zeroOf (neg : Bool) : Ext := mkExt neg 0 0

/-- An infinity of the given sign (rule R35). -/
def infOf (neg : Bool) : Ext := mkExt neg 0x7FFF 0x8000000000000000

/-- +1.0 (rule R35). -/
def one : Ext := 0x3FFF8000000000000000#80

/-- The real indefinite INDEF (rule R35). -/
def indef : Ext := 0xFFFFC000000000000000#80

/-- The NaN with its quiet bit, bit 62, set (rule R537). -/
def quiet (x : Ext) : Ext := x ||| 0x4000000000000000#80

/-- Which NaN two operands deliver, at least one being a NaN (nan2 of rule R537). -/
def nan2 (a b : Ext) : Ext :=
  if classOf a ≠ .nan then quiet b
  else if classOf b ≠ .nan then quiet a
  else if isQNaN a && !isQNaN b then a
  else if isQNaN b && !isQNaN a then b
  else if sigOf b < sigOf a then quiet a
  else if sigOf a < sigOf b then quiet b
  else if signOf a then quiet b else quiet a

/-- A second operand as an instruction sees it: the 80 bits, and whether it was a denormal of a memory format,
whose extended value is normal (rules R235, R523). -/
structure Operand where
  bits   : Ext
  denMem : Bool := false
deriving DecidableEq, Repr

/-- Is the operand of class Denormal for the denormal test (rule R235)? -/
def Operand.denormal (b : Operand) : Bool := b.denMem || decide (classOf b.bits = .denormal)

/-- A real memory format: the widths of its exponent and fraction fields (rules R98, R99). -/
structure RealFmt where
  expBits  : Nat
  fracBits : Nat
deriving DecidableEq, Repr

/-- The single-real format (rule R98). -/
def single : RealFmt := ⟨8, 23⟩

/-- The double-real format (rule R99). -/
def double : RealFmt := ⟨11, 52⟩

/-- How many bytes a value takes. -/
def RealFmt.bytes (f : RealFmt) : Nat := (1 + f.expBits + f.fracBits) / 8

/-- The exponent bias. -/
def RealFmt.bias (f : RealFmt) : Int := 2 ^ (f.expBits - 1) - 1

/-- The exponent of the smallest normal value. -/
def RealFmt.emin (f : RealFmt) : Int := 1 - f.bias

/-- The exponent of the largest value. -/
def RealFmt.emax (f : RealFmt) : Int := f.bias

/-- The exponent field of infinities and NaNs, all ones. -/
def RealFmt.expMax (f : RealFmt) : Nat := 2 ^ f.expBits - 1

/-- A word of the format from its fields. -/
def RealFmt.pack (f : RealFmt) (neg : Bool) (expo frac : Nat) : Nat :=
  (if neg then 2 ^ (f.expBits + f.fracBits) else 0) + expo * 2 ^ f.fracBits + frac

/-- The sign of a word of the format. -/
def RealFmt.negOf (f : RealFmt) (w : Nat) : Bool := decide (w / 2 ^ (f.expBits + f.fracBits) % 2 = 1)

/-- The exponent field of a word of the format. -/
def RealFmt.expoOf (f : RealFmt) (w : Nat) : Nat := w / 2 ^ f.fracBits % 2 ^ f.expBits

/-- The fraction field of a word of the format. -/
def RealFmt.fracOf (f : RealFmt) (w : Nat) : Nat := w % 2 ^ f.fracBits

/-- The register value of a single-real or double-real word (real32_to_ext, real64_to_ext of rules R98, R99);
always exact. A signalling NaN stays signalling. -/
def RealFmt.toExt (f : RealFmt) (w : Nat) : Operand :=
  let neg := f.negOf w
  let frac := f.fracOf w
  if f.expoOf w = f.expMax then
    ⟨mkExt neg 0x7FFF (2 ^ 63 + frac * 2 ^ (63 - f.fracBits)), false⟩
  else if f.expoOf w = 0 then
    ⟨extOf neg frac (f.emin - f.fracBits), decide (frac ≠ 0)⟩
  else
    ⟨extOf neg (2 ^ f.fracBits + frac) (f.expoOf w - f.bias - f.fracBits), false⟩

/-- The word of a zero, infinity or NaN narrowed to the format: the low fraction bits are dropped
(`narrow` of rule R362). -/
def RealFmt.narrow (f : RealFmt) (a : Ext) : Nat :=
  if classOf a = .zero then f.pack (signOf a) 0 0
  else f.pack (signOf a) f.expMax ((Machine.fracOf a).toNat / 2 ^ (63 - f.fracBits))

/-- The word of `± mant · 2^exp`, which must be representable in the format (rule R362). -/
def RealFmt.encode (f : RealFmt) (neg : Bool) (mant : Nat) (exp : Int) : Nat :=
  if mant = 0 then f.pack neg 0 0
  else
    let e := leadExp mant exp
    if e < f.emin then f.pack neg 0 (scaleFloor mant (exp - (f.emin - f.fracBits)))
    else f.pack neg (e + f.bias).toNat (mant * 2 ^ f.fracBits / 2 ^ mant.log2 - 2 ^ f.fracBits)

/-- The infinity of the format. -/
def RealFmt.infinity (f : RealFmt) (neg : Bool) : Nat := f.pack neg f.expMax 0

/-- The largest finite value of the format (rules R98, R99). -/
def RealFmt.largest (f : RealFmt) (neg : Bool) : Nat := f.pack neg (f.expMax - 1) (2 ^ f.fracBits - 1)

/-- The indefinite of the format: FFC00000H, FFF8000000000000H (rule R362). -/
def RealFmt.indefinite (f : RealFmt) : Nat := f.pack true f.expMax (2 ^ (f.fracBits - 1))

/-- The largest finite register value of precision `p` (rule R525). -/
def largestExt (neg : Bool) (p : Nat) : Ext := mkExt neg 0x7FFE (2 ^ 64 - 2 ^ (64 - p))

/-- The signed reading of a `w`-bit integer (rules R13, R101 to R103). -/
def signedOf (w v : Nat) : Int := if v < 2 ^ (w - 1) then v else (v : Int) - 2 ^ w

/-- The `w`-bit two's complement of an integer in range (rule R344). -/
def unsignedOf (w : Nat) (n : Int) : Nat := (n % 2 ^ w).toNat

/-- The integer indefinite of width `w` (rules R101 to R103). -/
def intIndef (w : Nat) : Nat := 2 ^ (w - 1)

/-- The register value of an integer; 0 gives +0 (int_to_ext of rule R235). -/
def intToExt (n : Int) : Ext := extOf (decide (n < 0)) n.natAbs 0

/-- Are all digits of packed BCD bytes in 0, …, 9 (rule R104)? -/
def bcdValid : List Byte → Bool
  | [] => true
  | b :: bs => decide (b.toNat % 16 ≤ 9) && decide (b.toNat / 16 ≤ 9) && bcdValid bs

/-- The number the digits of packed BCD bytes write, least significant byte first (rule R104). -/
def bcdMagnitude : List Byte → Nat
  | [] => 0
  | b :: bs => b.toNat % 16 + 10 * (b.toNat / 16) + 100 * bcdMagnitude bs

/-- The `k` packed BCD bytes of a number, least significant first (rule R104). -/
def bcdDigits : Nat → Nat → List Byte
  | 0, _ => []
  | k + 1, n => BitVec.ofNat 8 (n % 10 + 16 * (n / 10 % 10)) :: bcdDigits k (n / 100)

/-- The ten bytes of a packed BCD integer (rule R104). -/
def bcdBytes (neg : Bool) (n : Nat) : List Byte := bcdDigits 9 n ++ [if neg then 0x80#8 else 0x00#8]

/-- The packed BCD indefinite (rule R104). -/
def bcdIndefinite : List Byte :=
  [0x00#8, 0x00#8, 0x00#8, 0x00#8, 0x00#8, 0x00#8, 0x00#8, 0xC0#8, 0xFF#8, 0xFF#8]

end Sys2Proof.Machine
end

