-- ==== Sys2Proof/Machine/Flags.lean ====
section
/-! DEFINITION. The status and control words (10_state.md rules R36 to R47), the summary bits, the arbitrary flags,
and the raising of the floating-point exceptions (60_exceptions.md rules R521 to R528). -/

namespace Sys2Proof.Machine

/-- An unmasked exception is flagged (rule R39): the bits of SW[5:0] and not of CW[5:0]. -/
def State.es (s : State) : Bool :=
  (s.sw.ie && !s.cw.getLsbD 0) || (s.sw.de && !s.cw.getLsbD 1) || (s.sw.ze && !s.cw.getLsbD 2) ||
  (s.sw.oe && !s.cw.getLsbD 3) || (s.sw.ue && !s.cw.getLsbD 4) || (s.sw.pe && !s.cw.getLsbD 5)

/-- The sixteen bits of SW, from B down to IE (rule R36); B is a copy of ES (rule R40). -/
def State.swWord (s : State) : Word16 :=
  BitVec.ofBool s.es ++ BitVec.ofBool s.sw.c3 ++ s.sw.top ++ BitVec.ofBool s.sw.c2 ++ BitVec.ofBool s.sw.c1 ++
  BitVec.ofBool s.sw.c0 ++ BitVec.ofBool s.es ++ BitVec.ofBool s.sw.sf ++ BitVec.ofBool s.sw.pe ++
  BitVec.ofBool s.sw.ue ++ BitVec.ofBool s.sw.oe ++ BitVec.ofBool s.sw.ze ++ BitVec.ofBool s.sw.de ++
  BitVec.ofBool s.sw.ie

/-- The status word of a loaded image; its ES and B are ignored (rules R39, R413). -/
def Status.ofWord (w : Word16) : Status where
  ie := w.getLsbD 0
  de := w.getLsbD 1
  ze := w.getLsbD 2
  oe := w.getLsbD 3
  ue := w.getLsbD 4
  pe := w.getLsbD 5
  sf := w.getLsbD 6
  c0 := w.getLsbD 8
  c1 := w.getLsbD 9
  c2 := w.getLsbD 10
  c3 := w.getLsbD 14
  top := w.extractLsb' 11 3

/-- The control word the machine keeps of a loaded value, which is also what a store returns (rules R43, R47):
bits 15:13 read 0, bit 6 reads 1, and bit 7 is IEM on the 8087 and reads 0 later. -/
def cwKeep (g : Gen) (v : Word16) : Word16 :=
  (v &&& (if g = .g8087 then 0x1FBF#16 else 0x1F3F#16)) ||| 0x0040#16

/-- The rounding mode selected by CW.RC (rule R46). -/
def rounding (cw : Word16) : Rounding :=
  if cw.getLsbD 11 then (if cw.getLsbD 10 then .chop else .up)
  else (if cw.getLsbD 10 then .down else .nearest)

/-- The precision selected by CW.PC; none for the reserved code 01B (rule R45). -/
def precision (cw : Word16) : Option Nat :=
  if cw.getLsbD 9 then (if cw.getLsbD 8 then some 64 else some 53)
  else (if cw.getLsbD 8 then none else some 24)

/-- The state with another condition code or flag set: `SW.C0 <- b` and the like. -/
def State.withC0 (b : Bool) (s : State) : State := { s with sw := { s.sw with c0 := b } }
def State.withC1 (b : Bool) (s : State) : State := { s with sw := { s.sw with c1 := b } }
def State.withC2 (b : Bool) (s : State) : State := { s with sw := { s.sw with c2 := b } }
def State.withC3 (b : Bool) (s : State) : State := { s with sw := { s.sw with c3 := b } }

/-- The state with one more free value handed out. -/
def State.drawn (s : State) : State := { s with draws := s.draws + 1 }

/-- `SW.C0 <- undefined` (rules R14, R17): a fresh arbitrary bit. -/
def State.openC0 (s : State) : State := (s.withC0 (Config.freeBit s.draws)).drawn
def State.openC1 (s : State) : State := (s.withC1 (Config.freeBit s.draws)).drawn
def State.openC2 (s : State) : State := (s.withC2 (Config.freeBit s.draws)).drawn
def State.openC3 (s : State) : State := (s.withC3 (Config.freeBit s.draws)).drawn

/-- The line "C0, C2, C3 Undefined." -/
def State.openC023 (s : State) : State := s.openC0.openC2.openC3

/-- The line "C0, C3 Undefined." -/
def State.openC03 (s : State) : State := s.openC0.openC3

/-- The line "C0, C1, C2, C3 undefined." -/
def State.openC0123 (s : State) : State := s.openC0.openC1.openC2.openC3

/-- `raise IS` (rule R521): IE and SF are set, C1 tells overflow from underflow, and with IM = 1 the masked
response follows. -/
def State.raiseStack (overflow : Bool) (masked : State → State) (s : State) : State :=
  let t := { s with sw := { s.sw with ie := true, sf := true, c1 := overflow } }
  if s.cw.getLsbD 0 then masked t else t

/-- `raise IA` (rule R522): IE is set, C1 cleared, SF kept, and with IM = 1 the masked response follows. -/
def State.raiseInvalid (masked : State → State) (s : State) : State :=
  let t := { s with sw := { s.sw with ie := true, c1 := false } }
  if s.cw.getLsbD 0 then masked t else t

/-- `raise ZE` (rule R524): ZE is set, C1 cleared, and with ZM = 1 the masked response follows. DESIGN CHOICE
(assumption 27): C1 is cleared with ZM = 0 too, as rules R17, R201, R230 and R300 have it of every case they do not
list. -/
def State.raiseZeroDivide (masked : State → State) (s : State) : State :=
  let t := { s with sw := { s.sw with ze := true, c1 := false } }
  if s.cw.getLsbD 2 then masked t else t

/-- `raise DE` (rule R523): DE is set; with DM = 1 the instruction continues, else it ends as `unmasked` says with C1
cleared (rules R17, R201, R230, R300, conflict C5; DESIGN CHOICE, assumption 27). -/
def State.raiseDenormal (continue_ unmasked : State → State) (s : State) : State :=
  let t := { s with sw := { s.sw with de := true } }
  if s.cw.getLsbD 1 then continue_ t else unmasked (t.withC1 false)

/-- The denormal test of an instruction: `raise DE` where an operand is Denormal, else go on; an unmasked
exception ends the instruction with C1 cleared and nothing else changed (rule R523), C2 neither (DESIGN CHOICE,
assumptions 17 and 27). -/
def State.denormalTest (den : Bool) (continue_ : State → State) (s : State) : State :=
  if den then s.raiseDenormal continue_ id else continue_ s

/-- `raise PE(c1)` (rule R527). -/
def State.raiseInexact (c1 : Bool) (s : State) : State := { s with sw := { s.sw with pe := true, c1 := c1 } }

/-- `if inexact: raise PE(c1) else SW.C1 <- 0`. -/
def State.inexactOr (inexact c1 : Bool) (s : State) : State :=
  if inexact then s.raiseInexact c1 else s.withC1 false

/-- OE is flagged (rule R525). -/
def State.flagOverflow (s : State) : State := { s with sw := { s.sw with oe := true } }

/-- UE is flagged (rule R526). -/
def State.flagUnderflow (s : State) : State := { s with sw := { s.sw with ue := true } }

end Sys2Proof.Machine
end

