-- ==== Sys2Proof/Machine/Ops.lean ====
section
/-! DEFINITION. The shared operations: memory (20_memory.md), the register stack (10_state.md rules R31, R48 to
R50), the delivery of results (60_exceptions.md rules R525, R526, R538), the pointers (10_state.md rules R51 to
R54), the floating-point trap (60_exceptions.md rules R530 to R536), and the common step around an instruction
(30_encoding.md rule R135). -/

namespace Sys2Proof.Machine

/-! ### Memory -/

/-- What a byte nobody has written reads as. DESIGN CHOICE (assumption 6): the spec gives no contents. -/
def blank : Byte := 0#8

/-- The byte at an address. -/
def Memory.read : List Host.Cell → Nat → Byte
  | [], _ => blank
  | c :: m, a => if c.1 = a then c.2 else Memory.read m a

/-- Memory with one byte stored, in canonical form: addresses strictly rising, no entry equal to `blank`. -/
def Memory.write : List Host.Cell → Nat → Byte → List Host.Cell
  | [], a, b => if b = blank then [] else [(a, b)]
  | c :: m, a, b =>
    if a < c.1 then (if b = blank then c :: m else (a, b) :: c :: m)
    else if c.1 = a then (if b = blank then m else (a, b) :: m)
    else c :: Memory.write m a b

/-- The canonical form. -/
abbrev Memory.wf (m : List Host.Cell) : Prop :=
  m.Pairwise (fun c d => c.1 < d.1) ∧ ∀ c ∈ m, c.2 ≠ blank

/-- The `n` bytes from an address on, lowest address first (rule R91). -/
def Memory.readBytes (m : List Host.Cell) : Nat → Nat → List Byte
  | _, 0 => []
  | a, n + 1 => Memory.read m a :: Memory.readBytes m (a + 1) n

/-- Memory with bytes stored from an address on (rule R91). -/
def Memory.writeBytes (m : List Host.Cell) : Nat → List Byte → List Host.Cell
  | _, [] => m
  | a, b :: bs => Memory.writeBytes (Memory.write m a b) (a + 1) bs

/-- A strictly rising list of addresses with one more address. -/
def addAddr : List Nat → Nat → List Nat
  | [], a => [a]
  | x :: xs, a => if a < x then a :: x :: xs else if x = a then x :: xs else x :: addAddr xs a

/-- A strictly rising list of addresses with `n` more, from `a` on. -/
def addAddrs : List Nat → Nat → Nat → List Nat
  | xs, _, 0 => xs
  | xs, a, n + 1 => addAddrs (addAddr xs a) (a + 1) n

/-- Is the address in the address space and among the bytes the host has provided (rule R90)? -/
def hasByte (p : Params) (a : Nat) : Bool :=
  decide (a < p.addrLimit) && p.provided.any (fun r => decide (r.base ≤ a) && decide (a < r.base + r.size))

/-- Are the `n` bytes from an address on all there (rule R90)? -/
def hasBytes (p : Params) : Nat → Nat → Bool
  | _, 0 => true
  | a, n + 1 => hasByte p a && hasBytes p (a + 1) n

/-- The byte of memory at an address. -/
def State.byteAt (s : State) (a : Nat) : Byte := Memory.read s.mem a

/-- MemRead as bytes (rule R14). -/
def State.bytesAt (s : State) (a : Addr) (n : Nat) : List Byte := Memory.readBytes s.mem a.toNat n

/-- MemWrite (rule R14), which also notes the addresses for rule R115. -/
def State.store (s : State) (a : Addr) (bs : List Byte) : State :=
  { s with mem := Memory.writeBytes s.mem a.toNat bs, written := addAddrs s.written a.toNat bs.length }

/-- The bytes at pc that are there, at most `n` of them (rule R135). -/
def fetchBytes (p : Params) (m : List Host.Cell) : Nat → Nat → List Byte
  | _, 0 => []
  | a, n + 1 => if hasByte p a then Memory.read m a :: fetchBytes p m (a + 1) n else []

/-! ### The register stack -/

/-- The tag of a written value (rule R49). -/
def tagOf (v : Ext) : Tag :=
  match classOf v with
  | .zero => .zero
  | .normal => .valid
  | _ => .special

/-- The physical register R[k] (rule R31). -/
def State.reg (s : State) (k : BitVec 3) : Ext := s.regs[k.toNat]'k.isLt

/-- The tag of the physical register R[k] (rule R48). -/
def State.tag (s : State) (k : BitVec 3) : Tag := s.tags[k.toNat]'k.isLt

/-- The physical register of ST(i) (rule R31). -/
def State.phys (s : State) (i : BitVec 3) : BitVec 3 := s.sw.top + i

/-- The register ST(i). -/
def State.st (s : State) (i : BitVec 3) : Ext := s.reg (s.phys i)

/-- `empty(i)` (rule R14). -/
def State.isEmpty (s : State) (i : BitVec 3) : Bool := decide (s.tag (s.phys i) = .empty)

/-- `R[k] <- v` with a given tag. -/
def State.setReg (s : State) (k : BitVec 3) (v : Ext) (t : Tag) : State :=
  { s with regs := s.regs.set k.toNat v k.isLt, tags := s.tags.set k.toNat t k.isLt }

/-- `TAG[k] <- t` (rule R48). -/
def State.setTag (s : State) (k : BitVec 3) (t : Tag) : State :=
  { s with tags := s.tags.set k.toNat t k.isLt }

/-- `ST(i) <- v`, the tag computed from the value (rule R49). -/
def State.setSt (s : State) (i : BitVec 3) (v : Ext) : State := s.setReg (s.phys i) v (tagOf v)

/-- `SW.TOP <- t` (rule R41). -/
def State.setTop (s : State) (t : BitVec 3) : State := { s with sw := { s.sw with top := t } }

/-- `push(v)` onto a register known to be free, and `TOP <- TOP - 1; ST(0) <- v` of the masked stack-fault
responses, which overwrite the register without regard to its tag (rules R50, R521). -/
def State.push (s : State) (v : Ext) : State := (s.setTop (s.sw.top - 1#3)).setSt 0#3 v

/-- `pop()` (rule R50). -/
def State.pop (s : State) : State := (s.setTag s.sw.top .empty).setTop (s.sw.top + 1#3)

/-- `if do_pop: pop()`. -/
def State.popIf (b : Bool) (s : State) : State := if b then s.pop else s

/-- `ST(i) <- freeExt`: a result no document states. -/
def State.openSt (i : BitVec 3) (s : State) : State := (s.setSt i (Config.freeExt s.draws)).drawn

/-! ### Delivery of a result to a register -/

/-- `dest <- ext(± mant · 2^exp)` after the exponent adjustment of an unmasked overflow or underflow; where it is
still out of range no document says what is stored (decision D21) and the register takes a free value. -/
def State.setScaled (i : BitVec 3) (neg : Bool) (mant : Nat) (exp : Int) (s : State) : State :=
  if -16382 ≤ leadExp mant exp ∧ leadExp mant exp < 16384 then s.setSt i (extOf neg mant exp) else s.openSt i

/-- Does masked overflow give the infinity (rule R525)? -/
def toInfinity (rc : Rounding) (neg : Bool) : Bool :=
  match rc with
  | .nearest => true
  | .up => !neg
  | .down => neg
  | .chop => false

/-- Overflow with a register destination (rule R525). -/
def State.overflow (i : BitVec 3) (neg : Bool) (r : Rounded) (p : Nat) (rc : Rounding) (s : State) : State :=
  if s.cw.getLsbD 3 then
    (s.flagOverflow.setSt i (if toInfinity rc neg then infOf neg else largestExt neg p)).raiseInexact
      (toInfinity rc neg)
  else (s.flagOverflow.setScaled i neg r.mant (r.exp - 24576)).inexactOr r.inexact r.up

/-- Underflow with a register destination (rule R526); `x` is the exact magnitude, `r` the rounded one. -/
def State.underflow (i : BitVec 3) (neg : Bool) (x : Mag) (r : Rounded) (p : Nat) (rc : Rounding)
    (s : State) : State :=
  if s.cw.getLsbD 4 then
    let d := x.roundTo neg (-16382 - ((p : Int) - 1)) rc
    let t := s.setSt i (extOf neg d.mant d.exp)
    if d.inexact || r.inexact then t.flagUnderflow.raiseInexact (if d.inexact then d.up else r.up)
    else t.withC1 false
  else (s.flagUnderflow.setScaled i neg r.mant (r.exp + 24576)).inexactOr r.inexact r.up

/-- `settle` (rule R538). -/
def State.settle (i : BitVec 3) (neg : Bool) (x : Mag) (r : Rounded) (p : Nat) (s : State) : State :=
  if 16384 ≤ leadExp r.mant r.exp then s.overflow i neg r p (rounding s.cw)
  else if leadExp r.mant r.exp < -16382 then s.underflow i neg x r p (rounding s.cw)
  else (s.setSt i (extOf neg r.mant r.exp)).inexactOr r.inexact r.up

/-- `deliver` (rule R538): the exact nonzero result `± x`, rounded once to `p` bits by CW.RC. -/
def State.deliver (i : BitVec 3) (neg : Bool) (x : Mag) (p : Nat) (s : State) : State :=
  s.settle i neg x (x.roundPrec neg p (rounding s.cw)) p

/-- `finish` (rule R538): a result already rounded to 64 bits, as TRANS answers it (rule R200). -/
def State.finish (i : BitVec 3) (t : Trans) (s : State) : State :=
  s.settle i t.neg (.ratio (2 ^ 63 + t.frac.toNat) 1 (t.exp - 63))
    ⟨2 ^ 63 + t.frac.toNat, t.exp - 63, t.pe, t.c1⟩ 64

/-- A flag that may or may not be set by a result no document states: sticky, so a set flag stays. -/
def State.openOE (s : State) : State :=
  { s with sw := { s.sw with oe := s.sw.oe || Config.freeBit s.draws } }.drawn
def State.openUE (s : State) : State :=
  { s with sw := { s.sw with ue := s.sw.ue || Config.freeBit s.draws } }.drawn
def State.openPE (s : State) : State :=
  { s with sw := { s.sw with pe := s.sw.pe || Config.freeBit s.draws } }.drawn

/-- The delivery with the reserved CW.PC = 01B (rule R45, decision D23): the result is open, and with it the
flags computed from it. -/
def State.openDelivery (i : BitVec 3) (s : State) : State := (s.openSt i).openOE.openUE.openPE.openC1

/-- `deliver(dest, x, prec(CW.PC), CW.RC)`, the line of the arithmetic instructions and FSQRT (rule R45). -/
def State.deliverPC (i : BitVec 3) (neg : Bool) (x : Mag) (s : State) : State :=
  match precision s.cw with
  | some p => s.deliver i neg x p
  | none => s.openDelivery i

/-! ### NaN operands -/

/-- `ST(..) <- nan1(a)` (rule R537): `write` stores the delivered NaN. -/
def State.nanOne (a : Ext) (write : Ext → State → State) (s : State) : State :=
  if isSNaN a then s.raiseInvalid (write (quiet a)) else write a (s.withC1 false)

/-- `ST(..) <- nan2(a, b)` with the pops that follow (rule R537): `write` stores the delivered NaN. -/
def State.nanTwo (a b : Ext) (write : Ext → State → State) (s : State) : State :=
  if isSNaN a || isSNaN b then s.raiseInvalid (write (nan2 a b)) else write (nan2 a b) (s.withC1 false)

/-! ### Pointers -/

/-- Is the host in real mode for this run? Always on the 8087 (rule R9). -/
def Params.realMode (p : Params) : Bool := decide (p.gen = .g8087) || decide (p.cpuMode = .real)

/-- The pointers of a non-control instruction (rules R51 to R54): FIP, FOP and, with a memory operand, FDP; the
selectors are recorded in protected mode only (decision D19). Without a memory operand FDP and FDS are
undefined. -/
def State.recordPointers (i : Instr) (s : State) : State :=
  let t := { s with
    fip := s.pc
    fop := i.fop s.cfg
    fcs := if Params.realMode s.cfg then s.fcs else s.cfg.csSel }
  match i.operand with
  | some a => { t with fdp := a, fds := if Params.realMode s.cfg then s.fds else s.cfg.dsSel }
  | none =>
    { t with
      fdp := Config.freeWord s.draws
      fds := (Config.freeWord (s.draws + 1)).setWidth 16
      draws := s.draws + 2 }

/-- `FIP, FCS, FDP, FDS, FOP <- 0`, which FNINIT and FNSAVE do except on the 387 (rule R411). -/
def State.clearPointers (s : State) : State :=
  if s.cfg.gen = .g387 then s
  else { s with fip := 0#32, fcs := 0#16, fdp := 0#32, fds := 0#16, fop := 0#11 }

/-! ### The program counter -/

/-- The address pc stands for: one past the last address where the instruction before ended at the top (rule R55). -/
def State.pcNat (s : State) : Nat := if s.pcOver then s.cfg.addrLimit else s.pc.toNat

/-! ### The floating-point trap -/

/-- What every reachable state satisfies: memory and the noted addresses in canonical form and inside the address
space, a non-empty tag equal to `tagOf` of its register (rule R49), the reserved control-word bits as they read
(rule R47), and pc inside the address range or one past its top (rule R55). -/
abbrev State.wf (s : State) : Prop :=
  Memory.wf s.mem ∧ (∀ c ∈ s.mem, c.1 < s.cfg.addrLimit) ∧ s.written.Pairwise (· < ·) ∧
  (∀ k : BitVec 3, s.tag k ≠ .empty → s.tag k = tagOf (s.reg k)) ∧
  cwKeep s.cfg.gen s.cw = s.cw ∧
  (if s.pcOver then s.pc = BitVec.ofNat 32 s.cfg.addrLimit else s.pc.toNat < s.cfg.addrLimit)

end Sys2Proof.Machine

namespace Sys2Proof

/-- The handler of FP_TRAP = resume(h) (rule R531): any transformer of states. No body: a parameter. -/
opaque Config.trapHandler : Machine.State → Machine.State

end Sys2Proof

namespace Sys2Proof.Machine

/-- A pending floating-point trap that a waiting instruction takes (rules R530, R535): ES, and on the 8087 only
with IEM clear. -/
def State.pending (s : State) : Bool := s.es && !(decide (s.cfg.gen = .g8087) && s.cw.getLsbD 7)

/-- What the trap reports (rule R531). -/
def State.report (s : State) : TrapReport := ⟨s.swWord, s.fip, s.fcs, s.fdp, s.fds, s.fop, s.pc⟩

/-- The state a handler leaves (rules R531, R534): any well-formed state under the same parameters. Its pc says
where the run goes on; a plain return leaves pc at the waiting instruction, which then runs again. DESIGN CHOICE
(assumptions 15 and 22): its `written` replaces that of the run, so whether a byte stored to before the trap is still
refused as an instruction byte (rule R115), and whether the handler's own stores are, is as the handler leaves it. -/
def State.handled (s : State) : State :=
  if (Config.trapHandler s).wf ∧ (Config.trapHandler s).cfg = s.cfg then Config.trapHandler s else s

/-- Delivery of the pending floating-point exception (rules R530, R531): the instruction is not executed, and
FP_TRAP decides: `stop` is the outcome FloatingPointTrap, `resume` goes on with what the handler leaves. -/
def State.takeTrap (s : State) : Host.Outcome State Fault Refusal :=
  match s.cfg.fpTrap with
  | .stop => .fault (.floatingPointTrap s.report)
  | .resume => .next s.handled

/-- Does an instruction check for a pending exception first (rule R135)? -/
inductive Sync where
  | waiting | noWait
deriving DecidableEq, Repr

/-- The window of rule R536: on a 486 or Pentium so configured, a no-wait instruction with ES = 1. -/
def State.windowOpen (s : State) : Bool :=
  s.cfg.noWaitWindow && (decide (s.cfg.gen = .g486) || decide (s.cfg.gen = .pentium)) && s.es

/-- Is a trap taken before the instruction? In the window of rule R536 an arbitrary bit decides. -/
def State.trapsBefore (sync : Sync) (s : State) : Bool :=
  match sync with
  | .waiting => s.pending
  | .noWait => s.windowOpen && Config.freeBit s.draws

/-- The state in which the instruction then runs: the arbitrary bit of the window has been handed out. -/
def State.entering (sync : Sync) (s : State) : State :=
  match sync with
  | .waiting => s
  | .noWait => if s.windowOpen then s.drawn else s

/-! ### The step around an instruction -/

/-- Does an instruction record its pointers (rule R54)? Those that keep, clear or load them do not. -/
inductive Pointers where
  | record | keep
deriving DecidableEq, Repr

/-- The end of an instruction (rule R135): pointers, then `pc <- pc + length`. -/
def State.retire (ptr : Pointers) (i : Instr) (s : State) : State :=
  let t := match ptr with
    | .record => s.recordPointers i
    | .keep => s
  { t with
    pc := s.pc + BitVec.ofNat 32 (i.length s.cfg)
    pcOver := decide (s.cfg.addrLimit ≤ s.pcNat + i.length s.cfg) }

/-- Would a byte of an instruction of `n` bytes lie past the top of the address range (rules R20, R55)? -/
def State.passesTop (n : Nat) (s : State) : Bool := decide (s.cfg.addrLimit < s.pcNat + n)

/-- The step around an instruction rule (rule R135): availability, the top of the address range, the
pending-exception check, the instruction's own rule `body`, pointers and pc. -/
def around (sync : Sync) (ptr : Pointers) (i : Instr) (body : State → Except Fault State) (s : State) :
    Host.Outcome State Fault Refusal :=
  if !i.available s.cfg then .fault .illegalInstruction
  else if s.passesTop (i.length s.cfg) then .refused (.pastTop (s.pcNat + i.length s.cfg))
  else if s.trapsBefore sync then s.takeTrap
  else
    match body (s.entering sync) with
    | .error f => .fault f
    | .ok t => .next (t.retire ptr i)

/-- A rule without a memory operand. -/
def computing (f : State → State) (s : State) : Except Fault State := .ok (f s)

/-- A rule that reads `n` bytes at `a` before any FPU state is examined (rules R90, R235). -/
def loading (a : Addr) (n : Nat) (f : List Byte → State → State) (s : State) : Except Fault State :=
  if hasBytes s.cfg a.toNat n then .ok (f (s.bytesAt a n) s) else .error (.memFault a.toNat)

/-- A rule that stores `n` bytes at `a`, or suppresses the store as a whole (rule R94); an access that faults
commits nothing (rule R90). -/
def storing (a : Addr) (n : Nat) (f : State → State × Option (List Byte)) (s : State) : Except Fault State :=
  match (f s).2 with
  | none => .ok (f s).1
  | some bs =>
    if hasBytes s.cfg a.toNat n then .ok ((f s).1.store a bs) else .error (.memFault a.toNat)

/-- A wait form read as one instruction (rules R145, R400): FWAIT, then the no-wait form at the next byte. The two are
two steps, so a pending exception is taken at 9BH and the rest not fetched, and where the no-wait form stops, FWAIT has
been done all the same: the answer is its state, from which the stop comes as the next step. -/
def waitThen (fwait next : State → Host.Outcome State Fault Refusal) (s : State) :
    Host.Outcome State Fault Refusal :=
  if s.pending then fwait s
  else
    match fwait s with
    | .next t =>
      match next t with
      | .next u => .next u
      | .fault _ | .refused _ => .next t
    | .fault f => .fault f
    | .refused r => .refused r

end Sys2Proof.Machine
end

