-- ==== Sys2Proof/Machine/Arith.lean ====
section
/-! DEFINITION. Basic arithmetic (41_arith_basic.md): addition, subtraction, multiplication, division and the
reversed forms, over one template (rule R230). -/

namespace Sys2Proof.Machine

/-- The six operations of rule R230; `a` is the destination operand, `b` the source. -/
inductive ArithOp where
  | add | sub | subr | mul | div | divr
deriving DecidableEq, Repr

/-- The value with its sign bit inverted (`neg` of rule R232). -/
def flipSign (x : Ext) : Ext := x ^^^ 0x80000000000000000000#80

/-- Do the signs of the two values differ? -/
def signsDiffer (a b : Ext) : Bool := signOf a ^^ signOf b

/-- invalid_ADD (rule R231): infinities of opposite signs. -/
def addInvalid (a b : Ext) : Bool :=
  decide (classOf a = .infinity) && decide (classOf b = .infinity) && signsDiffer a b

/-- special_ADD (rule R231): an infinity, or two zeros of one sign. -/
def addSpecial (a b : Ext) : Option Ext :=
  if classOf a = .infinity then some (infOf (signOf a))
  else if classOf b = .infinity then some (infOf (signOf b))
  else if classOf a = .zero ∧ classOf b = .zero ∧ !signsDiffer a b then some (zeroOf (signOf a))
  else none

/-- exact_ADD (rule R231): the sign and magnitude of the sum; none where it is 0. -/
def addExact (a b : Ext) : Option (Bool × Mag) :=
  let x := (valOf a).add (valOf b)
  if x.mant = 0 then none else some (x.neg, x.mag)

/-- invalid_MUL (rule R233): a zero and an infinity. -/
def mulInvalid (a b : Ext) : Bool :=
  (decide (classOf a = .zero) && decide (classOf b = .infinity)) ||
  (decide (classOf a = .infinity) && decide (classOf b = .zero))

/-- special_MUL (rule R233): an infinity times a nonzero operand, or a zero times a finite one. -/
def mulSpecial (a b : Ext) : Option Ext :=
  if classOf a = .infinity ∨ classOf b = .infinity then some (infOf (signsDiffer a b))
  else if classOf a = .zero ∨ classOf b = .zero then some (zeroOf (signsDiffer a b))
  else none

/-- exact_MUL (rule R233). -/
def mulExact (a b : Ext) : Option (Bool × Mag) :=
  some (signsDiffer a b, .ratio ((valOf a).mant * (valOf b).mant) 1 ((valOf a).exp + (valOf b).exp))

/-- The invalid quotients (rule R234): 0/0 and infinity/infinity. -/
def divInvalid (n v : Ext) : Bool :=
  (decide (classOf n = .zero) && decide (classOf v = .zero)) ||
  (decide (classOf n = .infinity) && decide (classOf v = .infinity))

/-- The zero-divide quotients (rule R234): a finite nonzero dividend over a zero. -/
def divZero (n v : Ext) : Bool := isFinite n && decide (classOf v = .zero)

/-- The exact quotients with an infinity or a zero (rule R234). -/
def divSpecial (n v : Ext) : Option Ext :=
  if classOf n = .infinity then some (infOf (signsDiffer n v))
  else if classOf v = .infinity ∨ classOf n = .zero then some (zeroOf (signsDiffer n v))
  else none

/-- The exact quotient (rule R234). -/
def divExact (n v : Ext) : Option (Bool × Mag) :=
  some (signsDiffer n v, .ratio (valOf n).mant (valOf v).mant ((valOf n).exp - (valOf v).exp))

/-- invalid_OP (rules R231 to R234). SUB and SUBR are ADD with one operand negated (rule R232). -/
def ArithOp.invalid : ArithOp → Ext → Ext → Bool
  | .add, a, b => addInvalid a b
  | .sub, a, b => addInvalid a (flipSign b)
  | .subr, a, b => addInvalid (flipSign a) b
  | .mul, a, b => mulInvalid a b
  | .div, a, b => divInvalid a b
  | .divr, a, b => divInvalid b a

/-- zerodiv_OP (rule R234). -/
def ArithOp.zeroDivide : ArithOp → Ext → Ext → Bool
  | .div, a, b => divZero a b
  | .divr, a, b => divZero b a
  | .add, _, _ | .sub, _, _ | .subr, _, _ | .mul, _, _ => false

/-- special_OP (rules R231 to R234). -/
def ArithOp.special : ArithOp → Ext → Ext → Option Ext
  | .add, a, b => addSpecial a b
  | .sub, a, b => addSpecial a (flipSign b)
  | .subr, a, b => addSpecial (flipSign a) b
  | .mul, a, b => mulSpecial a b
  | .div, a, b => divSpecial a b
  | .divr, a, b => divSpecial b a

/-- exact_OP (rules R231 to R234). -/
def ArithOp.exact : ArithOp → Ext → Ext → Option (Bool × Mag)
  | .add, a, b => addExact a b
  | .sub, a, b => addExact a (flipSign b)
  | .subr, a, b => addExact (flipSign a) b
  | .mul, a, b => mulExact a b
  | .div, a, b => divExact a b
  | .divr, a, b => divExact b a

/-- The source of an arithmetic or compare instruction: a register ST(j) or a converted memory value. -/
inductive Source where
  | reg (j : BitVec 3)
  | mem (b : Operand)
deriving DecidableEq, Repr

/-- Is the source a register that is empty? -/
def Source.isEmpty (src : Source) (s : State) : Bool :=
  match src with
  | .reg j => s.isEmpty j
  | .mem _ => false

/-- The source operand. -/
def Source.operand (src : Source) (s : State) : Operand :=
  match src with
  | .reg j => ⟨s.st j, false⟩
  | .mem b => b

/-- The last lines of rule R230: a special result, a zero sum with its sign, or the rounded exact result. -/
def State.arithResult (op : ArithOp) (d : BitVec 3) (a b : Ext) (s : State) : State :=
  match op.special a b with
  | some r => (s.setSt d r).withC1 false
  | none =>
    match op.exact a b with
    | some (neg, x) => s.deliverPC d neg x
    | none => (s.setSt d (zeroOf (decide (rounding s.cw = .down)))).withC1 false

/-- arith(OP, d, src, pop) of rule R230, without its last line. -/
def State.arith (op : ArithOp) (d : BitVec 3) (src : Source) (pop : Bool) (s : State) : State :=
  let a := s.st d
  let b := src.operand s
  let answer (v : Ext) (t : State) : State := State.popIf pop (t.setSt d v)
  if s.isEmpty d || src.isEmpty s then s.raiseStack false (answer indef)
  else if classOf a = .unsupported ∨ classOf b.bits = .unsupported then s.raiseInvalid (answer indef)
  else if classOf a = .nan ∨ classOf b.bits = .nan then s.nanTwo a b.bits answer
  else if op.invalid a b.bits then s.raiseInvalid (answer indef)
  else if op.zeroDivide a b.bits then s.raiseZeroDivide (answer (infOf (signsDiffer a b.bits)))
  else
    s.denormalTest (decide (classOf a = .denormal) || b.denormal) fun t =>
      State.popIf pop (t.arithResult op d a b.bits)

/-- An arithmetic instruction with a register source (rule R230); C0, C2, C3 undefined on every path. -/
def arithReg (op : ArithOp) (d j : BitVec 3) (pop : Bool) : State → Except Fault State :=
  computing fun s => (s.arith op d (.reg j) pop).openC023

/-- An arithmetic instruction with a real memory source (rules R230, R235). -/
def arithReal (op : ArithOp) (f : RealFmt) (addr : Addr) : State → Except Fault State :=
  loading addr f.bytes fun bs s => (s.arith op 0#3 (.mem (f.toExt (leNat bs))) false).openC023

/-- The operand of a signed integer of `w` bits in memory (rule R235). -/
def intOperand (w : Nat) (bs : List Byte) : Operand := ⟨intToExt (signedOf w (leNat bs)), false⟩

/-- An arithmetic instruction with an integer memory source of `w` bits (rules R230, R235). -/
def arithInt (op : ArithOp) (w : Nat) (addr : Addr) : State → Except Fault State :=
  loading addr (w / 8) fun bs s => (s.arith op 0#3 (.mem (intOperand w bs)) false).openC023

/-- FADD m32real (rule R240). -/
def execFaddM32 (addr : Addr) (s : State) : Host.Outcome State Fault Refusal :=
  around .waiting .record (.faddM32 addr) (arithReal .add single addr) s

/-- FADD m64real (rule R241). -/
def execFaddM64 (addr : Addr) (s : State) : Host.Outcome State Fault Refusal :=
  around .waiting .record (.faddM64 addr) (arithReal .add double addr) s

/-- FADD ST(0),ST(i) (rule R242). -/
def execFaddSt0 (i : BitVec 3) (s : State) : Host.Outcome State Fault Refusal :=
  around .waiting .record (.faddSt0 i) (arithReg .add 0#3 i false) s

/-- FADD ST(i),ST(0) (rule R243). -/
def execFaddSti (i : BitVec 3) (s : State) : Host.Outcome State Fault Refusal :=
  around .waiting .record (.faddSti i) (arithReg .add i 0#3 false) s

/-- FADDP ST(i),ST(0) (rule R244). -/
def execFaddp (i : BitVec 3) (s : State) : Host.Outcome State Fault Refusal :=
  around .waiting .record (.faddp i) (arithReg .add i 0#3 true) s

/-- FIADD m16int (rule R245). -/
def execFiaddM16 (addr : Addr) (s : State) : Host.Outcome State Fault Refusal :=
  around .waiting .record (.fiaddM16 addr) (arithInt .add 16 addr) s

/-- FIADD m32int (rule R246). -/
def execFiaddM32 (addr : Addr) (s : State) : Host.Outcome State Fault Refusal :=
  around .waiting .record (.fiaddM32 addr) (arithInt .add 32 addr) s

/-- FDIV m32real (rule R247). DESIGN CHOICE (assumption 28): the inexact quotient of the rule's example sets PE, as its
pseudocode says, where the example has "no flag set". -/
def execFdivM32 (addr : Addr) (s : State) : Host.Outcome State Fault Refusal :=
  around .waiting .record (.fdivM32 addr) (arithReal .div single addr) s

/-- FDIV m64real (rule R248). -/
def execFdivM64 (addr : Addr) (s : State) : Host.Outcome State Fault Refusal :=
  around .waiting .record (.fdivM64 addr) (arithReal .div double addr) s

/-- FDIV ST(0),ST(i) (rule R249). -/
def execFdivSt0 (i : BitVec 3) (s : State) : Host.Outcome State Fault Refusal :=
  around .waiting .record (.fdivSt0 i) (arithReg .div 0#3 i false) s

/-- FDIV ST(i),ST(0) (rule R250). -/
def execFdivSti (i : BitVec 3) (s : State) : Host.Outcome State Fault Refusal :=
  around .waiting .record (.fdivSti i) (arithReg .div i 0#3 false) s

/-- FDIVP ST(i),ST(0) (rule R251). -/
def execFdivp (i : BitVec 3) (s : State) : Host.Outcome State Fault Refusal :=
  around .waiting .record (.fdivp i) (arithReg .div i 0#3 true) s

/-- FIDIV m16int (rule R252). -/
def execFidivM16 (addr : Addr) (s : State) : Host.Outcome State Fault Refusal :=
  around .waiting .record (.fidivM16 addr) (arithInt .div 16 addr) s

/-- FIDIV m32int (rule R253). -/
def execFidivM32 (addr : Addr) (s : State) : Host.Outcome State Fault Refusal :=
  around .waiting .record (.fidivM32 addr) (arithInt .div 32 addr) s

/-- FDIVR m32real (rule R254). DESIGN CHOICE (assumption 28): the inexact quotient of the rule's example sets PE and C1,
as its pseudocode says, where the example has "no flag set, C1 = 0". -/
def execFdivrM32 (addr : Addr) (s : State) : Host.Outcome State Fault Refusal :=
  around .waiting .record (.fdivrM32 addr) (arithReal .divr single addr) s

/-- FDIVR m64real (rule R255). -/
def execFdivrM64 (addr : Addr) (s : State) : Host.Outcome State Fault Refusal :=
  around .waiting .record (.fdivrM64 addr) (arithReal .divr double addr) s

/-- FDIVR ST(0),ST(i) (rule R256). -/
def execFdivrSt0 (i : BitVec 3) (s : State) : Host.Outcome State Fault Refusal :=
  around .waiting .record (.fdivrSt0 i) (arithReg .divr 0#3 i false) s

/-- FDIVR ST(i),ST(0) (rule R257). -/
def execFdivrSti (i : BitVec 3) (s : State) : Host.Outcome State Fault Refusal :=
  around .waiting .record (.fdivrSti i) (arithReg .divr i 0#3 false) s

/-- FDIVRP ST(i),ST(0) (rule R258). -/
def execFdivrp (i : BitVec 3) (s : State) : Host.Outcome State Fault Refusal :=
  around .waiting .record (.fdivrp i) (arithReg .divr i 0#3 true) s

/-- FIDIVR m16int (rule R259). -/
def execFidivrM16 (addr : Addr) (s : State) : Host.Outcome State Fault Refusal :=
  around .waiting .record (.fidivrM16 addr) (arithInt .divr 16 addr) s

/-- FIDIVR m32int (rule R260). -/
def execFidivrM32 (addr : Addr) (s : State) : Host.Outcome State Fault Refusal :=
  around .waiting .record (.fidivrM32 addr) (arithInt .divr 32 addr) s

/-- FMUL m32real (rule R261). -/
def execFmulM32 (addr : Addr) (s : State) : Host.Outcome State Fault Refusal :=
  around .waiting .record (.fmulM32 addr) (arithReal .mul single addr) s

/-- FMUL m64real (rule R262). -/
def execFmulM64 (addr : Addr) (s : State) : Host.Outcome State Fault Refusal :=
  around .waiting .record (.fmulM64 addr) (arithReal .mul double addr) s

/-- FMUL ST(0),ST(i) (rule R263). -/
def execFmulSt0 (i : BitVec 3) (s : State) : Host.Outcome State Fault Refusal :=
  around .waiting .record (.fmulSt0 i) (arithReg .mul 0#3 i false) s

/-- FMUL ST(i),ST(0) (rule R264). -/
def execFmulSti (i : BitVec 3) (s : State) : Host.Outcome State Fault Refusal :=
  around .waiting .record (.fmulSti i) (arithReg .mul i 0#3 false) s

/-- FMULP ST(i),ST(0) (rule R265). -/
def execFmulp (i : BitVec 3) (s : State) : Host.Outcome State Fault Refusal :=
  around .waiting .record (.fmulp i) (arithReg .mul i 0#3 true) s

/-- FIMUL m16int (rule R266). -/
def execFimulM16 (addr : Addr) (s : State) : Host.Outcome State Fault Refusal :=
  around .waiting .record (.fimulM16 addr) (arithInt .mul 16 addr) s

/-- FIMUL m32int (rule R267). -/
def execFimulM32 (addr : Addr) (s : State) : Host.Outcome State Fault Refusal :=
  around .waiting .record (.fimulM32 addr) (arithInt .mul 32 addr) s

/-- FSUB m32real (rule R268). -/
def execFsubM32 (addr : Addr) (s : State) : Host.Outcome State Fault Refusal :=
  around .waiting .record (.fsubM32 addr) (arithReal .sub single addr) s

/-- FSUB m64real (rule R269). -/
def execFsubM64 (addr : Addr) (s : State) : Host.Outcome State Fault Refusal :=
  around .waiting .record (.fsubM64 addr) (arithReal .sub double addr) s

/-- FSUB ST(0),ST(i) (rule R270). -/
def execFsubSt0 (i : BitVec 3) (s : State) : Host.Outcome State Fault Refusal :=
  around .waiting .record (.fsubSt0 i) (arithReg .sub 0#3 i false) s

/-- FSUB ST(i),ST(0) (rule R271). -/
def execFsubSti (i : BitVec 3) (s : State) : Host.Outcome State Fault Refusal :=
  around .waiting .record (.fsubSti i) (arithReg .sub i 0#3 false) s

/-- FSUBP ST(i),ST(0) (rule R272). -/
def execFsubp (i : BitVec 3) (s : State) : Host.Outcome State Fault Refusal :=
  around .waiting .record (.fsubp i) (arithReg .sub i 0#3 true) s

/-- FISUB m16int (rule R273). -/
def execFisubM16 (addr : Addr) (s : State) : Host.Outcome State Fault Refusal :=
  around .waiting .record (.fisubM16 addr) (arithInt .sub 16 addr) s

/-- FISUB m32int (rule R274). -/
def execFisubM32 (addr : Addr) (s : State) : Host.Outcome State Fault Refusal :=
  around .waiting .record (.fisubM32 addr) (arithInt .sub 32 addr) s

/-- FSUBR m32real (rule R275). -/
def execFsubrM32 (addr : Addr) (s : State) : Host.Outcome State Fault Refusal :=
  around .waiting .record (.fsubrM32 addr) (arithReal .subr single addr) s

/-- FSUBR m64real (rule R276). -/
def execFsubrM64 (addr : Addr) (s : State) : Host.Outcome State Fault Refusal :=
  around .waiting .record (.fsubrM64 addr) (arithReal .subr double addr) s

/-- FSUBR ST(0),ST(i) (rule R277). -/
def execFsubrSt0 (i : BitVec 3) (s : State) : Host.Outcome State Fault Refusal :=
  around .waiting .record (.fsubrSt0 i) (arithReg .subr 0#3 i false) s

/-- FSUBR ST(i),ST(0) (rule R278). -/
def execFsubrSti (i : BitVec 3) (s : State) : Host.Outcome State Fault Refusal :=
  around .waiting .record (.fsubrSti i) (arithReg .subr i 0#3 false) s

/-- FSUBRP ST(i),ST(0) (rule R279). -/
def execFsubrp (i : BitVec 3) (s : State) : Host.Outcome State Fault Refusal :=
  around .waiting .record (.fsubrp i) (arithReg .subr i 0#3 true) s

/-- FISUBR m16int (rule R280). -/
def execFisubrM16 (addr : Addr) (s : State) : Host.Outcome State Fault Refusal :=
  around .waiting .record (.fisubrM16 addr) (arithInt .subr 16 addr) s

/-- FISUBR m32int (rule R281). -/
def execFisubrM32 (addr : Addr) (s : State) : Host.Outcome State Fault Refusal :=
  around .waiting .record (.fisubrM32 addr) (arithInt .subr 32 addr) s

end Sys2Proof.Machine
end

