-- ==== Sys2Proof/Machine/Compare.lean ====
section
/-! DEFINITION. Comparison (45_comparison.md): one core (rule R470) with the result in the condition codes or in the
host flags, and FXAM. -/

namespace Sys2Proof.Machine

/-- The four relations of rule R470. -/
inductive Relation where
  | greater | less | equal | unordered
deriving DecidableEq, Repr

/-- Where the result goes (rule R470): the condition codes or the host flags. -/
inductive ResultTo where
  | codes | eflags
deriving DecidableEq, Repr

/-- C3 or ZF of a relation. -/
def Relation.z : Relation → Bool
  | .greater => false | .less => false | .equal => true | .unordered => true

/-- C2 or PF of a relation. -/
def Relation.p : Relation → Bool
  | .greater => false | .less => false | .equal => false | .unordered => true

/-- C0 or CF of a relation. -/
def Relation.c : Relation → Bool
  | .greater => false | .less => true | .equal => false | .unordered => true

/-- setres(rel) (rule R470). -/
def State.setResult (dst : ResultTo) (rel : Relation) (s : State) : State :=
  match dst with
  | .codes => (((s.withC3 rel.z).withC2 rel.p).withC0 rel.c).withC1 false
  | .eflags => { s with zf := rel.z, pf := rel.p, cf := rel.c }.withC1 false

/-- The result flags after an unmasked denormal exception: undefined (rule R470, decision D15). C1 is no result flag:
`State.raiseDenormal` has cleared it (conflict C5 and the flag lines of 45_comparison.md). -/
def State.openResultFlags (dst : ResultTo) (s : State) : State :=
  match dst with
  | .codes => s.openC0.openC2.openC3
  | .eflags =>
    { s with
      zf := Config.freeBit s.draws
      pf := Config.freeBit (s.draws + 1)
      cf := Config.freeBit (s.draws + 2)
      draws := s.draws + 3 }

/-- `pops()` (rule R470): npop times. -/
def State.pops : Nat → State → State
  | 0, s => s
  | n + 1, s => State.pops n s.pop

/-- The order of two values that are no NaN and supported (rule R470); infinities lie outside the finite numbers,
zeros are equal. -/
def relate (a b : Ext) : Relation :=
  if classOf a = .infinity ∧ classOf b = .infinity then
    if signOf a = signOf b then .equal else if signOf a then .less else .greater
  else if classOf a = .infinity then (if signOf a then .less else .greater)
  else if classOf b = .infinity then (if signOf b then .greater else .less)
  else if (valOf a).less (valOf b) then .less
  else if (valOf a).same (valOf b) then .equal
  else .greater

/-- Does the compare raise IA (rules R470, R471)? -/
def compareInvalid (quietOk : Bool) (a b : Ext) : Bool :=
  decide (classOf a = .unsupported) || decide (classOf b = .unsupported) || isSNaN a || isSNaN b ||
    (!quietOk && (isQNaN a || isQNaN b))

/-- compare(src, quiet, dst, npop) (rule R470). -/
def State.compare (src : Source) (quietOk : Bool) (dst : ResultTo) (npop : Nat) (s : State) : State :=
  let a := s.st 0#3
  let b := src.operand s
  let answer (rel : Relation) (t : State) : State := State.pops npop (t.setResult dst rel)
  if s.isEmpty 0#3 || src.isEmpty s then s.raiseStack false (answer .unordered)
  else if compareInvalid quietOk a b.bits then s.raiseInvalid (answer .unordered)
  else if isQNaN a || isQNaN b.bits then answer .unordered s
  else if decide (classOf a = .denormal) || b.denormal then
    s.raiseDenormal (answer (relate a b.bits)) (State.openResultFlags dst)
  else answer (relate a b.bits) s

/-- A compare with a register. -/
def compareReg (j : BitVec 3) (quietOk : Bool) (dst : ResultTo) (npop : Nat) : State → Except Fault State :=
  computing (State.compare (.reg j) quietOk dst npop)

/-- A compare with a real in memory (rules R472, R473). -/
def compareReal (f : RealFmt) (npop : Nat) (addr : Addr) : State → Except Fault State :=
  loading addr f.bytes fun bs => State.compare (.mem (f.toExt (leNat bs))) false .codes npop

/-- A compare with an integer in memory (rules R483 to R486). -/
def compareInt (w : Nat) (npop : Nat) (addr : Addr) : State → Except Fault State :=
  loading addr (w / 8) fun bs => State.compare (.mem (intOperand w bs)) false .codes npop

/-- The row of the table of FXAM (rule R491) as (C3, C2, C0). -/
def examineRow (emptyReg : Bool) (c : Class) : Bool × Bool × Bool :=
  if emptyReg then (true, false, true)
  else
    match c with
    | .unsupported => (false, false, false)
    | .nan => (false, false, true)
    | .normal => (false, true, false)
    | .infinity => (false, true, true)
    | .zero => (true, false, false)
    | .denormal => (true, true, false)

/-- FXAM (rule R491). -/
def State.examine (s : State) : State :=
  let row := examineRow (s.isEmpty 0#3) (classOf (s.st 0#3))
  (((s.withC1 (signOf (s.st 0#3))).withC3 row.1).withC2 row.2.1).withC0 row.2.2

/-- FCOM m32real (rule R472). -/
def execFcomM32 (addr : Addr) (s : State) : Host.Outcome State Fault Refusal :=
  around .waiting .record (.fcomM32 addr) (compareReal single 0 addr) s

/-- FCOM m64real (rule R473). -/
def execFcomM64 (addr : Addr) (s : State) : Host.Outcome State Fault Refusal :=
  around .waiting .record (.fcomM64 addr) (compareReal double 0 addr) s

/-- FCOM ST(i) (rule R474). -/
def execFcomSt (i : BitVec 3) (s : State) : Host.Outcome State Fault Refusal :=
  around .waiting .record (.fcomSt i) (compareReg i false .codes 0) s

/-- FCOMP m32real (rule R475). -/
def execFcompM32 (addr : Addr) (s : State) : Host.Outcome State Fault Refusal :=
  around .waiting .record (.fcompM32 addr) (compareReal single 1 addr) s

/-- FCOMP m64real (rule R476). -/
def execFcompM64 (addr : Addr) (s : State) : Host.Outcome State Fault Refusal :=
  around .waiting .record (.fcompM64 addr) (compareReal double 1 addr) s

/-- FCOMP ST(i) (rule R477). -/
def execFcompSt (i : BitVec 3) (s : State) : Host.Outcome State Fault Refusal :=
  around .waiting .record (.fcompSt i) (compareReg i false .codes 1) s

/-- FCOMPP (rule R478). -/
def execFcompp (s : State) : Host.Outcome State Fault Refusal :=
  around .waiting .record .fcompp (compareReg 1#3 false .codes 2) s

/-- FCOMI ST(0),ST(i) (rule R479). -/
def execFcomi (i : BitVec 3) (s : State) : Host.Outcome State Fault Refusal :=
  around .waiting .record (.fcomi i) (compareReg i false .eflags 0) s

/-- FCOMIP ST(0),ST(i) (rule R480). -/
def execFcomip (i : BitVec 3) (s : State) : Host.Outcome State Fault Refusal :=
  around .waiting .record (.fcomip i) (compareReg i false .eflags 1) s

/-- FUCOMI ST(0),ST(i) (rule R481). -/
def execFucomi (i : BitVec 3) (s : State) : Host.Outcome State Fault Refusal :=
  around .waiting .record (.fucomi i) (compareReg i true .eflags 0) s

/-- FUCOMIP ST(0),ST(i) (rule R482). -/
def execFucomip (i : BitVec 3) (s : State) : Host.Outcome State Fault Refusal :=
  around .waiting .record (.fucomip i) (compareReg i true .eflags 1) s

/-- FICOM m16int (rule R483). -/
def execFicomM16 (addr : Addr) (s : State) : Host.Outcome State Fault Refusal :=
  around .waiting .record (.ficomM16 addr) (compareInt 16 0 addr) s

/-- FICOM m32int (rule R484). -/
def execFicomM32 (addr : Addr) (s : State) : Host.Outcome State Fault Refusal :=
  around .waiting .record (.ficomM32 addr) (compareInt 32 0 addr) s

/-- FICOMP m16int (rule R485). -/
def execFicompM16 (addr : Addr) (s : State) : Host.Outcome State Fault Refusal :=
  around .waiting .record (.ficompM16 addr) (compareInt 16 1 addr) s

/-- FICOMP m32int (rule R486). -/
def execFicompM32 (addr : Addr) (s : State) : Host.Outcome State Fault Refusal :=
  around .waiting .record (.ficompM32 addr) (compareInt 32 1 addr) s

/-- FTST (rule R487). -/
def execFtst (s : State) : Host.Outcome State Fault Refusal :=
  around .waiting .record .ftst (computing (State.compare (.mem ⟨zeroOf false, false⟩) false .codes 0)) s

/-- FUCOM ST(i) (rule R488). -/
def execFucom (i : BitVec 3) (s : State) : Host.Outcome State Fault Refusal :=
  around .waiting .record (.fucom i) (compareReg i true .codes 0) s

/-- FUCOMP ST(i) (rule R489). -/
def execFucomp (i : BitVec 3) (s : State) : Host.Outcome State Fault Refusal :=
  around .waiting .record (.fucomp i) (compareReg i true .codes 1) s

/-- FUCOMPP (rule R490). -/
def execFucompp (s : State) : Host.Outcome State Fault Refusal :=
  around .waiting .record .fucompp (compareReg 1#3 true .codes 2) s

/-- FXAM (rule R491). -/
def execFxam (s : State) : Host.Outcome State Fault Refusal :=
  around .waiting .record .fxam (computing State.examine) s

end Sys2Proof.Machine
end

