-- ==== Sys2Proof/Machine/Control.lean ====
section
/-! DEFINITION. Control instructions (44_control.md): the control and status words, the environment and state images
(20_memory.md rules R106 to R110), initialisation, stack rotation, the wait forms and FWAIT. -/

namespace Sys2Proof.Machine

/-- Is the default operand size 16 bits? Always on the 8087 and 287 (rule R9). -/
def opSize16 (p : Params) : Bool := decide (p.gen.rank < Gen.g387.rank) || decide (p.opSize = .s16)

/-- Is the effective operand size 16 bits (rule R146)? The 66H byte toggles it. -/
def effSize16 (p : Params) (o66 : Bool) : Bool := opSize16 p ^^ o66

/-- The size of the environment image (rule R106). -/
def envSize (small : Bool) : Nat := if small then 14 else 28

/-- The code of a tag (rule R48). -/
def Tag.code : Tag → BitVec 2
  | .valid => 0b00#2 | .zero => 0b01#2 | .special => 0b10#2 | .empty => 0b11#2

/-- The tag word TW, the tag of R[7] in its top bits (rule R48). -/
def State.tagWord (s : State) : Word16 :=
  Tag.code (s.tag 7#3) ++ Tag.code (s.tag 6#3) ++ Tag.code (s.tag 5#3) ++ Tag.code (s.tag 4#3) ++
  Tag.code (s.tag 3#3) ++ Tag.code (s.tag 2#3) ++ Tag.code (s.tag 1#3) ++ Tag.code (s.tag 0#3)

/-- Two bytes of a 16-bit field, and four of a 32-bit field (rule R91). -/
def half2 (w : Word16) : List Byte := leBytes 2 w.toNat
def full4 (w : BitVec 32) : List Byte := leBytes 4 w.toNat

/-- Two bytes of a reserved field: arbitrary bits (rule R106). -/
def State.reserved (s : State) (k : Nat) : List Byte := half2 ((Config.freeWord (s.draws + k)).setWidth 16)

/-- The environment image (rules R107 to R109), 14 bytes when `small`, else 28. -/
def State.envImage (small : Bool) (s : State) : List Byte :=
  let cw := cwKeep s.cfg.gen s.cw
  let lo (a : Addr) : Word16 := a.extractLsb' 0 16
  if small then
    half2 cw ++ half2 s.swWord ++ half2 s.tagWord ++ half2 (lo s.fip) ++
    (if Params.realMode s.cfg then half2 ((s.fip.extractLsb' 16 4 ++ 0#1) ++ s.fop) else half2 s.fcs) ++
    half2 (lo s.fdp) ++
    (if Params.realMode s.cfg then half2 (s.fdp.extractLsb' 16 4 ++ 0#12) else half2 s.fds)
  else
    half2 cw ++ s.reserved 0 ++ half2 s.swWord ++ s.reserved 1 ++ half2 s.tagWord ++ s.reserved 2 ++
    (if Params.realMode s.cfg then
      half2 (lo s.fip) ++ s.reserved 3 ++ full4 (((0#4 ++ s.fip.extractLsb' 16 16) ++ 0#1) ++ s.fop) ++
      half2 (lo s.fdp) ++ s.reserved 4 ++ full4 ((0#4 ++ s.fdp.extractLsb' 16 16) ++ 0#12)
    else
      full4 s.fip ++ half2 s.fcs ++ half2 (0#5 ++ s.fop) ++ full4 s.fdp ++ half2 s.fds ++ s.reserved 3)

/-- The free values of an image have been handed out. -/
def State.imageDrawn (small : Bool) (s : State) : State := if small then s else { s with draws := s.draws + 5 }

/-- The 16-bit and 32-bit fields of an image at a byte offset (rule R91). -/
def word16At (bs : List Byte) (k : Nat) : Word16 := BitVec.ofNat 16 (leNat ((bs.drop k).take 2))
def word32At (bs : List Byte) (k : Nat) : BitVec 32 := BitVec.ofNat 32 (leNat ((bs.drop k).take 4))

/-- The tags of a loaded tag word (rule R49): only empty or not is taken from it. -/
def loadedTags (tw : Word16) (regs : Vector Ext 8) : Vector Tag 8 :=
  Vector.ofFn fun k => if tw.extractLsb' (2 * k.val) 2 = 0b11#2 then .empty else tagOf (regs[k.val]'k.isLt)

/-- The pointers of a loaded image (rules R107 to R109, R413): the fields the layout has. DEDUCED (assumption 8): the high
bits of FIP and FDP that an image of 14 bytes has no field for are unchanged, as the pointers it lacks are. -/
def State.loadPointers (small : Bool) (bs : List Byte) (s : State) : State :=
  if small then
    if Params.realMode s.cfg then
      { s with
        fip := (s.fip.extractLsb' 20 12 ++ (word16At bs 8).extractLsb' 12 4) ++ word16At bs 6
        fop := (word16At bs 8).extractLsb' 0 11
        fdp := (s.fdp.extractLsb' 20 12 ++ (word16At bs 12).extractLsb' 12 4) ++ word16At bs 10 }
    else
      { s with
        fip := s.fip.extractLsb' 16 16 ++ word16At bs 6
        fcs := word16At bs 8
        fdp := s.fdp.extractLsb' 16 16 ++ word16At bs 10
        fds := word16At bs 12 }
  else if Params.realMode s.cfg then
    { s with
      fip := (word32At bs 16).extractLsb' 12 16 ++ word16At bs 12
      fop := (word32At bs 16).extractLsb' 0 11
      fdp := (word32At bs 24).extractLsb' 12 16 ++ word16At bs 20 }
  else
    { s with
      fip := word32At bs 12
      fcs := word16At bs 16
      fop := (word16At bs 18).extractLsb' 0 11
      fdp := word32At bs 20
      fds := word16At bs 24 }

/-- env_load (rule R413). -/
def State.loadEnv (small : Bool) (bs : List Byte) (s : State) : State :=
  let step := if small then 2 else 4
  ({ s with
    cw := cwKeep s.cfg.gen (word16At bs 0)
    sw := Status.ofWord (word16At bs step)
    tags := loadedTags (word16At bs (2 * step)) s.regs }).loadPointers small bs

/-- The eight registers in stack order, as FNSAVE stores them (rule R110). -/
def State.regImage (s : State) : List Byte :=
  [0#3, 1#3, 2#3, 3#3, 4#3, 5#3, 6#3, 7#3].flatMap fun i => leBytes 10 (s.st i).toNat

/-- The registers of a loaded state image (rule R415): ST(0) of the image first, by the image's TOP. -/
def loadedRegs (env top : Nat) (bs : List Byte) : Vector Ext 8 :=
  Vector.ofFn fun k => BitVec.ofNat 80 (leNat ((bs.drop (env + 10 * ((k.val + 8 - top) % 8))).take 10))

/-- FRSTOR (rule R415). -/
def State.restore (small : Bool) (bs : List Byte) (s : State) : State :=
  let top := (Status.ofWord (word16At bs (if small then 2 else 4))).top
  ({ s with regs := loadedRegs (envSize small) top.toNat bs }).loadEnv small bs

/-- FNINIT (rule R411). -/
def State.initialise (s : State) : State :=
  ({ s with cw := 0x037F#16, sw := {}, tags := Vector.replicate 8 .empty }).clearPointers

/-- FNSTENV (rule R422): the image, then all exceptions masked. -/
def State.storeEnv (small : Bool) (s : State) : State × Option (List Byte) :=
  ({ s.imageDrawn small with cw := s.cw ||| 0x003F#16 }.openC0123, some (s.envImage small))

/-- FNSAVE (rule R417): the images, then the state of FNINIT. -/
def State.save (small : Bool) (s : State) : State × Option (List Byte) :=
  ((s.imageDrawn small).initialise, some (s.envImage small ++ s.regImage))

/-- FNCLEX (rule R402). -/
def State.clearExceptions (s : State) : State :=
  { s with sw := { s.sw with
    ie := false, de := false, ze := false, oe := false, ue := false, pe := false, sf := false } }.openC0123

/-- FINCSTP and FDECSTP (rules R403, R409): TOP moves, no tag is looked at. -/
def State.rotate (t : BitVec 3) (s : State) : State := ((s.setTop t).withC1 false).openC023

/-- FLDENV (rule R413), with the effective operand size of rule R146. -/
def loadEnvFrom (o66 : Bool) (addr : Addr) (s : State) : Except Fault State :=
  let small := effSize16 s.cfg o66
  loading addr (envSize small) (State.loadEnv small) s

/-- FRSTOR (rule R415), with the effective operand size of rule R146. -/
def restoreFrom (o66 : Bool) (addr : Addr) (s : State) : Except Fault State :=
  let small := effSize16 s.cfg o66
  loading addr (envSize small + 80) (State.restore small) s

/-- FNSTENV (rule R422), with the effective operand size of rule R146. -/
def storeEnvTo (o66 : Bool) (addr : Addr) (s : State) : Except Fault State :=
  let small := effSize16 s.cfg o66
  storing addr (envSize small) (State.storeEnv small) s

/-- FNSAVE (rule R417), with the effective operand size of rule R146. -/
def saveTo (o66 : Bool) (addr : Addr) (s : State) : Except Fault State :=
  let small := effSize16 s.cfg o66
  storing addr (envSize small + 80) (State.save small) s

/-- FNDISI and FNENI on the 8087 (rules R405, R407): bit 7 of CW, IEM. -/
def State.setIem (b : Bool) (s : State) : State :=
  { s with cw := if b then s.cw ||| 0x0080#16 else s.cw &&& 0xFF7F#16 }

/-- Pointers of the three instructions that act on one generation only (rules R54, R148): recorded there, kept
where they are no operation. -/
def pointersOn (g : Gen) (s : State) : Pointers := if s.cfg.gen = g then .record else .keep

/-- FNCLEX (rule R402). -/
def execFnclex (s : State) : Host.Outcome State Fault Refusal :=
  around .noWait .keep .fnclex (computing State.clearExceptions) s

/-- FDECSTP (rule R403). -/
def execFdecstp (s : State) : Host.Outcome State Fault Refusal :=
  around .waiting .record .fdecstp (computing fun s => s.rotate (s.sw.top - 1#3)) s

/-- FNDISI (rule R405). -/
def execFndisi (s : State) : Host.Outcome State Fault Refusal :=
  around .noWait (pointersOn .g8087 s) .fndisi (computing fun s => if s.cfg.gen = .g8087 then s.setIem true else s) s

/-- FNENI (rule R407). -/
def execFneni (s : State) : Host.Outcome State Fault Refusal :=
  around .noWait (pointersOn .g8087 s) .fneni (computing fun s => if s.cfg.gen = .g8087 then s.setIem false else s) s

/-- FFREE ST(i) (rule R408). -/
def execFfree (i : BitVec 3) (s : State) : Host.Outcome State Fault Refusal :=
  around .waiting .record (.ffree i) (computing fun s => (s.setTag (s.phys i) .empty).openC0123) s

/-- FINCSTP (rule R409). -/
def execFincstp (s : State) : Host.Outcome State Fault Refusal :=
  around .waiting .record .fincstp (computing fun s => s.rotate (s.sw.top + 1#3)) s

/-- FNINIT (rule R411). -/
def execFninit (s : State) : Host.Outcome State Fault Refusal :=
  around .noWait .keep .fninit (computing State.initialise) s

/-- FLDCW m16 (rule R412). -/
def execFldcw (addr : Addr) (s : State) : Host.Outcome State Fault Refusal :=
  around .waiting .keep (.fldcw addr) (loading addr 2 fun bs s => { s with cw := cwKeep s.cfg.gen (word16At bs 0) }.openC0123) s

/-- FLDENV m14/28byte (rule R413). -/
def execFldenv (addr : Addr) (s : State) : Host.Outcome State Fault Refusal :=
  around .waiting .keep (.fldenv addr) (loadEnvFrom false addr) s

/-- FNOP (rule R414). -/
def execFnop (s : State) : Host.Outcome State Fault Refusal :=
  around .waiting .record .fnop (computing State.openC0123) s

/-- FRSTOR m94/108byte (rule R415). -/
def execFrstor (addr : Addr) (s : State) : Host.Outcome State Fault Refusal :=
  around .waiting .keep (.frstor addr) (restoreFrom false addr) s

/-- FNSAVE m94/108byte (rule R417). -/
def execFnsave (addr : Addr) (s : State) : Host.Outcome State Fault Refusal :=
  around .noWait .keep (.fnsave addr) (saveTo false addr) s

/-- FSETPM (rule R418). -/
def execFsetpm (s : State) : Host.Outcome State Fault Refusal :=
  around .noWait (pointersOn .g287 s) .fsetpm (computing fun s => if s.cfg.gen = .g287 then { s with pm287 := true } else s) s

/-- FNSTCW m16 (rule R420). -/
def execFnstcw (addr : Addr) (s : State) : Host.Outcome State Fault Refusal :=
  around .noWait .keep (.fnstcw addr) (storing addr 2 fun s => (s.openC0123, some (half2 (cwKeep s.cfg.gen s.cw)))) s

/-- FNSTENV m14/28byte (rule R422). -/
def execFnstenv (addr : Addr) (s : State) : Host.Outcome State Fault Refusal :=
  around .noWait .keep (.fnstenv addr) (storeEnvTo false addr) s

/-- FNSTSW m16 (rule R424). -/
def execFnstswM16 (addr : Addr) (s : State) : Host.Outcome State Fault Refusal :=
  around .noWait .keep (.fnstswM16 addr) (storing addr 2 fun s => (s.openC0123, some (half2 s.swWord))) s

/-- FNSTSW AX (rule R426). -/
def execFnstswAx (s : State) : Host.Outcome State Fault Refusal :=
  around .noWait .keep .fnstswAx (computing fun s => { s with ax := s.swWord }.openC0123) s

/-- FLDENV m14/28byte with the operand-size byte 66H (rules R413, R146). -/
def execFldenvO66 (addr : Addr) (s : State) : Host.Outcome State Fault Refusal :=
  around .waiting .keep (.fldenvO66 addr) (loadEnvFrom true addr) s

/-- FNSTENV m14/28byte with the operand-size byte 66H (rules R422, R146). -/
def execFnstenvO66 (addr : Addr) (s : State) : Host.Outcome State Fault Refusal :=
  around .noWait .keep (.fnstenvO66 addr) (storeEnvTo true addr) s

/-- FRSTOR m94/108byte with the operand-size byte 66H (rules R415, R146). -/
def execFrstorO66 (addr : Addr) (s : State) : Host.Outcome State Fault Refusal :=
  around .waiting .keep (.frstorO66 addr) (restoreFrom true addr) s

/-- FNSAVE m94/108byte with the operand-size byte 66H (rules R417, R146). -/
def execFnsaveO66 (addr : Addr) (s : State) : Host.Outcome State Fault Refusal :=
  around .noWait .keep (.fnsaveO66 addr) (saveTo true addr) s

/-- FWAIT (rule R427). -/
def execFwait (s : State) : Host.Outcome State Fault Refusal :=
  around .waiting .keep .fwait (computing State.openC0123) s

/-- FCLEX (rule R401): FWAIT, then the no-wait form. -/
def execFclex (s : State) : Host.Outcome State Fault Refusal :=
  waitThen execFwait execFnclex s

/-- FDISI (rule R404): FWAIT, then the no-wait form. -/
def execFdisi (s : State) : Host.Outcome State Fault Refusal :=
  waitThen execFwait execFndisi s

/-- FENI (rule R406): FWAIT, then the no-wait form. -/
def execFeni (s : State) : Host.Outcome State Fault Refusal :=
  waitThen execFwait execFneni s

/-- FINIT (rule R410): FWAIT, then the no-wait form. -/
def execFinit (s : State) : Host.Outcome State Fault Refusal :=
  waitThen execFwait execFninit s

/-- FSAVE m94/108byte (rule R416): FWAIT, then the no-wait form. -/
def execFsave (addr : Addr) (s : State) : Host.Outcome State Fault Refusal :=
  waitThen execFwait (execFnsave addr) s

/-- FSTCW m16 (rule R419): FWAIT, then the no-wait form. -/
def execFstcw (addr : Addr) (s : State) : Host.Outcome State Fault Refusal :=
  waitThen execFwait (execFnstcw addr) s

/-- FSTENV m14/28byte (rule R421): FWAIT, then the no-wait form. -/
def execFstenv (addr : Addr) (s : State) : Host.Outcome State Fault Refusal :=
  waitThen execFwait (execFnstenv addr) s

/-- FSTSW m16 (rule R423): FWAIT, then the no-wait form. -/
def execFstswM16 (addr : Addr) (s : State) : Host.Outcome State Fault Refusal :=
  waitThen execFwait (execFnstswM16 addr) s

/-- FSTSW AX (rule R425): FWAIT, then the no-wait form. -/
def execFstswAx (s : State) : Host.Outcome State Fault Refusal :=
  waitThen execFwait execFnstswAx s

/-- FSTENV m14/28byte with 66H (rule R421): FWAIT, then the no-wait form. -/
def execFstenvO66 (addr : Addr) (s : State) : Host.Outcome State Fault Refusal :=
  waitThen execFwait (execFnstenvO66 addr) s

/-- FSAVE m94/108byte with 66H (rule R416): FWAIT, then the no-wait form. -/
def execFsaveO66 (addr : Addr) (s : State) : Host.Outcome State Fault Refusal :=
  waitThen execFwait (execFnsaveO66 addr) s

end Sys2Proof.Machine
end

