-- ==== Sys2Proof/Machine/Other.lean ====
section
/-! DEFINITION. The other arithmetic instructions (42_arith_other.md): FABS, FCHS, FPREM, FPREM1, FRNDINT, FSCALE,
FSQRT, FXTRACT. -/

namespace Sys2Proof.Machine

/-- The shape of FRNDINT and FSQRT (rule R300): `invalid` is the instruction's own invalid test. -/
def State.unary (invalid : Ext → Bool) (f : Ext → State → State) (s : State) : State :=
  let a := s.st 0#3
  let answer (v : Ext) (t : State) : State := t.setSt 0#3 v
  if s.isEmpty 0#3 then s.raiseStack false (answer indef)
  else if classOf a = .unsupported then s.raiseInvalid (answer indef)
  else if classOf a = .nan then s.nanOne a answer
  else if invalid a then s.raiseInvalid (answer indef)
  else s.denormalTest (decide (classOf a = .denormal)) (f a)

/-- FABS and FCHS (rules R301, R302): an operation on the bits, which raises only a stack fault. -/
def State.onSign (f : Ext → Ext) (s : State) : State :=
  if s.isEmpty 0#3 then s.raiseStack false fun t => t.setSt 0#3 indef
  else (s.setSt 0#3 (f (s.st 0#3))).withC1 false

/-- The value with its sign bit cleared (rule R301). -/
def clearSign (x : Ext) : Ext := x &&& 0x7FFFFFFFFFFFFFFFFFFF#80

/-- FRNDINT on a value that is no NaN and supported (rule R305). -/
def State.roundInt (a : Ext) (s : State) : State :=
  if classOf a = .infinity ∨ classOf a = .zero then s.withC1 false
  else
    let r := (valOf a).mag.roundTo (signOf a) 0 (rounding s.cw)
    (s.setSt 0#3 (extOf (signOf a) r.mant 0)).inexactOr r.inexact r.up

/-- FSQRT on a value that is no NaN and not negative (rule R307). -/
def State.squareRoot (a : Ext) (s : State) : State :=
  if classOf a = .infinity ∨ classOf a = .zero then s.withC1 false
  else
    match precision s.cw with
    | some p => s.deliver 0#3 false (.root (valOf a).mant (valOf a).exp) p
    | none => ((s.openSt 0#3).openPE).openC1

/-- The own invalid test of FSQRT (rule R307): a negative value that is no zero. -/
def sqrtInvalid (a : Ext) : Bool := signOf a && decide (classOf a ≠ .zero)

/-- The magnitude of a dyadic number as a positive number. -/
def Dyad.abs (x : Dyad) : Dyad := { x with neg := false }

/-- `x - y` for the magnitudes of `a` and of a multiple of `b`: `|a| - q · 2^k · |b|`. -/
def remainderOf (a b : Dyad) (q : Nat) (k : Int) : Dyad := a.abs.add ⟨true, q * b.mant, b.exp + k⟩

/-- The end of a reduction (rule R303): the remainder `± x`, exact; a zero takes the sign of the dividend. -/
def State.deliverRemainder (a : Ext) (x : Dyad) (s : State) : State :=
  if x.mant = 0 then s.setSt 0#3 (zeroOf (signOf a))
  else s.deliver 0#3 (signOf a ^^ x.neg) x.mag 64

/-- The quotient Q of a complete reduction (rules R303, R304): truncated for FPREM, to nearest for FPREM1. -/
def premQuotient (nearest : Bool) (a b : Dyad) : Nat :=
  let q := Mag.ratio a.mant b.mant (a.exp - b.exp)
  if nearest then (q.roundTo false 0 .nearest).mant else q.floorAt 0

/-- FPREM and FPREM1 on two finite nonzero operands (rules R303, R304). -/
def State.reduce (nearest : Bool) (a b : Ext) (s : State) : State :=
  let x := valOf a
  let y := valOf b
  let d := leadExp x.mant x.exp - leadExp y.mant y.exp
  if d < 64 then
    let q := premQuotient nearest x y
    ((((s.deliverRemainder a (remainderOf x y q 0)).withC2 false).withC0 (q.testBit 2)).withC3
      (q.testBit 1)).withC1 (q.testBit 0)
  else
    let k : Int := d - (32 + (Config.premStep d.toNat).toNat)
    let q := (Mag.ratio x.mant y.mant (x.exp - y.exp - k)).floorAt 0
    ((s.deliverRemainder a (remainderOf x y q k)).withC2 true).openC0.openC1.openC3

/-- prem(quot) of rule R303. -/
def State.prem (nearest : Bool) (s : State) : State :=
  let a := s.st 0#3
  let b := s.st 1#3
  let answer (v : Ext) (t : State) : State := t.setSt 0#3 v
  if s.isEmpty 0#3 || s.isEmpty 1#3 then s.raiseStack false (answer indef)
  else if classOf a = .unsupported ∨ classOf b = .unsupported then s.raiseInvalid (answer indef)
  else if classOf a = .nan ∨ classOf b = .nan then s.nanTwo a b answer
  else if classOf a = .infinity ∨ classOf b = .zero then s.raiseInvalid (answer indef)
  else
    s.denormalTest (decide (classOf a = .denormal) || decide (classOf b = .denormal)) fun t =>
      if classOf a = .zero then (((t.withC0 false).withC1 false).withC2 false).withC3 false
      else if classOf b = .infinity then
        (((t.withC0 false).withC2 false).withC3 false).deliver 0#3 (signOf a) (valOf a).mag 64
      else t.reduce nearest a b

/-- The integer FSCALE scales by: the value truncated toward zero (rule R306). -/
def scaleCount (b : Ext) : Int :=
  let m : Int := (valOf b).mag.floorAt 0
  if signOf b then -m else m

/-- The invalid cases of FSCALE (rule R306). -/
def scaleInvalid (a b : Ext) : Bool :=
  (decide (classOf a = .zero) && decide (b = infOf false)) ||
  (decide (classOf a = .infinity) && decide (b = infOf true))

/-- FSCALE (rule R306). -/
def State.scale (s : State) : State :=
  let a := s.st 0#3
  let b := s.st 1#3
  let answer (v : Ext) (t : State) : State := t.setSt 0#3 v
  if s.isEmpty 0#3 || s.isEmpty 1#3 then s.raiseStack false (answer indef)
  else if classOf a = .unsupported ∨ classOf b = .unsupported then s.raiseInvalid (answer indef)
  else if classOf a = .nan ∨ classOf b = .nan then s.nanTwo a b answer
  else if scaleInvalid a b then s.raiseInvalid (answer indef)
  else
    s.denormalTest (decide (classOf a = .denormal) || decide (classOf b = .denormal)) fun t =>
      if classOf a = .infinity ∨ classOf a = .zero then t.withC1 false
      else if classOf b = .infinity then
        (t.setSt 0#3 (if signOf b then zeroOf (signOf a) else infOf (signOf a))).withC1 false
      else
        t.deliver 0#3 (signOf a) (.ratio (valOf a).mant 1 ((valOf a).exp + scaleCount b)) 64

/-- Both results of FXTRACT, FPTAN and FSINCOS in a masked response: ST(0) written, then a push of the same. -/
def State.bothResults (v : Ext) (s : State) : State := (s.setSt 0#3 v).push v

/-- FXTRACT on a finite nonzero value (rule R308): the true exponent, then the significand with exponent 3FFFH. -/
def State.extract (a : Ext) (s : State) : State :=
  let v := valOf a
  ((s.setSt 0#3 (intToExt (leadExp v.mant v.exp))).push
    (mkExt (signOf a) 0x3FFF (v.mant * 2 ^ 63 / 2 ^ v.mant.log2))).withC1 false

/-- FXTRACT (rule R308). -/
def State.xtract (s : State) : State :=
  let a := s.st 0#3
  if s.isEmpty 0#3 then s.raiseStack false (State.bothResults indef)
  else if !s.isEmpty 7#3 then s.raiseStack true (State.bothResults indef)
  else if classOf a = .unsupported then s.raiseInvalid (State.bothResults indef)
  else if classOf a = .nan then s.nanOne a State.bothResults
  else
    s.denormalTest (decide (classOf a = .denormal)) fun t =>
      if classOf a = .zero then t.raiseZeroDivide fun u => (u.setSt 0#3 (infOf true)).push a
      else if classOf a = .infinity then ((t.setSt 0#3 (infOf false)).push a).withC1 false
      else t.extract a

/-- FABS (rule R301). -/
def execFabs (s : State) : Host.Outcome State Fault Refusal :=
  around .waiting .record .fabs (computing fun s => (s.onSign clearSign).openC023) s

/-- FCHS (rule R302). -/
def execFchs (s : State) : Host.Outcome State Fault Refusal :=
  around .waiting .record .fchs (computing fun s => (s.onSign flipSign).openC023) s

/-- FPREM (rule R303). -/
def execFprem (s : State) : Host.Outcome State Fault Refusal :=
  around .waiting .record .fprem (computing (State.prem false)) s

/-- FPREM1 (rule R304). -/
def execFprem1 (s : State) : Host.Outcome State Fault Refusal :=
  around .waiting .record .fprem1 (computing (State.prem true)) s

/-- FRNDINT (rule R305). -/
def execFrndint (s : State) : Host.Outcome State Fault Refusal :=
  around .waiting .record .frndint (computing fun s => (s.unary (fun _ => false) State.roundInt).openC023) s

/-- FSCALE (rule R306). -/
def execFscale (s : State) : Host.Outcome State Fault Refusal :=
  around .waiting .record .fscale (computing fun s => s.scale.openC023) s

/-- FSQRT (rule R307). -/
def execFsqrt (s : State) : Host.Outcome State Fault Refusal :=
  around .waiting .record .fsqrt (computing fun s => (s.unary sqrtInvalid State.squareRoot).openC023) s

/-- FXTRACT (rule R308). -/
def execFxtract (s : State) : Host.Outcome State Fault Refusal :=
  around .waiting .record .fxtract (computing fun s => s.xtract.openC023) s

end Sys2Proof.Machine
end

