-- ==== Sys2Proof/Machine/Transcend.lean ====
section
/-! DEFINITION. The transcendental instructions (40_transcendental.md). What depends on the class of the operands
is computed; the numbers come from the parameter TRANS (rule R200), held to the constraints the rules state: a
function of Config that has no body, replaced by a fixed admitted answer where it would leave the constraint. -/

namespace Sys2Proof.Machine

/-- Is the magnitude of an answer at most `(2^63 + frac) · 2^(exp - 63)`? -/
def Trans.atMost (t : Trans) (exp : Int) (frac : Nat) : Bool :=
  decide (t.exp < exp) || (decide (t.exp = exp) && decide (t.frac.toNat ≤ frac))

/-- Is the magnitude of an answer at least `(2^63 + frac) · 2^(exp - 63)`? -/
def Trans.atLeast (t : Trans) (exp : Int) (frac : Nat) : Bool :=
  decide (exp < t.exp) || (decide (t.exp = exp) && decide (frac ≤ t.frac.toNat))

/-- TRANS.f2xm1 under the constraint of rule R202: the sign of x, magnitude at most 0.5 for a negative and 1 for a
positive x. -/
def transF2xm1 (x : Ext) (rc : Rounding) : Trans :=
  let t := Config.f2xm1 x rc
  let u := { t with neg := signOf x }
  if Trans.atMost t (if signOf x then -1 else 0) 0 then u else { u with exp := -1, frac := 0#63 }

/-- An answer of magnitude at most 1 (rules R203, R206). -/
def atMostOne (t : Trans) : Trans := if Trans.atMost t 0 0 then t else { t with exp := 0, frac := 0#63 }

/-- An answer that overflows nowhere: FPTAN and FYL2XP1 have no overflow exception (rules R205, R209; assumption
18). -/
def notHuge (t : Trans) : Trans := if t.exp < 16384 then t else { t with exp := 16383 }

/-- An answer that underflows nowhere: FCOS has no underflow exception (rule R203; assumption 18). -/
def notTiny (t : Trans) : Trans := if -16382 ≤ t.exp then t else { t with exp := -16382 }

/-- TRANS.cos under the constraint of rule R203. -/
def transCos (x : Ext) (rc : Rounding) : Trans := notTiny (atMostOne (Config.cos x rc))

/-- TRANS.sin under the constraint of rule R206. -/
def transSin (x : Ext) (rc : Rounding) : Trans := atMostOne (Config.sin x rc)

/-- The fraction bits of pi/2, pi/4 and pi below the leading bit, truncated to 64 bits of significand. -/
def piFrac : Nat := 0xC90FDAA22168C234 - 2 ^ 63

/-- The fraction bits of 3pi/4 below the leading bit, truncated to 64 bits of significand. -/
def threePiFrac : Nat := 0x96CBE3F9990E91A7 - 2 ^ 63

/-- A multiple of pi as TRANS.atan2 rounds it, with PE (rule R204): one of its two neighbours. -/
def Trans.toPi (t : Trans) (neg : Bool) (exp : Int) (frac : Nat) : Trans :=
  { t with neg := neg, exp := exp, frac := BitVec.ofNat 63 (frac + t.frac.toNat % 2), pe := true }

/-- TRANS.atan2 under the constraints and the table of rule R204: the sign of y; multiples of pi where an operand is
zero or infinite; else the quadrant, from 0 to pi/2 for a positive and from pi/2 to pi for a negative x. -/
def transAtan2 (y x : Ext) (rc : Rounding) : Trans :=
  let t := Config.atan2 y x rc
  let neg := signOf y
  if classOf y = .infinity then
    if classOf x = .infinity then
      (if signOf x then Trans.toPi t neg 1 threePiFrac else Trans.toPi t neg (-1) piFrac)
    else Trans.toPi t neg 0 piFrac
  else if classOf y = .zero ∨ classOf x = .infinity then Trans.toPi t neg 1 piFrac
  else if classOf x = .zero then Trans.toPi t neg 0 piFrac
  else if signOf x then
    (if Trans.atLeast t 0 piFrac && Trans.atMost t 1 (piFrac + 1) then { t with neg := neg }
     else Trans.toPi t neg 0 piFrac)
  else
    (if Trans.atMost t 0 (piFrac + 1) then { t with neg := neg } else Trans.toPi t neg 0 piFrac)

/-- TRANS.tan, a finite-real number (rule R205). -/
def transTan (x : Ext) (rc : Rounding) : Trans := notHuge (Config.tan x rc)

/-- Is the value below 1, and is it 1? -/
def belowOne (x : Ext) : Bool := (valOf x).less (valOf one)
def isOne (x : Ext) : Bool := (valOf x).same (valOf one)

/-- TRANS.yl2x under the constraint of rule R208: negative where one of "y negative" and "x below 1" holds. -/
def transYl2x (y x : Ext) (rc : Rounding) : Trans :=
  { Config.yl2x y x rc with neg := signOf y ^^ belowOne x }

/-- TRANS.yl2xp1 under the constraint of rule R209: the sign is the exclusive or of the operands' signs. -/
def transYl2xp1 (y x : Ext) (rc : Rounding) : Trans :=
  { notHuge (Config.yl2xp1 y x rc) with neg := signOf y ^^ signOf x }

/-- Does the part accept narrower operand ranges, which it does not check (rule R201)? -/
def State.narrowRanges (s : State) : Bool := decide (s.cfg.gen.rank < Gen.g387.rank)

/-- Is `|x|` at most the magnitude of `y`? -/
def absAtMost (x y : Ext) : Bool := !((valOf y).abs.less (valOf x).abs)

/-- 0.5 and pi/4 rounded down, the bounds of the 8087 and 287 (rule R201). -/
def half : Ext := 0x3FFE8000000000000000#80
def quarterPi : Ext := 0x3FFEC90FDAA22168C234#80

/-- Does F2XM1 take the operand (rules R201, R202)? -/
def State.f2xm1Takes (x : Ext) (s : State) : Bool :=
  decide (classOf x ≠ .infinity) &&
    (if s.narrowRanges then !signOf x && absAtMost x half else absAtMost x one)

/-- A result the source calls undefined, with the flags that depend on it: underflow, precision and C1. -/
def State.openResult (i : BitVec 3) (s : State) : State := ((s.openSt i).openUE.openPE).openC1

/-- F2XM1 (rule R202). Out of range the source calls the result undefined: a free value, with the flags. -/
def State.f2xm1 (s : State) : State :=
  let x := s.st 0#3
  let answer (v : Ext) (t : State) : State := t.setSt 0#3 v
  if s.isEmpty 0#3 then s.raiseStack false (answer indef)
  else if classOf x = .unsupported then s.raiseInvalid (answer indef)
  else if classOf x = .nan then s.nanOne x answer
  else
    s.denormalTest (decide (classOf x = .denormal)) fun t =>
      if classOf x = .zero then t.withC1 false
      else if !t.f2xm1Takes x then t.openResult 0#3
      else t.finish 0#3 (transF2xm1 x (rounding t.cw))

/-- The invalid cases of the trigonometric instructions: C2 is cleared, whether IA is masked or not (the line
`SW.C2 <- 0` of rules R203 and R205 to R207 stands outside the masked response, and their flag text has C2 "otherwise,
cleared to 0"). DESIGN CHOICE (assumption 17): unmasked, rules R522, R537 and R539 have nothing else change. -/
def State.trigInvalid (masked : State → State) (s : State) : State := (s.raiseInvalid masked).withC2 false

/-- The NaN cases of the trigonometric instructions, likewise (rules R203, R205 to R207). -/
def State.trigNaN (x : Ext) (write : Ext → State → State) (s : State) : State := (s.nanOne x write).withC2 false

/-- Is the magnitude 2^63 or more, the out-of-range case of the trigonometric instructions (rule R203)? -/
def trigOutOfRange (x : Ext) : Bool := decide (16383 + 63 ≤ expoOf x)

/-- FSIN and FCOS (rules R203, R206): `badFormat` is the step for an Unsupported operand (FCOS does not clear C2
there), `zero` the step for a zero operand, `f` the function of TRANS. DESIGN CHOICE (assumption 17): after a stack
fault or an unmasked DE C2 is as it was, for the pseudocode assigns nothing, where the flag text says "otherwise,
cleared to 0". -/
def State.trig (badFormat : State → State) (zero : State → State) (f : Ext → Rounding → Trans) (s : State) : State :=
  let x := s.st 0#3
  let answer (v : Ext) (t : State) : State := t.setSt 0#3 v
  if s.isEmpty 0#3 then s.raiseStack false (answer indef)
  else if classOf x = .unsupported then badFormat s
  else if classOf x = .nan then s.trigNaN x answer
  else if classOf x = .infinity then s.trigInvalid (answer indef)
  else
    s.denormalTest (decide (classOf x = .denormal)) fun t =>
      if classOf x = .zero then ((zero t).withC1 false).withC2 false
      else if trigOutOfRange x then (t.withC2 true).openC1
      else (t.finish 0#3 (f x (rounding t.cw))).withC2 false

/-- The masked answer INDEF in ST(0). -/
def State.indefSt0 (s : State) : State := s.setSt 0#3 indef

/-- FPTAN takes |x| up to pi/4, not negative, on the 8087 and 287 (rule R201). -/
def State.fptanTakes (x : Ext) (s : State) : Bool :=
  !s.narrowRanges || (!signOf x && absAtMost x quarterPi)

/-- The front of FPTAN and FSINCOS (rules R205, R207), which push a second result; `zero` and `f` are the steps for
a zero and for an in-range operand, `takes` tells the operands the part accepts. DESIGN CHOICE (assumption 17): after a
stack fault or an unmasked DE C2 is as it was, as in `State.trig`. -/
def State.trigPair (takes : Ext → State → Bool) (f : Ext → State → State) (s : State) : State :=
  let x := s.st 0#3
  if s.isEmpty 0#3 then s.raiseStack false (State.bothResults indef)
  else if !s.isEmpty 7#3 then s.raiseStack true (State.bothResults indef)
  else if classOf x = .unsupported ∨ classOf x = .infinity then s.trigInvalid (State.bothResults indef)
  else if classOf x = .nan then s.trigNaN x State.bothResults
  else
    s.denormalTest (decide (classOf x = .denormal)) fun t =>
      if classOf x = .zero then ((t.push one).withC1 false).withC2 false
      else if !takes x t then ((t.openResult 0#3).push one).openC2
      else if trigOutOfRange x then (t.withC2 true).openC1
      else (f x t).withC2 false

/-- FPTAN in range (rule R205): the tangent in ST(0), then a push of 1.0. -/
def State.tangent (x : Ext) (s : State) : State :=
  (s.finish 0#3 (transTan x (rounding s.cw))).push one

/-- The push of the cosine of FSINCOS (rule R207). -/
def State.pushCosine (t : Trans) (s : State) : State :=
  let u := s.push (extOf t.neg (2 ^ 63 + t.frac.toNat) (t.exp - 63))
  if t.pe then u.raiseInexact t.c1 else u

/-- FSINCOS in range (rule R207): the sine in ST(0), then a push of the cosine. -/
def State.sineCosine (x : Ext) (s : State) : State :=
  (s.finish 0#3 (transSin x (rounding s.cw))).pushCosine (transCos x (rounding s.cw))

/-- The exact cases of FPATAN (rule R204): a zero with the sign of y. -/
def atanExact (y x : Ext) : Bool :=
  !signOf x && (decide (classOf y = .zero) || (isFinite y && decide (classOf x = .infinity)))

/-- FPATAN takes `|y| < |x| < +Infinity` on the 8087 and 287 (rules R201, R204). -/
def State.fpatanTakes (y x : Ext) (s : State) : Bool :=
  !s.narrowRanges ||
    (decide (classOf x ≠ .infinity) && decide (classOf y ≠ .infinity) && (valOf y).abs.less (valOf x).abs)

/-- The front of FPATAN, FYL2X and FYL2XP1 (rule R201), whose result goes to ST(1) before a pop. -/
def State.pairFront (f : Ext → Ext → State → State) (s : State) : State :=
  let x := s.st 0#3
  let y := s.st 1#3
  let answer (v : Ext) (t : State) : State := (t.setSt 1#3 v).pop
  if s.isEmpty 0#3 || s.isEmpty 1#3 then s.raiseStack false (answer indef)
  else if classOf x = .unsupported ∨ classOf y = .unsupported then s.raiseInvalid (answer indef)
  else if classOf x = .nan ∨ classOf y = .nan then s.nanTwo y x answer
  else f y x s

/-- The denormal test of two operands. -/
def eitherDenormal (y x : Ext) : Bool := decide (classOf x = .denormal) || decide (classOf y = .denormal)

/-- FPATAN after the common checks (rule R204). -/
def State.arctan (y x : Ext) (s : State) : State :=
  s.denormalTest (eitherDenormal y x) fun t =>
    if !t.fpatanTakes y x then (t.openResult 1#3).pop
    else if atanExact y x then ((t.setSt 1#3 (zeroOf (signOf y))).withC1 false).pop
    else (t.finish 1#3 (transAtan2 y x (rounding t.cw))).pop

/-- The invalid cells of the table of FYL2X (rule R208). -/
def yl2xInvalid (y x : Ext) : Bool :=
  (signOf x && decide (classOf x ≠ .zero)) ||
  (decide (classOf y = .zero) && (decide (classOf x = .zero) || decide (classOf x = .infinity))) ||
  (decide (classOf y = .infinity) && isFinite x && isOne x)

/-- The exact cells of the table of FYL2X (rule R208), x not negative: an infinite or zero y, x = 1, x infinite. -/
def yl2xExact (y x : Ext) : Option Ext :=
  if classOf x = .infinity then some (infOf (signOf y))
  else if classOf y = .infinity then some (infOf (signOf y ^^ belowOne x))
  else if classOf y = .zero then some (zeroOf (signOf y ^^ belowOne x))
  else if isOne x then some (zeroOf (signOf y))
  else none

/-- FYL2X after the common checks (rule R208). -/
def State.yl2x (y x : Ext) (s : State) : State :=
  let answer (v : Ext) (t : State) : State := (t.setSt 1#3 v).pop
  if yl2xInvalid y x then s.raiseInvalid (answer indef)
  else if classOf x = .zero ∧ isFinite y then s.raiseZeroDivide (answer (infOf (!signOf y)))
  else
    s.denormalTest (eitherDenormal y x) fun t =>
      match yl2xExact y x with
      | some v => answer v (t.withC1 false)
      | none => (t.finish 1#3 (transYl2x y x (rounding t.cw))).pop

/-- Is `|x|` at most `1 - sqrt(2)/2`, compared exactly (rule R209)? With `|x| = m / d` this is
`m ≤ d` and `2 (d - m)^2 ≥ d^2`. -/
def yl2xp1InRange (x : Ext) : Bool :=
  let v := valOf x
  if 0 ≤ v.exp then decide (v.mant = 0)
  else
    let d := 2 ^ (-v.exp).toNat
    decide (v.mant ≤ d) && decide (d * d ≤ 2 * ((d - v.mant) * (d - v.mant)))

/-- FYL2XP1 with x out of range (rule R209): the result is undefined and exceptions may or may not be generated,
so each flag, C1 and the result are free; a generated pre-operation exception that is unmasked ends the instruction
without a result (rule R528). -/
def State.yl2xp1Open (s : State) : State :=
  let bi := Config.freeBit s.draws
  let bd := Config.freeBit (s.draws + 1)
  let bz := Config.freeBit (s.draws + 2)
  let t := { s with
    sw := { s.sw with ie := s.sw.ie || bi, de := s.sw.de || bd, ze := s.sw.ze || bz }
    draws := s.draws + 3 }
  if (bi && !s.cw.getLsbD 0) || (bd && !s.cw.getLsbD 1) || (bz && !s.cw.getLsbD 2) then t.openC1
  else (t.openDelivery 1#3).pop

/-- FYL2XP1 after the common checks (rule R209). -/
def State.yl2xp1 (y x : Ext) (s : State) : State :=
  let answer (v : Ext) (t : State) : State := (t.setSt 1#3 v).pop
  if classOf x = .infinity ∨ !yl2xp1InRange x then s.yl2xp1Open
  else if classOf x = .zero ∧ classOf y = .infinity then s.raiseInvalid (answer indef)
  else
    s.denormalTest (eitherDenormal y x) fun t =>
      if classOf x = .zero ∨ classOf y = .zero then answer (zeroOf (signsDiffer y x)) (t.withC1 false)
      else if classOf y = .infinity then answer (infOf (signsDiffer y x)) (t.withC1 false)
      else (t.finish 1#3 (transYl2xp1 y x (rounding t.cw))).pop

/-- F2XM1 (rule R202). -/
def execF2xm1 (s : State) : Host.Outcome State Fault Refusal :=
  around .waiting .record .f2xm1 (computing fun s => s.f2xm1.openC023) s

/-- FCOS (rule R203). -/
def execFcos (s : State) : Host.Outcome State Fault Refusal :=
  around .waiting .record .fcos (computing fun s =>
    (s.trig (State.raiseInvalid State.indefSt0) (fun t => t.setSt 0#3 one) transCos).openC03) s

/-- FPATAN (rule R204). -/
def execFpatan (s : State) : Host.Outcome State Fault Refusal :=
  around .waiting .record .fpatan (computing fun s => (s.pairFront State.arctan).openC023) s

/-- FPTAN (rule R205). -/
def execFptan (s : State) : Host.Outcome State Fault Refusal :=
  around .waiting .record .fptan (computing fun s => (s.trigPair State.fptanTakes State.tangent).openC03) s

/-- FSIN (rule R206). -/
def execFsin (s : State) : Host.Outcome State Fault Refusal :=
  around .waiting .record .fsin (computing fun s => (s.trig (State.trigInvalid State.indefSt0) id transSin).openC03) s

/-- FSINCOS (rule R207). -/
def execFsincos (s : State) : Host.Outcome State Fault Refusal :=
  around .waiting .record .fsincos (computing fun s => (s.trigPair (fun _ _ => true) State.sineCosine).openC03) s

/-- FYL2X (rule R208). -/
def execFyl2x (s : State) : Host.Outcome State Fault Refusal :=
  around .waiting .record .fyl2x (computing fun s => (s.pairFront State.yl2x).openC023) s

/-- FYL2XP1 (rule R209). -/
def execFyl2xp1 (s : State) : Host.Outcome State Fault Refusal :=
  around .waiting .record .fyl2xp1 (computing fun s => (s.pairFront State.yl2xp1).openC023) s

end Sys2Proof.Machine
end

