-- ==== Sys2Proof/Machine/Transfer.lean ====
section
/-! DEFINITION. Data transfer (43_data_transfer.md): BCD, conditional moves, integer and real loads and stores, the
constants, FXCH. -/

namespace Sys2Proof.Machine

/-- A load: `push(v)`, or the stack overflow of a non-empty ST(7) (rules R330, R341, R352, R354). -/
def State.load (v : Ext) (s : State) : State :=
  if !s.isEmpty 7#3 then s.raiseStack true fun t => t.push indef else (s.push v).withC1 false

/-- FBLD (rule R330). A digit AH to FH makes the result undefined: a free value is pushed. -/
def State.loadBcd (bs : List Byte) (s : State) : State :=
  if bcdValid (bs.take 9) then
    s.load (extOf ((bs.getD 9 0#8).getLsbD 7) (bcdMagnitude (bs.take 9)) 0)
  else if !s.isEmpty 7#3 then s.load 0#80
  else (s.load (Config.freeExt s.draws)).drawn

/-- A stack underflow of a store: the masked response stores the indefinite and pops (rules R331, R344, R362). -/
def State.storeStack (bs : List Byte) (pop : Bool) (s : State) : State × Option (List Byte) :=
  (s.raiseStack false (State.popIf pop), if s.cw.getLsbD 0 then some bs else none)

/-- An invalid operation of a store: the masked response stores `bs` and pops; unmasked, no value is stored
(rules R331, R344, R362, R94). -/
def State.storeInvalid (bs : List Byte) (pop : Bool) (s : State) : State × Option (List Byte) :=
  (s.raiseInvalid (State.popIf pop), if s.cw.getLsbD 0 then some bs else none)

/-- The classes no integer can be made of (rules R331, R344). -/
def notANumber (a : Ext) : Bool :=
  decide (classOf a = .unsupported) || decide (classOf a = .nan) || decide (classOf a = .infinity)

/-- The value rounded to an integer by CW.RC (rule R61); 0 for a zero. -/
def toInteger (a : Ext) (rc : Rounding) : Rounded :=
  if classOf a = .zero then ⟨0, 0, false, false⟩ else (valOf a).mag.roundTo (signOf a) 0 rc

/-- The shape of FIST, FISTP and FBSTP (rules R331, R344): `fits` is the range test on the rounded integer, `image`
its bytes, `bad` the indefinite. -/
def State.storeRounded (fits : Nat → Bool) (image : Nat → List Byte) (bad : List Byte) (pop : Bool)
    (s : State) : State × Option (List Byte) :=
  let a := s.st 0#3
  let r := toInteger a (rounding s.cw)
  if s.isEmpty 0#3 then s.storeStack bad pop
  else if notANumber a then s.storeInvalid bad pop
  else if !fits r.mant then s.storeInvalid bad pop
  else (State.popIf pop (s.inexactOr r.inexact r.up), some (image r.mant))

/-- The undefined flags after a store: C0, C2, C3 on every path. -/
def openAfter (x : State × Option (List Byte)) : State × Option (List Byte) := (x.1.openC023, x.2)

/-- The signed integer of a rounded magnitude. -/
def withSign (neg : Bool) (n : Nat) : Int := if neg then -(n : Int) else n

/-- to_int(w, addr, do_pop) (rule R344): the rounded integer must lie in -2^(w-1), …, 2^(w-1) - 1. -/
def State.storeInt (w : Nat) (pop : Bool) (s : State) : State × Option (List Byte) :=
  let neg := signOf (s.st 0#3)
  s.storeRounded
    (fun n => decide (-(2 ^ (w - 1) : Int) ≤ withSign neg n) && decide (withSign neg n < 2 ^ (w - 1)))
    (fun n => leBytes (w / 8) (unsignedOf w (withSign neg n))) (leBytes (w / 8) (intIndef w)) pop

/-- FBSTP (rule R331): the rounded integer must be below 10^18. -/
def State.storeBcd (s : State) : State × Option (List Byte) :=
  s.storeRounded (fun n => decide (n < 10 ^ 18)) (bcdBytes (signOf (s.st 0#3))) bcdIndefinite true

/-- to_real(fmt, addr, do_pop) on a finite nonzero value (rule R362). -/
def State.storeFinite (f : RealFmt) (pop : Bool) (a : Ext) (s : State) : State × Option (List Byte) :=
  let neg := signOf a
  let rc := rounding s.cw
  let x := (valOf a).mag
  let p := f.fracBits + 1
  let r := x.roundPrec neg p rc
  if f.emax + 1 ≤ leadExp r.mant r.exp then
    if s.cw.getLsbD 3 then
      (State.popIf pop (s.flagOverflow.raiseInexact (toInfinity rc neg)),
        some (leBytes f.bytes (if toInfinity rc neg then f.infinity neg else f.largest neg)))
    else (s.flagOverflow.withC1 false, none)
  else if leadExp r.mant r.exp < f.emin then
    if s.cw.getLsbD 4 then
      let d := x.roundTo neg (f.emin - p + 1) rc
      let t := if d.inexact then s.flagUnderflow.raiseInexact d.up else s.withC1 false
      (State.popIf pop t, some (leBytes f.bytes (f.encode neg d.mant d.exp)))
    else (s.flagUnderflow.withC1 false, none)
  else (State.popIf pop (s.inexactOr r.inexact r.up), some (leBytes f.bytes (f.encode neg r.mant r.exp)))

/-- to_real(fmt, addr, do_pop) (rule R362). -/
def State.storeReal (f : RealFmt) (pop : Bool) (s : State) : State × Option (List Byte) :=
  let a := s.st 0#3
  if s.isEmpty 0#3 then s.storeStack (leBytes f.bytes f.indefinite) pop
  else if classOf a = .unsupported then s.storeInvalid (leBytes f.bytes f.indefinite) pop
  else if isSNaN a then s.storeInvalid (leBytes f.bytes (f.narrow (quiet a))) pop
  else if isFinite a then s.storeFinite f pop a
  else (State.popIf pop (s.withC1 false), some (leBytes f.bytes (f.narrow a)))

/-- FSTP m80real (rule R368): the 80 bits as they are. -/
def State.storeExt (s : State) : State × Option (List Byte) :=
  if s.isEmpty 0#3 then s.storeStack (leBytes 10 indef.toNat) true
  else ((s.withC1 false).pop, some (leBytes 10 (s.st 0#3).toNat))

/-- FLD m32real and m64real (rules R350, R351): exact; a denormal is flagged and pushed even with DM = 0. -/
def State.loadReal (b : Operand) (s : State) : State :=
  if !s.isEmpty 7#3 then s.raiseStack true fun t => t.push indef
  else if isSNaN b.bits then s.raiseInvalid fun t => t.push (quiet b.bits)
  else
    let t := if b.denMem then s.raiseDenormal id id else s
    (t.push b.bits).withC1 false

/-- FLD ST(i) (rule R353): an empty source is an underflow, tested first. -/
def State.loadSt (i : BitVec 3) (s : State) : State :=
  if s.isEmpty i then s.raiseStack false fun t => t.push indef else s.load (s.st i)

/-- ldconst(lo, near_is_hi) (rule R354): the truncated constant or its upper neighbour, by CW.RC. -/
def constantFor (lo : Ext) (nearIsHi : Bool) (rc : Rounding) : Ext :=
  match rc with
  | .down => lo
  | .chop => lo
  | .up => lo + 1#80
  | .nearest => if nearIsHi then lo + 1#80 else lo

/-- A load-constant instruction (rule R354). -/
def loadConstant (lo : Ext) (nearIsHi : Bool) : State → Except Fault State :=
  computing fun s => (s.load (constantFor lo nearIsHi (rounding s.cw))).openC023

/-- st_reg(i, do_pop) (rule R365): a copy of the bits. -/
def State.copyTo (i : BitVec 3) (pop : Bool) (s : State) : State :=
  if s.isEmpty 0#3 then s.raiseStack false fun t => State.popIf pop (t.setSt i indef)
  else State.popIf pop ((s.setSt i (s.st 0#3)).withC1 false)

/-- Contents and tags of ST(0) and ST(i) exchanged (rule R370). -/
def State.exchange (i : BitVec 3) (s : State) : State :=
  (s.setReg (s.phys 0#3) (s.st i) (s.tag (s.phys i))).setReg (s.phys i) (s.st 0#3) (s.tag (s.phys 0#3))

/-- `if empty(i): ST(i) <- INDEF`. -/
def State.fillEmpty (i : BitVec 3) (s : State) : State := if s.isEmpty i then s.setSt i indef else s

/-- FXCH (rule R370). -/
def State.swap (i : BitVec 3) (s : State) : State :=
  if s.isEmpty 0#3 || s.isEmpty i then
    s.raiseStack false fun t => ((t.fillEmpty 0#3).fillEmpty i).exchange i
  else (s.exchange i).withC1 false

/-- fcmov(cond, i) (rule R332). -/
def State.moveIf (cond : Bool) (i : BitVec 3) (s : State) : State :=
  if s.isEmpty 0#3 || s.isEmpty i then s.raiseStack false fun t => t.setSt 0#3 indef
  else (if cond then s.setSt 0#3 (s.st i) else s).withC1 false

/-- An FCMOVcc instruction: the condition reads the host flags (rules R57, R332). -/
def conditionalMove (cond : State → Bool) (i : BitVec 3) : State → Except Fault State :=
  computing fun s => (s.moveIf (cond s) i).openC023

/-- An integer load (rules R341 to R343). -/
def loadInteger (w : Nat) (addr : Addr) : State → Except Fault State :=
  loading addr (w / 8) fun bs s => (s.load (intToExt (signedOf w (leNat bs)))).openC023

/-- An integer store (rule R344). -/
def storeInteger (w : Nat) (pop : Bool) (addr : Addr) : State → Except Fault State :=
  storing addr (w / 8) fun s => openAfter (s.storeInt w pop)

/-- A real load with conversion (rules R350, R351). -/
def loadRealFrom (f : RealFmt) (addr : Addr) : State → Except Fault State :=
  loading addr f.bytes fun bs s => (s.loadReal (f.toExt (leNat bs))).openC023

/-- A real store with conversion (rule R362). -/
def storeRealTo (f : RealFmt) (pop : Bool) (addr : Addr) : State → Except Fault State :=
  storing addr f.bytes fun s => openAfter (s.storeReal f pop)

/-- FBLD m80bcd (rule R330). -/
def execFbld (addr : Addr) (s : State) : Host.Outcome State Fault Refusal :=
  around .waiting .record (.fbld addr) (loading addr 10 fun bs s => (s.loadBcd bs).openC023) s

/-- FBSTP m80bcd (rule R331). -/
def execFbstp (addr : Addr) (s : State) : Host.Outcome State Fault Refusal :=
  around .waiting .record (.fbstp addr) (storing addr 10 fun s => openAfter s.storeBcd) s

/-- FCMOVB ST(0),ST(i) (rule R333). -/
def execFcmovb (i : BitVec 3) (s : State) : Host.Outcome State Fault Refusal :=
  around .waiting .record (.fcmovb i) (conditionalMove (fun s => s.cf) i) s

/-- FCMOVE ST(0),ST(i) (rule R334). -/
def execFcmove (i : BitVec 3) (s : State) : Host.Outcome State Fault Refusal :=
  around .waiting .record (.fcmove i) (conditionalMove (fun s => s.zf) i) s

/-- FCMOVBE ST(0),ST(i) (rule R335). -/
def execFcmovbe (i : BitVec 3) (s : State) : Host.Outcome State Fault Refusal :=
  around .waiting .record (.fcmovbe i) (conditionalMove (fun s => s.cf || s.zf) i) s

/-- FCMOVU ST(0),ST(i) (rule R336). -/
def execFcmovu (i : BitVec 3) (s : State) : Host.Outcome State Fault Refusal :=
  around .waiting .record (.fcmovu i) (conditionalMove (fun s => s.pf) i) s

/-- FCMOVNB ST(0),ST(i) (rule R337). -/
def execFcmovnb (i : BitVec 3) (s : State) : Host.Outcome State Fault Refusal :=
  around .waiting .record (.fcmovnb i) (conditionalMove (fun s => !s.cf) i) s

/-- FCMOVNE ST(0),ST(i) (rule R338). -/
def execFcmovne (i : BitVec 3) (s : State) : Host.Outcome State Fault Refusal :=
  around .waiting .record (.fcmovne i) (conditionalMove (fun s => !s.zf) i) s

/-- FCMOVNBE ST(0),ST(i) (rule R339). -/
def execFcmovnbe (i : BitVec 3) (s : State) : Host.Outcome State Fault Refusal :=
  around .waiting .record (.fcmovnbe i) (conditionalMove (fun s => !s.cf && !s.zf) i) s

/-- FCMOVNU ST(0),ST(i) (rule R340). -/
def execFcmovnu (i : BitVec 3) (s : State) : Host.Outcome State Fault Refusal :=
  around .waiting .record (.fcmovnu i) (conditionalMove (fun s => !s.pf) i) s

/-- FILD m16int (rule R341). -/
def execFildM16 (addr : Addr) (s : State) : Host.Outcome State Fault Refusal :=
  around .waiting .record (.fildM16 addr) (loadInteger 16 addr) s

/-- FILD m32int (rule R342). -/
def execFildM32 (addr : Addr) (s : State) : Host.Outcome State Fault Refusal :=
  around .waiting .record (.fildM32 addr) (loadInteger 32 addr) s

/-- FILD m64int (rule R343). -/
def execFildM64 (addr : Addr) (s : State) : Host.Outcome State Fault Refusal :=
  around .waiting .record (.fildM64 addr) (loadInteger 64 addr) s

/-- FIST m16int (rule R345). -/
def execFistM16 (addr : Addr) (s : State) : Host.Outcome State Fault Refusal :=
  around .waiting .record (.fistM16 addr) (storeInteger 16 false addr) s

/-- FIST m32int (rule R346). -/
def execFistM32 (addr : Addr) (s : State) : Host.Outcome State Fault Refusal :=
  around .waiting .record (.fistM32 addr) (storeInteger 32 false addr) s

/-- FISTP m16int (rule R347). -/
def execFistpM16 (addr : Addr) (s : State) : Host.Outcome State Fault Refusal :=
  around .waiting .record (.fistpM16 addr) (storeInteger 16 true addr) s

/-- FISTP m32int (rule R348). -/
def execFistpM32 (addr : Addr) (s : State) : Host.Outcome State Fault Refusal :=
  around .waiting .record (.fistpM32 addr) (storeInteger 32 true addr) s

/-- FISTP m64int (rule R349). -/
def execFistpM64 (addr : Addr) (s : State) : Host.Outcome State Fault Refusal :=
  around .waiting .record (.fistpM64 addr) (storeInteger 64 true addr) s

/-- FLD m32real (rule R350). -/
def execFldM32 (addr : Addr) (s : State) : Host.Outcome State Fault Refusal :=
  around .waiting .record (.fldM32 addr) (loadRealFrom single addr) s

/-- FLD m64real (rule R351). -/
def execFldM64 (addr : Addr) (s : State) : Host.Outcome State Fault Refusal :=
  around .waiting .record (.fldM64 addr) (loadRealFrom double addr) s

/-- FLD m80real (rule R352). -/
def execFldM80 (addr : Addr) (s : State) : Host.Outcome State Fault Refusal :=
  around .waiting .record (.fldM80 addr) (loading addr 10 fun bs s => (s.load (BitVec.ofNat 80 (leNat bs))).openC023) s

/-- FLD ST(i) (rule R353). -/
def execFldSt (i : BitVec 3) (s : State) : Host.Outcome State Fault Refusal :=
  around .waiting .record (.fldSt i) (computing fun s => (s.loadSt i).openC023) s

/-- FLD1 (rule R355). -/
def execFld1 (s : State) : Host.Outcome State Fault Refusal :=
  around .waiting .record .fld1 (computing fun s => (s.load one).openC023) s

/-- FLDL2T (rule R356). -/
def execFldl2t (s : State) : Host.Outcome State Fault Refusal :=
  around .waiting .record .fldl2t (loadConstant 0x4000D49A784BCD1B8AFE#80 false) s

/-- FLDL2E (rule R357). -/
def execFldl2e (s : State) : Host.Outcome State Fault Refusal :=
  around .waiting .record .fldl2e (loadConstant 0x3FFFB8AA3B295C17F0BB#80 true) s

/-- FLDPI (rule R358). -/
def execFldpi (s : State) : Host.Outcome State Fault Refusal :=
  around .waiting .record .fldpi (loadConstant 0x4000C90FDAA22168C234#80 true) s

/-- FLDLG2 (rule R359). -/
def execFldlg2 (s : State) : Host.Outcome State Fault Refusal :=
  around .waiting .record .fldlg2 (loadConstant 0x3FFD9A209A84FBCFF798#80 true) s

/-- FLDLN2 (rule R360). -/
def execFldln2 (s : State) : Host.Outcome State Fault Refusal :=
  around .waiting .record .fldln2 (loadConstant 0x3FFEB17217F7D1CF79AB#80 true) s

/-- FLDZ (rule R361). -/
def execFldz (s : State) : Host.Outcome State Fault Refusal :=
  around .waiting .record .fldz (computing fun s => (s.load (zeroOf false)).openC023) s

/-- FST m32real (rule R363). -/
def execFstM32 (addr : Addr) (s : State) : Host.Outcome State Fault Refusal :=
  around .waiting .record (.fstM32 addr) (storeRealTo single false addr) s

/-- FST m64real (rule R364). -/
def execFstM64 (addr : Addr) (s : State) : Host.Outcome State Fault Refusal :=
  around .waiting .record (.fstM64 addr) (storeRealTo double false addr) s

/-- FST ST(i) (rule R365). -/
def execFstSt (i : BitVec 3) (s : State) : Host.Outcome State Fault Refusal :=
  around .waiting .record (.fstSt i) (computing fun s => (s.copyTo i false).openC023) s

/-- FSTP m32real (rule R366). -/
def execFstpM32 (addr : Addr) (s : State) : Host.Outcome State Fault Refusal :=
  around .waiting .record (.fstpM32 addr) (storeRealTo single true addr) s

/-- FSTP m64real (rule R367). -/
def execFstpM64 (addr : Addr) (s : State) : Host.Outcome State Fault Refusal :=
  around .waiting .record (.fstpM64 addr) (storeRealTo double true addr) s

/-- FSTP m80real (rule R368). -/
def execFstpM80 (addr : Addr) (s : State) : Host.Outcome State Fault Refusal :=
  around .waiting .record (.fstpM80 addr) (storing addr 10 fun s => openAfter s.storeExt) s

/-- FSTP ST(i) (rule R369). -/
def execFstpSt (i : BitVec 3) (s : State) : Host.Outcome State Fault Refusal :=
  around .waiting .record (.fstpSt i) (computing fun s => (s.copyTo i true).openC023) s

/-- FXCH ST(i) (rule R370). -/
def execFxch (i : BitVec 3) (s : State) : Host.Outcome State Fault Refusal :=
  around .waiting .record (.fxch i) (computing fun s => (s.swap i).openC023) s

end Sys2Proof.Machine
end

