-- ==== Sys2Proof/Machine/Dispatch.lean ====
section
/-! DEFINITION. One arm per instruction: each calls its meaning. -/

namespace Sys2Proof.Machine

def exec (i : Instr) (s : State) : Host.Outcome State Fault Refusal :=
  match i with
  | .faddM32 addr => Sys2Proof.Machine.execFaddM32 addr s
  | .faddM64 addr => Sys2Proof.Machine.execFaddM64 addr s
  | .faddSt0 k => Sys2Proof.Machine.execFaddSt0 k s
  | .faddSti k => Sys2Proof.Machine.execFaddSti k s
  | .faddp k => Sys2Proof.Machine.execFaddp k s
  | .fiaddM16 addr => Sys2Proof.Machine.execFiaddM16 addr s
  | .fiaddM32 addr => Sys2Proof.Machine.execFiaddM32 addr s
  | .fdivM32 addr => Sys2Proof.Machine.execFdivM32 addr s
  | .fdivM64 addr => Sys2Proof.Machine.execFdivM64 addr s
  | .fdivSt0 k => Sys2Proof.Machine.execFdivSt0 k s
  | .fdivSti k => Sys2Proof.Machine.execFdivSti k s
  | .fdivp k => Sys2Proof.Machine.execFdivp k s
  | .fidivM16 addr => Sys2Proof.Machine.execFidivM16 addr s
  | .fidivM32 addr => Sys2Proof.Machine.execFidivM32 addr s
  | .fdivrM32 addr => Sys2Proof.Machine.execFdivrM32 addr s
  | .fdivrM64 addr => Sys2Proof.Machine.execFdivrM64 addr s
  | .fdivrSt0 k => Sys2Proof.Machine.execFdivrSt0 k s
  | .fdivrSti k => Sys2Proof.Machine.execFdivrSti k s
  | .fdivrp k => Sys2Proof.Machine.execFdivrp k s
  | .fidivrM16 addr => Sys2Proof.Machine.execFidivrM16 addr s
  | .fidivrM32 addr => Sys2Proof.Machine.execFidivrM32 addr s
  | .fmulM32 addr => Sys2Proof.Machine.execFmulM32 addr s
  | .fmulM64 addr => Sys2Proof.Machine.execFmulM64 addr s
  | .fmulSt0 k => Sys2Proof.Machine.execFmulSt0 k s
  | .fmulSti k => Sys2Proof.Machine.execFmulSti k s
  | .fmulp k => Sys2Proof.Machine.execFmulp k s
  | .fimulM16 addr => Sys2Proof.Machine.execFimulM16 addr s
  | .fimulM32 addr => Sys2Proof.Machine.execFimulM32 addr s
  | .fsubM32 addr => Sys2Proof.Machine.execFsubM32 addr s
  | .fsubM64 addr => Sys2Proof.Machine.execFsubM64 addr s
  | .fsubSt0 k => Sys2Proof.Machine.execFsubSt0 k s
  | .fsubSti k => Sys2Proof.Machine.execFsubSti k s
  | .fsubp k => Sys2Proof.Machine.execFsubp k s
  | .fisubM16 addr => Sys2Proof.Machine.execFisubM16 addr s
  | .fisubM32 addr => Sys2Proof.Machine.execFisubM32 addr s
  | .fsubrM32 addr => Sys2Proof.Machine.execFsubrM32 addr s
  | .fsubrM64 addr => Sys2Proof.Machine.execFsubrM64 addr s
  | .fsubrSt0 k => Sys2Proof.Machine.execFsubrSt0 k s
  | .fsubrSti k => Sys2Proof.Machine.execFsubrSti k s
  | .fsubrp k => Sys2Proof.Machine.execFsubrp k s
  | .fisubrM16 addr => Sys2Proof.Machine.execFisubrM16 addr s
  | .fisubrM32 addr => Sys2Proof.Machine.execFisubrM32 addr s
  | .f2xm1 => Sys2Proof.Machine.execF2xm1 s
  | .fcos => Sys2Proof.Machine.execFcos s
  | .fpatan => Sys2Proof.Machine.execFpatan s
  | .fptan => Sys2Proof.Machine.execFptan s
  | .fsin => Sys2Proof.Machine.execFsin s
  | .fsincos => Sys2Proof.Machine.execFsincos s
  | .fyl2x => Sys2Proof.Machine.execFyl2x s
  | .fyl2xp1 => Sys2Proof.Machine.execFyl2xp1 s
  | .fabs => Sys2Proof.Machine.execFabs s
  | .fchs => Sys2Proof.Machine.execFchs s
  | .fprem => Sys2Proof.Machine.execFprem s
  | .fprem1 => Sys2Proof.Machine.execFprem1 s
  | .frndint => Sys2Proof.Machine.execFrndint s
  | .fscale => Sys2Proof.Machine.execFscale s
  | .fsqrt => Sys2Proof.Machine.execFsqrt s
  | .fxtract => Sys2Proof.Machine.execFxtract s
  | .fbld addr => Sys2Proof.Machine.execFbld addr s
  | .fbstp addr => Sys2Proof.Machine.execFbstp addr s
  | .fcmovb k => Sys2Proof.Machine.execFcmovb k s
  | .fcmove k => Sys2Proof.Machine.execFcmove k s
  | .fcmovbe k => Sys2Proof.Machine.execFcmovbe k s
  | .fcmovu k => Sys2Proof.Machine.execFcmovu k s
  | .fcmovnb k => Sys2Proof.Machine.execFcmovnb k s
  | .fcmovne k => Sys2Proof.Machine.execFcmovne k s
  | .fcmovnbe k => Sys2Proof.Machine.execFcmovnbe k s
  | .fcmovnu k => Sys2Proof.Machine.execFcmovnu k s
  | .fildM16 addr => Sys2Proof.Machine.execFildM16 addr s
  | .fildM32 addr => Sys2Proof.Machine.execFildM32 addr s
  | .fildM64 addr => Sys2Proof.Machine.execFildM64 addr s
  | .fistM16 addr => Sys2Proof.Machine.execFistM16 addr s
  | .fistM32 addr => Sys2Proof.Machine.execFistM32 addr s
  | .fistpM16 addr => Sys2Proof.Machine.execFistpM16 addr s
  | .fistpM32 addr => Sys2Proof.Machine.execFistpM32 addr s
  | .fistpM64 addr => Sys2Proof.Machine.execFistpM64 addr s
  | .fldM32 addr => Sys2Proof.Machine.execFldM32 addr s
  | .fldM64 addr => Sys2Proof.Machine.execFldM64 addr s
  | .fldM80 addr => Sys2Proof.Machine.execFldM80 addr s
  | .fldSt k => Sys2Proof.Machine.execFldSt k s
  | .fld1 => Sys2Proof.Machine.execFld1 s
  | .fldl2t => Sys2Proof.Machine.execFldl2t s
  | .fldl2e => Sys2Proof.Machine.execFldl2e s
  | .fldpi => Sys2Proof.Machine.execFldpi s
  | .fldlg2 => Sys2Proof.Machine.execFldlg2 s
  | .fldln2 => Sys2Proof.Machine.execFldln2 s
  | .fldz => Sys2Proof.Machine.execFldz s
  | .fstM32 addr => Sys2Proof.Machine.execFstM32 addr s
  | .fstM64 addr => Sys2Proof.Machine.execFstM64 addr s
  | .fstSt k => Sys2Proof.Machine.execFstSt k s
  | .fstpM32 addr => Sys2Proof.Machine.execFstpM32 addr s
  | .fstpM64 addr => Sys2Proof.Machine.execFstpM64 addr s
  | .fstpM80 addr => Sys2Proof.Machine.execFstpM80 addr s
  | .fstpSt k => Sys2Proof.Machine.execFstpSt k s
  | .fxch k => Sys2Proof.Machine.execFxch k s
  | .fnclex => Sys2Proof.Machine.execFnclex s
  | .fdecstp => Sys2Proof.Machine.execFdecstp s
  | .fndisi => Sys2Proof.Machine.execFndisi s
  | .fneni => Sys2Proof.Machine.execFneni s
  | .ffree k => Sys2Proof.Machine.execFfree k s
  | .fincstp => Sys2Proof.Machine.execFincstp s
  | .fninit => Sys2Proof.Machine.execFninit s
  | .fldcw addr => Sys2Proof.Machine.execFldcw addr s
  | .fldenv addr => Sys2Proof.Machine.execFldenv addr s
  | .fnop => Sys2Proof.Machine.execFnop s
  | .frstor addr => Sys2Proof.Machine.execFrstor addr s
  | .fnsave addr => Sys2Proof.Machine.execFnsave addr s
  | .fsetpm => Sys2Proof.Machine.execFsetpm s
  | .fnstcw addr => Sys2Proof.Machine.execFnstcw addr s
  | .fnstenv addr => Sys2Proof.Machine.execFnstenv addr s
  | .fnstswM16 addr => Sys2Proof.Machine.execFnstswM16 addr s
  | .fnstswAx => Sys2Proof.Machine.execFnstswAx s
  | .fcomM32 addr => Sys2Proof.Machine.execFcomM32 addr s
  | .fcomM64 addr => Sys2Proof.Machine.execFcomM64 addr s
  | .fcomSt k => Sys2Proof.Machine.execFcomSt k s
  | .fcompM32 addr => Sys2Proof.Machine.execFcompM32 addr s
  | .fcompM64 addr => Sys2Proof.Machine.execFcompM64 addr s
  | .fcompSt k => Sys2Proof.Machine.execFcompSt k s
  | .fcompp => Sys2Proof.Machine.execFcompp s
  | .fcomi k => Sys2Proof.Machine.execFcomi k s
  | .fcomip k => Sys2Proof.Machine.execFcomip k s
  | .fucomi k => Sys2Proof.Machine.execFucomi k s
  | .fucomip k => Sys2Proof.Machine.execFucomip k s
  | .ficomM16 addr => Sys2Proof.Machine.execFicomM16 addr s
  | .ficomM32 addr => Sys2Proof.Machine.execFicomM32 addr s
  | .ficompM16 addr => Sys2Proof.Machine.execFicompM16 addr s
  | .ficompM32 addr => Sys2Proof.Machine.execFicompM32 addr s
  | .ftst => Sys2Proof.Machine.execFtst s
  | .fucom k => Sys2Proof.Machine.execFucom k s
  | .fucomp k => Sys2Proof.Machine.execFucomp k s
  | .fucompp => Sys2Proof.Machine.execFucompp s
  | .fxam => Sys2Proof.Machine.execFxam s
  | .fwait => Sys2Proof.Machine.execFwait s
  | .fclex => Sys2Proof.Machine.execFclex s
  | .fdisi => Sys2Proof.Machine.execFdisi s
  | .feni => Sys2Proof.Machine.execFeni s
  | .finit => Sys2Proof.Machine.execFinit s
  | .fsave addr => Sys2Proof.Machine.execFsave addr s
  | .fstcw addr => Sys2Proof.Machine.execFstcw addr s
  | .fstenv addr => Sys2Proof.Machine.execFstenv addr s
  | .fstswM16 addr => Sys2Proof.Machine.execFstswM16 addr s
  | .fstswAx => Sys2Proof.Machine.execFstswAx s
  | .fldenvO66 addr => Sys2Proof.Machine.execFldenvO66 addr s
  | .fnstenvO66 addr => Sys2Proof.Machine.execFnstenvO66 addr s
  | .frstorO66 addr => Sys2Proof.Machine.execFrstorO66 addr s
  | .fnsaveO66 addr => Sys2Proof.Machine.execFnsaveO66 addr s
  | .fstenvO66 addr => Sys2Proof.Machine.execFstenvO66 addr s
  | .fsaveO66 addr => Sys2Proof.Machine.execFsaveO66 addr s

end Sys2Proof.Machine
end

