-- ==== Sys2Proof/Machine/Fetch.lean ====
section
/-! DEFINITION. Fetching the instruction at pc (30_encoding.md rule R135, 20_memory.md rule R115), and placing a
table word there. -/

namespace Sys2Proof.Machine

/-- What the bytes at pc give: an instruction, or the reason to stop. -/
inductive Fetched where
  | instr (i : Instr)
  | fault (f : Fault)
  | refused (r : Refusal)
deriving DecidableEq, Repr

/-- The first of the `n` addresses from `a` on that the run has stored to. -/
def firstWritten (written : List Nat) : Nat → Nat → Option Nat
  | _, 0 => none
  | a, n + 1 => if a ∈ written then some a else firstWritten written (a + 1) n

/-- The longest instruction: 9BH, 66H, two bytes and a 32-bit displacement. A fetch sees no more bytes. DESIGN CHOICE
(assumption 20): eight or more of the bytes of rule R151 before an escape byte fill this window, so the stop is NotFPU,
the answer of the line of rule R135, and not UnsupportedPrefix, the answer of rule R151. -/
def longest : Nat := 8

/-- The bytes at pc that are there (rule R135); past the top of the address range there are none (rule R55). -/
def State.code (s : State) : List Byte := fetchBytes s.cfg s.mem s.pcNat longest

/-- The stop a decoding error stands for (rules R135, R147, R544). A byte that is not there is a fault, one past the
top of the address range a refusal (rule R55). -/
def State.decodeStop (s : State) (r : DecodeReason) : Fetched :=
  match r with
  | .notFpu b => .refused (.notFpu b)
  | .illegal => .fault .illegalInstruction
  | .unsupportedAddressing b => .refused (.unsupportedAddressing b)
  | .unsupportedPrefix b => .refused (.unsupportedPrefix b)
  | .truncated =>
    if s.cfg.addrLimit ≤ s.pcNat + s.code.length then .refused (.pastTop (s.pcNat + s.code.length))
    else .fault (.memFault (s.pcNat + s.code.length))

/-- The instruction at pc. A byte of it that the run has stored to is refused (rule R115). A wait form with such a byte
behind its 9BH is FWAIT alone: the step of rule R145, or the pending trap, comes first, and the refusal with the fetch
of what follows. -/
def State.fetched (s : State) : Fetched :=
  match decode s.cfg s.code with
  | .ok (i, n) =>
    match firstWritten s.written s.pcNat n with
    | some a => if i.isWaitForm && decide (a ≠ s.pcNat) then .instr .fwait else .refused (.selfModify a)
    | none => .instr i
  | .error e =>
    match firstWritten s.written s.pcNat e.used with
    | some a => .refused (.selfModify a)
    | none => s.decodeStop e.reason

/-- The state with the bytes of a table word at pc, as a program loaded from outside (assumption 2). Where the word is
a wait form, the run reads it as one instruction (assumption 1). -/
def State.placeWord (s : State) (nbits w : Nat) : State :=
  let p := { s.cfg with fusedWait := true }
  let isForm := match decode p (wordBytes p nbits w) with
    | .ok (i, _) => i.isWaitForm
    | .error _ => false
  { s with
    cfg := if isForm then p else s.cfg
    mem := Memory.writeBytes s.mem s.pc.toNat (wordBytes s.cfg nbits w)
    written := s.written.filter fun a => decide (a < s.pc.toNat) || decide (s.pc.toNat + longest ≤ a) }

end Sys2Proof.Machine
end

