-- ==== Sys2Proof/Machine/Step.lean ====
section
/-! DEFINITION. One step: fetch, decode, execute (30_encoding.md rule R135). -/

namespace Sys2Proof.Machine

/-- One step of the machine (rule R14): the instruction at pc, or the reason there is none. -/
def step (s : State) : Host.Outcome State Fault Refusal :=
  match s.fetched with
  | .instr i => exec i s
  | .fault f => .fault f
  | .refused r => .refused r

/-- The state with the instruction of a table word stored where step fetches its next instruction. -/
def State.withFetchWord (s : State) (nbits w : Nat) : State := s.placeWord nbits w

end Sys2Proof.Machine
end

