-- ==== Sys2Proof/WellFormed.lean ====
section
/-! DEFINITION. Which terms of Instr are instructions of a run: the ones its generation has, with an operand address
that fits the displacement. -/

namespace Sys2Proof

/-- Does the operand address fit the displacement of ADDR_SIZE bits (rules R97, R150)? -/
def Instr.addressFits (p : Params) (i : Instr) : Bool :=
  match i.operand with
  | some a => decide (a.toNat < p.addrLimit)
  | none => true

/-- An instruction of the run: it exists on the generation (rule R10), its operand address fits, and a wait form is
one only where the run reads it as one instruction (assumption 1). -/
def Instr.wellFormed (p : Params) (i : Instr) : Bool :=
  i.available p && i.addressFits p && (!i.isWaitForm || p.fusedWait)

end Sys2Proof
end

