-- ==== Sys2Proof/Safety.lean ====
section
/-! DEFINITION. What claims are stated in: when an instruction executes rather than traps or stops, how many bytes
its operand has, and what a safe step is. -/

namespace Sys2Proof.Machine

/-- Which instructions check for a pending exception first (rule R135): all but the no-wait ones. -/
def syncOf : Instr → Sync
  | .faddM32 _ => .waiting
  | .faddM64 _ => .waiting
  | .faddSt0 _ => .waiting
  | .faddSti _ => .waiting
  | .faddp _ => .waiting
  | .fiaddM16 _ => .waiting
  | .fiaddM32 _ => .waiting
  | .fdivM32 _ => .waiting
  | .fdivM64 _ => .waiting
  | .fdivSt0 _ => .waiting
  | .fdivSti _ => .waiting
  | .fdivp _ => .waiting
  | .fidivM16 _ => .waiting
  | .fidivM32 _ => .waiting
  | .fdivrM32 _ => .waiting
  | .fdivrM64 _ => .waiting
  | .fdivrSt0 _ => .waiting
  | .fdivrSti _ => .waiting
  | .fdivrp _ => .waiting
  | .fidivrM16 _ => .waiting
  | .fidivrM32 _ => .waiting
  | .fmulM32 _ => .waiting
  | .fmulM64 _ => .waiting
  | .fmulSt0 _ => .waiting
  | .fmulSti _ => .waiting
  | .fmulp _ => .waiting
  | .fimulM16 _ => .waiting
  | .fimulM32 _ => .waiting
  | .fsubM32 _ => .waiting
  | .fsubM64 _ => .waiting
  | .fsubSt0 _ => .waiting
  | .fsubSti _ => .waiting
  | .fsubp _ => .waiting
  | .fisubM16 _ => .waiting
  | .fisubM32 _ => .waiting
  | .fsubrM32 _ => .waiting
  | .fsubrM64 _ => .waiting
  | .fsubrSt0 _ => .waiting
  | .fsubrSti _ => .waiting
  | .fsubrp _ => .waiting
  | .fisubrM16 _ => .waiting
  | .fisubrM32 _ => .waiting
  | .f2xm1 => .waiting
  | .fcos => .waiting
  | .fpatan => .waiting
  | .fptan => .waiting
  | .fsin => .waiting
  | .fsincos => .waiting
  | .fyl2x => .waiting
  | .fyl2xp1 => .waiting
  | .fabs => .waiting
  | .fchs => .waiting
  | .fprem => .waiting
  | .fprem1 => .waiting
  | .frndint => .waiting
  | .fscale => .waiting
  | .fsqrt => .waiting
  | .fxtract => .waiting
  | .fbld _ => .waiting
  | .fbstp _ => .waiting
  | .fcmovb _ => .waiting
  | .fcmove _ => .waiting
  | .fcmovbe _ => .waiting
  | .fcmovu _ => .waiting
  | .fcmovnb _ => .waiting
  | .fcmovne _ => .waiting
  | .fcmovnbe _ => .waiting
  | .fcmovnu _ => .waiting
  | .fildM16 _ => .waiting
  | .fildM32 _ => .waiting
  | .fildM64 _ => .waiting
  | .fistM16 _ => .waiting
  | .fistM32 _ => .waiting
  | .fistpM16 _ => .waiting
  | .fistpM32 _ => .waiting
  | .fistpM64 _ => .waiting
  | .fldM32 _ => .waiting
  | .fldM64 _ => .waiting
  | .fldM80 _ => .waiting
  | .fldSt _ => .waiting
  | .fld1 => .waiting
  | .fldl2t => .waiting
  | .fldl2e => .waiting
  | .fldpi => .waiting
  | .fldlg2 => .waiting
  | .fldln2 => .waiting
  | .fldz => .waiting
  | .fstM32 _ => .waiting
  | .fstM64 _ => .waiting
  | .fstSt _ => .waiting
  | .fstpM32 _ => .waiting
  | .fstpM64 _ => .waiting
  | .fstpM80 _ => .waiting
  | .fstpSt _ => .waiting
  | .fxch _ => .waiting
  | .fnclex => .noWait
  | .fdecstp => .waiting
  | .fndisi => .noWait
  | .fneni => .noWait
  | .ffree _ => .waiting
  | .fincstp => .waiting
  | .fninit => .noWait
  | .fldcw _ => .waiting
  | .fldenv _ => .waiting
  | .fnop => .waiting
  | .frstor _ => .waiting
  | .fnsave _ => .noWait
  | .fsetpm => .noWait
  | .fnstcw _ => .noWait
  | .fnstenv _ => .noWait
  | .fnstswM16 _ => .noWait
  | .fnstswAx => .noWait
  | .fcomM32 _ => .waiting
  | .fcomM64 _ => .waiting
  | .fcomSt _ => .waiting
  | .fcompM32 _ => .waiting
  | .fcompM64 _ => .waiting
  | .fcompSt _ => .waiting
  | .fcompp => .waiting
  | .fcomi _ => .waiting
  | .fcomip _ => .waiting
  | .fucomi _ => .waiting
  | .fucomip _ => .waiting
  | .ficomM16 _ => .waiting
  | .ficomM32 _ => .waiting
  | .ficompM16 _ => .waiting
  | .ficompM32 _ => .waiting
  | .ftst => .waiting
  | .fucom _ => .waiting
  | .fucomp _ => .waiting
  | .fucompp => .waiting
  | .fxam => .waiting
  | .fwait => .waiting
  | .fclex => .waiting
  | .fdisi => .waiting
  | .feni => .waiting
  | .finit => .waiting
  | .fsave _ => .waiting
  | .fstcw _ => .waiting
  | .fstenv _ => .waiting
  | .fstswM16 _ => .waiting
  | .fstswAx => .waiting
  | .fldenvO66 _ => .waiting
  | .fnstenvO66 _ => .noWait
  | .frstorO66 _ => .waiting
  | .fnsaveO66 _ => .noWait
  | .fstenvO66 _ => .waiting
  | .fsaveO66 _ => .waiting

/-- How many bytes of memory the operand of an instruction has (rule R93); 0 without a memory operand. -/
def widthOf (p : Params) : Instr → Nat
  | .faddM32 _ => 4
  | .faddM64 _ => 8
  | .faddSt0 _ => 0
  | .faddSti _ => 0
  | .faddp _ => 0
  | .fiaddM16 _ => 2
  | .fiaddM32 _ => 4
  | .fdivM32 _ => 4
  | .fdivM64 _ => 8
  | .fdivSt0 _ => 0
  | .fdivSti _ => 0
  | .fdivp _ => 0
  | .fidivM16 _ => 2
  | .fidivM32 _ => 4
  | .fdivrM32 _ => 4
  | .fdivrM64 _ => 8
  | .fdivrSt0 _ => 0
  | .fdivrSti _ => 0
  | .fdivrp _ => 0
  | .fidivrM16 _ => 2
  | .fidivrM32 _ => 4
  | .fmulM32 _ => 4
  | .fmulM64 _ => 8
  | .fmulSt0 _ => 0
  | .fmulSti _ => 0
  | .fmulp _ => 0
  | .fimulM16 _ => 2
  | .fimulM32 _ => 4
  | .fsubM32 _ => 4
  | .fsubM64 _ => 8
  | .fsubSt0 _ => 0
  | .fsubSti _ => 0
  | .fsubp _ => 0
  | .fisubM16 _ => 2
  | .fisubM32 _ => 4
  | .fsubrM32 _ => 4
  | .fsubrM64 _ => 8
  | .fsubrSt0 _ => 0
  | .fsubrSti _ => 0
  | .fsubrp _ => 0
  | .fisubrM16 _ => 2
  | .fisubrM32 _ => 4
  | .f2xm1 => 0
  | .fcos => 0
  | .fpatan => 0
  | .fptan => 0
  | .fsin => 0
  | .fsincos => 0
  | .fyl2x => 0
  | .fyl2xp1 => 0
  | .fabs => 0
  | .fchs => 0
  | .fprem => 0
  | .fprem1 => 0
  | .frndint => 0
  | .fscale => 0
  | .fsqrt => 0
  | .fxtract => 0
  | .fbld _ => 10
  | .fbstp _ => 10
  | .fcmovb _ => 0
  | .fcmove _ => 0
  | .fcmovbe _ => 0
  | .fcmovu _ => 0
  | .fcmovnb _ => 0
  | .fcmovne _ => 0
  | .fcmovnbe _ => 0
  | .fcmovnu _ => 0
  | .fildM16 _ => 2
  | .fildM32 _ => 4
  | .fildM64 _ => 8
  | .fistM16 _ => 2
  | .fistM32 _ => 4
  | .fistpM16 _ => 2
  | .fistpM32 _ => 4
  | .fistpM64 _ => 8
  | .fldM32 _ => 4
  | .fldM64 _ => 8
  | .fldM80 _ => 10
  | .fldSt _ => 0
  | .fld1 => 0
  | .fldl2t => 0
  | .fldl2e => 0
  | .fldpi => 0
  | .fldlg2 => 0
  | .fldln2 => 0
  | .fldz => 0
  | .fstM32 _ => 4
  | .fstM64 _ => 8
  | .fstSt _ => 0
  | .fstpM32 _ => 4
  | .fstpM64 _ => 8
  | .fstpM80 _ => 10
  | .fstpSt _ => 0
  | .fxch _ => 0
  | .fnclex => 0
  | .fdecstp => 0
  | .fndisi => 0
  | .fneni => 0
  | .ffree _ => 0
  | .fincstp => 0
  | .fninit => 0
  | .fldcw _ => 2
  | .fldenv _ => envSize (effSize16 p false)
  | .fnop => 0
  | .frstor _ => envSize (effSize16 p false) + 80
  | .fnsave _ => envSize (effSize16 p false) + 80
  | .fsetpm => 0
  | .fnstcw _ => 2
  | .fnstenv _ => envSize (effSize16 p false)
  | .fnstswM16 _ => 2
  | .fnstswAx => 0
  | .fcomM32 _ => 4
  | .fcomM64 _ => 8
  | .fcomSt _ => 0
  | .fcompM32 _ => 4
  | .fcompM64 _ => 8
  | .fcompSt _ => 0
  | .fcompp => 0
  | .fcomi _ => 0
  | .fcomip _ => 0
  | .fucomi _ => 0
  | .fucomip _ => 0
  | .ficomM16 _ => 2
  | .ficomM32 _ => 4
  | .ficompM16 _ => 2
  | .ficompM32 _ => 4
  | .ftst => 0
  | .fucom _ => 0
  | .fucomp _ => 0
  | .fucompp => 0
  | .fxam => 0
  | .fwait => 0
  | .fclex => 0
  | .fdisi => 0
  | .feni => 0
  | .finit => 0
  | .fsave _ => envSize (effSize16 p false) + 80
  | .fstcw _ => 2
  | .fstenv _ => envSize (effSize16 p false)
  | .fstswM16 _ => 2
  | .fstswAx => 0
  | .fldenvO66 _ => envSize (effSize16 p true)
  | .fnstenvO66 _ => envSize (effSize16 p true)
  | .frstorO66 _ => envSize (effSize16 p true) + 80
  | .fnsaveO66 _ => envSize (effSize16 p true) + 80
  | .fstenvO66 _ => envSize (effSize16 p true)
  | .fsaveO66 _ => envSize (effSize16 p true) + 80

/-- The instruction executes: it exists, its bytes stay in range, and no trap is taken before it (rules R135, R530,
R536). -/
def Ready (i : Instr) (s : State) : Prop :=
  i.available s.cfg = true ∧ s.passesTop (i.length s.cfg) = false ∧
    (match syncOf i with
     | .waiting => s.pending = false
     | .noWait => s.windowOpen = false)

/-- The bytes of the memory operand, if there is one, are all provided (rule R90). -/
def OperandThere (i : Instr) (s : State) : Prop :=
  match i.operand with
  | some a => hasBytes s.cfg a.toNat (widthOf s.cfg i) = true
  | none => True

/-- A step that answers a next state. -/
def Steps (s : State) : Prop := ∃ t, step s = .next t

/-- The six exceptions are all masked (rule R44). -/
def AllMasked (s : State) : Prop := s.cw &&& 0x003F#16 = 0x003F#16

/-! ### What an instruction may change, from the rules of the instructions -/

/-- The families of the opcode table. -/
inductive Family where
  | arith | transcend | other | load | store | move | compare | control
deriving DecidableEq, Repr

/-- The family of an instruction. -/
def familyOf : Instr → Family
  | .faddM32 _ | .faddM64 _ | .faddSt0 _ | .faddSti _ | .faddp _ | .fiaddM16 _ | .fiaddM32 _ | .fdivM32 _
  | .fdivM64 _ | .fdivSt0 _ | .fdivSti _ | .fdivp _ | .fidivM16 _ | .fidivM32 _ | .fdivrM32 _ | .fdivrM64 _
  | .fdivrSt0 _ | .fdivrSti _ | .fdivrp _ | .fidivrM16 _ | .fidivrM32 _ | .fmulM32 _ | .fmulM64 _ | .fmulSt0 _
  | .fmulSti _ | .fmulp _ | .fimulM16 _ | .fimulM32 _ | .fsubM32 _ | .fsubM64 _ | .fsubSt0 _ | .fsubSti _
  | .fsubp _ | .fisubM16 _ | .fisubM32 _ | .fsubrM32 _ | .fsubrM64 _ | .fsubrSt0 _ | .fsubrSti _ | .fsubrp _
  | .fisubrM16 _ | .fisubrM32 _ => .arith
  | .f2xm1 | .fcos | .fpatan | .fptan | .fsin | .fsincos | .fyl2x | .fyl2xp1 => .transcend
  | .fabs | .fchs | .fprem | .fprem1 | .frndint | .fscale | .fsqrt | .fxtract => .other
  | .fbld _ | .fildM16 _ | .fildM32 _ | .fildM64 _ | .fldM32 _ | .fldM64 _ | .fldM80 _ | .fldSt _ | .fld1 | .fldl2t
  | .fldl2e | .fldpi | .fldlg2 | .fldln2 | .fldz => .load
  | .fbstp _ | .fistM16 _ | .fistM32 _ | .fistpM16 _ | .fistpM32 _ | .fistpM64 _ | .fstM32 _ | .fstM64 _
  | .fstpM32 _ | .fstpM64 _ | .fstpM80 _ => .store
  | .fcmovb _ | .fcmove _ | .fcmovbe _ | .fcmovu _ | .fcmovnb _ | .fcmovne _ | .fcmovnbe _ | .fcmovnu _ | .fstSt _
  | .fstpSt _ | .fxch _ => .move
  | .fnclex | .fdecstp | .fndisi | .fneni | .ffree _ | .fincstp | .fninit | .fldcw _ | .fldenv _ | .fnop
  | .frstor _ | .fnsave _ | .fsetpm | .fnstcw _ | .fnstenv _ | .fnstswM16 _ | .fnstswAx | .fwait | .fclex | .fdisi
  | .feni | .finit | .fsave _ | .fstcw _ | .fstenv _ | .fstswM16 _ | .fstswAx | .fldenvO66 _ | .fnstenvO66 _
  | .frstorO66 _ | .fnsaveO66 _ | .fstenvO66 _ | .fsaveO66 _ => .control
  | .fcomM32 _ | .fcomM64 _ | .fcomSt _ | .fcompM32 _ | .fcompM64 _ | .fcompSt _ | .fcompp | .fcomi _ | .fcomip _
  | .fucomi _ | .fucomip _ | .ficomM16 _ | .ficomM32 _ | .ficompM16 _ | .ficompM32 _ | .ftst | .fucom _ | .fucomp _
  | .fucompp | .fxam => .compare

/-- The registers, as stack positions before the instruction, whose contents or tag it may change; for control
instructions see their own rules. -/
def touched : Instr → List (BitVec 3)
  | .faddM32 _ | .faddM64 _ | .faddSt0 _ | .fiaddM16 _ | .fiaddM32 _ | .fdivM32 _ | .fdivM64 _ | .fdivSt0 _
  | .fidivM16 _ | .fidivM32 _ | .fdivrM32 _ | .fdivrM64 _ | .fdivrSt0 _ | .fidivrM16 _ | .fidivrM32 _ | .fmulM32 _
  | .fmulM64 _ | .fmulSt0 _ | .fimulM16 _ | .fimulM32 _ | .fsubM32 _ | .fsubM64 _ | .fsubSt0 _ | .fisubM16 _
  | .fisubM32 _ | .fsubrM32 _ | .fsubrM64 _ | .fsubrSt0 _ | .fisubrM16 _ | .fisubrM32 _ | .f2xm1 | .fcos | .fsin
  | .fabs | .fchs | .fprem | .fprem1 | .frndint | .fscale | .fsqrt | .fbstp _ | .fcmovb _ | .fcmove _ | .fcmovbe _
  | .fcmovu _ | .fcmovnb _ | .fcmovne _ | .fcmovnbe _ | .fcmovnu _ | .fistpM16 _ | .fistpM32 _ | .fistpM64 _
  | .fstpM32 _ | .fstpM64 _ | .fstpM80 _ | .fcompM32 _ | .fcompM64 _ | .fcompSt _ | .fcomip _ | .fucomip _
  | .ficompM16 _ | .ficompM32 _ | .fucomp _ => [0#3]
  | .faddSti i | .fdivSti i | .fdivrSti i | .fmulSti i | .fsubSti i | .fsubrSti i | .fstSt i | .ffree i => [i]
  | .faddp i | .fdivp i | .fdivrp i | .fmulp i | .fsubp i | .fsubrp i | .fstpSt i | .fxch i => [i, 0#3]
  | .fpatan | .fyl2x | .fyl2xp1 => [1#3, 0#3]
  | .fptan | .fsincos | .fxtract => [0#3, 7#3]
  | .fbld _ | .fildM16 _ | .fildM32 _ | .fildM64 _ | .fldM32 _ | .fldM64 _ | .fldM80 _ | .fldSt _ | .fld1 | .fldl2t
  | .fldl2e | .fldpi | .fldlg2 | .fldln2 | .fldz => [7#3]
  | .fistM16 _ | .fistM32 _ | .fstM32 _ | .fstM64 _ | .fnclex | .fdecstp | .fndisi | .fneni | .fincstp | .fninit
  | .fldcw _ | .fldenv _ | .fnop | .frstor _ | .fnsave _ | .fsetpm | .fnstcw _ | .fnstenv _ | .fnstswM16 _
  | .fnstswAx | .fcomM32 _ | .fcomM64 _ | .fcomSt _ | .fcomi _ | .fucomi _ | .ficomM16 _ | .ficomM32 _ | .ftst
  | .fucom _ | .fxam | .fwait | .fclex | .fdisi | .feni | .finit | .fsave _ | .fstcw _ | .fstenv _ | .fstswM16 _
  | .fstswAx | .fldenvO66 _ | .fnstenvO66 _ | .frstorO66 _ | .fnsaveO66 _ | .fstenvO66 _ | .fsaveO66 _ => []
  | .fcompp | .fucompp => [0#3, 1#3]

/-- By how much TOP may move: +1 for a pop, -1 for a push, 0 always where a stop leaves the stack alone. -/
def topMoves : Instr → List (BitVec 3)
  | .faddM32 _ | .faddM64 _ | .faddSt0 _ | .faddSti _ | .fiaddM16 _ | .fiaddM32 _ | .fdivM32 _ | .fdivM64 _
  | .fdivSt0 _ | .fdivSti _ | .fidivM16 _ | .fidivM32 _ | .fdivrM32 _ | .fdivrM64 _ | .fdivrSt0 _ | .fdivrSti _
  | .fidivrM16 _ | .fidivrM32 _ | .fmulM32 _ | .fmulM64 _ | .fmulSt0 _ | .fmulSti _ | .fimulM16 _ | .fimulM32 _
  | .fsubM32 _ | .fsubM64 _ | .fsubSt0 _ | .fsubSti _ | .fisubM16 _ | .fisubM32 _ | .fsubrM32 _ | .fsubrM64 _
  | .fsubrSt0 _ | .fsubrSti _ | .fisubrM16 _ | .fisubrM32 _ | .f2xm1 | .fcos | .fsin | .fabs | .fchs | .fprem
  | .fprem1 | .frndint | .fscale | .fsqrt | .fcmovb _ | .fcmove _ | .fcmovbe _ | .fcmovu _ | .fcmovnb _
  | .fcmovne _ | .fcmovnbe _ | .fcmovnu _ | .fistM16 _ | .fistM32 _ | .fstM32 _ | .fstM64 _ | .fstSt _ | .fxch _
  | .fnclex | .fndisi | .fneni | .ffree _ | .fninit | .fldcw _ | .fldenv _ | .fnop | .frstor _ | .fnsave _
  | .fsetpm | .fnstcw _ | .fnstenv _ | .fnstswM16 _ | .fnstswAx | .fcomM32 _ | .fcomM64 _ | .fcomSt _ | .fcomi _
  | .fucomi _ | .ficomM16 _ | .ficomM32 _ | .ftst | .fucom _ | .fxam | .fwait | .fclex | .fdisi | .feni | .finit
  | .fsave _ | .fstcw _ | .fstenv _ | .fstswM16 _ | .fstswAx | .fldenvO66 _ | .fnstenvO66 _ | .frstorO66 _
  | .fnsaveO66 _ | .fstenvO66 _ | .fsaveO66 _ => [0#3]
  | .faddp _ | .fdivp _ | .fdivrp _ | .fmulp _ | .fsubp _ | .fsubrp _ | .fpatan | .fyl2x | .fyl2xp1 | .fbstp _
  | .fistpM16 _ | .fistpM32 _ | .fistpM64 _ | .fstpM32 _ | .fstpM64 _ | .fstpM80 _ | .fstpSt _ | .fcompM32 _
  | .fcompM64 _ | .fcompSt _ | .fcomip _ | .fucomip _ | .ficompM16 _ | .ficompM32 _ | .fucomp _ => [0#3, 1#3]
  | .fptan | .fsincos | .fxtract | .fbld _ | .fildM16 _ | .fildM32 _ | .fildM64 _ | .fldM32 _ | .fldM64 _
  | .fldM80 _ | .fldSt _ | .fld1 | .fldl2t | .fldl2e | .fldpi | .fldlg2 | .fldln2 | .fldz => [0#3, 7#3]
  | .fdecstp => [7#3]
  | .fincstp => [1#3]
  | .fcompp | .fucompp => [0#3, 2#3]

/-- By how much TOP moves where an instruction completes its effect or its masked response: the last of `topMoves`. -/
def topMove (i : Instr) : BitVec 3 := (topMoves i).getLastD 0#3

/-- The registers an instruction reads, as stack positions: one of them empty is a stack underflow (rules R50, R521).
FXAM reads an empty register too. -/
def sources : Instr → List (BitVec 3)
  | .faddM32 _ | .faddM64 _ | .fiaddM16 _ | .fiaddM32 _ | .fdivM32 _ | .fdivM64 _ | .fidivM16 _ | .fidivM32 _
  | .fdivrM32 _ | .fdivrM64 _ | .fidivrM16 _ | .fidivrM32 _ | .fmulM32 _ | .fmulM64 _ | .fimulM16 _
  | .fimulM32 _ | .fsubM32 _ | .fsubM64 _ | .fisubM16 _ | .fisubM32 _ | .fsubrM32 _ | .fsubrM64 _
  | .fisubrM16 _ | .fisubrM32 _ | .f2xm1 | .fcos | .fsin | .fabs | .fchs | .frndint | .fsqrt | .fptan
  | .fsincos | .fxtract | .fbstp _ | .fistM16 _ | .fistM32 _ | .fistpM16 _ | .fistpM32 _ | .fistpM64 _
  | .fstM32 _ | .fstM64 _ | .fstpM32 _ | .fstpM64 _ | .fstpM80 _ | .fcomM32 _ | .fcomM64 _ | .fcompM32 _
  | .fcompM64 _ | .ficomM16 _ | .ficomM32 _ | .ficompM16 _ | .ficompM32 _ | .ftst | .fstSt _ | .fstpSt _ => [0#3]
  | .faddSt0 i | .fdivSt0 i | .fdivrSt0 i | .fmulSt0 i | .fsubSt0 i | .fsubrSt0 i | .faddSti i | .faddp i
  | .fdivSti i | .fdivp i | .fdivrSti i | .fdivrp i | .fmulSti i | .fmulp i | .fsubSti i | .fsubp i
  | .fsubrSti i | .fsubrp i | .fcmovb i | .fcmove i | .fcmovbe i | .fcmovu i | .fcmovnb i | .fcmovne i
  | .fcmovnbe i | .fcmovnu i | .fcomSt i | .fcompSt i | .fcomi i | .fcomip i | .fucomi i | .fucomip i
  | .fucom i | .fucomp i | .fxch i => [0#3, i]
  | .fldSt i => [i]
  | .fprem | .fprem1 | .fscale | .fpatan | .fyl2x | .fyl2xp1 | .fcompp | .fucompp => [0#3, 1#3]
  | .fbld _ | .fildM16 _ | .fildM32 _ | .fildM64 _ | .fldM32 _ | .fldM64 _ | .fldM80 _ | .fld1 | .fldl2t
  | .fldl2e | .fldpi | .fldlg2 | .fldln2 | .fldz | .fnclex | .fdecstp | .fndisi | .fneni | .ffree _ | .fincstp
  | .fninit | .fldcw _ | .fldenv _ | .fnop | .frstor _ | .fnsave _ | .fsetpm | .fnstcw _ | .fnstenv _
  | .fnstswM16 _ | .fnstswAx | .fxam | .fwait | .fclex | .fdisi | .feni | .finit | .fsave _ | .fstcw _
  | .fstenv _ | .fstswM16 _ | .fstswAx | .fldenvO66 _ | .fnstenvO66 _ | .frstorO66 _ | .fnsaveO66 _
  | .fstenvO66 _ | .fsaveO66 _ => []

/-- The registers, as stack positions before the instruction, that take the indefinite in a masked response (rules R521,
R522); a store writes it to memory, and FXCH fills the empty ones and exchanges. -/
def answers : Instr → List (BitVec 3)
  | .faddM32 _ | .faddM64 _ | .fiaddM16 _ | .fiaddM32 _ | .fdivM32 _ | .fdivM64 _ | .fidivM16 _ | .fidivM32 _
  | .fdivrM32 _ | .fdivrM64 _ | .fidivrM16 _ | .fidivrM32 _ | .fmulM32 _ | .fmulM64 _ | .fimulM16 _
  | .fimulM32 _ | .fsubM32 _ | .fsubM64 _ | .fisubM16 _ | .fisubM32 _ | .fsubrM32 _ | .fsubrM64 _
  | .fisubrM16 _ | .fisubrM32 _ | .faddSt0 _ | .fdivSt0 _ | .fdivrSt0 _ | .fmulSt0 _ | .fsubSt0 _ | .fsubrSt0 _
  | .f2xm1 | .fcos | .fsin | .fabs | .fchs | .frndint | .fsqrt | .fprem | .fprem1 | .fscale | .fcmovb _
  | .fcmove _ | .fcmovbe _ | .fcmovu _ | .fcmovnb _ | .fcmovne _ | .fcmovnbe _ | .fcmovnu _ => [0#3]
  | .faddSti i | .faddp i | .fdivSti i | .fdivp i | .fdivrSti i | .fdivrp i | .fmulSti i | .fmulp i
  | .fsubSti i | .fsubp i | .fsubrSti i | .fsubrp i | .fstSt i | .fstpSt i => [i]
  | .fpatan | .fyl2x | .fyl2xp1 => [1#3]
  | .fptan | .fsincos | .fxtract => [0#3, 7#3]
  | .fbld _ | .fildM16 _ | .fildM32 _ | .fildM64 _ | .fldM32 _ | .fldM64 _ | .fldM80 _ | .fld1 | .fldl2t
  | .fldl2e | .fldpi | .fldlg2 | .fldln2 | .fldz | .fldSt _ => [7#3]
  | .fbstp _ | .fistM16 _ | .fistM32 _ | .fistpM16 _ | .fistpM32 _ | .fistpM64 _ | .fstM32 _ | .fstM64 _
  | .fstpM32 _ | .fstpM64 _ | .fstpM80 _ | .fcomSt _ | .fcompSt _ | .fcomi _ | .fcomip _ | .fucomi _
  | .fucomip _ | .fucom _ | .fucomp _ | .fcomM32 _ | .fcomM64 _ | .fcompM32 _ | .fcompM64 _ | .ficomM16 _
  | .ficomM32 _ | .ficompM16 _ | .ficompM32 _ | .ftst | .fcompp | .fucompp | .fxch _ | .fnclex | .fdecstp
  | .fndisi | .fneni | .ffree _ | .fincstp | .fninit | .fldcw _ | .fldenv _ | .fnop | .frstor _ | .fnsave _
  | .fsetpm | .fnstcw _ | .fnstenv _ | .fnstswM16 _ | .fnstswAx | .fxam | .fwait | .fclex | .fdisi | .feni
  | .finit | .fsave _ | .fstcw _ | .fstenv _ | .fstswM16 _ | .fstswAx | .fldenvO66 _ | .fnstenvO66 _
  | .frstorO66 _ | .fnsaveO66 _ | .fstenvO66 _ | .fsaveO66 _ => []

/-- The seven sticky bits of the status word (rules R37, R38). -/
inductive Flag where
  | ie | de | ze | oe | ue | pe | sf
deriving DecidableEq, Repr

/-- The bit of a flag. -/
def Status.flag (w : Status) : Flag → Bool
  | .ie => w.ie | .de => w.de | .ze => w.ze | .oe => w.oe | .ue => w.ue | .pe => w.pe | .sf => w.sf

/-- The flags an instruction may set, from the "Exceptions" line of its rule. FYL2XP1 may set any where its result is
undefined (rule R209). -/
def mayRaise : Instr → List Flag
  | .faddM32 _ | .faddM64 _ | .faddSt0 _ | .faddSti _ | .faddp _ | .fiaddM16 _ | .fiaddM32 _ | .fmulM32 _
  | .fmulM64 _ | .fmulSt0 _ | .fmulSti _ | .fmulp _ | .fimulM16 _ | .fimulM32 _ | .fsubM32 _ | .fsubM64 _
  | .fsubSt0 _ | .fsubSti _ | .fsubp _ | .fisubM16 _ | .fisubM32 _ | .fsubrM32 _ | .fsubrM64 _ | .fsubrSt0 _
  | .fsubrSti _ | .fsubrp _ | .fisubrM16 _ | .fisubrM32 _ | .fscale => [.ie, .de, .oe, .ue, .pe, .sf]
  | .fdivM32 _ | .fdivM64 _ | .fdivSt0 _ | .fdivSti _ | .fdivp _ | .fidivM16 _ | .fidivM32 _ | .fdivrM32 _
  | .fdivrM64 _ | .fdivrSt0 _ | .fdivrSti _ | .fdivrp _ | .fidivrM16 _ | .fidivrM32 _ | .fyl2x | .fyl2xp1 =>
    [.ie, .de, .ze, .oe, .ue, .pe, .sf]
  | .f2xm1 | .fpatan | .fptan | .fsin | .fsincos => [.ie, .de, .ue, .pe, .sf]
  | .fcos | .frndint | .fsqrt => [.ie, .de, .pe, .sf]
  | .fabs | .fchs | .fbld _ | .fcmovb _ | .fcmove _ | .fcmovbe _ | .fcmovu _ | .fcmovnb _ | .fcmovne _
  | .fcmovnbe _ | .fcmovnu _ | .fildM16 _ | .fildM32 _ | .fildM64 _ | .fldM80 _ | .fldSt _ | .fld1 | .fldl2t
  | .fldl2e | .fldpi | .fldlg2 | .fldln2 | .fldz | .fstSt _ | .fstpM80 _ | .fstpSt _ | .fxch _ => [.ie, .sf]
  | .fprem | .fprem1 => [.ie, .de, .ue, .sf]
  | .fxtract => [.ie, .de, .ze, .sf]
  | .fbstp _ | .fistM16 _ | .fistM32 _ | .fistpM16 _ | .fistpM32 _ | .fistpM64 _ => [.ie, .pe, .sf]
  | .fldM32 _ | .fldM64 _ | .fcomM32 _ | .fcomM64 _ | .fcomSt _ | .fcompM32 _ | .fcompM64 _ | .fcompSt _ | .fcompp
  | .fcomi _ | .fcomip _ | .fucomi _ | .fucomip _ | .ficomM16 _ | .ficomM32 _ | .ficompM16 _ | .ficompM32 _ | .ftst
  | .fucom _ | .fucomp _ | .fucompp => [.ie, .de, .sf]
  | .fstM32 _ | .fstM64 _ | .fstpM32 _ | .fstpM64 _ => [.ie, .oe, .ue, .pe, .sf]
  | .fnclex | .fdecstp | .fndisi | .fneni | .ffree _ | .fincstp | .fninit | .fldcw _ | .fldenv _ | .fnop
  | .frstor _ | .fnsave _ | .fsetpm | .fnstcw _ | .fnstenv _ | .fnstswM16 _ | .fnstswAx | .fxam | .fwait | .fclex
  | .fdisi | .feni | .finit | .fsave _ | .fstcw _ | .fstenv _ | .fstswM16 _ | .fstswAx | .fldenvO66 _
  | .fnstenvO66 _ | .frstorO66 _ | .fnsaveO66 _ | .fstenvO66 _ | .fsaveO66 _ => []

/-- The flags listed may be set and are not cleared; the others are as they were. -/
def FlagsGrow (may : List Flag) (s t : State) : Prop :=
  ∀ f, (s.sw.flag f = true → t.sw.flag f = true) ∧ (f ∉ may → t.sw.flag f = s.sw.flag f)

/-- Contents and tag of every register but those at the listed stack positions of `s` are as they were. -/
def RegsKept (but : List (BitVec 3)) (s t : State) : Prop :=
  ∀ k, k ∉ but.map s.phys → t.reg k = s.reg k ∧ t.tag k = s.tag k

/-- The parameters, CW and PM287 are as they were. -/
def ControlKept (s t : State) : Prop := t.cfg = s.cfg ∧ t.cw = s.cw ∧ t.pm287 = s.pm287

/-- AX and the host flags are as they were. -/
def HostKept (s t : State) : Prop := t.ax = s.ax ∧ t.zf = s.zf ∧ t.pf = s.pf ∧ t.cf = s.cf

/-- Every byte of memory is as it was. -/
def MemoryKept (s t : State) : Prop := ∀ a, t.byteAt a = s.byteAt a

/-- Every byte of memory outside the `n` bytes at `a` is as it was. -/
def MemoryKeptOutside (a : Addr) (n : Nat) (s t : State) : Prop :=
  ∀ b, b < a.toNat ∨ a.toNat + n ≤ b → t.byteAt b = s.byteAt b

/-- FIP, FCS, FDP, FDS and FOP are as they were. -/
def PointersKept (s t : State) : Prop :=
  t.fip = s.fip ∧ t.fcs = s.fcs ∧ t.fdp = s.fdp ∧ t.fds = s.fds ∧ t.fop = s.fop

/-- The pointers describe the instruction (rules R51 to R54); FDP and FDS are said only where there is a memory
operand. -/
def PointersRecorded (i : Instr) (s t : State) : Prop :=
  t.fip = s.pc ∧ t.fop = i.fop s.cfg ∧ t.fcs = (if Params.realMode s.cfg then s.fcs else s.cfg.csSel) ∧
  ∀ a, i.operand = some a → t.fdp = a ∧ t.fds = (if Params.realMode s.cfg then s.fds else s.cfg.dsSel)

/-- Registers, tags, TOP and memory are as they were: what an unmasked invalid operation leaves (rules R521, R522). -/
def Untouched (s t : State) : Prop :=
  t.regs = s.regs ∧ t.tags = s.tags ∧ t.sw.top = s.sw.top ∧ MemoryKept s t

/-- The flags of a stack fault (rule R521): IE and SF, C1 telling overflow from underflow, the others as they were. -/
def StackFaultFlags (overflow : Bool) (s t : State) : Prop :=
  t.sw.ie = true ∧ t.sw.sf = true ∧ t.sw.c1 = overflow ∧ ∀ f, f ≠ .ie → f ≠ .sf → t.sw.flag f = s.sw.flag f

/-- The flags of an invalid arithmetic operation (rule R522): IE, C1 cleared, the others as they were. -/
def InvalidFlags (s t : State) : Prop :=
  t.sw.ie = true ∧ t.sw.c1 = false ∧ ∀ f, f ≠ .ie → t.sw.flag f = s.sw.flag f

/-- pc is past the instruction (rule R55); where that is one past the last address, the state says so. -/
def Advanced (i : Instr) (s t : State) : Prop :=
  t.pc = s.pc + BitVec.ofNat 32 (i.length s.cfg) ∧
  t.pcOver = decide (s.cfg.addrLimit ≤ s.pcNat + i.length s.cfg)

/-- TOP moved by one of the amounts listed. -/
def TopMoved (moves : List (BitVec 3)) (s t : State) : Prop := ∃ d ∈ moves, t.sw.top = s.sw.top + d

/-- What every instruction that is no control instruction leaves behind, apart from memory, the host flags, the
condition codes and the contents of the registers it touches. -/
def Computes (i : Instr) (s t : State) : Prop :=
  Advanced i s t ∧ PointersRecorded i s t ∧ ControlKept s t ∧ RegsKept (touched i) s t ∧
  FlagsGrow (mayRaise i) s t ∧ TopMoved (topMoves i) s t

/-! ### Exact values and their rounding, over the real numbers -/

/-- The real value of a register of class zero, normal or denormal (rule R34). -/
def HasValue (x : Ext) (v : ℝ) : Prop :=
  (classOf x = .zero ∨ classOf x = .normal ∨ classOf x = .denormal) ∧
  v = (if signOf x then -1 else 1) * 2 ^ ((max (expoOf x) 1 : ℤ) - 16383) *
    ((if intBit x then 1 else 0) + ((fracOf x).toNat : ℝ) / 2 ^ 63)

/-- The value of a register that is no NaN and supported, in the order of the extended reals (rule R470). -/
def ExtendedValue (x : Ext) (v : EReal) : Prop :=
  (∃ r : ℝ, HasValue x r ∧ v = r) ∨ (classOf x = .infinity ∧ v = if signOf x then ⊥ else ⊤)

/-- The real value of a word of a memory format that is no infinity and no NaN (rules R98, R99). -/
def FormatValue (f : RealFmt) (w : Nat) (v : ℝ) : Prop :=
  f.expoOf w < f.expMax ∧
  v = (if f.negOf w then -1 else 1) * 2 ^ ((max (f.expoOf w) 1 : ℤ) - f.bias) *
    ((if f.expoOf w = 0 then 0 else 1) + (f.fracOf w : ℝ) / 2 ^ f.fracBits)

/-- `y` is the multiple of `2^k` that rounding control `rc` picks for `x`; `inexact` and `up` say whether it differs
from `x` and whether it is the one above in magnitude (rules R60, R61). -/
def RoundedTo (k : ℤ) (rc : Rounding) (x y : ℝ) (inexact up : Bool) : Prop :=
  ∃ n : ℕ, (n : ℝ) * 2 ^ k ≤ |x| ∧ |x| < ((n : ℝ) + 1) * 2 ^ k ∧
    (inexact = true ↔ (n : ℝ) * 2 ^ k ≠ |x|) ∧
    (up = true ↔ (n : ℝ) * 2 ^ k ≠ |x| ∧
      (match rc with
       | .chop => False
       | .down => x < 0
       | .up => 0 < x
       | .nearest => (2 : ℝ) ^ k < 2 * (|x| - n * 2 ^ k) ∨ ((2 : ℝ) ^ k = 2 * (|x| - n * 2 ^ k) ∧ n % 2 = 1))) ∧
    y = (if x < 0 then -1 else 1) * ((if up then (n : ℝ) + 1 else n) * 2 ^ k)

/-- `y` is `x` rounded to `p` significant bits, the exponent unbounded (rule R60). -/
def CorrectlyRounded (p : ℕ) (rc : Rounding) (x y : ℝ) (inexact up : Bool) : Prop :=
  ∃ e : ℤ, (2 : ℝ) ^ e ≤ |x| ∧ |x| < (2 : ℝ) ^ (e + 1) ∧ RoundedTo (e - p + 1) rc x y inexact up

/-- Is the magnitude in the normal range of the 80-bit format? -/
def InRange (y : ℝ) : Prop := (2 : ℝ) ^ (-16382 : ℤ) ≤ |y| ∧ |y| < (2 : ℝ) ^ (16384 : ℤ)

/-- Where an arithmetic or compare instruction takes its second operand from. -/
inductive SourceKind where
  | reg (j : BitVec 3)
  | real (f : RealFmt)
  | int (w : Nat)
  | zero
deriving DecidableEq, Repr

/-- An arithmetic instruction as the rules R240 to R281 give it: the operation, the destination register, the source,
and whether ST(0) is popped. -/
structure ArithRow where
  op     : ArithOp
  dest   : BitVec 3
  source : SourceKind
  pop    : Bool
deriving DecidableEq, Repr

/-- The rows of the arithmetic instructions. -/
def arithRow : Instr → Option ArithRow
  | .faddM32 _ => some ⟨.add, 0#3, .real single, false⟩
  | .faddM64 _ => some ⟨.add, 0#3, .real double, false⟩
  | .faddSt0 i => some ⟨.add, 0#3, .reg i, false⟩
  | .faddSti i => some ⟨.add, i, .reg 0#3, false⟩
  | .faddp i => some ⟨.add, i, .reg 0#3, true⟩
  | .fiaddM16 _ => some ⟨.add, 0#3, .int 16, false⟩
  | .fiaddM32 _ => some ⟨.add, 0#3, .int 32, false⟩
  | .fdivM32 _ => some ⟨.div, 0#3, .real single, false⟩
  | .fdivM64 _ => some ⟨.div, 0#3, .real double, false⟩
  | .fdivSt0 i => some ⟨.div, 0#3, .reg i, false⟩
  | .fdivSti i => some ⟨.div, i, .reg 0#3, false⟩
  | .fdivp i => some ⟨.div, i, .reg 0#3, true⟩
  | .fidivM16 _ => some ⟨.div, 0#3, .int 16, false⟩
  | .fidivM32 _ => some ⟨.div, 0#3, .int 32, false⟩
  | .fdivrM32 _ => some ⟨.divr, 0#3, .real single, false⟩
  | .fdivrM64 _ => some ⟨.divr, 0#3, .real double, false⟩
  | .fdivrSt0 i => some ⟨.divr, 0#3, .reg i, false⟩
  | .fdivrSti i => some ⟨.divr, i, .reg 0#3, false⟩
  | .fdivrp i => some ⟨.divr, i, .reg 0#3, true⟩
  | .fidivrM16 _ => some ⟨.divr, 0#3, .int 16, false⟩
  | .fidivrM32 _ => some ⟨.divr, 0#3, .int 32, false⟩
  | .fmulM32 _ => some ⟨.mul, 0#3, .real single, false⟩
  | .fmulM64 _ => some ⟨.mul, 0#3, .real double, false⟩
  | .fmulSt0 i => some ⟨.mul, 0#3, .reg i, false⟩
  | .fmulSti i => some ⟨.mul, i, .reg 0#3, false⟩
  | .fmulp i => some ⟨.mul, i, .reg 0#3, true⟩
  | .fimulM16 _ => some ⟨.mul, 0#3, .int 16, false⟩
  | .fimulM32 _ => some ⟨.mul, 0#3, .int 32, false⟩
  | .fsubM32 _ => some ⟨.sub, 0#3, .real single, false⟩
  | .fsubM64 _ => some ⟨.sub, 0#3, .real double, false⟩
  | .fsubSt0 i => some ⟨.sub, 0#3, .reg i, false⟩
  | .fsubSti i => some ⟨.sub, i, .reg 0#3, false⟩
  | .fsubp i => some ⟨.sub, i, .reg 0#3, true⟩
  | .fisubM16 _ => some ⟨.sub, 0#3, .int 16, false⟩
  | .fisubM32 _ => some ⟨.sub, 0#3, .int 32, false⟩
  | .fsubrM32 _ => some ⟨.subr, 0#3, .real single, false⟩
  | .fsubrM64 _ => some ⟨.subr, 0#3, .real double, false⟩
  | .fsubrSt0 i => some ⟨.subr, 0#3, .reg i, false⟩
  | .fsubrSti i => some ⟨.subr, i, .reg 0#3, false⟩
  | .fsubrp i => some ⟨.subr, i, .reg 0#3, true⟩
  | .fisubrM16 _ => some ⟨.subr, 0#3, .int 16, false⟩
  | .fisubrM32 _ => some ⟨.subr, 0#3, .int 32, false⟩
  | .f2xm1 | .fcos | .fpatan | .fptan | .fsin | .fsincos | .fyl2x | .fyl2xp1 | .fabs | .fchs | .fprem | .fprem1
  | .frndint | .fscale | .fsqrt | .fxtract | .fbld _ | .fbstp _ | .fcmovb _ | .fcmove _ | .fcmovbe _ | .fcmovu _
  | .fcmovnb _ | .fcmovne _ | .fcmovnbe _ | .fcmovnu _ | .fildM16 _ | .fildM32 _ | .fildM64 _ | .fistM16 _
  | .fistM32 _ | .fistpM16 _ | .fistpM32 _ | .fistpM64 _ | .fldM32 _ | .fldM64 _ | .fldM80 _ | .fldSt _ | .fld1
  | .fldl2t | .fldl2e | .fldpi | .fldlg2 | .fldln2 | .fldz | .fstM32 _ | .fstM64 _ | .fstSt _ | .fstpM32 _
  | .fstpM64 _ | .fstpM80 _ | .fstpSt _ | .fxch _ | .fnclex | .fdecstp | .fndisi | .fneni | .ffree _ | .fincstp
  | .fninit | .fldcw _ | .fldenv _ | .fnop | .frstor _ | .fnsave _ | .fsetpm | .fnstcw _ | .fnstenv _
  | .fnstswM16 _ | .fnstswAx | .fcomM32 _ | .fcomM64 _ | .fcomSt _ | .fcompM32 _ | .fcompM64 _ | .fcompSt _
  | .fcompp | .fcomi _ | .fcomip _ | .fucomi _ | .fucomip _ | .ficomM16 _ | .ficomM32 _ | .ficompM16 _
  | .ficompM32 _ | .ftst | .fucom _ | .fucomp _ | .fucompp | .fxam | .fwait | .fclex | .fdisi | .feni | .finit
  | .fsave _ | .fstcw _ | .fstenv _ | .fstswM16 _ | .fstswAx | .fldenvO66 _ | .fnstenvO66 _ | .frstorO66 _
  | .fnsaveO66 _ | .fstenvO66 _ | .fsaveO66 _ => none

/-- A compare instruction as the rules R470 to R490 give it: the source, whether a quiet NaN is tolerated, whether the
result goes to the host flags, and how often the stack is popped. -/
structure CompareRow where
  source : SourceKind
  quiet  : Bool
  host   : Bool
  pops   : Nat
deriving DecidableEq, Repr

/-- The rows of the compare instructions. -/
def compareRow : Instr → Option CompareRow
  | .faddM32 _ | .faddM64 _ | .faddSt0 _ | .faddSti _ | .faddp _ | .fiaddM16 _ | .fiaddM32 _ | .fdivM32 _
  | .fdivM64 _ | .fdivSt0 _ | .fdivSti _ | .fdivp _ | .fidivM16 _ | .fidivM32 _ | .fdivrM32 _ | .fdivrM64 _
  | .fdivrSt0 _ | .fdivrSti _ | .fdivrp _ | .fidivrM16 _ | .fidivrM32 _ | .fmulM32 _ | .fmulM64 _ | .fmulSt0 _
  | .fmulSti _ | .fmulp _ | .fimulM16 _ | .fimulM32 _ | .fsubM32 _ | .fsubM64 _ | .fsubSt0 _ | .fsubSti _
  | .fsubp _ | .fisubM16 _ | .fisubM32 _ | .fsubrM32 _ | .fsubrM64 _ | .fsubrSt0 _ | .fsubrSti _ | .fsubrp _
  | .fisubrM16 _ | .fisubrM32 _ | .f2xm1 | .fcos | .fpatan | .fptan | .fsin | .fsincos | .fyl2x | .fyl2xp1 | .fabs
  | .fchs | .fprem | .fprem1 | .frndint | .fscale | .fsqrt | .fxtract | .fbld _ | .fbstp _ | .fcmovb _ | .fcmove _
  | .fcmovbe _ | .fcmovu _ | .fcmovnb _ | .fcmovne _ | .fcmovnbe _ | .fcmovnu _ | .fildM16 _ | .fildM32 _
  | .fildM64 _ | .fistM16 _ | .fistM32 _ | .fistpM16 _ | .fistpM32 _ | .fistpM64 _ | .fldM32 _ | .fldM64 _
  | .fldM80 _ | .fldSt _ | .fld1 | .fldl2t | .fldl2e | .fldpi | .fldlg2 | .fldln2 | .fldz | .fstM32 _ | .fstM64 _
  | .fstSt _ | .fstpM32 _ | .fstpM64 _ | .fstpM80 _ | .fstpSt _ | .fxch _ | .fnclex | .fdecstp | .fndisi | .fneni
  | .ffree _ | .fincstp | .fninit | .fldcw _ | .fldenv _ | .fnop | .frstor _ | .fnsave _ | .fsetpm | .fnstcw _
  | .fnstenv _ | .fnstswM16 _ | .fnstswAx | .fxam | .fwait | .fclex | .fdisi | .feni | .finit | .fsave _ | .fstcw _
  | .fstenv _ | .fstswM16 _ | .fstswAx | .fldenvO66 _ | .fnstenvO66 _ | .frstorO66 _ | .fnsaveO66 _ | .fstenvO66 _
  | .fsaveO66 _ => none
  | .fcomM32 _ => some ⟨.real single, false, false, 0⟩
  | .fcomM64 _ => some ⟨.real double, false, false, 0⟩
  | .fcomSt i => some ⟨.reg i, false, false, 0⟩
  | .fcompM32 _ => some ⟨.real single, false, false, 1⟩
  | .fcompM64 _ => some ⟨.real double, false, false, 1⟩
  | .fcompSt i => some ⟨.reg i, false, false, 1⟩
  | .fcompp => some ⟨.reg 1#3, false, false, 2⟩
  | .fcomi i => some ⟨.reg i, false, true, 0⟩
  | .fcomip i => some ⟨.reg i, false, true, 1⟩
  | .fucomi i => some ⟨.reg i, true, true, 0⟩
  | .fucomip i => some ⟨.reg i, true, true, 1⟩
  | .ficomM16 _ => some ⟨.int 16, false, false, 0⟩
  | .ficomM32 _ => some ⟨.int 32, false, false, 0⟩
  | .ficompM16 _ => some ⟨.int 16, false, false, 1⟩
  | .ficompM32 _ => some ⟨.int 32, false, false, 1⟩
  | .ftst => some ⟨.zero, false, false, 0⟩
  | .fucom i => some ⟨.reg i, true, false, 0⟩
  | .fucomp i => some ⟨.reg i, true, false, 1⟩
  | .fucompp => some ⟨.reg 1#3, true, false, 2⟩

/-- The operand address of an instruction, 0 without a memory operand. -/
def addressOf (i : Instr) : Addr := i.operand.getD 0#32

/-- The value of the source operand (rules R98 to R103); a register source is not empty. -/
def SourceValue (k : SourceKind) (a : Addr) (s : State) (v : ℝ) : Prop :=
  match k with
  | .reg j => s.isEmpty j = false ∧ HasValue (s.st j) v
  | .real f => FormatValue f (leNat (s.bytesAt a f.bytes)) v
  | .int w => v = ((BitVec.ofNat w (leNat (s.bytesAt a (w / 8)))).toInt : ℝ)
  | .zero => v = 0

/-- The operation on real numbers, a division by zero excluded (rules R231 to R234). -/
def RealResult : ArithOp → ℝ → ℝ → ℝ → Prop
  | .add, a, b, x => x = a + b
  | .sub, a, b, x => x = a - b
  | .subr, a, b, x => x = b - a
  | .mul, a, b, x => x = a * b
  | .div, a, b, x => b ≠ 0 ∧ x = a / b
  | .divr, a, b, x => a ≠ 0 ∧ x = b / a

/-- Is the source a register that is empty? -/
def SourceKind.isEmpty (k : SourceKind) (s : State) : Bool :=
  match k with
  | .reg j => s.isEmpty j
  | .real _ | .int _ | .zero => false

/-- The signed integer of `w` bits in memory (rules R101 to R103). -/
def intAt (w : Nat) (a : Addr) (s : State) : Int := (BitVec.ofNat w (leNat (s.bytesAt a (w / 8)))).toInt

/-- The sign of the source operand, that of a zero included. -/
def SourceKind.sign (k : SourceKind) (a : Addr) (s : State) : Bool :=
  match k with
  | .reg j => signOf (s.st j)
  | .real f => f.negOf (leNat (s.bytesAt a f.bytes))
  | .int w => decide (intAt w a s < 0)
  | .zero => false

/-- `x` is the source operand as a register value (rules R98 to R103, R235): the register, or the value in memory, and
of an infinity or NaN in memory the fraction bits, from the top. -/
def SourceBits (k : SourceKind) (a : Addr) (s : State) (x : Ext) : Prop :=
  match k with
  | .reg j => x = s.st j
  | .real f =>
    signOf x = k.sign a s ∧
    (if f.expoOf (leNat (s.bytesAt a f.bytes)) = f.expMax then
      expoOf x = 0x7FFF ∧ intBit x = true ∧
      (fracOf x).toNat = f.fracOf (leNat (s.bytesAt a f.bytes)) * 2 ^ (63 - f.fracBits)
     else ∃ v, FormatValue f (leNat (s.bytesAt a f.bytes)) v ∧ HasValue x v)
  | .int w => signOf x = k.sign a s ∧ HasValue x (intAt w a s : ℝ)
  | .zero => x = 0#80

/-- No NaN and no unsupported value. -/
def IsNumber (x : Ext) : Prop := classOf x ∈ [Class.zero, .normal, .denormal, .infinity]

/-- The sum of `a` and of `b` with the signs `sa` and `sb` is an infinity or a zero of sign `neg` (rule R231): an infinity
that meets no opposite one, two zeros, or two numbers of one magnitude and opposite signs. A zero that is no sum of
zeros of one sign is -0 exactly in round down. -/
def SpecialSum (rc : Rounding) (a : Ext) (sa : Bool) (b : Ext) (sb : Bool) (c : Class) (neg : Bool) : Prop :=
  (c = .infinity ∧ IsNumber a ∧ IsNumber b ∧
    ((classOf a = .infinity ∧ neg = sa ∧ (classOf b = .infinity → sb = sa)) ∨
      (classOf b = .infinity ∧ neg = sb ∧ (classOf a = .infinity → sa = sb)))) ∨
  (c = .zero ∧ classOf a = .zero ∧ classOf b = .zero ∧ neg = (if sa = sb then sa else decide (rc = .down))) ∨
  (c = .zero ∧ sa ≠ sb ∧ neg = decide (rc = .down) ∧
    ∃ v w : ℝ, HasValue a v ∧ HasValue b w ∧ |v| = |w| ∧ v ≠ 0)

/-- The product is an infinity or a zero (rule R233). -/
def SpecialProduct (a b : Ext) (c : Class) : Prop :=
  IsNumber a ∧ IsNumber b ∧
  ((c = .infinity ∧ (classOf a = .infinity ∨ classOf b = .infinity) ∧ classOf a ≠ .zero ∧ classOf b ≠ .zero) ∨
    (c = .zero ∧ (classOf a = .zero ∨ classOf b = .zero) ∧ classOf a ≠ .infinity ∧ classOf b ≠ .infinity))

/-- The quotient `n / v` is an infinity or a zero, and no zero divide (rule R234). -/
def SpecialQuotient (n v : Ext) (c : Class) : Prop :=
  IsNumber n ∧ IsNumber v ∧
  ((c = .infinity ∧ classOf n = .infinity ∧ classOf v ≠ .infinity) ∨
    (c = .zero ∧ classOf n ≠ .infinity ∧ classOf v ≠ .zero ∧ (classOf n = .zero ∨ classOf v = .infinity)))

/-- The result of an arithmetic instruction is an infinity or a zero of sign `neg` (rules R231 to R234). -/
def SpecialResult (op : ArithOp) (rc : Rounding) (a b : Ext) (c : Class) (neg : Bool) : Prop :=
  match op with
  | .add => SpecialSum rc a (signOf a) b (signOf b) c neg
  | .sub => SpecialSum rc a (signOf a) b (!signOf b) c neg
  | .subr => SpecialSum rc b (signOf b) a (!signOf a) c neg
  | .mul => neg = (signOf a ^^ signOf b) ∧ SpecialProduct a b c
  | .div => neg = (signOf a ^^ signOf b) ∧ SpecialQuotient a b c
  | .divr => neg = (signOf a ^^ signOf b) ∧ SpecialQuotient b a c

/-- The invalid operands of FSQRT, FPREM, FPREM1, FSCALE and the transcendental instructions, x in ST(0) and y in ST(1)
(rules R203, R205 to R209, R303, R304, R306, R307). -/
def InvalidPair (i : Instr) (x y : Ext) : Prop :=
  (i = .fsqrt ∧ signOf x = true ∧ IsNumber x ∧ classOf x ≠ .zero) ∨
  (i ∈ [Instr.fprem, .fprem1] ∧ IsNumber x ∧ IsNumber y ∧ (classOf x = .infinity ∨ classOf y = .zero)) ∨
  (i = .fscale ∧ classOf y = .infinity ∧
    ((classOf x = .zero ∧ signOf y = false) ∨ (classOf x = .infinity ∧ signOf y = true))) ∨
  (i ∈ [Instr.fsin, .fcos, .fptan, .fsincos] ∧ classOf x = .infinity) ∨
  (i = .fyl2x ∧ IsNumber x ∧ IsNumber y ∧
    ((signOf x = true ∧ classOf x ≠ .zero) ∨ (classOf y = .zero ∧ classOf x ∈ [Class.zero, .infinity]) ∨
      (classOf y = .infinity ∧ HasValue x 1))) ∨
  (i = .fyl2xp1 ∧ classOf x = .zero ∧ classOf y = .infinity)

/-- `v` is the answer to the operands `a` and `b`, at least one of them a NaN (rule R537). -/
def NaNAnswer (a b v : Ext) : Prop :=
  (classOf b ≠ .nan → v = quiet a) ∧ (classOf a ≠ .nan → v = quiet b) ∧
  (isQNaN a = true → isSNaN b = true → v = a) ∧ (isSNaN a = true → isQNaN b = true → v = b) ∧
  (isQNaN a = isQNaN b → classOf a = .nan → classOf b = .nan →
    (sigOf b < sigOf a → v = quiet a) ∧ (sigOf a < sigOf b → v = quiet b) ∧
    (sigOf a = sigOf b → (signOf a = false → v = quiet a) ∧ (signOf b = false → v = quiet b) ∧
      (a = b → v = quiet a)))

/-- No zero, no infinity, no NaN. -/
def IsFiniteNonzero (x : Ext) : Prop := classOf x ∈ [Class.normal, .denormal]

/-- The answer of FYL2X is exactly an infinity or a zero of sign `neg`, x in ST(0) and y in ST(1) (the table of rule
R208): an infinite x, an infinite or zero y, or x = 1. -/
def Yl2xExact (x y : Ext) (c : Class) (neg : Bool) : Prop :=
  (classOf x = .infinity ∧ signOf x = false ∧ IsNumber y ∧ classOf y ≠ .zero ∧ c = .infinity ∧ neg = signOf y) ∨
  ∃ a : ℝ, HasValue x a ∧
    ((classOf y = .infinity ∧ 0 ≤ a ∧ a ≠ 1 ∧ c = .infinity ∧ neg = (signOf y ^^ decide (a < 1))) ∨
      (classOf y = .zero ∧ 0 < a ∧ c = .zero ∧ neg = (signOf y ^^ decide (a < 1))) ∨
      (IsFiniteNonzero y ∧ a = 1 ∧ c = .zero ∧ neg = signOf y))

/-- The answer of FYL2XP1 is exactly an infinity or a zero of sign `neg`, x in range (rule R209). -/
def Yl2xp1Exact (x y : Ext) (c : Class) (neg : Bool) : Prop :=
  neg = (signOf x ^^ signOf y) ∧ ∃ a : ℝ, HasValue x a ∧ |a| ≤ 1 - Real.sqrt 2 / 2 ∧
    ((c = .zero ∧ ((a = 0 ∧ IsFiniteNonzero y) ∨ classOf y = .zero)) ∨
      (c = .infinity ∧ classOf y = .infinity ∧ a ≠ 0))

/-- The one answer of an instruction is exactly an infinity or a zero of sign `neg`, x in ST(0) and y in ST(1) (rules
R202, R204, R208, R209, R305 to R307). -/
def ExactResult (i : Instr) (x y : Ext) (c : Class) (neg : Bool) : Prop :=
  (i = .frndint ∧ classOf x ∈ [Class.zero, .infinity] ∧ c = classOf x ∧ neg = signOf x) ∨
  (i = .fsqrt ∧ (classOf x = .zero ∨ (classOf x = .infinity ∧ signOf x = false)) ∧ c = classOf x ∧ neg = signOf x) ∨
  (i = .f2xm1 ∧ classOf x = .zero ∧ c = .zero ∧ neg = signOf x) ∨
  (i = .fscale ∧ neg = signOf x ∧ IsNumber y ∧ ¬InvalidPair .fscale x y ∧
    ((classOf x ∈ [Class.zero, .infinity] ∧ c = classOf x) ∨
      (IsFiniteNonzero x ∧ classOf y = .infinity ∧ c = if signOf y then .zero else .infinity))) ∨
  (i = .fpatan ∧ c = .zero ∧ neg = signOf y ∧ signOf x = false ∧
    ((classOf y = .zero ∧ IsNumber x) ∨ (IsFiniteNonzero y ∧ classOf x = .infinity))) ∨
  (i = .fyl2x ∧ Yl2xExact x y c neg) ∨
  (i = .fyl2xp1 ∧ Yl2xp1Exact x y c neg)

/-- FPATAN of x in ST(0) and y in ST(1) is a multiple of pi, and `m · 2^(e - 63)` that multiple truncated to 64 bits (the
table of rule R204): pi/4 and 3pi/4 for two infinities, pi/2 for an infinite y or a zero x, pi for a negative x that is
infinite or meets a zero y. -/
def PiMultiple (x y : Ext) (m : ℕ) (e : ℤ) : Prop :=
  (classOf y = .infinity ∧ classOf x = .infinity ∧
    (m, e) = (if signOf x then (0x96CBE3F9990E91A7, 1) else (0xC90FDAA22168C234, -1))) ∨
  ((m, e) = (0xC90FDAA22168C234, 0) ∧
    ((classOf y = .infinity ∧ IsNumber x ∧ classOf x ≠ .infinity) ∨ (IsFiniteNonzero y ∧ classOf x = .zero))) ∨
  ((m, e) = (0xC90FDAA22168C234, 1) ∧ signOf x = true ∧
    ((classOf y = .zero ∧ IsNumber x) ∨ (IsFiniteNonzero y ∧ classOf x = .infinity)))

/-! ### Denormal operands and the operand ranges of the older parts -/

/-- Is the source a denormal (rules R33, R523)? Of a single or double in memory its own format decides. -/
def SourceKind.denormal (k : SourceKind) (a : Addr) (s : State) : Bool :=
  match k with
  | .reg j => decide (classOf (s.st j) = .denormal)
  | .real f =>
    decide (f.expoOf (leNat (s.bytesAt a f.bytes)) = 0) && decide (f.fracOf (leNat (s.bytesAt a f.bytes)) ≠ 0)
  | .int _ | .zero => false

/-- The source operand of an arithmetic or compare instruction. -/
def sourceOf (i : Instr) : Option SourceKind := (arithRow i).map ArithRow.source <|> (compareRow i).map CompareRow.source

/-- Is an operand of the instruction a denormal: a register it reads, or a single or double in memory (rule R523)? -/
def denormalOperand (i : Instr) (s : State) : Bool :=
  (sources i).any (fun k => decide (classOf (s.st k) = .denormal)) ||
  (sourceOf i).any fun k => k.denormal (addressOf i) s

/-- The denormal exception does not end the instruction: it is masked, or no operand is a denormal (rule R523). -/
abbrev DenormalsPass (i : Instr) (s : State) : Prop := s.cw.getLsbD 1 = true ∨ denormalOperand i s = false

/-- The instruction raises DE (rules R201, R230, R300, R470, R523, R532): an operand is a denormal, and no stack fault,
unsupported or NaN operand, invalid operation or zero divide ends the instruction first. -/
def RaisesDenormal (i : Instr) (s : State) : Prop :=
  familyOf i ∈ [Family.arith, .other, .transcend, .compare] ∧ i ∉ [Instr.fabs, .fchs] ∧ denormalOperand i s = true ∧
  (∀ k ∈ sources i, s.isEmpty k = false ∧ IsNumber (s.st k)) ∧ (7#3 ∈ topMoves i → s.isEmpty 7#3 = true) ∧
  (∀ k x, sourceOf i = some k → SourceBits k (addressOf i) s x →
    IsNumber x ∧ (∀ row, arithRow i = some row → row.op = .div → classOf x ≠ .zero)) ∧
  (∀ row, arithRow i = some row → row.op = .divr → classOf (s.st row.dest) ≠ .zero) ∧
  ¬InvalidPair i (s.st 0#3) (s.st 1#3) ∧ (i = .fyl2x → classOf (s.st 0#3) ≠ .zero) ∧
  (i = .fyl2xp1 → ∃ a : ℝ, HasValue (s.st 0#3) a ∧ |a| ≤ 1 - Real.sqrt 2 / 2)

/-- The part takes the operands of F2XM1, FPTAN and FPATAN: any on the 387 and later, on the 8087 and 287 those in the
narrower ranges (rules R201, R204), x in ST(0) and y in ST(1). -/
def AcceptsOperands (i : Instr) (s : State) : Prop :=
  Gen.g387.rank ≤ s.cfg.gen.rank ∨
  (i = .f2xm1 → ∃ x : ℝ, HasValue (s.st 0#3) x ∧ 0 ≤ x ∧ x ≤ 1 / 2) ∧
  (i = .fptan → ∃ x : ℝ, HasValue (s.st 0#3) x ∧ 0 ≤ x ∧ x ≤ Real.pi / 4) ∧
  (i = .fpatan → ∃ x y : ℝ, HasValue (s.st 0#3) x ∧ HasValue (s.st 1#3) y ∧ |y| < |x|)

/-! ### The pointers in an environment image -/

/-- The number in the `n` bytes at offset `k` of the image at `a` (rule R91). -/
def imageField (a : Addr) (k n : Nat) (s : State) : Nat := leNat (s.bytesAt (a + BitVec.ofNat 32 k) n)

/-- The image at `a` in `t` holds the pointers of `s` (rules R107 to R109); `step` is the distance of its first fields, 2
in the images of 14 bytes and 4 in those of 28. -/
def PointersStored (step : Nat) (a : Addr) (s t : State) : Prop :=
  if step = 4 then
    if Params.realMode s.cfg then
      imageField a 12 2 t = s.fip.toNat % 2 ^ 16 ∧
      imageField a 16 4 t = s.fop.toNat + 2 ^ 12 * (s.fip.toNat / 2 ^ 16) ∧
      imageField a 20 2 t = s.fdp.toNat % 2 ^ 16 ∧ imageField a 24 4 t = 2 ^ 12 * (s.fdp.toNat / 2 ^ 16)
    else
      imageField a 12 4 t = s.fip.toNat ∧ imageField a 16 2 t = s.fcs.toNat ∧ imageField a 18 2 t = s.fop.toNat ∧
      imageField a 20 4 t = s.fdp.toNat ∧ imageField a 24 2 t = s.fds.toNat
  else if Params.realMode s.cfg then
    imageField a 6 2 t = s.fip.toNat % 2 ^ 16 ∧
    imageField a 8 2 t = s.fop.toNat + 2 ^ 12 * (s.fip.toNat / 2 ^ 16 % 2 ^ 4) ∧
    imageField a 10 2 t = s.fdp.toNat % 2 ^ 16 ∧ imageField a 12 2 t = 2 ^ 12 * (s.fdp.toNat / 2 ^ 16 % 2 ^ 4)
  else
    imageField a 6 2 t = s.fip.toNat % 2 ^ 16 ∧ imageField a 8 2 t = s.fcs.toNat ∧
    imageField a 10 2 t = s.fdp.toNat % 2 ^ 16 ∧ imageField a 12 2 t = s.fds.toNat

/-- `t` has the pointers of the image at `a` in `s`, and keeps those the layout has no field for (rules R107 to R109,
R413). -/
def PointersLoaded (step : Nat) (a : Addr) (s t : State) : Prop :=
  if step = 4 then
    if Params.realMode s.cfg then
      t.fip.toNat = imageField a 12 2 s + 2 ^ 16 * (imageField a 16 4 s / 2 ^ 12 % 2 ^ 16) ∧
      t.fop.toNat = imageField a 16 4 s % 2 ^ 11 ∧
      t.fdp.toNat = imageField a 20 2 s + 2 ^ 16 * (imageField a 24 4 s / 2 ^ 12 % 2 ^ 16) ∧
      t.fcs = s.fcs ∧ t.fds = s.fds
    else
      t.fip.toNat = imageField a 12 4 s ∧ t.fcs.toNat = imageField a 16 2 s ∧
      t.fop.toNat = imageField a 18 2 s % 2 ^ 11 ∧ t.fdp.toNat = imageField a 20 4 s ∧
      t.fds.toNat = imageField a 24 2 s
  else if Params.realMode s.cfg then
    t.fip.toNat % 2 ^ 20 = imageField a 6 2 s + 2 ^ 16 * (imageField a 8 2 s / 2 ^ 12) ∧
    t.fop.toNat = imageField a 8 2 s % 2 ^ 11 ∧
    t.fdp.toNat % 2 ^ 20 = imageField a 10 2 s + 2 ^ 16 * (imageField a 12 2 s / 2 ^ 12) ∧
    t.fcs = s.fcs ∧ t.fds = s.fds
  else
    t.fip.toNat % 2 ^ 16 = imageField a 6 2 s ∧ t.fcs.toNat = imageField a 8 2 s ∧
    t.fdp.toNat % 2 ^ 16 = imageField a 10 2 s ∧ t.fds.toNat = imageField a 12 2 s ∧ t.fop = s.fop

end Sys2Proof.Machine
end

