-- ==== Sys2Proof/Certificates/Slice0/Obligations.lean ====
section
/-! DEFINITION. The statements for the provers, listed in OBLIGATIONS.json. "Completes" means that exec answers a next
state. `Ready i s` says that the instruction exists, does not pass the top of the address range and that no trap is
taken first; `OperandThere i s` that the bytes of its memory operand are provided. -/

section Statements

open Sys2Proof Sys2Proof.Machine

/-! ### Encoding -/

/-- Decoding undoes encoding, whatever follows (rules R131 to R146); only where the run reads wait forms as one
instruction (the model's parameter fusedWait, log entry 1) nothing may follow FWAIT. -/
def Obligations.DecodeOfEncode : Prop :=
  ∀ (p : Params) (i : Instr) (rest : List Byte), i.wellFormed p = true →
    (i = .fwait → p.fusedWait = true → rest = []) → decode p (encode p i ++ rest) = .ok (i, i.length p)

/-- What decoding answers is well-formed, has the length of rule R155, and is what the bytes at the head encode: no two
byte strings decode to one instruction. -/
def Obligations.EncodeOfDecode : Prop :=
  ∀ (p : Params) (bs : List Byte) (i : Instr) (n : Nat), decode p bs = .ok (i, n) →
    i.wellFormed p = true ∧ n = i.length p ∧ bs.take n = encode p i

/-- A few words written out from the tables of the spec decode to the instructions they stand for; 9BH before FNSTSW AX
is FWAIT alone (rules R145, R588), and with fusedWait (log entry 1) FSTSW AX. -/
def Obligations.DecodeSpecWords : Prop :=
  decode {} [0xD8#8, 0xC3#8] = .ok (.faddSt0 3#3, 2) ∧
  decode {} [0xDC#8, 0xEA#8] = .ok (.fsubSti 2#3, 2) ∧
  decode {} [0xDD#8, 0x05#8, 0x10#8, 0x20#8, 0#8, 0#8] = .ok (.fldM64 0x2010#32, 6) ∧
  decode {} [0x66#8, 0xDD#8, 0x35#8, 1#8, 0#8, 0#8, 0#8] = .ok (.fnsaveO66 1#32, 7) ∧
  decode {} [0x9B#8, 0xDF#8, 0xE0#8] = .ok (.fwait, 1) ∧
  decode { fusedWait := true } [0x9B#8, 0xDF#8, 0xE0#8] = .ok (.fstswAx, 3) ∧
  decode {} [0xD9#8, 0xFE#8] = .ok (.fsin, 2)

/-! ### Steps -/

/-- Where the bytes at pc decode to an instruction and the run has not stored to them, the step is that instruction
(rules R135, R115); the step adds nothing around it. -/
def Obligations.StepRunsDecodedInstruction : Prop :=
  ∀ (s : State) (i : Instr) (n : Nat), decode s.cfg s.code = .ok (i, n) →
    (∀ k, k < n → s.pcNat + k ∉ s.written) → step s = exec i s

/-- The state a run starts in meets the invariant and is the state FNINIT leaves (rules R62, R63). That a run starts there
and not in an arbitrary state is the launch premise, of the two alternatives of rule R580 the one the model chose (log
entry 23, DESIGN CHOICE); the values of R, pc, AX, the host flags, PM287 and memory are the model's too (log entries 3 to
6) and not said here. -/
def Obligations.ResetState : Prop :=
  State.reset.cw = 0x037F#16 ∧ State.reset.swWord = 0#16 ∧ State.reset.tagWord = 0xFFFF#16 ∧
  State.reset.fip = 0#32 ∧ State.reset.fcs = 0#16 ∧ State.reset.fdp = 0#32 ∧ State.reset.fds = 0#16 ∧
  State.reset.fop = 0#11 ∧ State.reset.wf

/-- Every step keeps the invariant: memory and the addresses stored to in canonical form and inside the address range, a
non-empty tag equal to the tag of its register (rule R49), the reserved bits of CW as they read (rule R47; bit 6 on the
8087 and 287: log entry 13), pc in range or one past its top (rule R55, log entry 25). A trap handler leaves a state that
meets it (log entry 15). -/
def Obligations.StepKeepsInvariant : Prop := ∀ s t : State, s.wf → step s = .next t → t.wf

/-! ### Stops and traps -/

/-- The stops of an instruction. An instruction the generation lacks raises IllegalInstruction (rule R147), and one with a
byte past the top of the address range is refused rather than wrapped (rules R20, R55), before a pending exception is
looked at (log entry 25, DESIGN CHOICE); the wait forms begin with FWAIT and are not said here. And there are no other
stops but an operand that is not provided (rule R90) and a pending trap with FP_TRAP = stop (rule R531). -/
def Obligations.StopsAndTheirReasons : Prop :=
  ∀ (i : Instr) (s : State),
    (i.isWaitForm = false → i.available s.cfg = false → exec i s = .fault .illegalInstruction) ∧
    (i.isWaitForm = false → i.available s.cfg = true → s.cfg.addrLimit < s.pcNat + i.length s.cfg →
      exec i s = .refused (.pastTop (s.pcNat + i.length s.cfg))) ∧
    (∀ f, exec i s = .fault f →
      (f = .illegalInstruction ∧ i.available s.cfg = false) ∨
      (∃ a, i.operand = some a ∧ f = .memFault a.toNat ∧ hasBytes s.cfg a.toNat (widthOf s.cfg i) = false) ∨
      (∃ r, f = .floatingPointTrap r ∧ s.es = true ∧ s.cfg.fpTrap = .stop)) ∧
    (∀ r, exec i s = .refused r → ∃ n, r = .pastTop n ∧ s.cfg.addrLimit < s.pcNat + i.length s.cfg)

/-- ES is set exactly when a flag is set whose mask is clear, and B is a copy of it (rules R39, R40). -/
def Obligations.SummaryBits : Prop :=
  ∀ s : State,
    (s.swWord.getLsbD 7 = true ↔ s.swWord.extractLsb' 0 6 &&& ~~~(s.cw.extractLsb' 0 6) ≠ 0#6) ∧
    s.swWord.getLsbD 15 = s.swWord.getLsbD 7

/-- A waiting instruction that finds ES set (on the 8087: and IEM clear) is not executed: the trap is taken, and
FP_TRAP decides what follows (rules R530, R531, R535). With resume the run goes on with `s.handled` (log entry 15, DESIGN
CHOICE): what a handler without a definition leaves, or `s` itself where that breaks the invariant or changes the
parameters. -/
def Obligations.PendingTrapTaken : Prop :=
  ∀ (i : Instr) (s : State), syncOf i = .waiting → i.available s.cfg = true →
    s.pcNat + i.length s.cfg ≤ s.cfg.addrLimit → s.swWord.getLsbD 7 = true →
    ¬(s.cfg.gen = .g8087 ∧ s.cw.getLsbD 7 = true) →
    (s.cfg.fpTrap = .stop → exec i s = .fault (.floatingPointTrap
      ⟨s.swWord, s.fip, s.fcs, s.fdp, s.fds, s.fop, s.pc⟩)) ∧
    (s.cfg.fpTrap = .resume → exec i s = .next s.handled)

/-- No data register, tag, TOP or byte of memory changes where an unmasked IE, DE or ZE stops an instruction; FLD
m32real and FLD m64real complete their push with an unmasked DE (rules R94, R521 to R524, R528). That FYL2XP1 with x out
of range stops so too, on a flag that is free there, is log entry 10. And an arithmetic, transcendental or compare
instruction that raises DE with DM = 0 stops so, DE set and the exception pending; that C1 is cleared then is rule R17
(log entry 27). -/
def Obligations.UnmaskedStopsWithoutEffect : Prop :=
  (∀ (i : Instr) (s t : State), familyOf i ≠ .control → Ready i s → s.es = false → exec i s = .next t →
    ((t.sw.ie = true ∧ s.cw.getLsbD 0 = false) ∨ (t.sw.ze = true ∧ s.cw.getLsbD 2 = false) ∨
      (t.sw.de = true ∧ s.cw.getLsbD 1 = false ∧ ∀ a, i ≠ .fldM32 a ∧ i ≠ .fldM64 a)) →
    t.regs = s.regs ∧ t.tags = s.tags ∧ t.sw.top = s.sw.top ∧ MemoryKept s t) ∧
  (∀ (i : Instr) (s : State), Ready i s → OperandThere i s → s.cw.getLsbD 1 = false → RaisesDenormal i s →
    ∃ t, exec i s = .next t ∧ t.sw.de = true ∧ t.swWord.getLsbD 7 = true ∧ t.sw.c1 = false ∧
      (∀ f, f ≠ .de → t.sw.flag f = s.sw.flag f) ∧ Untouched s t)

/-- A memory operand with a byte that is not provided faults (rules R90, R94), but for an arithmetic store whose value an
unmasked exception suppresses: that it makes no access is log entry 21. Of a wait form the FWAIT is done all the same:
exec answers the state FWAIT leaves, which is the model's choice (log entry 1, DESIGN CHOICE) for the one instruction
that stands for the two steps of rules R145 and R400. -/
def Obligations.MissingOperandFaults : Prop :=
  ∀ (i : Instr) (s : State) (a : Addr), Ready i s → i.operand = some a →
    hasBytes s.cfg a.toNat (widthOf s.cfg i) = false →
    (i.isWaitForm = false → exec i s = .fault (.memFault a.toNat) ∨
      (familyOf i = .store ∧ ∃ t, exec i s = .next t ∧ t.es = true ∧ MemoryKept s t)) ∧
    (i.isWaitForm = true → ∃ t, exec i s = .next t ∧ exec .fwait s = .next t)

/-! ### What only some instructions write -/

/-- AX is written by FSTSW AX and FNSTSW AX only and read by no instruction: with another AX every other instruction does
the same (rule R56). Under FP_TRAP = resume a handler may do otherwise. -/
def Obligations.OnlyFstswAxTouchesAx : Prop :=
  ∀ (i : Instr) (s : State) (v : Word16), s.cfg.fpTrap = .stop → i ≠ .fnstswAx → i ≠ .fstswAx →
    exec i { s with ax := v } =
      (match exec i s with
       | .next t => .next { t with ax := v }
       | .fault f => .fault f
       | .refused r => .refused r)

/-- The host flags are written by FCOMI, FCOMIP, FUCOMI and FUCOMIP only and read by the eight FCMOVcc only (rule R57). -/
def Obligations.OnlyFcomiAndFcmovTouchHostFlags : Prop :=
  ∀ (i : Instr) (s : State) (z p c : Bool), s.cfg.fpTrap = .stop →
    (∀ k, i ∉ [Instr.fcomi k, .fcomip k, .fucomi k, .fucomip k]) →
    (∀ k, i ∉ [Instr.fcmovb k, .fcmove k, .fcmovbe k, .fcmovu k, .fcmovnb k, .fcmovne k, .fcmovnbe k, .fcmovnu k]) →
    exec i { s with zf := z, pf := p, cf := c } =
      (match exec i s with
       | .next t => .next { t with zf := z, pf := p, cf := c }
       | .fault f => .fault f
       | .refused r => .refused r)

/-! ### Basic arithmetic (41_arith_basic.md) -/

/-- The instructions without a store complete, and what they leave unchanged: the arithmetic ones (FADD, FADDP, FIADD,
FSUB, FSUBP, FISUB, FSUBR, FSUBRP, FISUBR, FMUL, FMULP, FIMUL, FDIV, FDIVP, FIDIV, FDIVR, FDIVRP, FIDIVR), FABS, FCHS,
FPREM, FPREM1, FRNDINT, FSCALE, FSQRT, FXTRACT, F2XM1, FCOS, FPATAN, FPTAN, FSIN, FSINCOS, FYL2X, FYL2XP1, FBLD, FILD,
FLD, the seven constant loads, the eight FCMOVcc, FST ST(i), FSTP ST(i), FXCH, in all forms. Where the source calls a
result undefined the instruction completes all the same (log entries 9 to 12). FOP on every generation and the kept FCS
and FDS of real mode are log entry 14 (DEDUCED); FPTAN without OE and FCOS without UE log entry 18. -/
def Obligations.ComputationsComplete : Prop :=
  ∀ (i : Instr) (s : State), familyOf i ∈ [Family.arith, .other, .transcend, .load, .move] → Ready i s →
    OperandThere i s → ∃ t, exec i s = .next t ∧ Computes i s t ∧ HostKept s t ∧ MemoryKept s t

/-- The result is the exact real result rounded once by CW.RC to the precision of CW.PC, where that lies in the normal
range; PE and C1 tell the rounding, DE a denormal operand, no other flag changes, and the pop is done (rules R60, R230 to
R235, R523, R538).
That an inexact quotient of FDIV m32real and FDIVR m32real sets PE, and C1 where it is rounded up, is log entry 28 (DESIGN
CHOICE): the examples of rules R247 and R254 say no flag set, C1 = 0. -/
def Obligations.ArithCorrectlyRounded : Prop :=
  ∀ (i : Instr) (row : ArithRow) (s : State) (p : Nat) (a b x y : ℝ) (inexact up : Bool),
    arithRow i = some row → Ready i s → OperandThere i s → DenormalsPass i s → precision s.cw = some p →
    s.isEmpty row.dest = false → HasValue (s.st row.dest) a → SourceValue row.source (addressOf i) s b →
    RealResult row.op a b x → CorrectlyRounded p (rounding s.cw) x y inexact up → InRange y →
    ∃ t, exec i s = .next t ∧ HasValue (t.reg (s.phys row.dest)) y ∧ t.sw.c1 = up ∧
      t.sw.pe = (s.sw.pe || inexact) ∧ t.sw.de = (s.sw.de || denormalOperand i s) ∧
      (∀ f, f ≠ .pe → f ≠ .de → t.sw.flag f = s.sw.flag f) ∧
      (if row.pop then t.sw.top = s.sw.top + 1#3 ∧ t.tag (s.phys 0#3) = .empty
       else t.sw.top = s.sw.top ∧ t.tag (s.phys row.dest) = .valid)

/-- Overflow with a register destination (rule R525): masked, an infinity or the largest number of the precision with PE;
unmasked, the rounded result divided by 2 to the power 24576. The pop is done; DE tells a denormal operand, and IE, ZE, UE
and SF are kept. -/
def Obligations.ArithOverflow : Prop :=
  ∀ (i : Instr) (row : ArithRow) (s : State) (p : Nat) (a b x y : ℝ) (inexact up : Bool),
    arithRow i = some row → Ready i s → OperandThere i s → DenormalsPass i s → precision s.cw = some p →
    s.isEmpty row.dest = false → HasValue (s.st row.dest) a → SourceValue row.source (addressOf i) s b →
    RealResult row.op a b x → CorrectlyRounded p (rounding s.cw) x y inexact up → (2 : ℝ) ^ (16384 : ℤ) ≤ |y| →
    ∃ t, exec i s = .next t ∧ t.sw.oe = true ∧ t.sw.de = (s.sw.de || denormalOperand i s) ∧
      (∀ f, f ∈ [Flag.ie, .ze, .ue, .sf] → t.sw.flag f = s.sw.flag f) ∧
      t.sw.top = s.sw.top + (if row.pop then 1#3 else 0#3) ∧ (row.pop = true → t.tag (s.phys 0#3) = .empty) ∧
      (if s.cw.getLsbD 3 then
        t.sw.pe = true ∧ signOf (t.reg (s.phys row.dest)) = decide (x < 0) ∧
        (if rounding s.cw = .nearest ∨ (rounding s.cw = .up ∧ 0 < x) ∨ (rounding s.cw = .down ∧ x < 0) then
          classOf (t.reg (s.phys row.dest)) = .infinity ∧ t.sw.c1 = true
         else
          HasValue (t.reg (s.phys row.dest))
            ((if x < 0 then -1 else 1) * ((2 - 2 ^ (1 - (p : ℤ))) * 2 ^ (16383 : ℤ))) ∧ t.sw.c1 = false)
       else
        HasValue (t.reg (s.phys row.dest)) (y * 2 ^ (-24576 : ℤ)) ∧ t.sw.c1 = up ∧
        t.sw.pe = (s.sw.pe || inexact))

/-- Underflow with a register destination (rule R526): masked, the exact result rounded to the spacing of the denormals,
UE and PE only where a rounding was inexact; unmasked, the rounded result times 2 to the power 24576. The pop is done; DE
tells a denormal operand, and IE, ZE, OE and SF are kept. -/
def Obligations.ArithUnderflow : Prop :=
  ∀ (i : Instr) (row : ArithRow) (s : State) (p : Nat) (a b x y d : ℝ) (inexact up inexact2 up2 : Bool),
    arithRow i = some row → Ready i s → OperandThere i s → DenormalsPass i s → precision s.cw = some p →
    s.isEmpty row.dest = false → HasValue (s.st row.dest) a → SourceValue row.source (addressOf i) s b →
    RealResult row.op a b x → CorrectlyRounded p (rounding s.cw) x y inexact up → |y| < (2 : ℝ) ^ (-16382 : ℤ) →
    RoundedTo (-16382 - ((p : ℤ) - 1)) (rounding s.cw) x d inexact2 up2 →
    ∃ t, exec i s = .next t ∧ t.sw.de = (s.sw.de || denormalOperand i s) ∧
      (∀ f, f ∈ [Flag.ie, .ze, .oe, .sf] → t.sw.flag f = s.sw.flag f) ∧
      t.sw.top = s.sw.top + (if row.pop then 1#3 else 0#3) ∧ (row.pop = true → t.tag (s.phys 0#3) = .empty) ∧
      (if s.cw.getLsbD 4 then
        HasValue (t.reg (s.phys row.dest)) d ∧ signOf (t.reg (s.phys row.dest)) = decide (x < 0) ∧
        (if inexact2 || inexact then
          t.sw.ue = true ∧ t.sw.pe = true ∧ t.sw.c1 = (if inexact2 then up2 else up)
         else t.sw.ue = s.sw.ue ∧ t.sw.pe = s.sw.pe ∧ t.sw.c1 = false)
       else
        HasValue (t.reg (s.phys row.dest)) (y * 2 ^ (24576 : ℤ)) ∧ t.sw.ue = true ∧ t.sw.c1 = up ∧
        t.sw.pe = (s.sw.pe || inexact))

/-- Division of a nonzero number by zero: ZE and no other flag; masked, an infinity with the exclusive or of the signs
(rules R234, R524), whatever the source. FYL2X of a zero x and a finite nonzero y gives an infinity with the sign
opposite to that of y (rule R208); FXTRACT of a zero gives -infinity as the exponent and that zero as the significand
(rule R308). Unmasked, nothing else changes but C1, which is cleared all the same (rule R17; log entry 27). -/
def Obligations.DivideByZero : Prop :=
  (∀ (i : Instr) (row : ArithRow) (s : State) (a b : ℝ),
    arithRow i = some row → Ready i s → OperandThere i s →
    s.isEmpty row.dest = false → HasValue (s.st row.dest) a → SourceValue row.source (addressOf i) s b →
    (row.op = .div ∧ b = 0 ∧ a ≠ 0) ∨ (row.op = .divr ∧ a = 0 ∧ b ≠ 0) →
    ∃ t, exec i s = .next t ∧ t.sw.ze = true ∧ t.sw.c1 = false ∧
      (∀ f, f ≠ .ze → t.sw.flag f = s.sw.flag f) ∧
      (if s.cw.getLsbD 2 then
        classOf (t.reg (s.phys row.dest)) = .infinity ∧
        signOf (t.reg (s.phys row.dest)) = (signOf (s.st row.dest) ^^ row.source.sign (addressOf i) s) ∧
        t.sw.top = s.sw.top + (if row.pop then 1#3 else 0#3)
       else Untouched s t)) ∧
  (∀ (s : State) (y : ℝ), Ready .fyl2x s → s.isEmpty 0#3 = false → s.isEmpty 1#3 = false →
    classOf (s.st 0#3) = .zero → HasValue (s.st 1#3) y → y ≠ 0 →
    ∃ t, exec .fyl2x s = .next t ∧ t.sw.ze = true ∧ t.sw.c1 = false ∧
      (∀ f, f ≠ .ze → t.sw.flag f = s.sw.flag f) ∧
      (if s.cw.getLsbD 2 then
        classOf (t.reg (s.phys 1#3)) = .infinity ∧ signOf (t.reg (s.phys 1#3)) = decide (0 < y) ∧
        t.sw.top = s.sw.top + 1#3 ∧ t.tag (s.phys 0#3) = .empty
       else Untouched s t)) ∧
  (∀ s : State, Ready .fxtract s → s.isEmpty 0#3 = false → s.isEmpty 7#3 = true → classOf (s.st 0#3) = .zero →
    ∃ t, exec .fxtract s = .next t ∧ t.sw.ze = true ∧ t.sw.c1 = false ∧
      (∀ f, f ≠ .ze → t.sw.flag f = s.sw.flag f) ∧
      (if s.cw.getLsbD 2 then
        t.reg (s.phys 0#3) = 0xFFFF8000000000000000#80 ∧ t.reg (s.phys 7#3) = s.st 0#3 ∧
        t.sw.top = s.sw.top - 1#3
       else Untouched s t))

/-- Invalid operations of the arithmetic instructions, whatever the source: an empty register operand is a stack
underflow, and nothing else is looked at; an unsupported operand, and infinities and zeros that have no result (opposite
infinities added, equal ones subtracted, a zero times an infinity, quotients of two infinities or two zeros) raise IA.
Masked, the indefinite is stored and the pop done; unmasked, nothing else changes (rules R230 to R235, R521, R522,
R532). -/
def Obligations.ArithInvalidOperation : Prop :=
  ∀ (i : Instr) (row : ArithRow) (s : State) (a b : Ext) (empty : Bool),
    arithRow i = some row → Ready i s → OperandThere i s → s.st row.dest = a →
    SourceBits row.source (addressOf i) s b → empty = (s.isEmpty row.dest || row.source.isEmpty s) →
    (empty = true ∨ classOf a = .unsupported ∨ classOf b = .unsupported ∨
      (row.op = .add ∧ classOf a = .infinity ∧ classOf b = .infinity ∧ signOf a ≠ signOf b) ∨
      (row.op ∈ [ArithOp.sub, .subr] ∧ classOf a = .infinity ∧ classOf b = .infinity ∧ signOf a = signOf b) ∨
      (row.op = .mul ∧ ((classOf a = .zero ∧ classOf b = .infinity) ∨ (classOf a = .infinity ∧ classOf b = .zero))) ∨
      (row.op ∈ [ArithOp.div, .divr] ∧ classOf a = classOf b ∧ (classOf a = .infinity ∨ classOf a = .zero))) →
    ∃ t, exec i s = .next t ∧ t.sw.ie = true ∧ t.sw.sf = (s.sw.sf || empty) ∧ t.sw.c1 = false ∧
      (∀ f, f ≠ .ie → f ≠ .sf → t.sw.flag f = s.sw.flag f) ∧
      (if s.cw.getLsbD 0 then
        t.reg (s.phys row.dest) = 0xFFFFC000000000000000#80 ∧ t.sw.top = s.sw.top + (if row.pop then 1#3 else 0#3)
       else Untouched s t)

/-- NaN operands, whatever the source (rules R98, R99, R522, R537): the answer is that of `NaNAnswer`, the quieted NaN, or
of two the quiet one, the one with the larger significand, or the positive one, quieted; IE where one is signalling, and
unmasked nothing else changes then. -/
def Obligations.ArithNaN : Prop :=
  ∀ (i : Instr) (row : ArithRow) (s : State) (a b : Ext),
    arithRow i = some row → Ready i s → OperandThere i s → s.isEmpty row.dest = false → row.source.isEmpty s = false →
    s.st row.dest = a → SourceBits row.source (addressOf i) s b → classOf a ≠ .unsupported →
    classOf b ≠ .unsupported → (classOf a = .nan ∨ classOf b = .nan) →
    ∃ t v, exec i s = .next t ∧ t.reg (s.phys row.dest) = v ∧ t.sw.c1 = false ∧
      t.sw.ie = (s.sw.ie || isSNaN a || isSNaN b) ∧ (∀ f, f ≠ .ie → t.sw.flag f = s.sw.flag f) ∧
      (if s.cw.getLsbD 0 = false ∧ (isSNaN a = true ∨ isSNaN b = true) then Untouched s t
       else
        t.sw.top = s.sw.top + (if row.pop then 1#3 else 0#3) ∧ NaNAnswer a b v)

/-- Exact results that are an infinity or a zero, whatever the source: infinities that meet no invalid operand, products
and quotients with a zero, zero sums, -0 only in round down unless both zeros are negative (rules R230 to R235). C1 is 0,
DE tells a denormal operand, and no other flag changes. -/
def Obligations.ArithSpecialResults : Prop :=
  ∀ (i : Instr) (row : ArithRow) (s : State) (a b : Ext) (c : Machine.Class) (neg : Bool),
    arithRow i = some row → Ready i s → OperandThere i s → s.isEmpty row.dest = false → row.source.isEmpty s = false →
    DenormalsPass i s → s.st row.dest = a → SourceBits row.source (addressOf i) s b →
    SpecialResult row.op (rounding s.cw) a b c neg →
    ∃ t, exec i s = .next t ∧ classOf (t.reg (s.phys row.dest)) = c ∧ signOf (t.reg (s.phys row.dest)) = neg ∧
      t.sw.c1 = false ∧ t.sw.de = (s.sw.de || denormalOperand i s) ∧ (∀ f, f ≠ .de → t.sw.flag f = s.sw.flag f) ∧
      t.sw.top = s.sw.top + (if row.pop then 1#3 else 0#3)

/-! ### Other arithmetic (42_arith_other.md) -/

/-- FABS clears and FCHS inverts the sign bit of ST(0), whatever the register holds, with no exception but a stack
underflow, whose masked response is the indefinite; C1 is 0 (rules R301, R302). -/
def Obligations.SignInstructions : Prop :=
  (∀ p, encode p .fabs = [0xD9#8, 0xE1#8] ∧ Instr.fabs.available p = true ∧
    encode p .fchs = [0xD9#8, 0xE0#8] ∧ Instr.fchs.available p = true) ∧
  ∀ (i : Instr) (f : Ext → Ext) (s : State),
    (i, f) ∈ [(Instr.fabs, fun x : Ext => x &&& 0x7FFFFFFFFFFFFFFFFFFF#80),
      (Instr.fchs, fun x : Ext => x ^^^ 0x80000000000000000000#80)] →
    Ready i s →
    ∃ t, exec i s = .next t ∧ t.sw.c1 = false ∧ t.sw.top = s.sw.top ∧
      (s.isEmpty 0#3 = false → t.reg (s.phys 0#3) = f (s.st 0#3) ∧ ∀ g, t.sw.flag g = s.sw.flag g) ∧
      (s.isEmpty 0#3 = true →
        t.sw.ie = true ∧ t.sw.sf = true ∧ (∀ g, g ≠ .ie → g ≠ .sf → t.sw.flag g = s.sw.flag g) ∧
        (if s.cw.getLsbD 0 then t.reg (s.phys 0#3) = 0xFFFFC000000000000000#80
         else t.regs = s.regs ∧ t.tags = s.tags))

/-- FSQRT of a positive number is its square root, rounded once by CW.RC to the precision of CW.PC (rules R60, R307); DE
tells a denormal operand (rule R523), and no flag but PE and DE changes. -/
def Obligations.SquareRootRounded : Prop :=
  ∀ (s : State) (p : Nat) (a y : ℝ) (inexact up : Bool),
    Ready .fsqrt s → s.isEmpty 0#3 = false → DenormalsPass .fsqrt s → precision s.cw = some p →
    HasValue (s.st 0#3) a → 0 < a → CorrectlyRounded p (rounding s.cw) (Real.sqrt a) y inexact up →
    ∃ t, exec .fsqrt s = .next t ∧ HasValue (t.reg (s.phys 0#3)) y ∧ t.sw.c1 = up ∧
      t.sw.pe = (s.sw.pe || inexact) ∧ t.sw.de = (s.sw.de || denormalOperand .fsqrt s) ∧
      ∀ f, f ≠ .pe → f ≠ .de → t.sw.flag f = s.sw.flag f

/-- FRNDINT rounds ST(0) to an integer by CW.RC and keeps the sign (rules R61, R305); DE tells a denormal operand
(rule R523), and no flag but PE and DE changes. -/
def Obligations.RoundToInteger : Prop :=
  ∀ (s : State) (a y : ℝ) (inexact up : Bool),
    Ready .frndint s → s.isEmpty 0#3 = false → DenormalsPass .frndint s → HasValue (s.st 0#3) a →
    RoundedTo 0 (rounding s.cw) a y inexact up →
    ∃ t, exec .frndint s = .next t ∧ HasValue (t.reg (s.phys 0#3)) y ∧
      signOf (t.reg (s.phys 0#3)) = signOf (s.st 0#3) ∧ t.sw.c1 = up ∧ t.sw.pe = (s.sw.pe || inexact) ∧
      t.sw.de = (s.sw.de || denormalOperand .frndint s) ∧ ∀ f, f ≠ .pe → f ≠ .de → t.sw.flag f = s.sw.flag f

/-- FPREM and FPREM1 (rules R303, R304). A complete reduction (exponents less than 64 apart) leaves the exact remainder:
the quotient is truncated or rounded to nearest, C2 is 0, and C0, C3, C1 are its low bits. An incomplete one (64 or more
apart) reduces the exponent by some n from 32 to 63, truncating, is exact and sets C2. A zero dividend and an infinite
divisor leave the dividend, with C0 to C3 clear. A zero keeps the dividend's sign, DE tells a denormal operand, and no
other flag changes; underflow masked. -/
def Obligations.RemainderExact : Prop :=
  ∀ (i : Instr) (s : State) (a : ℝ), i ∈ [Instr.fprem, .fprem1] → Ready i s →
    s.isEmpty 0#3 = false → s.isEmpty 1#3 = false → DenormalsPass i s → s.cw.getLsbD 4 = true →
    HasValue (s.st 0#3) a →
    (∀ (b : ℝ) (ea eb : ℤ), HasValue (s.st 1#3) b → (2 : ℝ) ^ ea ≤ |a| → |a| < (2 : ℝ) ^ (ea + 1) →
      (2 : ℝ) ^ eb ≤ |b| → |b| < (2 : ℝ) ^ (eb + 1) →
      ∃ (t : State) (q : ℕ) (r m : ℝ), exec i s = .next t ∧
        r = (if a < 0 then -1 else 1) * (|a| - q * m) ∧ HasValue (t.reg (s.phys 0#3)) r ∧
        (r = 0 → signOf (t.reg (s.phys 0#3)) = decide (a < 0)) ∧ (∀ f, f ≠ .de → t.sw.flag f = s.sw.flag f) ∧
        t.sw.de = (s.sw.de || denormalOperand i s) ∧
        (ea - eb < 64 → m = |b| ∧
          (i = .fprem → (q : ℝ) * |b| ≤ |a| ∧ |a| < ((q : ℝ) + 1) * |b|) ∧
          (i = .fprem1 → ∃ inexact up, RoundedTo 0 .nearest (|a| / |b|) q inexact up) ∧
          t.sw.c2 = false ∧ t.sw.c0 = q.testBit 2 ∧ t.sw.c3 = q.testBit 1 ∧ t.sw.c1 = q.testBit 0) ∧
        (64 ≤ ea - eb → t.sw.c2 = true ∧
          (∃ n : ℤ, 32 ≤ n ∧ n ≤ 63 ∧ m = |b| * 2 ^ (ea - eb - n)) ∧ (q : ℝ) * m ≤ |a| ∧
          |a| < ((q : ℝ) + 1) * m)) ∧
    (classOf (s.st 1#3) = .infinity ∨ (a = 0 ∧ classOf (s.st 1#3) ∈ [Class.normal, .denormal]) →
      ∃ t, exec i s = .next t ∧ HasValue (t.reg (s.phys 0#3)) a ∧
        signOf (t.reg (s.phys 0#3)) = signOf (s.st 0#3) ∧ t.sw.c0 = false ∧ t.sw.c1 = false ∧ t.sw.c2 = false ∧
        t.sw.c3 = false ∧ t.sw.de = (s.sw.de || denormalOperand i s) ∧ ∀ f, f ≠ .de → t.sw.flag f = s.sw.flag f)

/-- FSCALE multiplies ST(0) by a power of two (rule R306): the exponent is ST(1) truncated toward zero, whatever CW.RC. In
the normal range the product is exact; above and below it overflow and underflow follow (rules R525, R526), and unmasked
the result is scaled by 2 to the power 24576 where that brings it into range; where not, it is a free value (log entry
12), of which nothing is said. DE tells a denormal operand, and IE, ZE and SF are kept. -/
def Obligations.ScaleExact : Prop :=
  ∀ (s : State) (a b x : ℝ), Ready .fscale s → s.isEmpty 0#3 = false → s.isEmpty 1#3 = false →
    DenormalsPass .fscale s → HasValue (s.st 0#3) a → HasValue (s.st 1#3) b → a ≠ 0 →
    x = a * 2 ^ (if 0 ≤ b then ⌊b⌋ else ⌈b⌉) →
    ∃ (t : State) (r : Ext), exec .fscale s = .next t ∧ r = t.reg (s.phys 0#3) ∧ t.reg (s.phys 1#3) = s.st 1#3 ∧
      t.sw.de = (s.sw.de || denormalOperand .fscale s) ∧ (∀ f, f ∈ [Flag.ie, .ze, .sf] → t.sw.flag f = s.sw.flag f) ∧
      (InRange x → HasValue r x ∧ t.sw.c1 = false ∧ ∀ f, f ≠ .de → t.sw.flag f = s.sw.flag f) ∧
      ((2 : ℝ) ^ (16384 : ℤ) ≤ |x| → t.sw.oe = true ∧ t.sw.ue = s.sw.ue ∧
        (if s.cw.getLsbD 3 then
          t.sw.pe = true ∧ signOf r = decide (a < 0) ∧
          (if rounding s.cw = .nearest ∨ (rounding s.cw = .up ∧ 0 < a) ∨ (rounding s.cw = .down ∧ a < 0) then
            classOf r = .infinity ∧ t.sw.c1 = true
           else HasValue r ((if a < 0 then -1 else 1) * ((2 - 2 ^ (-63 : ℤ)) * 2 ^ (16383 : ℤ))) ∧ t.sw.c1 = false)
         else t.sw.pe = s.sw.pe ∧ t.sw.c1 = false ∧
          (|x| < (2 : ℝ) ^ (16384 + 24576 : ℤ) → HasValue r (x * 2 ^ (-24576 : ℤ))))) ∧
      (∀ (d : ℝ) (inexact up : Bool), |x| < (2 : ℝ) ^ (-16382 : ℤ) →
        RoundedTo (-16445) (rounding s.cw) x d inexact up → t.sw.oe = s.sw.oe ∧
        (if s.cw.getLsbD 4 then
          HasValue r d ∧ signOf r = decide (a < 0) ∧ t.sw.ue = (s.sw.ue || inexact) ∧
          t.sw.pe = (s.sw.pe || inexact) ∧ t.sw.c1 = up
         else t.sw.ue = true ∧ t.sw.pe = s.sw.pe ∧ t.sw.c1 = false ∧
          ((2 : ℝ) ^ (-16382 - 24576 : ℤ) ≤ |x| → HasValue r (x * 2 ^ (24576 : ℤ)))))

/-- FXTRACT replaces ST(0) by its exponent and pushes its significand, both exact (rule R308); DE tells a denormal
operand (rule R523), and no other flag changes. -/
def Obligations.ExtractExact : Prop :=
  ∀ (s : State) (a : ℝ) (e : ℤ), Ready .fxtract s → s.isEmpty 0#3 = false → s.isEmpty 7#3 = true →
    DenormalsPass .fxtract s → HasValue (s.st 0#3) a → (2 : ℝ) ^ e ≤ |a| → |a| < (2 : ℝ) ^ (e + 1) →
    ∃ t, exec .fxtract s = .next t ∧ t.sw.top = s.sw.top - 1#3 ∧ HasValue (t.st 1#3) (e : ℝ) ∧
      HasValue (t.st 0#3) (a / 2 ^ e) ∧ t.sw.c1 = false ∧
      t.sw.de = (s.sw.de || denormalOperand .fxtract s) ∧ ∀ f, f ≠ .de → t.sw.flag f = s.sw.flag f

/-- The invalid operands of FSQRT, FPREM, FPREM1, FRNDINT, FSCALE, FXTRACT and the transcendental instructions: an
unsupported operand of any, and the operands of `InvalidPair` (rules R202 to R209, R303 to R308, R522). IE is set, SF
kept, C1 cleared; masked, the indefinite is the result, or both results, and the stack moves; unmasked, nothing else
changes. FSIN, FCOS, FPTAN and FSINCOS of an infinity clear C2, unmasked too (log entry 17). -/
def Obligations.InvalidOperands : Prop :=
  ∀ (i : Instr) (s : State), familyOf i ∈ [Family.other, .transcend] → Ready i s →
    (∀ k ∈ sources i, s.isEmpty k = false) → (7#3 ∈ topMoves i → s.isEmpty 7#3 = true) →
    ((i ∉ [Instr.fabs, .fchs] ∧ ∃ k ∈ sources i, classOf (s.st k) = .unsupported) ∨
      InvalidPair i (s.st 0#3) (s.st 1#3)) →
    ∃ t, exec i s = .next t ∧ InvalidFlags s t ∧
      (if s.cw.getLsbD 0 then
        t.sw.top = s.sw.top + topMove i ∧ ∀ k ∈ answers i, t.reg (s.phys k) = 0xFFFFC000000000000000#80
       else Untouched s t) ∧
      (i ∈ [Instr.fsin, .fcos, .fptan, .fsincos] → classOf (s.st 0#3) = .infinity → t.sw.c2 = false)

/-- NaN operands of FSQRT, FRNDINT, FXTRACT, FPREM, FPREM1, FSCALE and the transcendental instructions (rules R201, R300,
R537): each result is the quieted NaN, of two that of `NaNAnswer`, and the stack moves; IE where one is signalling, and
unmasked nothing else changes then but C2: FSIN, FCOS, FPTAN and FSINCOS clear it, unmasked too (log entry 17). -/
def Obligations.NaNOperands : Prop :=
  ∀ (i : Instr) (s : State), familyOf i ∈ [Family.other, .transcend] → i ∉ [Instr.fabs, .fchs] → Ready i s →
    (∀ k ∈ sources i, s.isEmpty k = false) → (7#3 ∈ topMoves i → s.isEmpty 7#3 = true) →
    (∀ k ∈ sources i, classOf (s.st k) ≠ .unsupported) → (∃ k ∈ sources i, classOf (s.st k) = .nan) →
    ∃ (t : State) (v : Ext) (invalid : Bool), exec i s = .next t ∧
      (invalid = true ↔ ∃ k ∈ sources i, isSNaN (s.st k) = true) ∧ t.sw.ie = (s.sw.ie || invalid) ∧
      t.sw.c1 = false ∧ (∀ f, f ≠ .ie → t.sw.flag f = s.sw.flag f) ∧
      (1#3 ∉ sources i → v = quiet (s.st 0#3)) ∧ (1#3 ∈ sources i → NaNAnswer (s.st 0#3) (s.st 1#3) v) ∧
      (if invalid = true ∧ s.cw.getLsbD 0 = false then Untouched s t
       else t.sw.top = s.sw.top + topMove i ∧ ∀ k ∈ answers i, t.reg (s.phys k) = v) ∧
      (i ∈ [Instr.fsin, .fcos, .fptan, .fsincos] → t.sw.c2 = false)

/-- The answers for zeros and infinities of FRNDINT, FSQRT, F2XM1, FSCALE, FPATAN, FYL2X and FYL2XP1 that are exact (rules
R202, R204, R208, R209, R305 to R307), and those of FXTRACT for an infinity (rule R308): C1 is 0, DE tells
a denormal operand, and no other flag changes. And the multiples of pi of FPATAN (rule R204), with the sign of y and PE:
that each is one of the two 64-bit neighbours of the exact value is log entry 19. On the 8087 and 287 FPATAN takes the
narrower range of rule R204. -/
def Obligations.ExactResults : Prop :=
  (∀ (i : Instr) (s : State) (c : Machine.Class) (neg : Bool), Ready i s → (∀ k ∈ sources i, s.isEmpty k = false) →
    DenormalsPass i s → (i = .fpatan → AcceptsOperands i s) →
    ExactResult i (s.st 0#3) (s.st 1#3) c neg →
    ∃ t, exec i s = .next t ∧ (∀ k ∈ answers i, classOf (t.reg (s.phys k)) = c ∧ signOf (t.reg (s.phys k)) = neg) ∧
      t.sw.top = s.sw.top + topMove i ∧ t.sw.c1 = false ∧ t.sw.de = (s.sw.de || denormalOperand i s) ∧
      ∀ f, f ≠ .de → t.sw.flag f = s.sw.flag f) ∧
  (∀ s : State, Ready .fxtract s → s.isEmpty 0#3 = false → s.isEmpty 7#3 = true → classOf (s.st 0#3) = .infinity →
    ∃ t, exec .fxtract s = .next t ∧ t.reg (s.phys 0#3) = 0x7FFF8000000000000000#80 ∧
      t.reg (s.phys 7#3) = s.st 0#3 ∧ t.sw.top = s.sw.top - 1#3 ∧ t.sw.c1 = false ∧
      ∀ f, t.sw.flag f = s.sw.flag f) ∧
  (∀ (s : State) (m : ℕ) (e : ℤ), Ready .fpatan s → s.isEmpty 0#3 = false → s.isEmpty 1#3 = false →
    AcceptsOperands .fpatan s → DenormalsPass .fpatan s → PiMultiple (s.st 0#3) (s.st 1#3) m e →
    ∃ (t : State) (v : ℝ), exec .fpatan s = .next t ∧ HasValue (t.reg (s.phys 1#3)) v ∧
      (|v| = m * 2 ^ (e - 63) ∨ |v| = ((m : ℝ) + 1) * 2 ^ (e - 63)) ∧
      signOf (t.reg (s.phys 1#3)) = signOf (s.st 1#3) ∧ t.sw.pe = true ∧
      t.sw.de = (s.sw.de || denormalOperand .fpatan s) ∧
      (∀ f, f ≠ .de → f ≠ .pe → t.sw.flag f = s.sw.flag f) ∧ t.sw.top = s.sw.top + 1#3 ∧
      t.tag (s.phys 0#3) = .empty)

/-! ### Transcendental instructions (40_transcendental.md) -/

/-- The operands of FSIN, FCOS, FSINCOS and FPTAN that need no function value (rules R203, R205 to R207). A magnitude of
2 to the power 63 or more leaves the operand unchanged and sets C2. A zero has an exact result: sine and tangent are
that zero, the cosine and the second result of FPTAN are 1.0, for FPTAN on the 8087 and 287 too. -/
def Obligations.TrigSpecialOperands : Prop :=
  ∀ (i : Instr) (s : State), i ∈ [Instr.fsin, .fcos, .fsincos, .fptan] → Ready i s → s.isEmpty 0#3 = false →
    (i ∈ [Instr.fsincos, .fptan] → s.isEmpty 7#3 = true) →
    (classOf (s.st 0#3) = .zero ∨
      (Gen.g387.rank ≤ s.cfg.gen.rank ∧ ∃ a : ℝ, HasValue (s.st 0#3) a ∧ (2 : ℝ) ^ (63 : ℤ) ≤ |a|)) →
    ∃ t, exec i s = .next t ∧ (∀ f, t.sw.flag f = s.sw.flag f) ∧
      (classOf (s.st 0#3) ≠ .zero →
        t.sw.c2 = true ∧ t.regs = s.regs ∧ t.tags = s.tags ∧ t.sw.top = s.sw.top) ∧
      (classOf (s.st 0#3) = .zero →
        t.sw.c1 = false ∧ t.sw.c2 = false ∧ (i = .fsin → t.st 0#3 = s.st 0#3) ∧
        (i = .fcos → t.st 0#3 = 0x3FFF8000000000000000#80) ∧
        (i ∈ [Instr.fsincos, .fptan] → t.st 0#3 = 0x3FFF8000000000000000#80 ∧ t.st 1#3 = s.st 0#3 ∧
          t.sw.top = s.sw.top - 1#3))

/-- In range, FSIN, FCOS, FSINCOS and FPTAN have a result and C2 is 0 (rules R203, R205, R206, R207): sine and cosine
have a magnitude of at most 1, FSINCOS pushes the cosine, FPTAN pushes 1.0; with underflow masked, for an unmasked one
delivers a scaled result. On the 8087 and 287 FPTAN has its narrower range (rule R201). DE tells a denormal operand, and
IE, ZE and SF are kept. -/
def Obligations.TrigInRange : Prop :=
  ∀ (i : Instr) (s : State) (a : ℝ), i ∈ [Instr.fsin, .fcos, .fsincos, .fptan] → Ready i s →
    s.isEmpty 0#3 = false → (i ∈ [Instr.fsincos, .fptan] → s.isEmpty 7#3 = true) →
    AcceptsOperands i s → DenormalsPass i s → s.cw.getLsbD 4 = true →
    HasValue (s.st 0#3) a → a ≠ 0 → |a| < (2 : ℝ) ^ (63 : ℤ) →
    ∃ (t : State) (v : ℝ), exec i s = .next t ∧ HasValue (t.reg (s.phys 0#3)) v ∧ t.sw.c2 = false ∧
      t.sw.de = (s.sw.de || denormalOperand i s) ∧ (∀ f, f ∈ [Flag.ie, .ze, .sf] → t.sw.flag f = s.sw.flag f) ∧
      (i ≠ .fptan → |v| ≤ 1) ∧
      (i = .fsincos → ∃ w : ℝ, HasValue (t.reg (s.phys 7#3)) w ∧ |w| ≤ 1) ∧
      (i = .fptan → t.reg (s.phys 7#3) = 0x3FFF8000000000000000#80) ∧
      t.sw.top = (if i ∈ [Instr.fsincos, .fptan] then s.sw.top - 1#3 else s.sw.top)

/-- FPATAN of finite nonzero operands has the sign of y and lies in the quadrant of the table of rule R204: up to pi/2 for
a positive x, from pi/2 to pi for a negative one, the bounds rounded to neighbours; the stack is popped. On the
8087 and 287 |y| is below |x|. DE tells a denormal operand, and IE, ZE, OE and SF are kept. -/
def Obligations.ArctangentQuadrant : Prop :=
  ∀ (s : State) (x y : ℝ), Ready .fpatan s → s.isEmpty 0#3 = false → s.isEmpty 1#3 = false →
    AcceptsOperands .fpatan s → DenormalsPass .fpatan s → s.cw.getLsbD 4 = true →
    HasValue (s.st 0#3) x → HasValue (s.st 1#3) y → x ≠ 0 → y ≠ 0 →
    ∃ (t : State) (v : ℝ), exec .fpatan s = .next t ∧ HasValue (t.reg (s.phys 1#3)) v ∧
      signOf (t.reg (s.phys 1#3)) = decide (y < 0) ∧ t.sw.de = (s.sw.de || denormalOperand .fpatan s) ∧
      (∀ f, f ∈ [Flag.ie, .ze, .oe, .sf] → t.sw.flag f = s.sw.flag f) ∧
      (0 < x → |v| * 2 ^ (63 : ℤ) ≤ 0xC90FDAA22168C235) ∧
      (x < 0 → 0xC90FDAA22168C234 ≤ |v| * 2 ^ (63 : ℤ) ∧ |v| * 2 ^ (63 : ℤ) ≤ 2 * 0xC90FDAA22168C235) ∧
      t.sw.top = s.sw.top + 1#3 ∧ t.tag (s.phys 0#3) = .empty

/-- F2XM1 of an operand in -1, …, 1 has the sign of the operand and lies in -1/2, …, 1 (rule R202). The logarithms have
the sign of the product (rules R208, R209): FYL2X for a positive x that is not 1, FYL2XP1 in range (|x| at most
1 - sqrt(2)/2); with overflow and underflow masked. On the 8087 and 287 F2XM1 takes 0, …, 1/2. DE tells a denormal
operand, and IE, ZE and SF are kept. -/
def Obligations.ExponentialAndLogarithms : Prop :=
  (∀ (s : State) (a : ℝ), Ready .f2xm1 s → s.isEmpty 0#3 = false → AcceptsOperands .f2xm1 s →
    DenormalsPass .f2xm1 s → s.cw.getLsbD 4 = true → HasValue (s.st 0#3) a → a ≠ 0 → |a| ≤ 1 →
    ∃ (t : State) (v : ℝ), exec .f2xm1 s = .next t ∧ HasValue (t.reg (s.phys 0#3)) v ∧ -1 / 2 ≤ v ∧ v ≤ 1 ∧
      signOf (t.reg (s.phys 0#3)) = decide (a < 0) ∧ t.sw.de = (s.sw.de || denormalOperand .f2xm1 s) ∧
      ∀ f, f ∈ [Flag.ie, .ze, .sf] → t.sw.flag f = s.sw.flag f) ∧
  (∀ (i : Instr) (s : State) (x y : ℝ), i ∈ [Instr.fyl2x, .fyl2xp1] → Ready i s → s.isEmpty 0#3 = false →
    s.isEmpty 1#3 = false → DenormalsPass i s → s.cw.getLsbD 3 = true → s.cw.getLsbD 4 = true →
    HasValue (s.st 0#3) x → HasValue (s.st 1#3) y → x ≠ 0 → y ≠ 0 →
    (i = .fyl2x → 0 < x ∧ x ≠ 1) → (i = .fyl2xp1 → |x| ≤ 1 - Real.sqrt 2 / 2) →
    ∃ t, exec i s = .next t ∧ t.sw.top = s.sw.top + 1#3 ∧ t.tag (s.phys 0#3) = .empty ∧
      signOf (t.reg (s.phys 1#3)) = (decide (y < 0) ^^ decide (if i = .fyl2x then x < 1 else x < 0)) ∧
      t.sw.de = (s.sw.de || denormalOperand i s) ∧ ∀ f, f ∈ [Flag.ie, .ze, .sf] → t.sw.flag f = s.sw.flag f)

/-! ### Data transfer (43_data_transfer.md) -/

/-- FILD pushes the integer in memory, exactly (rules R341 to R343); FBLD the decimal number in memory, where its digits
are 0 to 9 (rules R104, R330). -/
def Obligations.LoadIntegerAndBcdExact : Prop :=
  (∀ (w : Nat) (mk : Addr → Instr) (a : Addr) (s : State),
    (w, mk) ∈ [(16, Instr.fildM16), (32, Instr.fildM32), (64, Instr.fildM64)] →
    Ready (mk a) s → OperandThere (mk a) s → s.isEmpty 7#3 = true →
    ∃ t, exec (mk a) s = .next t ∧ t.sw.top = s.sw.top - 1#3 ∧
      HasValue (t.st 0#3) ((BitVec.ofNat w (leNat (s.bytesAt a (w / 8)))).toInt : ℝ) ∧ t.sw.c1 = false ∧
      ∀ f, t.sw.flag f = s.sw.flag f) ∧
  (∀ (a : Addr) (s : State) (digit : Fin 18 → Fin 10) (sign : Byte),
    Ready (.fbld a) s → OperandThere (.fbld a) s → s.isEmpty 7#3 = true →
    (∀ k : Fin 9, s.byteAt (a.toNat + k.val) = BitVec.ofNat 8
      ((digit ⟨2 * k.val, by omega⟩).val + 16 * (digit ⟨2 * k.val + 1, by omega⟩).val)) →
    s.byteAt (a.toNat + 9) = sign →
    ∃ t, exec (.fbld a) s = .next t ∧ t.sw.top = s.sw.top - 1#3 ∧
      HasValue (t.st 0#3) ((if sign.getLsbD 7 then -1 else 1) * ∑ k : Fin 18, (digit k).val * (10 : ℝ) ^ k.val) ∧
      signOf (t.st 0#3) = sign.getLsbD 7 ∧ t.sw.c1 = false)

/-- FLD m32real and FLD m64real push the value in memory, exactly; DE is set for a denormal, which is pushed with DM = 0
too and then leaves an exception pending (rules R98, R99, R350, R351). An infinity or NaN in memory is pushed with its
sign and its fraction from the top; a signalling NaN sets IE and is pushed quieted, or with IM = 0 not at all. -/
def Obligations.LoadRealExact : Prop :=
  ∀ (f : RealFmt) (mk : Addr → Instr) (a : Addr) (s : State),
    (f, mk) ∈ [(single, Instr.fldM32), (double, Instr.fldM64)] →
    Ready (mk a) s → OperandThere (mk a) s → s.isEmpty 7#3 = true →
    (∀ v : ℝ, FormatValue f (leNat (s.bytesAt a f.bytes)) v →
      ∃ (t : State) (den : Bool), exec (mk a) s = .next t ∧ t.sw.top = s.sw.top - 1#3 ∧ HasValue (t.st 0#3) v ∧
        signOf (t.st 0#3) = f.negOf (leNat (s.bytesAt a f.bytes)) ∧ t.sw.c1 = false ∧
        (den = true ↔ v ≠ 0 ∧ f.expoOf (leNat (s.bytesAt a f.bytes)) = 0) ∧ t.sw.de = (s.sw.de || den) ∧
        (den = true → s.cw.getLsbD 1 = false → t.swWord.getLsbD 7 = true) ∧
        ∀ g, g ≠ .de → t.sw.flag g = s.sw.flag g) ∧
    (∀ v : Ext, f.expoOf (leNat (s.bytesAt a f.bytes)) = f.expMax → SourceBits (.real f) a s v →
      ∃ t, exec (mk a) s = .next t ∧ t.sw.c1 = false ∧ t.sw.ie = (s.sw.ie || isSNaN v) ∧
        (∀ g, g ≠ .ie → t.sw.flag g = s.sw.flag g) ∧
        (if isSNaN v = true ∧ s.cw.getLsbD 0 = false then Untouched s t
         else t.sw.top = s.sw.top - 1#3 ∧ t.st 0#3 = (if isSNaN v then quiet v else v)))

/-- FLD m80real and FLD ST(i) push the 80 bits as they are, and FSTP m80real stores them and pops, whatever they are and
without an exception but a stack fault (rules R352, R353, R368). FSTP m80real of an empty register is a stack underflow:
masked, the indefinite is stored and the pop done; unmasked, nothing is stored (rule R521). -/
def Obligations.ExtendedBitsUnchanged : Prop :=
  (∀ (i : Instr) (s : State) (v : Ext),
    ((∃ a, i = .fldM80 a ∧ v = BitVec.ofNat 80 (leNat (s.bytesAt a 10))) ∨
      (∃ k, i = .fldSt k ∧ s.isEmpty k = false ∧ v = s.st k)) →
    Ready i s → OperandThere i s → s.isEmpty 7#3 = true →
    ∃ t, exec i s = .next t ∧ t.sw.top = s.sw.top - 1#3 ∧ t.st 0#3 = v ∧ t.tag (s.phys 7#3) = tagOf v ∧
      t.sw.c1 = false ∧ ∀ f, t.sw.flag f = s.sw.flag f) ∧
  (∀ (a : Addr) (s : State), Ready (.fstpM80 a) s → OperandThere (.fstpM80 a) s → Memory.wf s.mem →
    ∃ t, exec (.fstpM80 a) s = .next t ∧ t.sw.c1 = false ∧
      (s.isEmpty 0#3 = false → leNat (t.bytesAt a 10) = (s.st 0#3).toNat ∧
        t.sw.top = s.sw.top + 1#3 ∧ t.tag (s.phys 0#3) = .empty ∧ ∀ f, t.sw.flag f = s.sw.flag f) ∧
      (s.isEmpty 0#3 = true → StackFaultFlags false s t ∧
        (if s.cw.getLsbD 0 then leNat (t.bytesAt a 10) = 0xFFFFC000000000000000 ∧ t.sw.top = s.sw.top + 1#3
         else Untouched s t)))

/-- The constants: 1.0 and +0, and for the other five the truncated value or its upper neighbour, by CW.RC
(rules R354 to R361). -/
def Obligations.LoadConstants : Prop :=
  ∀ (i : Instr) (lo near hi : Ext) (s : State),
    (i, lo, near, hi) ∈
      [(Instr.fld1, 0x3FFF8000000000000000#80, 0x3FFF8000000000000000#80, 0x3FFF8000000000000000#80),
       (Instr.fldl2t, 0x4000D49A784BCD1B8AFE#80, 0x4000D49A784BCD1B8AFE#80, 0x4000D49A784BCD1B8AFF#80),
       (Instr.fldl2e, 0x3FFFB8AA3B295C17F0BB#80, 0x3FFFB8AA3B295C17F0BC#80, 0x3FFFB8AA3B295C17F0BC#80),
       (Instr.fldpi, 0x4000C90FDAA22168C234#80, 0x4000C90FDAA22168C235#80, 0x4000C90FDAA22168C235#80),
       (Instr.fldlg2, 0x3FFD9A209A84FBCFF798#80, 0x3FFD9A209A84FBCFF799#80, 0x3FFD9A209A84FBCFF799#80),
       (Instr.fldln2, 0x3FFEB17217F7D1CF79AB#80, 0x3FFEB17217F7D1CF79AC#80, 0x3FFEB17217F7D1CF79AC#80),
       (Instr.fldz, 0#80, 0#80, 0#80)] →
    Ready i s → s.isEmpty 7#3 = true →
    ∃ t, exec i s = .next t ∧ t.sw.top = s.sw.top - 1#3 ∧ t.sw.c1 = false ∧ (∀ f, t.sw.flag f = s.sw.flag f) ∧
      t.st 0#3 = (match rounding s.cw with | .nearest => near | .up => hi | .down => lo | .chop => lo)

/-- Stack faults, of all instructions but the control ones (rules R50, R521). An empty register among those read is an
underflow; else a push onto a register that is not empty is an overflow. IE and SF are set, C1 tells which, no other
flag changes; masked, the indefinite goes to the result registers and the stack moves; unmasked, nothing else changes.
What a store writes, a compare answers and FXCH exchanges is said with them. FXAM raises none. -/
def Obligations.StackFaults : Prop :=
  ∀ (i : Instr) (s : State) (underflow : Bool), familyOf i ≠ .control → Ready i s → OperandThere i s →
    (underflow = true ↔ ∃ k ∈ sources i, s.isEmpty k = true) →
    (underflow = true ∨ (7#3 ∈ topMoves i ∧ s.isEmpty 7#3 = false)) →
    ∃ t, exec i s = .next t ∧ StackFaultFlags (!underflow) s t ∧
      (if s.cw.getLsbD 0 then
        t.sw.top = s.sw.top + topMove i ∧ ∀ k ∈ answers i, t.reg (s.phys k) = 0xFFFFC000000000000000#80
       else Untouched s t)

/-- FBSTP, FIST, FISTP, FST and FSTP to memory complete, and what they leave unchanged: memory outside their operand. FOP
on every generation and the kept FCS and FDS of real mode are log entry 14 (DEDUCED). -/
def Obligations.StoreCompletes : Prop :=
  ∀ (i : Instr) (s : State), familyOf i = .store → Ready i s → OperandThere i s → Memory.wf s.mem →
    ∃ t, exec i s = .next t ∧ Computes i s t ∧ HostKept s t ∧
      MemoryKeptOutside (addressOf i) (widthOf s.cfg i) s t

/-- FIST and FISTP store the value of ST(0) rounded to an integer by CW.RC where it fits; otherwise, and for a NaN, an
infinity or an unsupported value, IA, and for an empty register a stack underflow: masked, the integer indefinite is
stored and the pop done; unmasked, nothing (rules R61, R344, R521, R522). -/
def Obligations.StoreIntegerRounded : Prop :=
  ∀ (w : Nat) (pop : Bool) (mk : Addr → Instr) (a : Addr) (s : State),
    (w, pop, mk) ∈ [(16, false, Instr.fistM16), (32, false, Instr.fistM32), (16, true, Instr.fistpM16),
      (32, true, Instr.fistpM32), (64, true, Instr.fistpM64)] →
    Ready (mk a) s → OperandThere (mk a) s → Memory.wf s.mem →
    ∃ t, exec (mk a) s = .next t ∧
      (∀ (v y : ℝ) (inexact up : Bool), s.isEmpty 0#3 = false → HasValue (s.st 0#3) v →
        RoundedTo 0 (rounding s.cw) v y inexact up →
        -(2 : ℝ) ^ ((w : ℤ) - 1) ≤ y → y < (2 : ℝ) ^ ((w : ℤ) - 1) →
        ((BitVec.ofNat w (leNat (t.bytesAt a (w / 8)))).toInt : ℝ) = y ∧ t.sw.c1 = up ∧
        t.sw.pe = (s.sw.pe || inexact) ∧ t.sw.ie = s.sw.ie ∧
        t.sw.top = s.sw.top + (if pop then 1#3 else 0#3)) ∧
      (s.isEmpty 0#3 = false → classOf (s.st 0#3) ∈ [Class.nan, .infinity, .unsupported] ∨
        (∃ (v y : ℝ) (inexact up : Bool), HasValue (s.st 0#3) v ∧ RoundedTo 0 (rounding s.cw) v y inexact up ∧
          ¬(-(2 : ℝ) ^ ((w : ℤ) - 1) ≤ y ∧ y < (2 : ℝ) ^ ((w : ℤ) - 1))) → InvalidFlags s t) ∧
      (s.isEmpty 0#3 = true → StackFaultFlags false s t) ∧
      (s.isEmpty 0#3 = true ∨ classOf (s.st 0#3) ∈ [Class.nan, .infinity, .unsupported] ∨
        (∃ (v y : ℝ) (inexact up : Bool), HasValue (s.st 0#3) v ∧ RoundedTo 0 (rounding s.cw) v y inexact up ∧
          ¬(-(2 : ℝ) ^ ((w : ℤ) - 1) ≤ y ∧ y < (2 : ℝ) ^ ((w : ℤ) - 1))) →
        (if s.cw.getLsbD 0 then
          leNat (t.bytesAt a (w / 8)) = 2 ^ (w - 1) ∧ t.sw.top = s.sw.top + (if pop then 1#3 else 0#3)
         else Untouched s t))

/-- FST and FSTP to m32real and m64real (rules R60, R98, R99, R362, R521, R522), whatever ST(0) holds. In the normal range
of the format the value is rounded by CW.RC; above it, masked, an infinity or the largest number is stored with OE and PE;
below it, masked, the multiple of the least denormal, with UE and PE where that is inexact; unmasked, overflow and
underflow store nothing and do not pop. Zeros and infinities keep their sign, NaNs are quieted and their fraction
truncated, a signalling one with IE. An unsupported value and an empty register store the indefinite of the format;
unmasked, IE stores nothing. -/
def Obligations.StoreRealRounded : Prop :=
  ∀ (f : RealFmt) (pop : Bool) (mk : Addr → Instr) (a : Addr) (s : State),
    (f, pop, mk) ∈ [(single, false, Instr.fstM32), (double, false, Instr.fstM64), (single, true, Instr.fstpM32),
      (double, true, Instr.fstpM64)] →
    Ready (mk a) s → OperandThere (mk a) s → Memory.wf s.mem →
    ∃ (t : State) (w : Nat), exec (mk a) s = .next t ∧ w = leNat (t.bytesAt a f.bytes) ∧
      (∀ (v y : ℝ) (inexact up : Bool), s.isEmpty 0#3 = false → HasValue (s.st 0#3) v →
        CorrectlyRounded (f.fracBits + 1) (rounding s.cw) v y inexact up →
        ((2 : ℝ) ^ f.emin ≤ |y| → |y| < (2 : ℝ) ^ (f.emax + 1) →
          FormatValue f w y ∧ t.sw.c1 = up ∧ t.sw.pe = (s.sw.pe || inexact) ∧
          (∀ g, g ≠ .pe → t.sw.flag g = s.sw.flag g) ∧ t.sw.top = s.sw.top + (if pop then 1#3 else 0#3)) ∧
        ((2 : ℝ) ^ (f.emax + 1) ≤ |y| → t.sw.oe = true ∧ t.sw.ie = s.sw.ie ∧ t.sw.ue = s.sw.ue ∧
          (if s.cw.getLsbD 3 then
            t.sw.pe = true ∧ f.negOf w = decide (v < 0) ∧ t.sw.top = s.sw.top + (if pop then 1#3 else 0#3) ∧
            (if rounding s.cw = .nearest ∨ (rounding s.cw = .up ∧ 0 < v) ∨ (rounding s.cw = .down ∧ v < 0) then
              f.expoOf w = f.expMax ∧ f.fracOf w = 0 ∧ t.sw.c1 = true
             else
              FormatValue f w ((if v < 0 then -1 else 1) * ((2 - 2 ^ (-(f.fracBits : ℤ))) * 2 ^ f.emax)) ∧
              t.sw.c1 = false)
           else t.sw.pe = s.sw.pe ∧ Untouched s t)) ∧
        (∀ (d : ℝ) (inexact2 up2 : Bool), |y| < (2 : ℝ) ^ f.emin →
          RoundedTo (f.emin - f.fracBits) (rounding s.cw) v d inexact2 up2 →
          t.sw.oe = s.sw.oe ∧ t.sw.ie = s.sw.ie ∧
          (if s.cw.getLsbD 4 then
            FormatValue f w d ∧ f.negOf w = decide (v < 0) ∧ t.sw.ue = (s.sw.ue || inexact2) ∧
            t.sw.pe = (s.sw.pe || inexact2) ∧ t.sw.c1 = up2 ∧
            t.sw.top = s.sw.top + (if pop then 1#3 else 0#3)
           else t.sw.ue = true ∧ t.sw.pe = s.sw.pe ∧ Untouched s t))) ∧
      (s.isEmpty 0#3 = false → classOf (s.st 0#3) ∈ [Class.zero, .infinity, .nan] →
        t.sw.c1 = false ∧ t.sw.ie = (s.sw.ie || isSNaN (s.st 0#3)) ∧ (∀ g, g ≠ .ie → t.sw.flag g = s.sw.flag g) ∧
        (if isSNaN (s.st 0#3) = true ∧ s.cw.getLsbD 0 = false then Untouched s t
         else
          f.negOf w = signOf (s.st 0#3) ∧ t.sw.top = s.sw.top + (if pop then 1#3 else 0#3) ∧
          (classOf (s.st 0#3) = .zero → FormatValue f w 0) ∧
          (classOf (s.st 0#3) = .infinity → f.expoOf w = f.expMax ∧ f.fracOf w = 0) ∧
          (classOf (s.st 0#3) = .nan → f.expoOf w = f.expMax ∧
            f.fracOf w = (fracOf (quiet (s.st 0#3))).toNat / 2 ^ (63 - f.fracBits)))) ∧
      (s.isEmpty 0#3 = false → classOf (s.st 0#3) = .unsupported → InvalidFlags s t) ∧
      (s.isEmpty 0#3 = true → StackFaultFlags false s t) ∧
      (s.isEmpty 0#3 = true ∨ classOf (s.st 0#3) = .unsupported →
        (if s.cw.getLsbD 0 then
          w = (if f = single then 0xFFC00000 else 0xFFF8000000000000) ∧
          t.sw.top = s.sw.top + (if pop then 1#3 else 0#3)
         else Untouched s t))

/-- FBSTP stores the value of ST(0) rounded to an integer as 18 decimal digits, lowest first, and a sign byte, where it is
below 10 to the power 18; otherwise, and for a NaN, an infinity or an unsupported value, IA, and for an empty register a
stack underflow: masked, the packed BCD indefinite is stored and the pop done; unmasked, nothing (rules R61, R104, R331,
R521, R522). -/
def Obligations.StoreBcdRounded : Prop :=
  ∀ (a : Addr) (s : State), Ready (.fbstp a) s → OperandThere (.fbstp a) s → Memory.wf s.mem →
    ∃ t, exec (.fbstp a) s = .next t ∧
      (∀ (v y : ℝ) (inexact up : Bool), s.isEmpty 0#3 = false → HasValue (s.st 0#3) v →
        RoundedTo 0 (rounding s.cw) v y inexact up → |y| < 10 ^ 18 →
        ∃ digit : Fin 18 → Fin 10,
          (∀ k : Fin 9, t.byteAt (a.toNat + k.val) = BitVec.ofNat 8
            ((digit ⟨2 * k.val, by omega⟩).val + 16 * (digit ⟨2 * k.val + 1, by omega⟩).val)) ∧
          |y| = ∑ k : Fin 18, (digit k).val * (10 : ℝ) ^ k.val ∧
          t.byteAt (a.toNat + 9) = (if signOf (s.st 0#3) then 0x80#8 else 0x00#8) ∧ t.sw.c1 = up ∧
          t.sw.pe = (s.sw.pe || inexact) ∧ t.sw.top = s.sw.top + 1#3 ∧ t.tag (s.phys 0#3) = .empty) ∧
      (s.isEmpty 0#3 = false → classOf (s.st 0#3) ∈ [Class.nan, .infinity, .unsupported] ∨
        (∃ (v y : ℝ) (inexact up : Bool), HasValue (s.st 0#3) v ∧ RoundedTo 0 (rounding s.cw) v y inexact up ∧
          10 ^ 18 ≤ |y|) → InvalidFlags s t) ∧
      (s.isEmpty 0#3 = true → StackFaultFlags false s t) ∧
      (s.isEmpty 0#3 = true ∨ classOf (s.st 0#3) ∈ [Class.nan, .infinity, .unsupported] ∨
        (∃ (v y : ℝ) (inexact up : Bool), HasValue (s.st 0#3) v ∧ RoundedTo 0 (rounding s.cw) v y inexact up ∧
          10 ^ 18 ≤ |y|) →
        (if s.cw.getLsbD 0 then leNat (t.bytesAt a 10) = 0xFFFFC000000000000000 ∧ t.sw.top = s.sw.top + 1#3
         else Untouched s t))

/-- FCMOVcc copies ST(i) to ST(0), bits and tag, exactly where the condition of its mnemonic holds of the host flags
(rules R332 to R340). An empty register is a stack underflow whether or not it holds: masked, ST(0) is the indefinite. -/
def Obligations.ConditionalMoves : Prop :=
  ∀ (mk : BitVec 3 → Instr) (cond : State → Bool) (k : BitVec 3) (s : State),
    (mk, cond) ∈ [(Instr.fcmovb, fun s : State => s.cf), (Instr.fcmove, fun s => s.zf),
      (Instr.fcmovbe, fun s => s.cf || s.zf), (Instr.fcmovu, fun s => s.pf), (Instr.fcmovnb, fun s => !s.cf),
      (Instr.fcmovne, fun s => !s.zf), (Instr.fcmovnbe, fun s => !(s.cf || s.zf)), (Instr.fcmovnu, fun s => !s.pf)] →
    Ready (mk k) s →
    ∃ t, exec (mk k) s = .next t ∧ t.sw.c1 = false ∧ t.sw.top = s.sw.top ∧
      (s.isEmpty 0#3 = false → s.isEmpty k = false →
        (∀ f, t.sw.flag f = s.sw.flag f) ∧
        (cond s = true → t.reg (s.phys 0#3) = s.st k ∧ t.tag (s.phys 0#3) = tagOf (s.st k)) ∧
        (cond s = false → t.regs = s.regs ∧ t.tags = s.tags)) ∧
      (s.isEmpty 0#3 = true ∨ s.isEmpty k = true → StackFaultFlags false s t ∧
        (if s.cw.getLsbD 0 then t.reg (s.phys 0#3) = 0xFFFFC000000000000000#80 else Untouched s t))

/-- FST ST(i), FSTP ST(i) and FXCH move bits (rules R365, R369, R370): the destination of a store may be empty. An empty
source is a stack underflow (rule R521): masked, the indefinite is stored and the pop done, and FXCH fills each empty
register with the indefinite and exchanges; unmasked, nothing else changes. -/
def Obligations.RegisterMoves : Prop :=
  ∀ (k : BitVec 3) (s : State),
    (∀ (i : Instr) (pop : Bool), (i, pop) ∈ [(Instr.fstSt k, false), (.fstpSt k, true)] → Ready i s →
      ∃ t, exec i s = .next t ∧ t.sw.c1 = false ∧
        (s.isEmpty 0#3 = false → t.reg (s.phys k) = s.st 0#3 ∧ (∀ f, t.sw.flag f = s.sw.flag f)) ∧
        (s.isEmpty 0#3 = false ∨ s.cw.getLsbD 0 = true →
          (pop = false → t.sw.top = s.sw.top ∧ t.tag (s.phys k) = tagOf (t.reg (s.phys k))) ∧
          (pop = true → t.sw.top = s.sw.top + 1#3 ∧ t.tag (s.phys 0#3) = .empty)) ∧
        (s.isEmpty 0#3 = true → StackFaultFlags false s t ∧
          (if s.cw.getLsbD 0 then t.reg (s.phys k) = 0xFFFFC000000000000000#80 else Untouched s t))) ∧
    (Ready (.fxch k) s → ∃ t, exec (.fxch k) s = .next t ∧ t.sw.c1 = false ∧ t.sw.top = s.sw.top ∧
      (s.isEmpty 0#3 = false → s.isEmpty k = false →
        t.reg (s.phys 0#3) = s.st k ∧ t.reg (s.phys k) = s.st 0#3 ∧
        t.tag (s.phys 0#3) = s.tag (s.phys k) ∧ t.tag (s.phys k) = s.tag (s.phys 0#3) ∧
        ∀ f, t.sw.flag f = s.sw.flag f) ∧
      (s.isEmpty 0#3 = true ∨ s.isEmpty k = true → StackFaultFlags false s t ∧
        (if s.cw.getLsbD 0 then
          t.reg (s.phys 0#3) = (if s.isEmpty k then 0xFFFFC000000000000000#80 else s.st k) ∧
          t.reg (s.phys k) = (if s.isEmpty 0#3 then 0xFFFFC000000000000000#80 else s.st 0#3) ∧
          t.tag (s.phys 0#3) ≠ .empty ∧ t.tag (s.phys k) ≠ .empty
         else Untouched s t)))

/-! ### Comparison (45_comparison.md) -/

/-- FCOM, FCOMP, FCOMPP, FICOM, FICOMP, FTST, FUCOM, FUCOMP, FUCOMPP and FXAM complete, and what they leave unchanged;
FCOMI, FCOMIP, FUCOMI and FUCOMIP too, except that they write the host flags and no condition code but C1. FOP on every
generation and the kept FCS and FDS of real mode are log entry 14 (DEDUCED). -/
def Obligations.CompareCompletes : Prop :=
  ∀ (i : Instr) (s : State), familyOf i = .compare → Ready i s → OperandThere i s →
    ∃ t, exec i s = .next t ∧ Computes i s t ∧ MemoryKept s t ∧ t.regs = s.regs ∧ t.ax = s.ax ∧
      ((∀ k, i ∉ [Instr.fcomi k, .fcomip k, .fucomi k, .fucomip k]) → HostKept s t) ∧
      (∀ k, i ∈ [Instr.fcomi k, .fcomip k, .fucomi k, .fucomip k] →
        t.sw.c0 = s.sw.c0 ∧ t.sw.c2 = s.sw.c2 ∧ t.sw.c3 = s.sw.c3)

/-- A compare orders the values of its operands, infinities included (rule R470): C3, C2, C0 or ZF, PF, CF, and C1 = 0;
the zeros are equal whatever their signs; TOP moves by the pops. DE tells a denormal operand (rule R523), and no other
flag changes. -/
def Obligations.CompareOrders : Prop :=
  ∀ (i : Instr) (row : CompareRow) (s : State) (x : Ext) (a b : EReal),
    compareRow i = some row → Ready i s → OperandThere i s → DenormalsPass i s → s.isEmpty 0#3 = false →
    row.source.isEmpty s = false → SourceBits row.source (addressOf i) s x → ExtendedValue (s.st 0#3) a →
    ExtendedValue x b →
    ∃ t, exec i s = .next t ∧ t.sw.c1 = false ∧ t.sw.top = s.sw.top + BitVec.ofNat 3 row.pops ∧
      (∀ f, f ≠ .de → t.sw.flag f = s.sw.flag f) ∧ t.sw.de = (s.sw.de || denormalOperand i s) ∧
      (if row.host then (t.zf = true ↔ a = b) ∧ t.pf = false ∧ (t.cf = true ↔ a < b)
       else (t.sw.c3 = true ↔ a = b) ∧ t.sw.c2 = false ∧ (t.sw.c0 = true ↔ a < b) ∧ HostKept s t)

/-- A NaN, an unsupported operand or an empty register makes a compare unordered, whatever the source (rules R470, R471):
IE but for a quiet NaN under FUCOM, FUCOMP, FUCOMPP, FUCOMI and FUCOMIP; with IM = 0 no result is written. -/
def Obligations.CompareUnordered : Prop :=
  ∀ (i : Instr) (row : CompareRow) (s : State) (b : Ext) (invalid : Bool),
    compareRow i = some row → Ready i s → OperandThere i s → SourceBits row.source (addressOf i) s b →
    (s.isEmpty 0#3 = true ∨ row.source.isEmpty s = true ∨ classOf (s.st 0#3) ∈ [Class.nan, .unsupported] ∨
      classOf b ∈ [Class.nan, .unsupported]) →
    (invalid = false ↔ row.quiet = true ∧ s.isEmpty 0#3 = false ∧ row.source.isEmpty s = false ∧
      classOf (s.st 0#3) ≠ .unsupported ∧ classOf b ≠ .unsupported ∧ isSNaN (s.st 0#3) = false ∧
      isSNaN b = false) →
    ∃ t, exec i s = .next t ∧ t.sw.ie = (s.sw.ie || invalid) ∧ t.sw.c1 = false ∧
      (∀ f, f ≠ .ie → f ≠ .sf → t.sw.flag f = s.sw.flag f) ∧
      (if invalid = true ∧ s.cw.getLsbD 0 = false then
        t.sw.c0 = s.sw.c0 ∧ t.sw.c2 = s.sw.c2 ∧ t.sw.c3 = s.sw.c3 ∧ HostKept s t ∧ Untouched s t
       else
        t.sw.top = s.sw.top + BitVec.ofNat 3 row.pops ∧
        (if row.host then t.zf = true ∧ t.pf = true ∧ t.cf = true
         else t.sw.c3 = true ∧ t.sw.c2 = true ∧ t.sw.c0 = true))

/-- FXAM reports the class of ST(0) in C3, C2, C0 and its sign in C1, empty or not, and raises nothing (rule R491). -/
def Obligations.ExamineClasses : Prop :=
  (∀ p, encode p .fxam = [0xD9#8, 0xE5#8] ∧ Instr.fxam.available p = true) ∧
  ∀ s : State, Ready .fxam s →
    ∃ t, exec .fxam s = .next t ∧ t.sw.c1 = (s.st 0#3).getLsbD 79 ∧ (∀ f, t.sw.flag f = s.sw.flag f) ∧
      t.regs = s.regs ∧ t.tags = s.tags ∧ t.sw.top = s.sw.top ∧
      (t.sw.c3, t.sw.c2, t.sw.c0) =
        (if s.tag (s.phys 0#3) = .empty then (true, false, true)
         else match classOf (s.st 0#3) with
          | .unsupported => (false, false, false)
          | .nan => (false, false, true)
          | .normal => (false, true, false)
          | .infinity => (false, true, true)
          | .zero => (true, false, false)
          | .denormal => (true, true, false))

/-! ### Control instructions (44_control.md) -/

/-- FNINIT sets CW, SW and the tags to their defaults, keeps the data registers, and clears the pointers except on the 387
(rule R411). FNCLEX clears the exception flags, ES, SF and B and keeps TOP, CW, tags, registers and pointers (rule R402).
They are encoded as DB E3 and DB E2, exist everywhere and need no check for a pending exception. -/
def Obligations.FninitAndFnclex : Prop :=
  (∀ p, encode p .fninit = [0xDB#8, 0xE3#8] ∧ Instr.fninit.available p = true ∧
    encode p .fnclex = [0xDB#8, 0xE2#8] ∧ Instr.fnclex.available p = true) ∧
  (∀ s : State, s.pcNat + 2 ≤ s.cfg.addrLimit → s.windowOpen = false →
    ∃ t, exec .fninit s = .next t ∧ t.cw = 0x037F#16 ∧ t.swWord = 0#16 ∧ t.tagWord = 0xFFFF#16 ∧
      t.regs = s.regs ∧
      (if s.cfg.gen = .g387 then PointersKept s t
       else t.fip = 0#32 ∧ t.fcs = 0#16 ∧ t.fdp = 0#32 ∧ t.fds = 0#16 ∧ t.fop = 0#11) ∧
      t.pm287 = s.pm287 ∧ t.cfg = s.cfg ∧ HostKept s t ∧ MemoryKept s t ∧ Advanced .fninit s t) ∧
  (∀ s : State, s.pcNat + 2 ≤ s.cfg.addrLimit → s.windowOpen = false →
    ∃ t, exec .fnclex s = .next t ∧ t.swWord &&& 0x80FF#16 = 0#16 ∧ t.pending = false ∧ t.sw.top = s.sw.top ∧
      t.cw = s.cw ∧ t.tags = s.tags ∧ t.regs = s.regs ∧ PointersKept s t ∧ t.pm287 = s.pm287 ∧ t.cfg = s.cfg ∧
      HostKept s t ∧ MemoryKept s t ∧ Advanced .fnclex s t)

/-- FDECSTP and FINCSTP rotate the stack (rules R403, R409): TOP moves by one modulo 8, C1 is 0, no register and no tag
changes. FFREE empties the tag of ST(i) and changes no register and not TOP (rule R408). And what else they leave
unchanged; that they record FOP on every generation and keep FCS in real mode is log entry 14 (DEDUCED). -/
def Obligations.StackManagement : Prop :=
  (∀ p k, encode p .fdecstp = [0xD9#8, 0xF6#8] ∧ Instr.fdecstp.available p = true ∧
    encode p .fincstp = [0xD9#8, 0xF7#8] ∧ Instr.fincstp.available p = true ∧
    encode p (.ffree k) = [0xDD#8, 0xC0#8 + k.setWidth 8] ∧ (Instr.ffree k).available p = true) ∧
  (∀ (i : Instr) (s : State), i ∈ [Instr.fdecstp, .fincstp] → Ready i s →
    ∃ t, exec i s = .next t ∧
      t.sw.top.toNat = (if i = .fincstp then (s.sw.top.toNat + 1) % 8 else (s.sw.top.toNat + 7) % 8) ∧
      t.sw.c1 = false ∧ (∀ f, t.sw.flag f = s.sw.flag f) ∧ t.regs = s.regs ∧ t.tags = s.tags ∧ ControlKept s t ∧
      HostKept s t ∧ MemoryKept s t ∧ PointersRecorded i s t ∧ Advanced i s t) ∧
  (∀ (k : BitVec 3) (s : State), Ready (.ffree k) s →
    ∃ t, exec (.ffree k) s = .next t ∧ t.tag (s.sw.top + k) = .empty ∧
      (∀ j, j ≠ s.sw.top + k → t.tag j = s.tag j) ∧ t.regs = s.regs ∧ t.sw.top = s.sw.top ∧
      (∀ f, t.sw.flag f = s.sw.flag f) ∧ ControlKept s t ∧ HostKept s t ∧ MemoryKept s t ∧
      PointersRecorded (.ffree k) s t ∧ Advanced (.ffree k) s t)

/-- FNOP and FWAIT move pc and leave C0 to C3 open (rules R414, R427); FNOP records its pointers, FWAIT none. FOP on every
generation and the kept FCS of real mode are log entry 14 (DEDUCED). FNDISI and FNENI set and clear IEM on the 8087,
FSETPM sets PM287 on the 287; on the other generations they do nothing but move pc (rules R405, R407, R418). -/
def Obligations.NoOperations : Prop :=
  (∀ (i : Instr) (s : State), i ∈ [Instr.fnop, .fwait] → Ready i s →
    ∃ t, exec i s = .next t ∧ t.pc = s.pc + (if i = .fnop then 2#32 else 1#32) ∧ Advanced i s t ∧ t.regs = s.regs ∧
      t.tags = s.tags ∧ t.sw.top = s.sw.top ∧ (∀ f, t.sw.flag f = s.sw.flag f) ∧ ControlKept s t ∧ HostKept s t ∧
      MemoryKept s t ∧ (i = .fnop → PointersRecorded i s t) ∧ (i = .fwait → PointersKept s t)) ∧
  (∀ (i : Instr) (s : State), i ∈ [Instr.fndisi, .fneni, .fsetpm] → Ready i s →
    ∃ t, exec i s = .next t ∧ Advanced i s t ∧
      (∀ k, k < 16 → t.cw.getLsbD k =
        (if k = 7 ∧ s.cfg.gen = .g8087 ∧ i ≠ .fsetpm then decide (i = .fndisi) else s.cw.getLsbD k)) ∧
      t.pm287 = (s.pm287 || (decide (i = .fsetpm) && decide (s.cfg.gen = .g287))) ∧ t.cfg = s.cfg ∧
      t.sw = s.sw ∧ t.regs = s.regs ∧ t.tags = s.tags ∧ HostKept s t ∧ MemoryKept s t ∧
      (s.cfg.gen ≠ (if i = .fsetpm then .g287 else .g8087) → PointersKept s t))

/-- FLDCW loads CW but for the bits that cannot be loaded (rules R47, R412): bit 6 reads 1, bits 15 to 13 read 0, and
bit 7 too, except on the 8087 (for the 8087 and 287: log entry 13). ES follows the new masks; and what it leaves
unchanged. -/
def Obligations.Fldcw : Prop :=
  ∀ (a : Addr) (s : State), Ready (.fldcw a) s → OperandThere (.fldcw a) s →
    ∃ t, exec (.fldcw a) s = .next t ∧
      (∀ k, k < 16 → t.cw.getLsbD k =
        (if k = 6 then true
         else if 13 ≤ k then false
         else if k = 7 ∧ s.cfg.gen ≠ .g8087 then false
         else (BitVec.ofNat 16 (leNat (s.bytesAt a 2))).getLsbD k)) ∧
      (∀ f, t.sw.flag f = s.sw.flag f) ∧ t.sw.top = s.sw.top ∧ t.regs = s.regs ∧ t.tags = s.tags ∧
      PointersKept s t ∧ t.pm287 = s.pm287 ∧ t.cfg = s.cfg ∧ HostKept s t ∧ MemoryKept s t ∧ Advanced (.fldcw a) s t

/-- FNSTCW stores CW, FNSTSW m16 and FNSTSW AX store SW as it was; C0 to C3 are left open (rules R43, R420, R424, R426);
and what they leave unchanged. Bit 6 of the CW stored on the 287: log entry 13. -/
def Obligations.StoreControlAndStatus : Prop :=
  (∀ (i : Instr) (a : Addr) (s : State), i ∈ [Instr.fnstcw a, .fnstswM16 a] → Ready i s → OperandThere i s →
    Memory.wf s.mem →
    ∃ t, exec i s = .next t ∧
      (i = .fnstcw a → s.cfg.gen ≠ .g8087 →
        leNat (t.bytesAt a 2) = ((s.cw &&& 0x1F3F#16) ||| 0x0040#16).toNat) ∧
      (i = .fnstcw a → s.wf → leNat (t.bytesAt a 2) = s.cw.toNat) ∧
      (i = .fnstswM16 a → leNat (t.bytesAt a 2) = s.swWord.toNat) ∧
      MemoryKeptOutside a 2 s t ∧ t.regs = s.regs ∧ t.tags = s.tags ∧ t.sw.top = s.sw.top ∧
      (∀ f, t.sw.flag f = s.sw.flag f) ∧ ControlKept s t ∧ PointersKept s t ∧ HostKept s t ∧ Advanced i s t) ∧
  (∀ s : State, Ready .fnstswAx s →
    ∃ t, exec .fnstswAx s = .next t ∧ t.ax = s.swWord ∧ t.zf = s.zf ∧ t.pf = s.pf ∧ t.cf = s.cf ∧
      MemoryKept s t ∧ t.regs = s.regs ∧ t.tags = s.tags ∧ t.sw.top = s.sw.top ∧
      (∀ f, t.sw.flag f = s.sw.flag f) ∧ ControlKept s t ∧ PointersKept s t ∧ Advanced .fnstswAx s t)

/-- FNSTENV, with or without 66H, stores the environment image, CW, SW, the tag word and the pointers each at its
offset in the layout, and then masks all exceptions, so nothing is pending (rules R106 to R109, R422); and what it leaves
unchanged. Bit 6 of the CW stored on the 8087 and 287: log entry 13. -/
def Obligations.StoreEnvironment : Prop :=
  ∀ (i : Instr) (a : Addr) (s : State), i ∈ [Instr.fnstenv a, .fnstenvO66 a] → Ready i s → OperandThere i s →
    Memory.wf s.mem →
    ∃ t, exec i s = .next t ∧ t.cw = s.cw ||| 0x003F#16 ∧ t.pending = false ∧ t.sw.top = s.sw.top ∧
      (∀ f, t.sw.flag f = s.sw.flag f) ∧ t.regs = s.regs ∧ t.tags = s.tags ∧ PointersKept s t ∧
      t.pm287 = s.pm287 ∧ t.cfg = s.cfg ∧ HostKept s t ∧ MemoryKeptOutside a (widthOf s.cfg i) s t ∧
      Advanced i s t ∧
      leNat (t.bytesAt a 2) = (cwKeep s.cfg.gen s.cw).toNat ∧
      leNat (t.bytesAt (a + BitVec.ofNat 32 (widthOf s.cfg i / 7)) 2) = s.swWord.toNat ∧
      leNat (t.bytesAt (a + BitVec.ofNat 32 (2 * (widthOf s.cfg i / 7))) 2) = s.tagWord.toNat ∧
      PointersStored (widthOf s.cfg i / 7) a s t

/-- FNSAVE, with or without 66H, stores the environment, with CW, SW, the tag word and the pointers each at its offset
in the layout, and the eight registers in stack order, whatever their tags, and then does what FNINIT does (rules R107
to R110, R417); and what it leaves unchanged. Bit 6 of the CW stored on the 8087 and 287: log entry 13. -/
def Obligations.SaveState : Prop :=
  ∀ (i : Instr) (a : Addr) (s : State), i ∈ [Instr.fnsave a, .fnsaveO66 a] → Ready i s → OperandThere i s →
    Memory.wf s.mem →
    ∃ (t : State) (n : Nat), exec i s = .next t ∧ n = (widthOf s.cfg i - 80) / 7 ∧
      t.cw = 0x037F#16 ∧ t.swWord = 0#16 ∧ t.tagWord = 0xFFFF#16 ∧ t.regs = s.regs ∧
      (if s.cfg.gen = .g387 then PointersKept s t
       else t.fip = 0#32 ∧ t.fcs = 0#16 ∧ t.fdp = 0#32 ∧ t.fds = 0#16 ∧ t.fop = 0#11) ∧
      t.pm287 = s.pm287 ∧ t.cfg = s.cfg ∧ HostKept s t ∧ MemoryKeptOutside a (widthOf s.cfg i) s t ∧
      Advanced i s t ∧
      leNat (t.bytesAt a 2) = (cwKeep s.cfg.gen s.cw).toNat ∧
      leNat (t.bytesAt (a + BitVec.ofNat 32 n) 2) = s.swWord.toNat ∧
      leNat (t.bytesAt (a + BitVec.ofNat 32 (2 * n)) 2) = s.tagWord.toNat ∧ PointersStored n a s t ∧
      ∀ k : BitVec 3, leNat (t.bytesAt (a + BitVec.ofNat 32 (7 * n + 10 * k.toNat)) 10) = (s.st k).toNat

/-- FLDENV and FRSTOR, with or without 66H, complete, load CW, SW, the tags and the pointers, each from its offset in
the layout, and leave memory, AX, the host flags and PM287 unchanged (rules R49, R107 to R109, R413, R415); FRSTOR loads
all eight registers, FLDENV none. Bit 6 of the CW loaded on the 8087 and 287: log entry 13. -/
def Obligations.LoadState : Prop :=
  ∀ (i : Instr) (a : Addr) (s : State), i ∈ [Instr.fldenv a, .fldenvO66 a, .frstor a, .frstorO66 a] → Ready i s →
    OperandThere i s →
    ∃ (t : State) (n : Nat), exec i s = .next t ∧
      n = (if i ∈ [Instr.fldenv a, .fldenvO66 a] then widthOf s.cfg i / 7 else (widthOf s.cfg i - 80) / 7) ∧
      t.cw = cwKeep s.cfg.gen (BitVec.ofNat 16 (leNat (s.bytesAt a 2))) ∧
      t.swWord &&& 0x7F7F#16 = BitVec.ofNat 16 (leNat (s.bytesAt (a + BitVec.ofNat 32 n) 2)) &&& 0x7F7F#16 ∧
      (∀ k : Fin 8, t.tags[k] =
        (if (BitVec.ofNat 16 (leNat (s.bytesAt (a + BitVec.ofNat 32 (2 * n)) 2))).extractLsb' (2 * k.val) 2 = 0b11#2
         then .empty else tagOf t.regs[k])) ∧
      PointersLoaded n a s t ∧
      (if i ∈ [Instr.fldenv a, .fldenvO66 a] then t.regs = s.regs
       else ∀ k : BitVec 3,
        (t.st k).toNat = leNat (s.bytesAt (a + BitVec.ofNat 32 (7 * n + 10 * k.toNat)) 10)) ∧
      t.pm287 = s.pm287 ∧ t.cfg = s.cfg ∧ HostKept s t ∧ MemoryKept s t ∧ Advanced i s t

/-- FLDENV from an image that FNSTENV stored restores CW, SW, which registers are empty, and the pointers, as far as the
layout holds them (rules R106 to R109, R413, R422). -/
def Obligations.EnvironmentRoundTrip : Prop :=
  ∀ (st ld : Addr → Instr) (small : Bool) (a : Addr) (s : State),
    (st, ld) ∈ [(Instr.fnstenv, Instr.fldenv), (Instr.fnstenvO66, Instr.fldenvO66)] → s.wf → Ready (st a) s →
    OperandThere (st a) s → small = decide (widthOf s.cfg (st a) = 14) →
    ∃ u, exec (st a) s = .next u ∧
      ∀ w : State, w.cfg = s.cfg → Ready (ld a) w →
        (∀ b, a.toNat ≤ b → b < a.toNat + widthOf s.cfg (st a) → w.byteAt b = u.byteAt b) →
        ∃ t, exec (ld a) w = .next t ∧ t.cw = s.cw ∧ t.swWord = s.swWord ∧
          (∀ k, t.tag k = (if s.tag k = .empty then .empty else tagOf (w.reg k))) ∧ t.regs = w.regs ∧
          (small = false → t.fip = s.fip ∧ t.fdp = s.fdp ∧ t.fop = s.fop) ∧
          (small = true → t.fip.extractLsb' 0 16 = s.fip.extractLsb' 0 16 ∧
            t.fdp.extractLsb' 0 16 = s.fdp.extractLsb' 0 16) ∧
          (Params.realMode s.cfg = false → t.fcs = s.fcs ∧ t.fds = s.fds) ∧
          (Params.realMode s.cfg = true → t.fip.extractLsb' 0 20 = s.fip.extractLsb' 0 20 ∧
            t.fdp.extractLsb' 0 20 = s.fdp.extractLsb' 0 20 ∧ t.fop = s.fop)

/-- FRSTOR from an image that FNSAVE stored restores the whole stack and the environment: registers, tags, CW, SW, and the
pointers as far as the layout holds them (rules R49, R106 to R110, R415, R417). -/
def Obligations.SaveRestoreRoundTrip : Prop :=
  ∀ (st ld : Addr → Instr) (small : Bool) (a : Addr) (s : State),
    (st, ld) ∈ [(Instr.fnsave, Instr.frstor), (Instr.fnsaveO66, Instr.frstorO66)] → s.wf → Ready (st a) s →
    OperandThere (st a) s → small = decide (widthOf s.cfg (st a) = 94) →
    ∃ u, exec (st a) s = .next u ∧
      ∀ w : State, w.cfg = s.cfg → Ready (ld a) w →
        (∀ b, a.toNat ≤ b → b < a.toNat + widthOf s.cfg (st a) → w.byteAt b = u.byteAt b) →
        ∃ t, exec (ld a) w = .next t ∧ t.cw = s.cw ∧ t.swWord = s.swWord ∧ t.regs = s.regs ∧ t.tags = s.tags ∧
          (small = false → t.fip = s.fip ∧ t.fdp = s.fdp ∧ t.fop = s.fop) ∧
          (small = true → t.fip.extractLsb' 0 16 = s.fip.extractLsb' 0 16 ∧
            t.fdp.extractLsb' 0 16 = s.fdp.extractLsb' 0 16) ∧
          (Params.realMode s.cfg = false → t.fcs = s.fcs ∧ t.fds = s.fds) ∧
          (Params.realMode s.cfg = true → t.fip.extractLsb' 0 20 = s.fip.extractLsb' 0 20 ∧
            t.fdp.extractLsb' 0 20 = s.fdp.extractLsb' 0 20 ∧ t.fop = s.fop)

/-- The wait forms FCLEX, FDISI, FENI, FINIT, FSAVE, FSTCW, FSTENV, FSTSW m16, FSTSW AX, with or without 66H, complete
where nothing is pending: with the effect of the no-wait form in the state FWAIT leaves (rules R145, R400). Where the run
reads 9BH as a step of its own, as rules R145 and R588 say (fusedWait clear, log entry 1), their bytes are run as these
two steps, to the same state. -/
def Obligations.WaitFormsComplete : Prop :=
  ∀ (i w : Instr) (s : State), i.waitForm = some w → Ready w s → OperandThere w s →
    ∃ u t, exec .fwait s = .next u ∧ exec i u = .next t ∧ exec w s = .next t ∧ Advanced w s t ∧
      u = { s with pc := u.pc, pcOver := u.pcOver, draws := u.draws,
                   sw := { s.sw with c0 := u.sw.c0, c1 := u.sw.c1, c2 := u.sw.c2, c3 := u.sw.c3 } } ∧
      (s.cfg.fusedWait = false → decode { s.cfg with fusedWait := true } s.code = .ok (w, w.length s.cfg) →
        (∀ k, k < w.length s.cfg → s.pcNat + k ∉ s.written) → step s = .next u ∧ step u = .next t)

end Statements
end

