-- ==== Sys2Proof/Laws/State.lean ====
section
/-! SUPPORT. What each update of the state does to each field, and what it does to a register and its tag. -/

namespace Sys2Proof.Laws

open Sys2Proof.Machine

@[simp] theorem withC0_cfg (b : Bool) (s : State) : (s.withC0 b).cfg = s.cfg := rfl
@[simp] theorem withC0_regs (b : Bool) (s : State) : (s.withC0 b).regs = s.regs := rfl
@[simp] theorem withC0_tags (b : Bool) (s : State) : (s.withC0 b).tags = s.tags := rfl
@[simp] theorem withC0_sw (b : Bool) (s : State) : (s.withC0 b).sw = { s.sw with c0 := b } := rfl
@[simp] theorem withC0_cw (b : Bool) (s : State) : (s.withC0 b).cw = s.cw := rfl
@[simp] theorem withC0_fip (b : Bool) (s : State) : (s.withC0 b).fip = s.fip := rfl
@[simp] theorem withC0_fcs (b : Bool) (s : State) : (s.withC0 b).fcs = s.fcs := rfl
@[simp] theorem withC0_fdp (b : Bool) (s : State) : (s.withC0 b).fdp = s.fdp := rfl
@[simp] theorem withC0_fds (b : Bool) (s : State) : (s.withC0 b).fds = s.fds := rfl
@[simp] theorem withC0_fop (b : Bool) (s : State) : (s.withC0 b).fop = s.fop := rfl
@[simp] theorem withC0_pc (b : Bool) (s : State) : (s.withC0 b).pc = s.pc := rfl
@[simp] theorem withC0_pcOver (b : Bool) (s : State) : (s.withC0 b).pcOver = s.pcOver := rfl
@[simp] theorem withC0_ax (b : Bool) (s : State) : (s.withC0 b).ax = s.ax := rfl
@[simp] theorem withC0_zf (b : Bool) (s : State) : (s.withC0 b).zf = s.zf := rfl
@[simp] theorem withC0_pf (b : Bool) (s : State) : (s.withC0 b).pf = s.pf := rfl
@[simp] theorem withC0_cf (b : Bool) (s : State) : (s.withC0 b).cf = s.cf := rfl
@[simp] theorem withC0_pm287 (b : Bool) (s : State) : (s.withC0 b).pm287 = s.pm287 := rfl
@[simp] theorem withC0_mem (b : Bool) (s : State) : (s.withC0 b).mem = s.mem := rfl
@[simp] theorem withC0_written (b : Bool) (s : State) : (s.withC0 b).written = s.written := rfl
@[simp] theorem withC0_draws (b : Bool) (s : State) : (s.withC0 b).draws = s.draws := rfl

@[simp] theorem withC1_cfg (b : Bool) (s : State) : (s.withC1 b).cfg = s.cfg := rfl
@[simp] theorem withC1_regs (b : Bool) (s : State) : (s.withC1 b).regs = s.regs := rfl
@[simp] theorem withC1_tags (b : Bool) (s : State) : (s.withC1 b).tags = s.tags := rfl
@[simp] theorem withC1_sw (b : Bool) (s : State) : (s.withC1 b).sw = { s.sw with c1 := b } := rfl
@[simp] theorem withC1_cw (b : Bool) (s : State) : (s.withC1 b).cw = s.cw := rfl
@[simp] theorem withC1_fip (b : Bool) (s : State) : (s.withC1 b).fip = s.fip := rfl
@[simp] theorem withC1_fcs (b : Bool) (s : State) : (s.withC1 b).fcs = s.fcs := rfl
@[simp] theorem withC1_fdp (b : Bool) (s : State) : (s.withC1 b).fdp = s.fdp := rfl
@[simp] theorem withC1_fds (b : Bool) (s : State) : (s.withC1 b).fds = s.fds := rfl
@[simp] theorem withC1_fop (b : Bool) (s : State) : (s.withC1 b).fop = s.fop := rfl
@[simp] theorem withC1_pc (b : Bool) (s : State) : (s.withC1 b).pc = s.pc := rfl
@[simp] theorem withC1_pcOver (b : Bool) (s : State) : (s.withC1 b).pcOver = s.pcOver := rfl
@[simp] theorem withC1_ax (b : Bool) (s : State) : (s.withC1 b).ax = s.ax := rfl
@[simp] theorem withC1_zf (b : Bool) (s : State) : (s.withC1 b).zf = s.zf := rfl
@[simp] theorem withC1_pf (b : Bool) (s : State) : (s.withC1 b).pf = s.pf := rfl
@[simp] theorem withC1_cf (b : Bool) (s : State) : (s.withC1 b).cf = s.cf := rfl
@[simp] theorem withC1_pm287 (b : Bool) (s : State) : (s.withC1 b).pm287 = s.pm287 := rfl
@[simp] theorem withC1_mem (b : Bool) (s : State) : (s.withC1 b).mem = s.mem := rfl
@[simp] theorem withC1_written (b : Bool) (s : State) : (s.withC1 b).written = s.written := rfl
@[simp] theorem withC1_draws (b : Bool) (s : State) : (s.withC1 b).draws = s.draws := rfl

@[simp] theorem withC2_cfg (b : Bool) (s : State) : (s.withC2 b).cfg = s.cfg := rfl
@[simp] theorem withC2_regs (b : Bool) (s : State) : (s.withC2 b).regs = s.regs := rfl
@[simp] theorem withC2_tags (b : Bool) (s : State) : (s.withC2 b).tags = s.tags := rfl
@[simp] theorem withC2_sw (b : Bool) (s : State) : (s.withC2 b).sw = { s.sw with c2 := b } := rfl
@[simp] theorem withC2_cw (b : Bool) (s : State) : (s.withC2 b).cw = s.cw := rfl
@[simp] theorem withC2_fip (b : Bool) (s : State) : (s.withC2 b).fip = s.fip := rfl
@[simp] theorem withC2_fcs (b : Bool) (s : State) : (s.withC2 b).fcs = s.fcs := rfl
@[simp] theorem withC2_fdp (b : Bool) (s : State) : (s.withC2 b).fdp = s.fdp := rfl
@[simp] theorem withC2_fds (b : Bool) (s : State) : (s.withC2 b).fds = s.fds := rfl
@[simp] theorem withC2_fop (b : Bool) (s : State) : (s.withC2 b).fop = s.fop := rfl
@[simp] theorem withC2_pc (b : Bool) (s : State) : (s.withC2 b).pc = s.pc := rfl
@[simp] theorem withC2_pcOver (b : Bool) (s : State) : (s.withC2 b).pcOver = s.pcOver := rfl
@[simp] theorem withC2_ax (b : Bool) (s : State) : (s.withC2 b).ax = s.ax := rfl
@[simp] theorem withC2_zf (b : Bool) (s : State) : (s.withC2 b).zf = s.zf := rfl
@[simp] theorem withC2_pf (b : Bool) (s : State) : (s.withC2 b).pf = s.pf := rfl
@[simp] theorem withC2_cf (b : Bool) (s : State) : (s.withC2 b).cf = s.cf := rfl
@[simp] theorem withC2_pm287 (b : Bool) (s : State) : (s.withC2 b).pm287 = s.pm287 := rfl
@[simp] theorem withC2_mem (b : Bool) (s : State) : (s.withC2 b).mem = s.mem := rfl
@[simp] theorem withC2_written (b : Bool) (s : State) : (s.withC2 b).written = s.written := rfl
@[simp] theorem withC2_draws (b : Bool) (s : State) : (s.withC2 b).draws = s.draws := rfl

@[simp] theorem withC3_cfg (b : Bool) (s : State) : (s.withC3 b).cfg = s.cfg := rfl
@[simp] theorem withC3_regs (b : Bool) (s : State) : (s.withC3 b).regs = s.regs := rfl
@[simp] theorem withC3_tags (b : Bool) (s : State) : (s.withC3 b).tags = s.tags := rfl
@[simp] theorem withC3_sw (b : Bool) (s : State) : (s.withC3 b).sw = { s.sw with c3 := b } := rfl
@[simp] theorem withC3_cw (b : Bool) (s : State) : (s.withC3 b).cw = s.cw := rfl
@[simp] theorem withC3_fip (b : Bool) (s : State) : (s.withC3 b).fip = s.fip := rfl
@[simp] theorem withC3_fcs (b : Bool) (s : State) : (s.withC3 b).fcs = s.fcs := rfl
@[simp] theorem withC3_fdp (b : Bool) (s : State) : (s.withC3 b).fdp = s.fdp := rfl
@[simp] theorem withC3_fds (b : Bool) (s : State) : (s.withC3 b).fds = s.fds := rfl
@[simp] theorem withC3_fop (b : Bool) (s : State) : (s.withC3 b).fop = s.fop := rfl
@[simp] theorem withC3_pc (b : Bool) (s : State) : (s.withC3 b).pc = s.pc := rfl
@[simp] theorem withC3_pcOver (b : Bool) (s : State) : (s.withC3 b).pcOver = s.pcOver := rfl
@[simp] theorem withC3_ax (b : Bool) (s : State) : (s.withC3 b).ax = s.ax := rfl
@[simp] theorem withC3_zf (b : Bool) (s : State) : (s.withC3 b).zf = s.zf := rfl
@[simp] theorem withC3_pf (b : Bool) (s : State) : (s.withC3 b).pf = s.pf := rfl
@[simp] theorem withC3_cf (b : Bool) (s : State) : (s.withC3 b).cf = s.cf := rfl
@[simp] theorem withC3_pm287 (b : Bool) (s : State) : (s.withC3 b).pm287 = s.pm287 := rfl
@[simp] theorem withC3_mem (b : Bool) (s : State) : (s.withC3 b).mem = s.mem := rfl
@[simp] theorem withC3_written (b : Bool) (s : State) : (s.withC3 b).written = s.written := rfl
@[simp] theorem withC3_draws (b : Bool) (s : State) : (s.withC3 b).draws = s.draws := rfl

@[simp] theorem drawn_cfg (s : State) : (s.drawn).cfg = s.cfg := rfl
@[simp] theorem drawn_regs (s : State) : (s.drawn).regs = s.regs := rfl
@[simp] theorem drawn_tags (s : State) : (s.drawn).tags = s.tags := rfl
@[simp] theorem drawn_sw (s : State) : (s.drawn).sw = s.sw := rfl
@[simp] theorem drawn_cw (s : State) : (s.drawn).cw = s.cw := rfl
@[simp] theorem drawn_fip (s : State) : (s.drawn).fip = s.fip := rfl
@[simp] theorem drawn_fcs (s : State) : (s.drawn).fcs = s.fcs := rfl
@[simp] theorem drawn_fdp (s : State) : (s.drawn).fdp = s.fdp := rfl
@[simp] theorem drawn_fds (s : State) : (s.drawn).fds = s.fds := rfl
@[simp] theorem drawn_fop (s : State) : (s.drawn).fop = s.fop := rfl
@[simp] theorem drawn_pc (s : State) : (s.drawn).pc = s.pc := rfl
@[simp] theorem drawn_pcOver (s : State) : (s.drawn).pcOver = s.pcOver := rfl
@[simp] theorem drawn_ax (s : State) : (s.drawn).ax = s.ax := rfl
@[simp] theorem drawn_zf (s : State) : (s.drawn).zf = s.zf := rfl
@[simp] theorem drawn_pf (s : State) : (s.drawn).pf = s.pf := rfl
@[simp] theorem drawn_cf (s : State) : (s.drawn).cf = s.cf := rfl
@[simp] theorem drawn_pm287 (s : State) : (s.drawn).pm287 = s.pm287 := rfl
@[simp] theorem drawn_mem (s : State) : (s.drawn).mem = s.mem := rfl
@[simp] theorem drawn_written (s : State) : (s.drawn).written = s.written := rfl
@[simp] theorem drawn_draws (s : State) : (s.drawn).draws = s.draws + 1 := rfl

@[simp] theorem raiseInexact_cfg (b : Bool) (s : State) : (s.raiseInexact b).cfg = s.cfg := rfl
@[simp] theorem raiseInexact_regs (b : Bool) (s : State) : (s.raiseInexact b).regs = s.regs := rfl
@[simp] theorem raiseInexact_tags (b : Bool) (s : State) : (s.raiseInexact b).tags = s.tags := rfl
@[simp] theorem raiseInexact_sw (b : Bool) (s : State) : (s.raiseInexact b).sw = { s.sw with pe := true, c1 := b } := rfl
@[simp] theorem raiseInexact_cw (b : Bool) (s : State) : (s.raiseInexact b).cw = s.cw := rfl
@[simp] theorem raiseInexact_fip (b : Bool) (s : State) : (s.raiseInexact b).fip = s.fip := rfl
@[simp] theorem raiseInexact_fcs (b : Bool) (s : State) : (s.raiseInexact b).fcs = s.fcs := rfl
@[simp] theorem raiseInexact_fdp (b : Bool) (s : State) : (s.raiseInexact b).fdp = s.fdp := rfl
@[simp] theorem raiseInexact_fds (b : Bool) (s : State) : (s.raiseInexact b).fds = s.fds := rfl
@[simp] theorem raiseInexact_fop (b : Bool) (s : State) : (s.raiseInexact b).fop = s.fop := rfl
@[simp] theorem raiseInexact_pc (b : Bool) (s : State) : (s.raiseInexact b).pc = s.pc := rfl
@[simp] theorem raiseInexact_pcOver (b : Bool) (s : State) : (s.raiseInexact b).pcOver = s.pcOver := rfl
@[simp] theorem raiseInexact_ax (b : Bool) (s : State) : (s.raiseInexact b).ax = s.ax := rfl
@[simp] theorem raiseInexact_zf (b : Bool) (s : State) : (s.raiseInexact b).zf = s.zf := rfl
@[simp] theorem raiseInexact_pf (b : Bool) (s : State) : (s.raiseInexact b).pf = s.pf := rfl
@[simp] theorem raiseInexact_cf (b : Bool) (s : State) : (s.raiseInexact b).cf = s.cf := rfl
@[simp] theorem raiseInexact_pm287 (b : Bool) (s : State) : (s.raiseInexact b).pm287 = s.pm287 := rfl
@[simp] theorem raiseInexact_mem (b : Bool) (s : State) : (s.raiseInexact b).mem = s.mem := rfl
@[simp] theorem raiseInexact_written (b : Bool) (s : State) : (s.raiseInexact b).written = s.written := rfl
@[simp] theorem raiseInexact_draws (b : Bool) (s : State) : (s.raiseInexact b).draws = s.draws := rfl

@[simp] theorem flagOverflow_cfg (s : State) : (s.flagOverflow).cfg = s.cfg := rfl
@[simp] theorem flagOverflow_regs (s : State) : (s.flagOverflow).regs = s.regs := rfl
@[simp] theorem flagOverflow_tags (s : State) : (s.flagOverflow).tags = s.tags := rfl
@[simp] theorem flagOverflow_sw (s : State) : (s.flagOverflow).sw = { s.sw with oe := true } := rfl
@[simp] theorem flagOverflow_cw (s : State) : (s.flagOverflow).cw = s.cw := rfl
@[simp] theorem flagOverflow_fip (s : State) : (s.flagOverflow).fip = s.fip := rfl
@[simp] theorem flagOverflow_fcs (s : State) : (s.flagOverflow).fcs = s.fcs := rfl
@[simp] theorem flagOverflow_fdp (s : State) : (s.flagOverflow).fdp = s.fdp := rfl
@[simp] theorem flagOverflow_fds (s : State) : (s.flagOverflow).fds = s.fds := rfl
@[simp] theorem flagOverflow_fop (s : State) : (s.flagOverflow).fop = s.fop := rfl
@[simp] theorem flagOverflow_pc (s : State) : (s.flagOverflow).pc = s.pc := rfl
@[simp] theorem flagOverflow_pcOver (s : State) : (s.flagOverflow).pcOver = s.pcOver := rfl
@[simp] theorem flagOverflow_ax (s : State) : (s.flagOverflow).ax = s.ax := rfl
@[simp] theorem flagOverflow_zf (s : State) : (s.flagOverflow).zf = s.zf := rfl
@[simp] theorem flagOverflow_pf (s : State) : (s.flagOverflow).pf = s.pf := rfl
@[simp] theorem flagOverflow_cf (s : State) : (s.flagOverflow).cf = s.cf := rfl
@[simp] theorem flagOverflow_pm287 (s : State) : (s.flagOverflow).pm287 = s.pm287 := rfl
@[simp] theorem flagOverflow_mem (s : State) : (s.flagOverflow).mem = s.mem := rfl
@[simp] theorem flagOverflow_written (s : State) : (s.flagOverflow).written = s.written := rfl
@[simp] theorem flagOverflow_draws (s : State) : (s.flagOverflow).draws = s.draws := rfl

@[simp] theorem flagUnderflow_cfg (s : State) : (s.flagUnderflow).cfg = s.cfg := rfl
@[simp] theorem flagUnderflow_regs (s : State) : (s.flagUnderflow).regs = s.regs := rfl
@[simp] theorem flagUnderflow_tags (s : State) : (s.flagUnderflow).tags = s.tags := rfl
@[simp] theorem flagUnderflow_sw (s : State) : (s.flagUnderflow).sw = { s.sw with ue := true } := rfl
@[simp] theorem flagUnderflow_cw (s : State) : (s.flagUnderflow).cw = s.cw := rfl
@[simp] theorem flagUnderflow_fip (s : State) : (s.flagUnderflow).fip = s.fip := rfl
@[simp] theorem flagUnderflow_fcs (s : State) : (s.flagUnderflow).fcs = s.fcs := rfl
@[simp] theorem flagUnderflow_fdp (s : State) : (s.flagUnderflow).fdp = s.fdp := rfl
@[simp] theorem flagUnderflow_fds (s : State) : (s.flagUnderflow).fds = s.fds := rfl
@[simp] theorem flagUnderflow_fop (s : State) : (s.flagUnderflow).fop = s.fop := rfl
@[simp] theorem flagUnderflow_pc (s : State) : (s.flagUnderflow).pc = s.pc := rfl
@[simp] theorem flagUnderflow_pcOver (s : State) : (s.flagUnderflow).pcOver = s.pcOver := rfl
@[simp] theorem flagUnderflow_ax (s : State) : (s.flagUnderflow).ax = s.ax := rfl
@[simp] theorem flagUnderflow_zf (s : State) : (s.flagUnderflow).zf = s.zf := rfl
@[simp] theorem flagUnderflow_pf (s : State) : (s.flagUnderflow).pf = s.pf := rfl
@[simp] theorem flagUnderflow_cf (s : State) : (s.flagUnderflow).cf = s.cf := rfl
@[simp] theorem flagUnderflow_pm287 (s : State) : (s.flagUnderflow).pm287 = s.pm287 := rfl
@[simp] theorem flagUnderflow_mem (s : State) : (s.flagUnderflow).mem = s.mem := rfl
@[simp] theorem flagUnderflow_written (s : State) : (s.flagUnderflow).written = s.written := rfl
@[simp] theorem flagUnderflow_draws (s : State) : (s.flagUnderflow).draws = s.draws := rfl

@[simp] theorem setReg_cfg (k : BitVec 3) (v : Ext) (t : Tag) (s : State) : (s.setReg k v t).cfg = s.cfg := rfl
@[simp] theorem setReg_sw (k : BitVec 3) (v : Ext) (t : Tag) (s : State) : (s.setReg k v t).sw = s.sw := rfl
@[simp] theorem setReg_cw (k : BitVec 3) (v : Ext) (t : Tag) (s : State) : (s.setReg k v t).cw = s.cw := rfl
@[simp] theorem setReg_fip (k : BitVec 3) (v : Ext) (t : Tag) (s : State) : (s.setReg k v t).fip = s.fip := rfl
@[simp] theorem setReg_fcs (k : BitVec 3) (v : Ext) (t : Tag) (s : State) : (s.setReg k v t).fcs = s.fcs := rfl
@[simp] theorem setReg_fdp (k : BitVec 3) (v : Ext) (t : Tag) (s : State) : (s.setReg k v t).fdp = s.fdp := rfl
@[simp] theorem setReg_fds (k : BitVec 3) (v : Ext) (t : Tag) (s : State) : (s.setReg k v t).fds = s.fds := rfl
@[simp] theorem setReg_fop (k : BitVec 3) (v : Ext) (t : Tag) (s : State) : (s.setReg k v t).fop = s.fop := rfl
@[simp] theorem setReg_pc (k : BitVec 3) (v : Ext) (t : Tag) (s : State) : (s.setReg k v t).pc = s.pc := rfl
@[simp] theorem setReg_pcOver (k : BitVec 3) (v : Ext) (t : Tag) (s : State) : (s.setReg k v t).pcOver = s.pcOver := rfl
@[simp] theorem setReg_ax (k : BitVec 3) (v : Ext) (t : Tag) (s : State) : (s.setReg k v t).ax = s.ax := rfl
@[simp] theorem setReg_zf (k : BitVec 3) (v : Ext) (t : Tag) (s : State) : (s.setReg k v t).zf = s.zf := rfl
@[simp] theorem setReg_pf (k : BitVec 3) (v : Ext) (t : Tag) (s : State) : (s.setReg k v t).pf = s.pf := rfl
@[simp] theorem setReg_cf (k : BitVec 3) (v : Ext) (t : Tag) (s : State) : (s.setReg k v t).cf = s.cf := rfl
@[simp] theorem setReg_pm287 (k : BitVec 3) (v : Ext) (t : Tag) (s : State) : (s.setReg k v t).pm287 = s.pm287 := rfl
@[simp] theorem setReg_mem (k : BitVec 3) (v : Ext) (t : Tag) (s : State) : (s.setReg k v t).mem = s.mem := rfl
@[simp] theorem setReg_written (k : BitVec 3) (v : Ext) (t : Tag) (s : State) : (s.setReg k v t).written = s.written := rfl
@[simp] theorem setReg_draws (k : BitVec 3) (v : Ext) (t : Tag) (s : State) : (s.setReg k v t).draws = s.draws := rfl

@[simp] theorem setTag_cfg (k : BitVec 3) (t : Tag) (s : State) : (s.setTag k t).cfg = s.cfg := rfl
@[simp] theorem setTag_regs (k : BitVec 3) (t : Tag) (s : State) : (s.setTag k t).regs = s.regs := rfl
@[simp] theorem setTag_sw (k : BitVec 3) (t : Tag) (s : State) : (s.setTag k t).sw = s.sw := rfl
@[simp] theorem setTag_cw (k : BitVec 3) (t : Tag) (s : State) : (s.setTag k t).cw = s.cw := rfl
@[simp] theorem setTag_fip (k : BitVec 3) (t : Tag) (s : State) : (s.setTag k t).fip = s.fip := rfl
@[simp] theorem setTag_fcs (k : BitVec 3) (t : Tag) (s : State) : (s.setTag k t).fcs = s.fcs := rfl
@[simp] theorem setTag_fdp (k : BitVec 3) (t : Tag) (s : State) : (s.setTag k t).fdp = s.fdp := rfl
@[simp] theorem setTag_fds (k : BitVec 3) (t : Tag) (s : State) : (s.setTag k t).fds = s.fds := rfl
@[simp] theorem setTag_fop (k : BitVec 3) (t : Tag) (s : State) : (s.setTag k t).fop = s.fop := rfl
@[simp] theorem setTag_pc (k : BitVec 3) (t : Tag) (s : State) : (s.setTag k t).pc = s.pc := rfl
@[simp] theorem setTag_pcOver (k : BitVec 3) (t : Tag) (s : State) : (s.setTag k t).pcOver = s.pcOver := rfl
@[simp] theorem setTag_ax (k : BitVec 3) (t : Tag) (s : State) : (s.setTag k t).ax = s.ax := rfl
@[simp] theorem setTag_zf (k : BitVec 3) (t : Tag) (s : State) : (s.setTag k t).zf = s.zf := rfl
@[simp] theorem setTag_pf (k : BitVec 3) (t : Tag) (s : State) : (s.setTag k t).pf = s.pf := rfl
@[simp] theorem setTag_cf (k : BitVec 3) (t : Tag) (s : State) : (s.setTag k t).cf = s.cf := rfl
@[simp] theorem setTag_pm287 (k : BitVec 3) (t : Tag) (s : State) : (s.setTag k t).pm287 = s.pm287 := rfl
@[simp] theorem setTag_mem (k : BitVec 3) (t : Tag) (s : State) : (s.setTag k t).mem = s.mem := rfl
@[simp] theorem setTag_written (k : BitVec 3) (t : Tag) (s : State) : (s.setTag k t).written = s.written := rfl
@[simp] theorem setTag_draws (k : BitVec 3) (t : Tag) (s : State) : (s.setTag k t).draws = s.draws := rfl

@[simp] theorem setTop_cfg (t : BitVec 3) (s : State) : (s.setTop t).cfg = s.cfg := rfl
@[simp] theorem setTop_regs (t : BitVec 3) (s : State) : (s.setTop t).regs = s.regs := rfl
@[simp] theorem setTop_tags (t : BitVec 3) (s : State) : (s.setTop t).tags = s.tags := rfl
@[simp] theorem setTop_sw (t : BitVec 3) (s : State) : (s.setTop t).sw = { s.sw with top := t } := rfl
@[simp] theorem setTop_cw (t : BitVec 3) (s : State) : (s.setTop t).cw = s.cw := rfl
@[simp] theorem setTop_fip (t : BitVec 3) (s : State) : (s.setTop t).fip = s.fip := rfl
@[simp] theorem setTop_fcs (t : BitVec 3) (s : State) : (s.setTop t).fcs = s.fcs := rfl
@[simp] theorem setTop_fdp (t : BitVec 3) (s : State) : (s.setTop t).fdp = s.fdp := rfl
@[simp] theorem setTop_fds (t : BitVec 3) (s : State) : (s.setTop t).fds = s.fds := rfl
@[simp] theorem setTop_fop (t : BitVec 3) (s : State) : (s.setTop t).fop = s.fop := rfl
@[simp] theorem setTop_pc (t : BitVec 3) (s : State) : (s.setTop t).pc = s.pc := rfl
@[simp] theorem setTop_pcOver (t : BitVec 3) (s : State) : (s.setTop t).pcOver = s.pcOver := rfl
@[simp] theorem setTop_ax (t : BitVec 3) (s : State) : (s.setTop t).ax = s.ax := rfl
@[simp] theorem setTop_zf (t : BitVec 3) (s : State) : (s.setTop t).zf = s.zf := rfl
@[simp] theorem setTop_pf (t : BitVec 3) (s : State) : (s.setTop t).pf = s.pf := rfl
@[simp] theorem setTop_cf (t : BitVec 3) (s : State) : (s.setTop t).cf = s.cf := rfl
@[simp] theorem setTop_pm287 (t : BitVec 3) (s : State) : (s.setTop t).pm287 = s.pm287 := rfl
@[simp] theorem setTop_mem (t : BitVec 3) (s : State) : (s.setTop t).mem = s.mem := rfl
@[simp] theorem setTop_written (t : BitVec 3) (s : State) : (s.setTop t).written = s.written := rfl
@[simp] theorem setTop_draws (t : BitVec 3) (s : State) : (s.setTop t).draws = s.draws := rfl

@[simp] theorem setSt_cfg (i : BitVec 3) (v : Ext) (s : State) : (s.setSt i v).cfg = s.cfg := rfl
@[simp] theorem setSt_sw (i : BitVec 3) (v : Ext) (s : State) : (s.setSt i v).sw = s.sw := rfl
@[simp] theorem setSt_cw (i : BitVec 3) (v : Ext) (s : State) : (s.setSt i v).cw = s.cw := rfl
@[simp] theorem setSt_fip (i : BitVec 3) (v : Ext) (s : State) : (s.setSt i v).fip = s.fip := rfl
@[simp] theorem setSt_fcs (i : BitVec 3) (v : Ext) (s : State) : (s.setSt i v).fcs = s.fcs := rfl
@[simp] theorem setSt_fdp (i : BitVec 3) (v : Ext) (s : State) : (s.setSt i v).fdp = s.fdp := rfl
@[simp] theorem setSt_fds (i : BitVec 3) (v : Ext) (s : State) : (s.setSt i v).fds = s.fds := rfl
@[simp] theorem setSt_fop (i : BitVec 3) (v : Ext) (s : State) : (s.setSt i v).fop = s.fop := rfl
@[simp] theorem setSt_pc (i : BitVec 3) (v : Ext) (s : State) : (s.setSt i v).pc = s.pc := rfl
@[simp] theorem setSt_pcOver (i : BitVec 3) (v : Ext) (s : State) : (s.setSt i v).pcOver = s.pcOver := rfl
@[simp] theorem setSt_ax (i : BitVec 3) (v : Ext) (s : State) : (s.setSt i v).ax = s.ax := rfl
@[simp] theorem setSt_zf (i : BitVec 3) (v : Ext) (s : State) : (s.setSt i v).zf = s.zf := rfl
@[simp] theorem setSt_pf (i : BitVec 3) (v : Ext) (s : State) : (s.setSt i v).pf = s.pf := rfl
@[simp] theorem setSt_cf (i : BitVec 3) (v : Ext) (s : State) : (s.setSt i v).cf = s.cf := rfl
@[simp] theorem setSt_pm287 (i : BitVec 3) (v : Ext) (s : State) : (s.setSt i v).pm287 = s.pm287 := rfl
@[simp] theorem setSt_mem (i : BitVec 3) (v : Ext) (s : State) : (s.setSt i v).mem = s.mem := rfl
@[simp] theorem setSt_written (i : BitVec 3) (v : Ext) (s : State) : (s.setSt i v).written = s.written := rfl
@[simp] theorem setSt_draws (i : BitVec 3) (v : Ext) (s : State) : (s.setSt i v).draws = s.draws := rfl

@[simp] theorem push_cfg (v : Ext) (s : State) : (s.push v).cfg = s.cfg := rfl
@[simp] theorem push_sw (v : Ext) (s : State) : (s.push v).sw = { s.sw with top := s.sw.top - 1#3 } := rfl
@[simp] theorem push_cw (v : Ext) (s : State) : (s.push v).cw = s.cw := rfl
@[simp] theorem push_fip (v : Ext) (s : State) : (s.push v).fip = s.fip := rfl
@[simp] theorem push_fcs (v : Ext) (s : State) : (s.push v).fcs = s.fcs := rfl
@[simp] theorem push_fdp (v : Ext) (s : State) : (s.push v).fdp = s.fdp := rfl
@[simp] theorem push_fds (v : Ext) (s : State) : (s.push v).fds = s.fds := rfl
@[simp] theorem push_fop (v : Ext) (s : State) : (s.push v).fop = s.fop := rfl
@[simp] theorem push_pc (v : Ext) (s : State) : (s.push v).pc = s.pc := rfl
@[simp] theorem push_pcOver (v : Ext) (s : State) : (s.push v).pcOver = s.pcOver := rfl
@[simp] theorem push_ax (v : Ext) (s : State) : (s.push v).ax = s.ax := rfl
@[simp] theorem push_zf (v : Ext) (s : State) : (s.push v).zf = s.zf := rfl
@[simp] theorem push_pf (v : Ext) (s : State) : (s.push v).pf = s.pf := rfl
@[simp] theorem push_cf (v : Ext) (s : State) : (s.push v).cf = s.cf := rfl
@[simp] theorem push_pm287 (v : Ext) (s : State) : (s.push v).pm287 = s.pm287 := rfl
@[simp] theorem push_mem (v : Ext) (s : State) : (s.push v).mem = s.mem := rfl
@[simp] theorem push_written (v : Ext) (s : State) : (s.push v).written = s.written := rfl
@[simp] theorem push_draws (v : Ext) (s : State) : (s.push v).draws = s.draws := rfl

@[simp] theorem pop_cfg (s : State) : (s.pop).cfg = s.cfg := rfl
@[simp] theorem pop_regs (s : State) : (s.pop).regs = s.regs := rfl
@[simp] theorem pop_sw (s : State) : (s.pop).sw = { s.sw with top := s.sw.top + 1#3 } := rfl
@[simp] theorem pop_cw (s : State) : (s.pop).cw = s.cw := rfl
@[simp] theorem pop_fip (s : State) : (s.pop).fip = s.fip := rfl
@[simp] theorem pop_fcs (s : State) : (s.pop).fcs = s.fcs := rfl
@[simp] theorem pop_fdp (s : State) : (s.pop).fdp = s.fdp := rfl
@[simp] theorem pop_fds (s : State) : (s.pop).fds = s.fds := rfl
@[simp] theorem pop_fop (s : State) : (s.pop).fop = s.fop := rfl
@[simp] theorem pop_pc (s : State) : (s.pop).pc = s.pc := rfl
@[simp] theorem pop_pcOver (s : State) : (s.pop).pcOver = s.pcOver := rfl
@[simp] theorem pop_ax (s : State) : (s.pop).ax = s.ax := rfl
@[simp] theorem pop_zf (s : State) : (s.pop).zf = s.zf := rfl
@[simp] theorem pop_pf (s : State) : (s.pop).pf = s.pf := rfl
@[simp] theorem pop_cf (s : State) : (s.pop).cf = s.cf := rfl
@[simp] theorem pop_pm287 (s : State) : (s.pop).pm287 = s.pm287 := rfl
@[simp] theorem pop_mem (s : State) : (s.pop).mem = s.mem := rfl
@[simp] theorem pop_written (s : State) : (s.pop).written = s.written := rfl
@[simp] theorem pop_draws (s : State) : (s.pop).draws = s.draws := rfl

@[simp] theorem store_cfg (a : Addr) (bs : List Byte) (s : State) : (s.store a bs).cfg = s.cfg := rfl
@[simp] theorem store_regs (a : Addr) (bs : List Byte) (s : State) : (s.store a bs).regs = s.regs := rfl
@[simp] theorem store_tags (a : Addr) (bs : List Byte) (s : State) : (s.store a bs).tags = s.tags := rfl
@[simp] theorem store_sw (a : Addr) (bs : List Byte) (s : State) : (s.store a bs).sw = s.sw := rfl
@[simp] theorem store_cw (a : Addr) (bs : List Byte) (s : State) : (s.store a bs).cw = s.cw := rfl
@[simp] theorem store_fip (a : Addr) (bs : List Byte) (s : State) : (s.store a bs).fip = s.fip := rfl
@[simp] theorem store_fcs (a : Addr) (bs : List Byte) (s : State) : (s.store a bs).fcs = s.fcs := rfl
@[simp] theorem store_fdp (a : Addr) (bs : List Byte) (s : State) : (s.store a bs).fdp = s.fdp := rfl
@[simp] theorem store_fds (a : Addr) (bs : List Byte) (s : State) : (s.store a bs).fds = s.fds := rfl
@[simp] theorem store_fop (a : Addr) (bs : List Byte) (s : State) : (s.store a bs).fop = s.fop := rfl
@[simp] theorem store_pc (a : Addr) (bs : List Byte) (s : State) : (s.store a bs).pc = s.pc := rfl
@[simp] theorem store_pcOver (a : Addr) (bs : List Byte) (s : State) : (s.store a bs).pcOver = s.pcOver := rfl
@[simp] theorem store_ax (a : Addr) (bs : List Byte) (s : State) : (s.store a bs).ax = s.ax := rfl
@[simp] theorem store_zf (a : Addr) (bs : List Byte) (s : State) : (s.store a bs).zf = s.zf := rfl
@[simp] theorem store_pf (a : Addr) (bs : List Byte) (s : State) : (s.store a bs).pf = s.pf := rfl
@[simp] theorem store_cf (a : Addr) (bs : List Byte) (s : State) : (s.store a bs).cf = s.cf := rfl
@[simp] theorem store_pm287 (a : Addr) (bs : List Byte) (s : State) : (s.store a bs).pm287 = s.pm287 := rfl
@[simp] theorem store_mem (a : Addr) (bs : List Byte) (s : State) : (s.store a bs).mem = Memory.writeBytes s.mem a.toNat bs := rfl
@[simp] theorem store_draws (a : Addr) (bs : List Byte) (s : State) : (s.store a bs).draws = s.draws := rfl

@[simp] theorem reg_setReg (s : State) (k j : BitVec 3) (v : Ext) (t : Tag) :
    (s.setReg k v t).reg j = if j = k then v else s.reg j := by
  simp only [State.reg, State.setReg, Vector.getElem_set, ← BitVec.toNat_inj, eq_comm]

@[simp] theorem tag_setReg (s : State) (k j : BitVec 3) (v : Ext) (t : Tag) :
    (s.setReg k v t).tag j = if j = k then t else s.tag j := by
  simp only [State.tag, State.setReg, Vector.getElem_set, ← BitVec.toNat_inj, eq_comm]

@[simp] theorem tag_setTag (s : State) (k j : BitVec 3) (t : Tag) :
    (s.setTag k t).tag j = if j = k then t else s.tag j := by
  simp only [State.tag, State.setTag, Vector.getElem_set, ← BitVec.toNat_inj, eq_comm]

/-- Two states that hold the same registers hold the same at each. -/
theorem reg_congr {s t : State} (h : t.regs = s.regs) (k : BitVec 3) : t.reg k = s.reg k := by
  simp only [State.reg, h]

theorem tag_congr {s t : State} (h : t.tags = s.tags) (k : BitVec 3) : t.tag k = s.tag k := by
  simp only [State.tag, h]

@[simp] theorem reg_withC0 (b : Bool) (s : State) (k : BitVec 3) : (s.withC0 b).reg k = s.reg k := rfl
@[simp] theorem tag_withC0 (b : Bool) (s : State) (k : BitVec 3) : (s.withC0 b).tag k = s.tag k := rfl
@[simp] theorem phys_withC0 (b : Bool) (s : State) (i : BitVec 3) : (s.withC0 b).phys i = s.phys i := rfl
@[simp] theorem reg_withC1 (b : Bool) (s : State) (k : BitVec 3) : (s.withC1 b).reg k = s.reg k := rfl
@[simp] theorem tag_withC1 (b : Bool) (s : State) (k : BitVec 3) : (s.withC1 b).tag k = s.tag k := rfl
@[simp] theorem phys_withC1 (b : Bool) (s : State) (i : BitVec 3) : (s.withC1 b).phys i = s.phys i := rfl
@[simp] theorem reg_withC2 (b : Bool) (s : State) (k : BitVec 3) : (s.withC2 b).reg k = s.reg k := rfl
@[simp] theorem tag_withC2 (b : Bool) (s : State) (k : BitVec 3) : (s.withC2 b).tag k = s.tag k := rfl
@[simp] theorem phys_withC2 (b : Bool) (s : State) (i : BitVec 3) : (s.withC2 b).phys i = s.phys i := rfl
@[simp] theorem reg_withC3 (b : Bool) (s : State) (k : BitVec 3) : (s.withC3 b).reg k = s.reg k := rfl
@[simp] theorem tag_withC3 (b : Bool) (s : State) (k : BitVec 3) : (s.withC3 b).tag k = s.tag k := rfl
@[simp] theorem phys_withC3 (b : Bool) (s : State) (i : BitVec 3) : (s.withC3 b).phys i = s.phys i := rfl
@[simp] theorem reg_drawn (s : State) (k : BitVec 3) : (s.drawn).reg k = s.reg k := rfl
@[simp] theorem tag_drawn (s : State) (k : BitVec 3) : (s.drawn).tag k = s.tag k := rfl
@[simp] theorem phys_drawn (s : State) (i : BitVec 3) : (s.drawn).phys i = s.phys i := rfl
@[simp] theorem reg_raiseInexact (b : Bool) (s : State) (k : BitVec 3) : (s.raiseInexact b).reg k = s.reg k := rfl
@[simp] theorem tag_raiseInexact (b : Bool) (s : State) (k : BitVec 3) : (s.raiseInexact b).tag k = s.tag k := rfl
@[simp] theorem phys_raiseInexact (b : Bool) (s : State) (i : BitVec 3) : (s.raiseInexact b).phys i = s.phys i := rfl
@[simp] theorem reg_flagOverflow (s : State) (k : BitVec 3) : (s.flagOverflow).reg k = s.reg k := rfl
@[simp] theorem tag_flagOverflow (s : State) (k : BitVec 3) : (s.flagOverflow).tag k = s.tag k := rfl
@[simp] theorem phys_flagOverflow (s : State) (i : BitVec 3) : (s.flagOverflow).phys i = s.phys i := rfl
@[simp] theorem reg_flagUnderflow (s : State) (k : BitVec 3) : (s.flagUnderflow).reg k = s.reg k := rfl
@[simp] theorem tag_flagUnderflow (s : State) (k : BitVec 3) : (s.flagUnderflow).tag k = s.tag k := rfl
@[simp] theorem phys_flagUnderflow (s : State) (i : BitVec 3) : (s.flagUnderflow).phys i = s.phys i := rfl
@[simp] theorem reg_setTop (t : BitVec 3) (s : State) (k : BitVec 3) : (s.setTop t).reg k = s.reg k := rfl
@[simp] theorem tag_setTop (t : BitVec 3) (s : State) (k : BitVec 3) : (s.setTop t).tag k = s.tag k := rfl
@[simp] theorem reg_store (a : Addr) (bs : List Byte) (s : State) (k : BitVec 3) : (s.store a bs).reg k = s.reg k := rfl
@[simp] theorem tag_store (a : Addr) (bs : List Byte) (s : State) (k : BitVec 3) : (s.store a bs).tag k = s.tag k := rfl
@[simp] theorem phys_store (a : Addr) (bs : List Byte) (s : State) (i : BitVec 3) : (s.store a bs).phys i = s.phys i := rfl
@[simp] theorem reg_setTag (s : State) (k j : BitVec 3) (t : Tag) : (s.setTag k t).reg j = s.reg j := rfl
@[simp] theorem phys_setTag (s : State) (k j : BitVec 3) (t : Tag) : (s.setTag k t).phys j = s.phys j := rfl
@[simp] theorem phys_setReg (s : State) (k j : BitVec 3) (v : Ext) (t : Tag) : (s.setReg k v t).phys j = s.phys j := rfl
@[simp] theorem phys_setSt (s : State) (i j : BitVec 3) (v : Ext) : (s.setSt i v).phys j = s.phys j := rfl

/-- A write to ST(i): the register, and its tag computed from the value (rule R49). -/
@[simp] theorem reg_setSt (s : State) (i k : BitVec 3) (v : Ext) :
    (s.setSt i v).reg k = if k = s.phys i then v else s.reg k := reg_setReg s (s.phys i) k v (tagOf v)

@[simp] theorem tag_setSt (s : State) (i k : BitVec 3) (v : Ext) :
    (s.setSt i v).tag k = if k = s.phys i then tagOf v else s.tag k := tag_setReg s (s.phys i) k v (tagOf v)

/-- A pop empties the register at TOP (rule R50). -/
@[simp] theorem reg_pop (s : State) (k : BitVec 3) : s.pop.reg k = s.reg k := rfl

@[simp] theorem tag_pop (s : State) (k : BitVec 3) :
    s.pop.tag k = if k = s.sw.top then .empty else s.tag k := tag_setTag s s.sw.top k .empty

/-- A push writes the register below TOP (rule R50). -/
@[simp] theorem reg_push (s : State) (k : BitVec 3) (v : Ext) :
    (s.push v).reg k = if k = s.sw.top - 1#3 then v else s.reg k := by
  have h : (s.setTop (s.sw.top - 1#3)).phys 0#3 = s.sw.top - 1#3 := by simp [State.phys, State.setTop]
  simp [State.push, h]

@[simp] theorem tag_push (s : State) (k : BitVec 3) (v : Ext) :
    (s.push v).tag k = if k = s.sw.top - 1#3 then tagOf v else s.tag k := by
  have h : (s.setTop (s.sw.top - 1#3)).phys 0#3 = s.sw.top - 1#3 := by simp [State.phys, State.setTop]
  simp [State.push, h]

/-- ST(0) after a push is the pushed value. -/
@[simp] theorem st_push_zero (s : State) (v : Ext) : (s.push v).st 0#3 = v := by
  simp [State.st, State.phys]

/-- A tag written from a value is never empty. -/
@[simp] theorem tagOf_ne_empty (v : Ext) : tagOf v ≠ .empty := by
  unfold tagOf; split <;> decide

end Sys2Proof.Laws
end

