-- ==== Sys2Proof/Laws/Calc.lean ====
section
/-! SUPPORT. What a computation of the FPU can touch: one relation, kept by every shared operation, from which the
frame of each instruction, the sticky flags and the tag invariant follow. -/

namespace Sys2Proof.Laws

open Sys2Proof.Machine

/-- Every non-empty tag is the one its register's contents have (rule R49). -/
def TagsMatch (s : State) : Prop := ∀ k, s.tag k ≠ .empty → s.tag k = tagOf (s.reg k)

/-- `t` is `s` after a computation: only registers, tags, SW and the count of free values differ; TOP moved by one of
`D`; only the registers at the stack positions `K` of `s` differ; only the flags of `F` may have been set, none was
cleared; the tags still match. -/
structure Calc (D K : List (BitVec 3)) (F : List Flag) (s t : State) : Prop where
  rest  : t = { s with regs := t.regs, tags := t.tags, sw := t.sw, draws := t.draws }
  top   : TopMoved D s t
  regs  : RegsKept K s t
  flags : FlagsGrow F s t
  tags  : TagsMatch s → TagsMatch t

namespace Calc

variable {D D' K K' : List (BitVec 3)} {F F' : List Flag} {s t u : State}

theorem refl (h : 0#3 ∈ D) (K : List (BitVec 3)) (F : List Flag) (s : State) : Calc D K F s s :=
  ⟨rfl, ⟨0#3, h, by simp⟩, fun _ _ => ⟨rfl, rfl⟩, fun _ => ⟨id, fun _ => rfl⟩, id⟩

theorem cfg (h : Calc D K F s t) : t.cfg = s.cfg := by rw [h.rest]
theorem cw (h : Calc D K F s t) : t.cw = s.cw := by rw [h.rest]
theorem fip (h : Calc D K F s t) : t.fip = s.fip := by rw [h.rest]
theorem fcs (h : Calc D K F s t) : t.fcs = s.fcs := by rw [h.rest]
theorem fdp (h : Calc D K F s t) : t.fdp = s.fdp := by rw [h.rest]
theorem fds (h : Calc D K F s t) : t.fds = s.fds := by rw [h.rest]
theorem fop (h : Calc D K F s t) : t.fop = s.fop := by rw [h.rest]
theorem pc (h : Calc D K F s t) : t.pc = s.pc := by rw [h.rest]
theorem pcOver (h : Calc D K F s t) : t.pcOver = s.pcOver := by rw [h.rest]
theorem pcNat (h : Calc D K F s t) : t.pcNat = s.pcNat := by simp only [State.pcNat, h.pcOver, h.cfg, h.pc]
theorem ax (h : Calc D K F s t) : t.ax = s.ax := by rw [h.rest]
theorem zf (h : Calc D K F s t) : t.zf = s.zf := by rw [h.rest]
theorem pf (h : Calc D K F s t) : t.pf = s.pf := by rw [h.rest]
theorem cf (h : Calc D K F s t) : t.cf = s.cf := by rw [h.rest]
theorem pm287 (h : Calc D K F s t) : t.pm287 = s.pm287 := by rw [h.rest]
theorem mem (h : Calc D K F s t) : t.mem = s.mem := by rw [h.rest]
theorem written (h : Calc D K F s t) : t.written = s.written := by rw [h.rest]

/-- With TOP in place stack positions name the same registers. -/
theorem sameTop (h : Calc [0#3] K F s t) : t.sw.top = s.sw.top := by
  obtain ⟨d, hd, e⟩ := h.top
  simp only [List.mem_singleton] at hd
  simpa [hd] using e

theorem phys (h : Calc [0#3] K F s t) (i : BitVec 3) : t.phys i = s.phys i := by
  simp only [State.phys, h.sameTop]

theorem physFun (h : Calc [0#3] K F s t) : t.phys = s.phys := funext h.phys

theorem mono (h : Calc D K F s t) (hD : D ⊆ D') (hK : K ⊆ K') (hF : F ⊆ F') : Calc D' K' F' s t :=
  ⟨h.rest, let ⟨d, hd, e⟩ := h.top; ⟨d, hD hd, e⟩,
    fun k hk => h.regs k fun hm => hk (List.map_subset _ hK hm),
    fun f => ⟨(h.flags f).1, fun hf => (h.flags f).2 fun hm => hf (hF hm)⟩, h.tags⟩

theorem restTrans (h : Calc D K F s t) (g : Calc D' K' F' t u) :
    u = { s with regs := u.regs, tags := u.tags, sw := u.sw, draws := u.draws } := by
  have hr := h.rest
  have hg := g.rest
  generalize t.regs = r, t.tags = a, t.sw = w, t.draws = d at hr
  subst hr
  exact hg

theorem flagsTrans (h : FlagsGrow F s t) (g : FlagsGrow F t u) : FlagsGrow F s u := fun f =>
  ⟨fun e => (g f).1 ((h f).1 e), fun e => ((g f).2 e).trans ((h f).2 e)⟩

/-- First a computation that leaves TOP in place, then one that may move it. -/
theorem trans (h : Calc [0#3] K F s t) (g : Calc D K F t u) : Calc D K F s u where
  rest := restTrans h g
  top := by simpa only [TopMoved, h.sameTop] using g.top
  regs k hk := by
    have hk' : k ∉ K.map t.phys := by rwa [h.physFun]
    exact ⟨(g.regs k hk').1.trans (h.regs k hk).1, (g.regs k hk').2.trans (h.regs k hk).2⟩
  flags := flagsTrans h.flags g.flags
  tags := fun x => g.tags (h.tags x)

/-- First a computation that may move TOP, then one that touches flags only. -/
theorem thenFlags (h : Calc D K F s t) (g : Calc [0#3] [] F t u) : Calc D K F s u where
  rest := restTrans h g
  top := by simpa only [TopMoved, g.sameTop] using h.top
  regs k hk :=
    ⟨(g.regs k (by simp)).1.trans (h.regs k hk).1, (g.regs k (by simp)).2.trans (h.regs k hk).2⟩
  flags := flagsTrans h.flags g.flags
  tags := fun x => g.tags (h.tags x)

/-- A change of the status word alone: TOP in place, flags of `F` only set. -/
theorem ofStatus (w : Status) (n : Nat) (ht : w.top = s.sw.top)
    (hf : ∀ f, (s.sw.flag f = true → w.flag f = true) ∧ (f ∉ F → w.flag f = s.sw.flag f)) :
    Calc [0#3] K F s { s with sw := w, draws := n } :=
  ⟨rfl, ⟨0#3, by simp, by simpa using ht⟩, fun _ _ => ⟨rfl, rfl⟩, hf, id⟩

end Calc

variable {D K : List (BitVec 3)} {F : List Flag}

/-- The register below TOP is ST(7). -/
theorem top_sub_one (t : BitVec 3) : t + 7#3 = t - 1#3 := by revert t; decide

/-! ### Flags and condition codes -/

theorem calc_withC0 (b : Bool) (s : State) : Calc [0#3] K F s (s.withC0 b) :=
  Calc.ofStatus _ _ rfl fun f => ⟨fun h => by cases f <;> exact h, fun _ => by cases f <;> rfl⟩
theorem calc_withC1 (b : Bool) (s : State) : Calc [0#3] K F s (s.withC1 b) :=
  Calc.ofStatus _ _ rfl fun f => ⟨fun h => by cases f <;> exact h, fun _ => by cases f <;> rfl⟩
theorem calc_withC2 (b : Bool) (s : State) : Calc [0#3] K F s (s.withC2 b) :=
  Calc.ofStatus _ _ rfl fun f => ⟨fun h => by cases f <;> exact h, fun _ => by cases f <;> rfl⟩
theorem calc_withC3 (b : Bool) (s : State) : Calc [0#3] K F s (s.withC3 b) :=
  Calc.ofStatus _ _ rfl fun f => ⟨fun h => by cases f <;> exact h, fun _ => by cases f <;> rfl⟩
theorem calc_drawn (s : State) : Calc [0#3] K F s s.drawn :=
  Calc.ofStatus _ _ rfl fun f => ⟨fun h => by cases f <;> exact h, fun _ => by cases f <;> rfl⟩
theorem calc_openC0 (s : State) : Calc [0#3] K F s s.openC0 := (calc_withC0 _ s).trans (calc_drawn _)
theorem calc_openC1 (s : State) : Calc [0#3] K F s s.openC1 := (calc_withC1 _ s).trans (calc_drawn _)
theorem calc_openC2 (s : State) : Calc [0#3] K F s s.openC2 := (calc_withC2 _ s).trans (calc_drawn _)
theorem calc_openC3 (s : State) : Calc [0#3] K F s s.openC3 := (calc_withC3 _ s).trans (calc_drawn _)
theorem calc_openC03 (s : State) : Calc [0#3] K F s s.openC03 := (calc_openC0 s).trans (calc_openC3 _)
theorem calc_openC023 (s : State) : Calc [0#3] K F s s.openC023 :=
  ((calc_openC0 s).trans (calc_openC2 _)).trans (calc_openC3 _)
theorem calc_openC0123 (s : State) : Calc [0#3] K F s s.openC0123 :=
  (((calc_openC0 s).trans (calc_openC1 _)).trans (calc_openC2 _)).trans (calc_openC3 _)

theorem calc_raiseInexact (h : .pe ∈ F) (b : Bool) (s : State) : Calc [0#3] K F s (s.raiseInexact b) :=
  Calc.ofStatus _ _ rfl fun f => by
    cases f <;> first | exact ⟨id, fun _ => rfl⟩ | exact ⟨fun _ => rfl, fun e => absurd h e⟩
theorem calc_inexactOr (h : .pe ∈ F) (i b : Bool) (s : State) : Calc [0#3] K F s (s.inexactOr i b) := by
  unfold State.inexactOr; split
  · exact calc_raiseInexact h b s
  · exact calc_withC1 false s
theorem calc_flagOverflow (h : .oe ∈ F) (s : State) : Calc [0#3] K F s s.flagOverflow :=
  Calc.ofStatus _ _ rfl fun f => by
    cases f <;> first | exact ⟨id, fun _ => rfl⟩ | exact ⟨fun _ => rfl, fun e => absurd h e⟩
theorem calc_flagUnderflow (h : .ue ∈ F) (s : State) : Calc [0#3] K F s s.flagUnderflow :=
  Calc.ofStatus _ _ rfl fun f => by
    cases f <;> first | exact ⟨id, fun _ => rfl⟩ | exact ⟨fun _ => rfl, fun e => absurd h e⟩
theorem calc_openOE (h : .oe ∈ F) (s : State) : Calc [0#3] K F s s.openOE :=
  Calc.ofStatus _ _ rfl fun f => by
    cases f <;> first
      | exact ⟨id, fun _ => rfl⟩
      | exact ⟨fun e => by simpa [Status.flag] using .inl e, fun e => absurd h e⟩
theorem calc_openUE (h : .ue ∈ F) (s : State) : Calc [0#3] K F s s.openUE :=
  Calc.ofStatus _ _ rfl fun f => by
    cases f <;> first
      | exact ⟨id, fun _ => rfl⟩
      | exact ⟨fun e => by simpa [Status.flag] using .inl e, fun e => absurd h e⟩
theorem calc_openPE (h : .pe ∈ F) (s : State) : Calc [0#3] K F s s.openPE :=
  Calc.ofStatus _ _ rfl fun f => by
    cases f <;> first
      | exact ⟨id, fun _ => rfl⟩
      | exact ⟨fun e => by simpa [Status.flag] using .inl e, fun e => absurd h e⟩

/-! ### Registers -/

theorem calc_setSt {i : BitVec 3} (h : i ∈ K) (v : Ext) (s : State) : Calc [0#3] K F s (s.setSt i v) where
  rest := rfl
  top := ⟨0#3, by simp, by simp⟩
  regs k hk := by
    have : k ≠ s.phys i := fun e => hk (e ▸ List.mem_map_of_mem h)
    simp [this]
  flags f := ⟨id, fun _ => rfl⟩
  tags hs k hk := by
    rw [tag_setSt, reg_setSt] at *
    split
    · rfl
    · next hki => rw [if_neg hki] at hk; exact hs k hk

theorem calc_setTag {i : BitVec 3} (h : i ∈ K) (s : State) : Calc [0#3] K F s (s.setTag (s.phys i) .empty) where
  rest := rfl
  top := ⟨0#3, by simp, by simp⟩
  regs k hk := by
    have : k ≠ s.phys i := fun e => hk (e ▸ List.mem_map_of_mem h)
    simp [this]
  flags f := ⟨id, fun _ => rfl⟩
  tags hs k hk := by
    rw [tag_setTag] at *
    split at hk
    · exact absurd rfl hk
    · next hki => rw [if_neg hki, reg_setTag]; exact hs k hk

theorem calc_openSt {i : BitVec 3} (h : i ∈ K) (s : State) : Calc [0#3] K F s (s.openSt i) :=
  (calc_setSt h _ s).trans (calc_drawn _)

theorem calc_pop (hD : 1#3 ∈ D) (hK : 0#3 ∈ K) (s : State) : Calc D K F s s.pop where
  rest := rfl
  top := ⟨1#3, hD, rfl⟩
  regs k hk := by
    have : k ≠ s.sw.top := fun e => hk (by
      have := List.mem_map_of_mem (f := s.phys) hK
      rwa [State.phys, BitVec.add_zero, ← e] at this)
    simp [this]
  flags f := ⟨fun h => by cases f <;> exact h, fun _ => by cases f <;> rfl⟩
  tags hs k hk := by
    rw [tag_pop] at *
    split at hk
    · exact absurd rfl hk
    · next hki => rw [if_neg hki, reg_pop]; exact hs k hk

theorem calc_popIf {b : Bool} (hD0 : 0#3 ∈ D) (hD : b = true → 1#3 ∈ D) (hK : b = true → 0#3 ∈ K) (s : State) :
    Calc D K F s (State.popIf b s) := by
  unfold State.popIf; split
  · next h => exact calc_pop (hD h) (hK h) s
  · exact Calc.refl hD0 K F s

theorem calc_push (hD : 7#3 ∈ D) (hK : 7#3 ∈ K) (v : Ext) (s : State) : Calc D K F s (s.push v) where
  rest := rfl
  top := ⟨7#3, hD, (top_sub_one s.sw.top).symm⟩
  regs k hk := by
    have : k ≠ s.sw.top - 1#3 := fun e => hk (by
      have := List.mem_map_of_mem (f := s.phys) hK
      rwa [State.phys, top_sub_one, ← e] at this)
    simp [this]
  flags f := ⟨fun h => by cases f <;> exact h, fun _ => by cases f <;> rfl⟩
  tags hs k hk := by
    rw [tag_push, reg_push] at *
    split
    · rfl
    · next hki => rw [if_neg hki] at hk; exact hs k hk

end Sys2Proof.Laws
end

