-- ==== Sys2Proof/Laws/Deliver.lean ====
section
/-! SUPPORT. The raising of exceptions and the delivery of results keep the relation Calc. -/

namespace Sys2Proof.Laws

open Sys2Proof.Machine

variable {D K : List (BitVec 3)} {F : List Flag}

theorem calc_ite {c : Prop} [Decidable c] {s u v : State} (h : c → Calc D K F s u) (g : ¬c → Calc D K F s v) :
    Calc D K F s (if c then u else v) := by
  split
  · next e => exact h e
  · next e => exact g e

theorem calc_raiseStack (hie : .ie ∈ F) (hsf : .sf ∈ F) (h0 : 0#3 ∈ D) (o : Bool) {masked : State → State}
    (h : ∀ t, Calc D K F t (masked t)) (s : State) : Calc D K F s (s.raiseStack o masked) := by
  have step : Calc [0#3] K F s { s with sw := { s.sw with ie := true, sf := true, c1 := o } } :=
    Calc.ofStatus _ _ rfl fun f => by
      cases f <;> first
        | exact ⟨id, fun _ => rfl⟩
        | exact ⟨fun _ => rfl, fun e => absurd hie e⟩
        | exact ⟨fun _ => rfl, fun e => absurd hsf e⟩
  unfold State.raiseStack; dsimp only; split
  · exact step.trans (h _)
  · exact step.trans (Calc.refl h0 K F _)

theorem calc_raiseInvalid (hie : .ie ∈ F) (h0 : 0#3 ∈ D) {masked : State → State}
    (h : ∀ t, Calc D K F t (masked t)) (s : State) : Calc D K F s (s.raiseInvalid masked) := by
  have step : Calc [0#3] K F s { s with sw := { s.sw with ie := true, c1 := false } } :=
    Calc.ofStatus _ _ rfl fun f => by
      cases f <;> first | exact ⟨id, fun _ => rfl⟩ | exact ⟨fun _ => rfl, fun e => absurd hie e⟩
  unfold State.raiseInvalid; dsimp only; split
  · exact step.trans (h _)
  · exact step.trans (Calc.refl h0 K F _)

theorem calc_raiseZeroDivide (hze : .ze ∈ F) (h0 : 0#3 ∈ D) {masked : State → State}
    (h : ∀ t, Calc D K F t (masked t)) (s : State) : Calc D K F s (s.raiseZeroDivide masked) := by
  have step : Calc [0#3] K F s { s with sw := { s.sw with ze := true, c1 := false } } :=
    Calc.ofStatus _ _ rfl fun f => by
      cases f <;> first | exact ⟨id, fun _ => rfl⟩ | exact ⟨fun _ => rfl, fun e => absurd hze e⟩
  unfold State.raiseZeroDivide; dsimp only; split
  · exact step.trans (h _)
  · exact step.trans (Calc.refl h0 K F _)

theorem calc_raiseDenormal (hde : .de ∈ F) {go stop : State → State}
    (h : ∀ t, Calc D K F t (go t)) (g : ∀ t, Calc D K F t (stop t)) (s : State) :
    Calc D K F s (s.raiseDenormal go stop) := by
  have step : Calc [0#3] K F s { s with sw := { s.sw with de := true } } :=
    Calc.ofStatus _ _ rfl fun f => by
      cases f <;> first | exact ⟨id, fun _ => rfl⟩ | exact ⟨fun _ => rfl, fun e => absurd hde e⟩
  unfold State.raiseDenormal; dsimp only; split
  · exact step.trans (h _)
  · exact step.trans ((calc_withC1 false _).trans (g _))

theorem calc_denormalTest (hde : .de ∈ F) (h0 : 0#3 ∈ D) (den : Bool) {go : State → State}
    (h : ∀ t, Calc D K F t (go t)) (s : State) : Calc D K F s (s.denormalTest den go) := by
  unfold State.denormalTest; split
  · exact calc_raiseDenormal hde h (fun t => Calc.refl h0 K F t) s
  · exact h s

theorem calc_nanOne (hie : .ie ∈ F) (h0 : 0#3 ∈ D) (a : Ext) {write : Ext → State → State}
    (h : ∀ v t, Calc D K F t (write v t)) (s : State) : Calc D K F s (s.nanOne a write) := by
  unfold State.nanOne; split
  · exact calc_raiseInvalid hie h0 (h _) s
  · exact (calc_withC1 false s).trans (h _ _)

theorem calc_nanTwo (hie : .ie ∈ F) (h0 : 0#3 ∈ D) (a b : Ext) {write : Ext → State → State}
    (h : ∀ v t, Calc D K F t (write v t)) (s : State) : Calc D K F s (s.nanTwo a b write) := by
  unfold State.nanTwo; split
  · exact calc_raiseInvalid hie h0 (h _) s
  · exact (calc_withC1 false s).trans (h _ _)

/-! ### Delivery -/

theorem calc_setScaled {i : BitVec 3} (h : i ∈ K) (neg : Bool) (m : Nat) (e : Int) (s : State) :
    Calc [0#3] K F s (s.setScaled i neg m e) := by
  unfold State.setScaled; split
  · exact calc_setSt h _ s
  · exact calc_openSt h s

theorem calc_overflow {i : BitVec 3} (h : i ∈ K) (ho : .oe ∈ F) (hp : .pe ∈ F) (neg : Bool) (r : Rounded) (p : Nat)
    (rc : Rounding) (s : State) : Calc [0#3] K F s (s.overflow i neg r p rc) := by
  unfold State.overflow; split
  · exact ((calc_flagOverflow ho s).trans (calc_setSt h _ _)).trans (calc_raiseInexact hp _ _)
  · exact ((calc_flagOverflow ho s).trans (calc_setScaled h _ _ _ _)).trans (calc_inexactOr hp _ _ _)

theorem calc_inexactIf {i : Bool} (h : i = true → .pe ∈ F) (b : Bool) (s : State) :
    Calc [0#3] K F s (s.inexactOr i b) := by
  unfold State.inexactOr; split
  · next e => exact calc_raiseInexact (h e) b s
  · exact calc_withC1 false s

/-- Underflow raises precision only where the result or the denormal delivered is inexact. -/
theorem calc_underflow {i : BitVec 3} (h : i ∈ K) (hu : .ue ∈ F) {neg : Bool} {x : Mag} {r : Rounded} {p : Nat}
    {rc : Rounding}
    (hp : r.inexact = true ∨ (x.roundTo neg (-16382 - ((p : Int) - 1)) rc).inexact = true → .pe ∈ F) (s : State) :
    Calc [0#3] K F s (s.underflow i neg x r p rc) := by
  unfold State.underflow; split
  · dsimp only; split
    · next e =>
      refine ((calc_setSt h _ s).trans (calc_flagUnderflow hu _)).trans (calc_raiseInexact (hp ?_) _ _)
      simpa [or_comm] using e
    · exact (calc_setSt h _ s).trans (calc_withC1 false _)
  · exact ((calc_flagUnderflow hu s).trans (calc_setScaled h _ _ _ _)).trans (calc_inexactIf (fun e => hp (.inl e)) _ _)

/-- `settle` may raise overflow only for a result at or above 2^16384, underflow only for one below 2^-16382, and
precision only where something is inexact. -/
theorem calc_settleIf {i : BitVec 3} (h : i ∈ K) {neg : Bool} {x : Mag} {r : Rounded} {p : Nat}
    (ho : 16384 ≤ leadExp r.mant r.exp → .oe ∈ F ∧ .pe ∈ F) (hu : leadExp r.mant r.exp < -16382 → .ue ∈ F) (s : State)
    (hp : r.inexact = true ∨ (x.roundTo neg (-16382 - ((p : Int) - 1)) (rounding s.cw)).inexact = true → .pe ∈ F) :
    Calc [0#3] K F s (s.settle i neg x r p) := by
  unfold State.settle; split
  · next e => exact calc_overflow h (ho e).1 (ho e).2 _ _ _ _ s
  · split
    · next e => exact calc_underflow h (hu e) hp s
    · exact (calc_setSt h _ s).trans (calc_inexactIf (fun e => hp (.inl e)) _ _)

theorem calc_settle {i : BitVec 3} (h : i ∈ K) {neg : Bool} {x : Mag} {r : Rounded} {p : Nat}
    (ho : 16384 ≤ leadExp r.mant r.exp → .oe ∈ F) (hu : leadExp r.mant r.exp < -16382 → .ue ∈ F) (hp : .pe ∈ F)
    (s : State) : Calc [0#3] K F s (s.settle i neg x r p) :=
  calc_settleIf h (fun e => ⟨ho e, hp⟩) hu s fun _ => hp

theorem calc_deliver {i : BitVec 3} (h : i ∈ K) (ho : .oe ∈ F) (hu : .ue ∈ F) (hp : .pe ∈ F) (neg : Bool) (x : Mag)
    (p : Nat) (s : State) : Calc [0#3] K F s (s.deliver i neg x p) :=
  calc_settle h (fun _ => ho) (fun _ => hu) hp s

/-- The leading exponent of an answer of TRANS is its exponent field. -/
theorem leadExp_trans (t : Trans) : leadExp (2 ^ 63 + t.frac.toNat) (t.exp - 63) = t.exp := by
  have h : (2 ^ 63 + t.frac.toNat).log2 = 63 := by
    have := t.frac.isLt
    rw [Nat.log2_eq_iff (by positivity)]
    omega
  simp only [leadExp, h]
  omega

theorem calc_finish {i : BitVec 3} (h : i ∈ K) {t : Trans} (ho : 16384 ≤ t.exp → .oe ∈ F)
    (hu : t.exp < -16382 → .ue ∈ F) (hp : .pe ∈ F) (s : State) : Calc [0#3] K F s (s.finish i t) :=
  calc_settle h (by rwa [leadExp_trans]) (by rwa [leadExp_trans]) hp s

theorem calc_openDelivery {i : BitVec 3} (h : i ∈ K) (ho : .oe ∈ F) (hu : .ue ∈ F) (hp : .pe ∈ F) (s : State) :
    Calc [0#3] K F s (s.openDelivery i) :=
  ((((calc_openSt h s).trans (calc_openOE ho _)).trans (calc_openUE hu _)).trans (calc_openPE hp _)).trans
    (calc_openC1 _)

theorem calc_deliverPC {i : BitVec 3} (h : i ∈ K) (ho : .oe ∈ F) (hu : .ue ∈ F) (hp : .pe ∈ F) (neg : Bool) (x : Mag)
    (s : State) : Calc [0#3] K F s (s.deliverPC i neg x) := by
  unfold State.deliverPC; split
  · exact calc_deliver h ho hu hp neg x _ s
  · exact calc_openDelivery h ho hu hp s

end Sys2Proof.Laws
end

