-- ==== Sys2Proof/Laws/Families.lean ====
section
/-! SUPPORT. The rules of the instructions, family by family, keep the relation Calc with the registers, the flags and
the TOP moves their rules name. -/

namespace Sys2Proof.Laws

open Sys2Proof.Machine

variable {D K : List (BitVec 3)} {F : List Flag}

/-! ### Basic arithmetic -/

theorem calc_arithResult {d : BitVec 3} (h : d ∈ K) (ho : .oe ∈ F) (hu : .ue ∈ F) (hp : .pe ∈ F) (op : ArithOp)
    (a b : Ext) (s : State) : Calc [0#3] K F s (s.arithResult op d a b) := by
  unfold State.arithResult; split
  · exact (calc_setSt h _ s).trans (calc_withC1 _ _)
  · split
    · exact calc_deliverPC h ho hu hp _ _ s
    · exact (calc_setSt h _ s).trans (calc_withC1 _ _)

theorem calc_arith {op : ArithOp} {d : BitVec 3} {src : Source} {pop : Bool} (h0 : 0#3 ∈ D)
    (h1 : pop = true → 1#3 ∈ D) (h : d ∈ K) (hp0 : pop = true → 0#3 ∈ K) (hie : .ie ∈ F) (hsf : .sf ∈ F)
    (hde : .de ∈ F) (hze : op = .div ∨ op = .divr → .ze ∈ F) (ho : .oe ∈ F) (hu : .ue ∈ F) (hp : .pe ∈ F)
    (s : State) : Calc D K F s (s.arith op d src pop) := by
  have answer : ∀ v t, Calc D K F t (State.popIf pop (t.setSt d v)) := fun v t =>
    (calc_setSt h v t).trans (calc_popIf h0 h1 hp0 _)
  unfold State.arith; dsimp only
  refine calc_ite (fun c1 => ?_) fun c1 => calc_ite (fun c2 => ?_) fun c2 => calc_ite (fun c3 => ?_) fun c3 => calc_ite (fun c4 => ?_) fun c4 => calc_ite (fun c5 => ?_) fun c5 => ?_
  · exact calc_raiseStack hie hsf h0 false (answer _) s
  · exact calc_raiseInvalid hie h0 (answer _) s
  · exact calc_nanTwo hie h0 _ _ answer s
  · exact calc_raiseInvalid hie h0 (answer _) s
  · refine calc_raiseZeroDivide (hze ?_) h0 (answer _) s
    cases op <;> simp_all [ArithOp.zeroDivide]
  · exact calc_denormalTest hde h0 _ (fun t => (calc_arithResult h ho hu hp op _ _ t).trans (calc_popIf h0 h1 hp0 _)) s

/-! ### Other arithmetic -/

theorem calc_unary {invalid : Ext → Bool} {f : Ext → State → State} (h : 0#3 ∈ K) (hie : .ie ∈ F) (hsf : .sf ∈ F)
    (hde : .de ∈ F) (s : State)
    (hf : ∀ t, classOf (s.st 0#3) ≠ .unsupported → classOf (s.st 0#3) ≠ .nan → invalid (s.st 0#3) = false →
      Calc [0#3] K F t (f (s.st 0#3) t)) :
    Calc [0#3] K F s (s.unary invalid f) := by
  have h0 : (0#3) ∈ [0#3] := by simp
  unfold State.unary; dsimp only
  split_ifs with c1 c2 c3 c4
  · exact calc_raiseStack hie hsf h0 false (fun t => calc_setSt h _ t) s
  · exact calc_raiseInvalid hie h0 (fun t => calc_setSt h _ t) s
  · exact calc_nanOne hie h0 _ (fun v t => calc_setSt h v t) s
  · exact calc_raiseInvalid hie h0 (fun t => calc_setSt h _ t) s
  · exact calc_denormalTest hde h0 _ (fun t => hf t c2 c3 (by simpa using c4)) s

theorem calc_onSign (h : 0#3 ∈ K) (hie : .ie ∈ F) (hsf : .sf ∈ F) (f : Ext → Ext) (s : State) :
    Calc [0#3] K F s (s.onSign f) := by
  unfold State.onSign; split
  · exact calc_raiseStack hie hsf (by simp) false (fun t => calc_setSt h _ t) s
  · exact (calc_setSt h _ s).trans (calc_withC1 _ _)

theorem calc_roundInt (h : 0#3 ∈ K) (hp : .pe ∈ F) (a : Ext) (s : State) : Calc [0#3] K F s (s.roundInt a) := by
  unfold State.roundInt; split
  · exact calc_withC1 _ s
  · exact (calc_setSt h _ s).trans (calc_inexactOr hp _ _ _)

theorem calc_scale (h : 0#3 ∈ K) (hie : .ie ∈ F) (hsf : .sf ∈ F) (hde : .de ∈ F) (ho : .oe ∈ F) (hu : .ue ∈ F)
    (hp : .pe ∈ F) (s : State) : Calc [0#3] K F s s.scale := by
  have h0 : (0#3) ∈ [0#3] := by simp
  unfold State.scale; dsimp only
  refine calc_ite (fun c1 => ?_) fun c1 => calc_ite (fun c2 => ?_) fun c2 => calc_ite (fun c3 => ?_) fun c3 => calc_ite (fun c4 => ?_) fun c4 => ?_
  · exact calc_raiseStack hie hsf h0 false (fun t => calc_setSt h _ t) s
  · exact calc_raiseInvalid hie h0 (fun t => calc_setSt h _ t) s
  · exact calc_nanTwo hie h0 _ _ (fun v t => calc_setSt h v t) s
  · exact calc_raiseInvalid hie h0 (fun t => calc_setSt h _ t) s
  · refine calc_denormalTest hde h0 _ (fun t => ?_) s
    refine calc_ite (fun c1 => ?_) fun c1 => calc_ite (fun c2 => ?_) fun c2 => ?_
    · exact calc_withC1 _ t
    · exact (calc_setSt h _ t).trans (calc_withC1 _ _)
    · exact calc_deliver h ho hu hp _ _ _ t

theorem calc_bothResults (h0 : 0#3 ∈ K) (h7 : 7#3 ∈ K) (hD : 7#3 ∈ D) (v : Ext) (s : State) :
    Calc D K F s (State.bothResults v s) := (calc_setSt h0 v s).trans (calc_push hD h7 v _)

theorem calc_xtract (h0 : 0#3 ∈ K) (h7 : 7#3 ∈ K) (hD0 : 0#3 ∈ D) (hD : 7#3 ∈ D) (hie : .ie ∈ F) (hsf : .sf ∈ F)
    (hde : .de ∈ F) (hze : .ze ∈ F) (s : State) : Calc D K F s s.xtract := by
  have both : ∀ v t, Calc D K F t (State.bothResults v t) := calc_bothResults h0 h7 hD
  unfold State.xtract; dsimp only
  refine calc_ite (fun c1 => ?_) fun c1 => calc_ite (fun c2 => ?_) fun c2 => calc_ite (fun c3 => ?_) fun c3 => calc_ite (fun c4 => ?_) fun c4 => ?_
  · exact calc_raiseStack hie hsf hD0 false (both _) s
  · exact calc_raiseStack hie hsf hD0 true (both _) s
  · exact calc_raiseInvalid hie hD0 (both _) s
  · exact calc_nanOne hie hD0 _ both s
  · refine calc_denormalTest hde hD0 _ (fun t => ?_) s
    refine calc_ite (fun c1 => ?_) fun c1 => calc_ite (fun c2 => ?_) fun c2 => ?_
    · exact calc_raiseZeroDivide hze hD0 (fun u => (calc_setSt h0 _ u).trans (calc_push hD h7 _ _)) t
    · exact ((calc_setSt h0 _ t).trans (calc_push hD h7 _ _)).thenFlags (calc_withC1 _ _)
    · exact ((calc_setSt h0 _ t).trans (calc_push hD h7 _ _)).thenFlags (calc_withC1 _ _)

/-! ### Transcendental -/

theorem calc_openResult {i : BitVec 3} (h : i ∈ K) (hu : .ue ∈ F) (hp : .pe ∈ F) (s : State) :
    Calc [0#3] K F s (s.openResult i) :=
  (((calc_openSt h s).trans (calc_openUE hu _)).trans (calc_openPE hp _)).trans (calc_openC1 _)

/-- The bound of an answer of F2XM1 (rule R202). -/
theorem transF2xm1_exp (x : Ext) (rc : Rounding) : (transF2xm1 x rc).exp ≤ 0 := by
  unfold transF2xm1; dsimp only
  split_ifs with h1 h2 <;> simp_all [Trans.atMost] <;> omega

theorem atMostOne_exp (t : Trans) : (atMostOne t).exp ≤ 0 := by
  unfold atMostOne; split_ifs with h <;> simp_all [Trans.atMost]; omega

theorem transSin_exp (x : Ext) (rc : Rounding) : (transSin x rc).exp ≤ 0 := atMostOne_exp _

theorem transCos_exp (x : Ext) (rc : Rounding) : -16382 ≤ (transCos x rc).exp ∧ (transCos x rc).exp ≤ 0 := by
  have h := atMostOne_exp (Config.cos x rc)
  unfold transCos notTiny; split_ifs with h1
  · exact ⟨h1, h⟩
  · simp only; omega

theorem notHuge_exp (t : Trans) : (notHuge t).exp < 16384 := by
  unfold notHuge; split_ifs with h
  · exact h
  · simp only; omega

theorem transAtan2_exp (y x : Ext) (rc : Rounding) : (transAtan2 y x rc).exp ≤ 1 := by
  unfold transAtan2; dsimp only
  split_ifs <;> simp_all [Trans.toPi, Trans.atMost, Trans.atLeast] <;> omega

theorem calc_f2xm1 (h : 0#3 ∈ K) (hie : .ie ∈ F) (hsf : .sf ∈ F) (hde : .de ∈ F) (hu : .ue ∈ F) (hp : .pe ∈ F)
    (s : State) : Calc [0#3] K F s s.f2xm1 := by
  have h0 : (0#3) ∈ [0#3] := by simp
  unfold State.f2xm1; dsimp only
  refine calc_ite (fun c1 => ?_) fun c1 => calc_ite (fun c2 => ?_) fun c2 => calc_ite (fun c3 => ?_) fun c3 => ?_
  · exact calc_raiseStack hie hsf h0 false (fun t => calc_setSt h _ t) s
  · exact calc_raiseInvalid hie h0 (fun t => calc_setSt h _ t) s
  · exact calc_nanOne hie h0 _ (fun v t => calc_setSt h v t) s
  · refine calc_denormalTest hde h0 _ (fun t => ?_) s
    refine calc_ite (fun c1 => ?_) fun c1 => calc_ite (fun c2 => ?_) fun c2 => ?_
    · exact calc_withC1 _ t
    · exact calc_openResult h hu hp t
    · exact calc_finish h (fun e => by have := transF2xm1_exp (s.st 0#3) (rounding t.cw); omega) (fun _ => hu) hp t

theorem calc_trigInvalid (h0 : 0#3 ∈ D) (hie : .ie ∈ F) {masked : State → State}
    (h : ∀ t, Calc D K F t (masked t)) (s : State) : Calc D K F s (s.trigInvalid masked) := by
  exact (calc_raiseInvalid hie h0 h s).thenFlags (calc_withC2 _ _)

theorem calc_trigNaN (h0 : 0#3 ∈ D) (hie : .ie ∈ F) (x : Ext) {write : Ext → State → State}
    (h : ∀ v t, Calc D K F t (write v t)) (s : State) : Calc D K F s (s.trigNaN x write) := by
  exact (calc_nanOne hie h0 x h s).thenFlags (calc_withC2 _ _)

theorem calc_trig {bad zero : State → State} {f : Ext → Rounding → Trans} (h : 0#3 ∈ K) (hie : .ie ∈ F)
    (hsf : .sf ∈ F) (hde : .de ∈ F) (hp : .pe ∈ F) (hbad : ∀ t, Calc [0#3] K F t (bad t))
    (hzero : ∀ t, Calc [0#3] K F t (zero t)) (ho : ∀ x rc, (f x rc).exp < 16384)
    (hu : ∀ x rc, (f x rc).exp < -16382 → .ue ∈ F) (s : State) : Calc [0#3] K F s (s.trig bad zero f) := by
  have h0 : (0#3) ∈ [0#3] := by simp
  unfold State.trig; dsimp only
  refine calc_ite (fun c1 => ?_) fun c1 => calc_ite (fun c2 => ?_) fun c2 => calc_ite (fun c3 => ?_) fun c3 => calc_ite (fun c4 => ?_) fun c4 => ?_
  · exact calc_raiseStack hie hsf h0 false (fun t => calc_setSt h _ t) s
  · exact hbad s
  · exact calc_trigNaN h0 hie _ (fun v t => calc_setSt h v t) s
  · exact calc_trigInvalid h0 hie (fun t => calc_setSt h _ t) s
  · refine calc_denormalTest hde h0 _ (fun t => ?_) s
    refine calc_ite (fun c1 => ?_) fun c1 => calc_ite (fun c2 => ?_) fun c2 => ?_
    · exact ((hzero t).trans (calc_withC1 _ _)).trans (calc_withC2 _ _)
    · exact (calc_withC2 _ t).trans (calc_openC1 _)
    · exact (calc_finish h (fun e => by have := ho (s.st 0#3) (rounding t.cw); omega) (hu _ _) hp t).trans (calc_withC2 _ _)

theorem calc_trigPair {takes : Ext → State → Bool} {f : Ext → State → State} (h0 : 0#3 ∈ K) (h7 : 7#3 ∈ K)
    (hD0 : 0#3 ∈ D) (hD : 7#3 ∈ D) (hie : .ie ∈ F) (hsf : .sf ∈ F) (hde : .de ∈ F) (hu : .ue ∈ F) (hp : .pe ∈ F)
    (hf : ∀ x t, Calc D K F t (f x t)) (s : State) : Calc D K F s (s.trigPair takes f) := by
  have both : ∀ v t, Calc D K F t (State.bothResults v t) := calc_bothResults h0 h7 hD
  unfold State.trigPair; dsimp only
  refine calc_ite (fun c1 => ?_) fun c1 => calc_ite (fun c2 => ?_) fun c2 => calc_ite (fun c3 => ?_) fun c3 => calc_ite (fun c4 => ?_) fun c4 => ?_
  · exact calc_raiseStack hie hsf hD0 false (both _) s
  · exact calc_raiseStack hie hsf hD0 true (both _) s
  · exact calc_trigInvalid hD0 hie (both _) s
  · exact calc_trigNaN hD0 hie _ both s
  · refine calc_denormalTest hde hD0 _ (fun t => ?_) s
    refine calc_ite (fun c1 => ?_) fun c1 => calc_ite (fun c2 => ?_) fun c2 => calc_ite (fun c3 => ?_) fun c3 => ?_
    · exact ((calc_push hD h7 _ t).thenFlags (calc_withC1 _ _)).thenFlags (calc_withC2 _ _)
    · exact ((calc_openResult h0 hu hp t).trans (calc_push hD h7 _ _)).thenFlags (calc_openC2 _)
    · exact ((calc_withC2 _ t).trans (calc_openC1 _)).mono (by simpa using hD0) (fun _ => id) (fun _ => id)
    · exact (hf _ t).thenFlags (calc_withC2 _ _)

theorem calc_tangent (h0 : 0#3 ∈ K) (h7 : 7#3 ∈ K) (hD : 7#3 ∈ D) (hu : .ue ∈ F) (hp : .pe ∈ F) (x : Ext)
    (s : State) : Calc D K F s (s.tangent x) :=
  (calc_finish h0 (fun e => absurd (notHuge_exp (Config.tan x (rounding s.cw))) (by unfold transTan at e; omega))
    (fun _ => hu) hp s).trans (calc_push hD h7 _ _)

theorem calc_sineCosine (h0 : 0#3 ∈ K) (h7 : 7#3 ∈ K) (hD : 7#3 ∈ D) (hu : .ue ∈ F) (hp : .pe ∈ F) (x : Ext)
    (s : State) : Calc D K F s (s.sineCosine x) := by
  refine (calc_finish h0 (t := transSin x (rounding s.cw)) (fun e => absurd (transSin_exp x (rounding s.cw)) (by omega)) (fun _ => hu) hp s).trans ?_
  unfold State.sineCosine State.pushCosine; dsimp only
  refine calc_ite (fun _ => ?_) fun _ => ?_
  · exact (calc_push hD h7 _ _).thenFlags (calc_raiseInexact hp _ _)
  · exact calc_push hD h7 _ _

theorem calc_pairFront {f : Ext → Ext → State → State} (h1 : 1#3 ∈ K) (h0 : 0#3 ∈ K) (hD0 : 0#3 ∈ D)
    (hD : 1#3 ∈ D) (hie : .ie ∈ F) (hsf : .sf ∈ F) (hf : ∀ y x t, Calc D K F t (f y x t)) (s : State) :
    Calc D K F s (s.pairFront f) := by
  have answer : ∀ v t, Calc D K F t ((t.setSt 1#3 v).pop) := fun v t => (calc_setSt h1 v t).trans (calc_pop hD h0 _)
  unfold State.pairFront; dsimp only
  split_ifs
  · exact calc_raiseStack hie hsf hD0 false (answer _) s
  · exact calc_raiseInvalid hie hD0 (answer _) s
  · exact calc_nanTwo hie hD0 _ _ answer s
  · exact hf _ _ s

theorem calc_arctan (h1 : 1#3 ∈ K) (h0 : 0#3 ∈ K) (hD0 : 0#3 ∈ D) (hD : 1#3 ∈ D) (hde : .de ∈ F) (hu : .ue ∈ F)
    (hp : .pe ∈ F) (y x : Ext) (s : State) : Calc D K F s (s.arctan y x) := by
  unfold State.arctan
  refine calc_denormalTest hde hD0 _ (fun t => ?_) s
  split_ifs
  · exact (calc_openResult h1 hu hp t).trans (calc_pop hD h0 _)
  · exact ((calc_setSt h1 _ t).trans (calc_withC1 _ _)).trans (calc_pop hD h0 _)
  · exact (calc_finish h1 (fun e => absurd (transAtan2_exp y x (rounding t.cw)) (by omega)) (fun _ => hu) hp t).trans
      (calc_pop hD h0 _)

theorem calc_yl2x (h1 : 1#3 ∈ K) (h0 : 0#3 ∈ K) (hD0 : 0#3 ∈ D) (hD : 1#3 ∈ D) (hie : .ie ∈ F) (hde : .de ∈ F)
    (hze : .ze ∈ F) (ho : .oe ∈ F) (hu : .ue ∈ F) (hp : .pe ∈ F) (y x : Ext) (s : State) :
    Calc D K F s (s.yl2x y x) := by
  have answer : ∀ v t, Calc D K F t ((t.setSt 1#3 v).pop) := fun v t => (calc_setSt h1 v t).trans (calc_pop hD h0 _)
  unfold State.yl2x; dsimp only
  split_ifs
  · exact calc_raiseInvalid hie hD0 (answer _) s
  · exact calc_raiseZeroDivide hze hD0 (answer _) s
  · refine calc_denormalTest hde hD0 _ (fun t => ?_) s
    split
    · exact (calc_withC1 _ t).trans (answer _ _)
    · exact (calc_finish h1 (fun _ => ho) (fun _ => hu) hp t).trans (calc_pop hD h0 _)

theorem calc_yl2xp1Open (h1 : 1#3 ∈ K) (h0 : 0#3 ∈ K) (hD0 : 0#3 ∈ D) (hD : 1#3 ∈ D) (hie : .ie ∈ F)
    (hde : .de ∈ F) (hze : .ze ∈ F) (ho : .oe ∈ F) (hu : .ue ∈ F) (hp : .pe ∈ F) (s : State) :
    Calc D K F s s.yl2xp1Open := by
  unfold State.yl2xp1Open; dsimp only
  generalize Config.freeBit s.draws = bi, Config.freeBit (s.draws + 1) = bd, Config.freeBit (s.draws + 2) = bz
  have step : Calc [0#3] K F s { s with
      sw := { s.sw with ie := s.sw.ie || bi, de := s.sw.de || bd, ze := s.sw.ze || bz }
      draws := s.draws + 3 } :=
    Calc.ofStatus _ _ rfl fun f => by
      cases f <;> first
        | exact ⟨id, fun _ => rfl⟩
        | exact ⟨fun e => by simpa [Status.flag] using .inl e, fun e => by contradiction⟩
  split
  · exact (step.trans (calc_openC1 _)).mono (by simpa using hD0) (fun _ => id) (fun _ => id)
  · exact (step.trans (calc_openDelivery h1 ho hu hp _)).trans (calc_pop hD h0 _)

theorem calc_yl2xp1 (h1 : 1#3 ∈ K) (h0 : 0#3 ∈ K) (hD0 : 0#3 ∈ D) (hD : 1#3 ∈ D) (hie : .ie ∈ F) (hde : .de ∈ F)
    (hze : .ze ∈ F) (ho : .oe ∈ F) (hu : .ue ∈ F) (hp : .pe ∈ F) (y x : Ext) (s : State) :
    Calc D K F s (s.yl2xp1 y x) := by
  have answer : ∀ v t, Calc D K F t ((t.setSt 1#3 v).pop) := fun v t => (calc_setSt h1 v t).trans (calc_pop hD h0 _)
  unfold State.yl2xp1; dsimp only
  refine calc_ite (fun c1 => ?_) fun c1 => calc_ite (fun c2 => ?_) fun c2 => ?_
  · exact calc_yl2xp1Open h1 h0 hD0 hD hie hde hze ho hu hp s
  · exact calc_raiseInvalid hie hD0 (answer _) s
  · refine calc_denormalTest hde hD0 _ (fun t => ?_) s
    refine calc_ite (fun c1 => ?_) fun c1 => calc_ite (fun c2 => ?_) fun c2 => ?_
    · exact (calc_withC1 _ t).trans (answer _ _)
    · exact (calc_withC1 _ t).trans (answer _ _)
    · exact (calc_finish h1 (fun _ => ho) (fun _ => hu) hp t).trans (calc_pop hD h0 _)

/-! ### Data transfer -/

theorem calc_load (h7 : 7#3 ∈ K) (hD0 : 0#3 ∈ D) (hD : 7#3 ∈ D) (hie : .ie ∈ F) (hsf : .sf ∈ F) (v : Ext)
    (s : State) : Calc D K F s (s.load v) := by
  unfold State.load; split
  · exact calc_raiseStack hie hsf hD0 true (fun t => calc_push hD h7 _ t) s
  · exact (calc_push hD h7 _ _).thenFlags (calc_withC1 _ _)

theorem calc_loadBcd (h7 : 7#3 ∈ K) (hD0 : 0#3 ∈ D) (hD : 7#3 ∈ D) (hie : .ie ∈ F) (hsf : .sf ∈ F) (bs : List Byte)
    (s : State) : Calc D K F s (s.loadBcd bs) := by
  unfold State.loadBcd; split_ifs
  · exact calc_load h7 hD0 hD hie hsf _ s
  · exact calc_load h7 hD0 hD hie hsf _ s
  · exact (calc_load h7 hD0 hD hie hsf _ s).thenFlags (calc_drawn _)

theorem calc_loadReal (h7 : 7#3 ∈ K) (hD0 : 0#3 ∈ D) (hD : 7#3 ∈ D) (hie : .ie ∈ F) (hsf : .sf ∈ F) (hde : .de ∈ F)
    (b : Operand) (s : State) : Calc D K F s (s.loadReal b) := by
  unfold State.loadReal; dsimp only; split_ifs
  · exact calc_raiseStack hie hsf hD0 true (fun t => calc_push hD h7 _ t) s
  · exact calc_raiseInvalid hie hD0 (fun t => calc_push hD h7 _ t) s
  · exact ((calc_raiseDenormal hde (fun t => Calc.refl (by simp) K F t) (fun t => Calc.refl (by simp) K F t) s).trans
      (calc_push hD h7 _ _)).thenFlags (calc_withC1 _ _)
  · exact (calc_push hD h7 _ _).thenFlags (calc_withC1 _ _)

theorem calc_loadSt (h7 : 7#3 ∈ K) (hD0 : 0#3 ∈ D) (hD : 7#3 ∈ D) (hie : .ie ∈ F) (hsf : .sf ∈ F) (i : BitVec 3)
    (s : State) : Calc D K F s (s.loadSt i) := by
  unfold State.loadSt; split
  · exact calc_raiseStack hie hsf hD0 false (fun t => calc_push hD h7 _ t) s
  · exact calc_load h7 hD0 hD hie hsf _ s

theorem calc_storeStack {pop : Bool} (h0 : 0#3 ∈ D) (h1 : pop = true → 1#3 ∈ D) (hK : pop = true → 0#3 ∈ K)
    (hie : .ie ∈ F) (hsf : .sf ∈ F) (bs : List Byte) (s : State) : Calc D K F s (s.storeStack bs pop).1 :=
  calc_raiseStack hie hsf h0 false (fun t => calc_popIf h0 h1 hK t) s

theorem calc_storeInvalid {pop : Bool} (h0 : 0#3 ∈ D) (h1 : pop = true → 1#3 ∈ D) (hK : pop = true → 0#3 ∈ K)
    (hie : .ie ∈ F) (bs : List Byte) (s : State) : Calc D K F s (s.storeInvalid bs pop).1 :=
  calc_raiseInvalid hie h0 (fun t => calc_popIf h0 h1 hK t) s

theorem calc_storeRounded {fits : Nat → Bool} {image : Nat → List Byte} {bad : List Byte} {pop : Bool} (h0 : 0#3 ∈ D)
    (h1 : pop = true → 1#3 ∈ D) (hK : pop = true → 0#3 ∈ K) (hie : .ie ∈ F) (hsf : .sf ∈ F) (hp : .pe ∈ F)
    (s : State) : Calc D K F s (s.storeRounded fits image bad pop).1 := by
  unfold State.storeRounded; dsimp only; split_ifs
  · exact calc_storeStack h0 h1 hK hie hsf _ s
  · exact calc_storeInvalid h0 h1 hK hie _ s
  · exact calc_storeInvalid h0 h1 hK hie _ s
  · exact (calc_inexactOr hp _ _ s).trans (calc_popIf h0 h1 hK _)

theorem calc_openAfter {x : State × Option (List Byte)} {s : State} (h : Calc D K F s x.1) :
    Calc D K F s (openAfter x).1 := h.thenFlags (calc_openC023 _)

theorem calc_storeInt {w : Nat} {pop : Bool} (h0 : 0#3 ∈ D) (h1 : pop = true → 1#3 ∈ D) (hK : pop = true → 0#3 ∈ K)
    (hie : .ie ∈ F) (hsf : .sf ∈ F) (hp : .pe ∈ F) (s : State) : Calc D K F s (s.storeInt w pop).1 :=
  calc_storeRounded h0 h1 hK hie hsf hp s

theorem calc_storeBcd (h0 : 0#3 ∈ D) (h1 : 1#3 ∈ D) (hK : 0#3 ∈ K) (hie : .ie ∈ F) (hsf : .sf ∈ F) (hp : .pe ∈ F)
    (s : State) : Calc D K F s s.storeBcd.1 := calc_storeRounded h0 (fun _ => h1) (fun _ => hK) hie hsf hp s

theorem calc_storeFinite {f : RealFmt} {pop : Bool} (h0 : 0#3 ∈ D) (h1 : pop = true → 1#3 ∈ D)
    (hK : pop = true → 0#3 ∈ K) (ho : .oe ∈ F) (hu : .ue ∈ F) (hp : .pe ∈ F) (a : Ext) (s : State) :
    Calc D K F s (s.storeFinite f pop a).1 := by
  have up : ∀ {u : State}, Calc [0#3] K F s u → Calc D K F s u := fun g =>
    g.mono (by simpa using h0) (fun _ => id) (fun _ => id)
  unfold State.storeFinite; dsimp only; split_ifs
  · exact ((calc_flagOverflow ho s).trans (calc_raiseInexact hp _ _)).trans (calc_popIf h0 h1 hK _)
  · exact ((calc_flagOverflow ho s).trans (calc_raiseInexact hp _ _)).trans (calc_popIf h0 h1 hK _)
  · exact up ((calc_flagOverflow ho s).trans (calc_withC1 _ _))
  · exact ((calc_flagUnderflow hu s).trans (calc_raiseInexact hp _ _)).trans (calc_popIf h0 h1 hK _)
  · exact (calc_withC1 _ s).trans (calc_popIf h0 h1 hK _)
  · exact up ((calc_flagUnderflow hu s).trans (calc_withC1 _ _))
  · exact (calc_inexactOr hp _ _ s).trans (calc_popIf h0 h1 hK _)

theorem calc_storeReal {f : RealFmt} {pop : Bool} (h0 : 0#3 ∈ D) (h1 : pop = true → 1#3 ∈ D)
    (hK : pop = true → 0#3 ∈ K) (hie : .ie ∈ F) (hsf : .sf ∈ F) (ho : .oe ∈ F) (hu : .ue ∈ F) (hp : .pe ∈ F)
    (s : State) : Calc D K F s (s.storeReal f pop).1 := by
  unfold State.storeReal; dsimp only; split_ifs
  · exact calc_storeStack h0 h1 hK hie hsf _ s
  · exact calc_storeInvalid h0 h1 hK hie _ s
  · exact calc_storeInvalid h0 h1 hK hie _ s
  · exact calc_storeFinite h0 h1 hK ho hu hp _ s
  · exact (calc_withC1 _ s).trans (calc_popIf h0 h1 hK _)

theorem calc_storeExt (h0 : 0#3 ∈ D) (h1 : 1#3 ∈ D) (hK : 0#3 ∈ K) (hie : .ie ∈ F) (hsf : .sf ∈ F) (s : State) :
    Calc D K F s s.storeExt.1 := by
  unfold State.storeExt; split
  · exact calc_storeStack h0 (fun _ => h1) (fun _ => hK) hie hsf _ s
  · exact (calc_withC1 _ s).trans (calc_pop h1 hK _)

theorem calc_copyTo {i : BitVec 3} {pop : Bool} (h : i ∈ K) (h0 : 0#3 ∈ D) (h1 : pop = true → 1#3 ∈ D)
    (hK : pop = true → 0#3 ∈ K) (hie : .ie ∈ F) (hsf : .sf ∈ F) (s : State) : Calc D K F s (s.copyTo i pop) := by
  unfold State.copyTo; split
  · exact calc_raiseStack hie hsf h0 false (fun t => (calc_setSt h _ t).trans (calc_popIf h0 h1 hK _)) s
  · exact ((calc_setSt h _ s).trans (calc_withC1 _ _)).trans (calc_popIf h0 h1 hK _)

theorem calc_moveIf (h : 0#3 ∈ K) (hie : .ie ∈ F) (hsf : .sf ∈ F) (cond : Bool) (i : BitVec 3) (s : State) :
    Calc [0#3] K F s (s.moveIf cond i) := by
  unfold State.moveIf; split_ifs
  · exact calc_raiseStack hie hsf (by simp) false (fun t => calc_setSt h _ t) s
  · exact (calc_setSt h _ s).trans (calc_withC1 _ _)
  · exact calc_withC1 _ s

theorem calc_exchange {i : BitVec 3} (h : i ∈ K) (h0 : 0#3 ∈ K) (s : State) : Calc [0#3] K F s (s.exchange i) where
  rest := rfl
  top := ⟨0#3, by simp, by simp [State.exchange]⟩
  regs k hk := by
    have h1 : k ≠ s.phys i := fun e => hk (e ▸ List.mem_map_of_mem h)
    have h2 : k ≠ s.phys 0#3 := fun e => hk (e ▸ List.mem_map_of_mem h0)
    simp [State.exchange, h1, h2]
  flags f := ⟨id, fun _ => rfl⟩
  tags hs k hk := by
    simp only [State.exchange, tag_setReg, reg_setReg, State.st] at *
    split_ifs at * with c1 c2
    · exact hs _ hk
    · exact hs _ hk
    · exact hs _ hk

theorem calc_fillEmpty {i : BitVec 3} (h : i ∈ K) (s : State) : Calc [0#3] K F s (s.fillEmpty i) := by
  unfold State.fillEmpty; split
  · exact calc_setSt h _ s
  · exact Calc.refl (by simp) K F s

theorem calc_swap {i : BitVec 3} (h : i ∈ K) (h0 : 0#3 ∈ K) (hie : .ie ∈ F) (hsf : .sf ∈ F) (s : State) :
    Calc [0#3] K F s (s.swap i) := by
  unfold State.swap; split
  · exact calc_raiseStack hie hsf (by simp) false
      (fun t => ((calc_fillEmpty h0 t).trans (calc_fillEmpty h _)).trans (calc_exchange h h0 _)) s
  · exact (calc_exchange h h0 s).trans (calc_withC1 _ _)

/-! ### Comparison -/

theorem calc_pops {n : Nat} (hn : n ≤ 2) (h0 : BitVec.ofNat 3 n ∈ D) (hK0 : 1 ≤ n → 0#3 ∈ K) (hK1 : 2 ≤ n → 1#3 ∈ K)
    (s : State) : Calc D K F s (State.pops n s) := by
  match n, hn with
  | 0, _ => exact Calc.refl h0 K F s
  | 1, _ => exact calc_pop h0 (hK0 (by simp)) s
  | 2, _ =>
    refine ⟨rfl, ⟨2#3, h0, ?_⟩, fun k hk => ?_, fun f => ⟨fun h => ?_, fun _ => ?_⟩, fun hs k hk => ?_⟩
    · show s.sw.top + 1#3 + 1#3 = s.sw.top + 2#3
      rw [BitVec.add_assoc]; rfl
    · have h1 : k ≠ s.sw.top := fun e => hk (by
        have := List.mem_map_of_mem (f := s.phys) (hK0 (by simp))
        rwa [State.phys, BitVec.add_zero, ← e] at this)
      have h2 : k ≠ s.sw.top + 1#3 := fun e => hk (e ▸ List.mem_map_of_mem (f := s.phys) (hK1 (by simp)))
      simp [State.pops, h1, h2]
    · cases f <;> exact h
    · cases f <;> rfl
    · simp only [State.pops, tag_pop, reg_pop] at *
      split_ifs at * with c1 c2
      · exact absurd rfl hk
      · exact absurd rfl hk
      · exact hs k hk

/-- A computation that leaves the host flags alone does so whatever they are. -/
theorem calc_openResultCodes (s : State) : Calc [0#3] K F s (State.openResultFlags .codes s) :=
  ((calc_openC0 s).trans (calc_openC2 _)).trans (calc_openC3 _)

theorem calc_setResultCodes (rel : Relation) (s : State) : Calc [0#3] K F s (s.setResult .codes rel) :=
  (((calc_withC3 _ s).trans (calc_withC2 _ _)).trans (calc_withC0 _ _)).trans (calc_withC1 _ _)

theorem calc_examine (s : State) : Calc [0#3] K F s s.examine :=
  (((calc_withC1 _ s).trans (calc_withC3 _ _)).trans (calc_withC2 _ _)).trans (calc_withC0 _ _)

/-- The state with other host flags. -/
def withHost (z p c : Bool) (s : State) : State := { s with zf := z, pf := p, cf := c }

/-- `t` is `s` after a computation that may also have written the host flags. -/
def CalcHost (D K : List (BitVec 3)) (F : List Flag) (s t : State) : Prop :=
  Calc D K F (withHost t.zf t.pf t.cf s) t

theorem Calc.withHost {s t : State} (h : Calc D K F s t) (z p c : Bool) :
    Calc D K F (withHost z p c s) (Laws.withHost z p c t) where
  rest := by
    have hr := h.rest
    generalize hr' : t.regs = r, ha : t.tags = a, hw : t.sw = w, hd : t.draws = d at hr
    subst hr
    rfl
  top := h.top
  regs := h.regs
  flags := h.flags
  tags := h.tags

theorem Calc.host {s t : State} (h : Calc D K F s t) : CalcHost D K F s t := by
  unfold CalcHost
  rw [h.zf, h.pf, h.cf]
  exact h

theorem CalcHost.after {s t u : State} (h : Calc [0#3] K F s t) (g : CalcHost D K F t u) : CalcHost D K F s u :=
  (h.withHost u.zf u.pf u.cf).trans g

theorem CalcHost.trans {s t u : State} (h : CalcHost [0#3] K F s t) (g : Calc D K F t u) : CalcHost D K F s u := by
  unfold CalcHost
  rw [g.zf, g.pf, g.cf]
  exact Calc.trans h g

theorem calcHost_setResult (dst : ResultTo) (rel : Relation) (s : State) :
    CalcHost [0#3] K F s (s.setResult dst rel) := by
  cases dst with
  | codes => exact (calc_setResultCodes rel s).host
  | eflags => exact calc_withC1 false _

theorem calcHost_openResultFlags (dst : ResultTo) (s : State) :
    CalcHost [0#3] K F s (State.openResultFlags dst s) := by
  cases dst with
  | codes => exact (calc_openResultCodes s).host
  | eflags => exact Calc.ofStatus _ _ rfl fun f => ⟨id, fun _ => rfl⟩

theorem calcHost_raise {s t : State} {b : Bool} {u v : State} (h : Calc [0#3] K F s t) (hu : CalcHost D K F t u)
    (hv : CalcHost D K F t v) : CalcHost D K F s (if b then u else v) := by
  split
  · exact CalcHost.after h hu
  · exact CalcHost.after h hv

theorem CalcHost.mono {s t : State} {D' : List (BitVec 3)} (h : CalcHost D K F s t) (hD : D ⊆ D') :
    CalcHost D' K F s t := Calc.mono h hD (fun _ => id) (fun _ => id)

/-- A compare (rule R470): with its result in the condition codes it leaves the host flags alone. -/
theorem calcHost_compare {src : Source} {q : Bool} {dst : ResultTo} {n : Nat} (hn : n ≤ 2) (h0 : 0#3 ∈ D)
    (hD : BitVec.ofNat 3 n ∈ D) (hK0 : 1 ≤ n → 0#3 ∈ K) (hK1 : 2 ≤ n → 1#3 ∈ K) (hie : .ie ∈ F) (hsf : .sf ∈ F)
    (hde : .de ∈ F) (s : State) : CalcHost D K F s (s.compare src q dst n) := by
  have answer : ∀ rel t, CalcHost D K F t (State.pops n (t.setResult dst rel)) := fun rel t =>
    (calcHost_setResult dst rel t).trans (calc_pops hn hD hK0 hK1 _)
  have stay : ∀ t, CalcHost D K F t t := fun t => (Calc.refl h0 K F t).host
  have hopen : ∀ t, CalcHost D K F t (State.openResultFlags dst t) := fun t =>
    (calcHost_openResultFlags dst t).mono (by simpa using h0)
  unfold State.compare; dsimp only
  split_ifs
  · refine calcHost_raise ?_ (answer _ _) (stay _)
    exact Calc.ofStatus _ _ rfl fun f => by
      cases f <;> first
        | exact ⟨id, fun _ => rfl⟩
        | exact ⟨fun _ => rfl, fun e => absurd hie e⟩
        | exact ⟨fun _ => rfl, fun e => absurd hsf e⟩
  · refine calcHost_raise ?_ (answer _ _) (stay _)
    exact Calc.ofStatus _ _ rfl fun f => by
      cases f <;> first | exact ⟨id, fun _ => rfl⟩ | exact ⟨fun _ => rfl, fun e => absurd hie e⟩
  · exact answer _ s
  · refine calcHost_raise ?_ (answer _ _) (CalcHost.after (calc_withC1 false _) (hopen _))
    exact Calc.ofStatus _ _ rfl fun f => by
      cases f <;> first | exact ⟨id, fun _ => rfl⟩ | exact ⟨fun _ => rfl, fun e => absurd hde e⟩
  · exact answer _ s

/-- A compare with its result in the condition codes (rule R470) leaves the host flags alone. -/
theorem calc_compareCodes {src : Source} {q : Bool} {n : Nat} (hn : n ≤ 2) (h0 : 0#3 ∈ D) (hD : BitVec.ofNat 3 n ∈ D)
    (hK0 : 1 ≤ n → 0#3 ∈ K) (hK1 : 2 ≤ n → 1#3 ∈ K) (hie : .ie ∈ F) (hsf : .sf ∈ F) (hde : .de ∈ F) (s : State) :
    Calc D K F s (s.compare src q .codes n) := by
  have answer : ∀ rel t, Calc D K F t (State.pops n (t.setResult .codes rel)) := fun rel t =>
    (calc_setResultCodes rel t).trans (calc_pops hn hD hK0 hK1 _)
  unfold State.compare; dsimp only
  refine calc_ite (fun _ => ?_) fun _ => calc_ite (fun _ => ?_) fun _ => calc_ite (fun _ => ?_) fun _ =>
    calc_ite (fun _ => ?_) fun _ => ?_
  · exact calc_raiseStack hie hsf h0 false (answer _) s
  · exact calc_raiseInvalid hie h0 (answer _) s
  · exact answer _ s
  · exact calc_raiseDenormal hde (answer _)
      (fun t => (calc_openResultCodes t).mono (by simpa using h0) (fun _ => id) (fun _ => id)) s
  · exact answer _ s

end Sys2Proof.Laws
end

