-- ==== Sys2Proof/Laws/Number.lean ====
section
/-! SUPPORT. The arithmetic of Machine/Number.lean over the real numbers: magnitudes, their integer parts, and the
rounding functions of rules R60 and R61. -/

namespace Sys2Proof.Laws

open Sys2Proof.Machine

/-- A power of two with an integer exponent, by its natural parts. -/
theorem zpow_toNat (k : ℤ) : (2 : ℝ) ^ k * 2 ^ (-k).toNat = 2 ^ k.toNat := by
  rcases le_total 0 k with h | h
  · rw [show (-k).toNat = 0 by omega, pow_zero, mul_one, ← zpow_natCast, Int.toNat_of_nonneg h]
  · rw [show k.toNat = 0 by omega, pow_zero, ← zpow_natCast, Int.toNat_of_nonneg (by omega), ← zpow_add₀ two_ne_zero]
    simp

theorem two_zpow_pos (k : ℤ) : (0 : ℝ) < 2 ^ k := by positivity

theorem log2_le_real {n : Nat} (h : n ≠ 0) : (2 : ℝ) ^ (n.log2 : ℤ) ≤ n := by
  rw [zpow_natCast]; exact_mod_cast Nat.log2_self_le h

theorem real_lt_log2 (n : Nat) : (n : ℝ) < 2 ^ ((n.log2 : ℤ) + 1) := by
  have := @Nat.lt_log2_self n
  rw [show ((n.log2 : ℤ) + 1) = ((n.log2 + 1 : ℕ) : ℤ) by push_cast; ring, zpow_natCast]
  exact_mod_cast this

/-- The leading exponent of `m · 2^e`. -/
theorem leadExp_spec {m : Nat} (h : m ≠ 0) (e : Int) :
    (2 : ℝ) ^ leadExp m e ≤ m * 2 ^ e ∧ (m : ℝ) * 2 ^ e < 2 ^ (leadExp m e + 1) := by
  unfold leadExp
  constructor
  · rw [zpow_add₀ two_ne_zero]
    exact mul_le_mul_of_nonneg_right (log2_le_real h) (two_zpow_pos e).le
  · rw [show (m.log2 : ℤ) + e + 1 = ((m.log2 : ℤ) + 1) + e by ring, zpow_add₀ two_ne_zero]
    exact mul_lt_mul_of_pos_right (real_lt_log2 m) (two_zpow_pos e)

/-- The binary exponent of a positive real is unique. -/
theorem exponent_unique {v : ℝ} {a b : ℤ} (ha : (2 : ℝ) ^ a ≤ v) (ha' : v < 2 ^ (a + 1)) (hb : (2 : ℝ) ^ b ≤ v)
    (hb' : v < 2 ^ (b + 1)) : a = b := by
  have h1 : a < b + 1 := (zpow_lt_zpow_iff_right₀ (by norm_num : (1 : ℝ) < 2)).1 (lt_of_le_of_lt ha hb')
  have h2 : b < a + 1 := (zpow_lt_zpow_iff_right₀ (by norm_num : (1 : ℝ) < 2)).1 (lt_of_le_of_lt hb ha')
  omega

theorem isqrtFrom_spec (b n r : Nat) (h : r * r ≤ n) (h' : n < (r + 2 ^ b) * (r + 2 ^ b)) :
    isqrtFrom b n r * isqrtFrom b n r ≤ n ∧ n < (isqrtFrom b n r + 1) * (isqrtFrom b n r + 1) := by
  induction b generalizing r with
  | zero => exact ⟨h, by simpa [isqrtFrom] using h'⟩
  | succ b ih =>
    simp only [isqrtFrom]
    split
    · next e => exact ih _ e (by rw [pow_succ] at h'; ring_nf at h' ⊢; exact h')
    · next e => exact ih _ h (by omega)

/-- The integer square root. -/
theorem isqrt_spec (n : Nat) : isqrt n * isqrt n ≤ n ∧ n < (isqrt n + 1) * (isqrt n + 1) := by
  refine isqrtFrom_spec _ _ _ (by simp) ?_
  have h := @Nat.lt_log2_self n
  refine lt_of_lt_of_le h ?_
  rw [zero_add, ← pow_add]
  exact Nat.pow_le_pow_right (by omega) (by omega)

/-- The integer part of `m · 2^k`, and whether it is all of it. -/
theorem scaleFloor_spec (m : Nat) (k : Int) :
    (scaleFloor m k : ℝ) ≤ m * 2 ^ k ∧ (m : ℝ) * 2 ^ k < scaleFloor m k + 1 := by
  unfold scaleFloor
  split
  · next h =>
    have : ((m * 2 ^ k.toNat : ℕ) : ℝ) = m * 2 ^ k := by
      push_cast; rw [← zpow_toNat k, show (-k).toNat = 0 by omega]; simp
    rw [this]; exact ⟨le_rfl, by linarith⟩
  · next h =>
    have e : (m : ℝ) * 2 ^ k = m / (2 ^ (-k).toNat : ℕ) := by
      have := zpow_toNat k
      rw [show k.toNat = 0 by omega, pow_zero] at this
      push_cast
      rw [eq_div_iff (by positivity), mul_assoc, this, mul_one]
    rw [e]
    refine ⟨Nat.cast_div_le, ?_⟩
    rw [div_lt_iff₀ (by positivity)]
    have := Nat.lt_mul_div_succ m (Nat.pos_of_ne_zero (by positivity : 2 ^ (-k).toNat ≠ 0))
    calc (m : ℝ) < ((2 ^ (-k).toNat * (m / 2 ^ (-k).toNat + 1) : ℕ) : ℝ) := by exact_mod_cast this
      _ = _ := by push_cast; ring

theorem scaleExact_spec (m : Nat) (k : Int) : scaleExact m k = true ↔ (scaleFloor m k : ℝ) = m * 2 ^ k := by
  unfold scaleExact scaleFloor
  by_cases h : 0 ≤ k
  · have : ((m * 2 ^ k.toNat : ℕ) : ℝ) = m * 2 ^ k := by
      push_cast; rw [← zpow_toNat k, show (-k).toNat = 0 by omega]; simp
    simp only [h, decide_true, Bool.true_or, if_true, this]
  · have e : (m : ℝ) * 2 ^ k = m / (2 ^ (-k).toNat : ℕ) := by
      have := zpow_toNat k
      rw [show k.toNat = 0 by omega, pow_zero] at this
      push_cast
      rw [eq_div_iff (by positivity), mul_assoc, this, mul_one]
    simp only [h, decide_false, Bool.false_or, if_false, decide_eq_true_eq, e]
    rw [eq_div_iff (by positivity)]
    constructor
    · intro hd; exact_mod_cast Nat.div_mul_cancel (Nat.dvd_of_mod_eq_zero hd)
    · intro hd
      have : m / 2 ^ (-k).toNat * 2 ^ (-k).toNat = m := by exact_mod_cast hd
      exact Nat.mod_eq_zero_of_dvd ⟨_, by rw [Nat.mul_comm]; exact this.symm⟩

/-- The real number a magnitude stands for. -/
noncomputable def Mag.real : Mag → ℝ
  | .ratio n d e => (n : ℝ) / d * 2 ^ e
  | .root m e => Real.sqrt (m * 2 ^ e)

/-- The magnitudes the rules form: numerator, denominator and radicand are not zero. -/
def Mag.ok : Mag → Prop
  | .ratio n d _ => n ≠ 0 ∧ d ≠ 0
  | .root m _ => m ≠ 0

theorem Mag.real_pos {x : Mag} (h : Mag.ok x) : 0 < Mag.real x := by
  cases x with
  | ratio n d e =>
    obtain ⟨hn, hd⟩ := h
    have : (0 : ℝ) < n := by exact_mod_cast Nat.pos_of_ne_zero hn
    have : (0 : ℝ) < d := by exact_mod_cast Nat.pos_of_ne_zero hd
    simp only [Mag.real]; positivity
  | root m e =>
    have : (0 : ℝ) < m := by exact_mod_cast Nat.pos_of_ne_zero h
    simp only [Mag.real]; positivity

/-- The exponent of the leading bit (rule R60). -/
theorem Mag.log2_spec {x : Mag} (h : Mag.ok x) : (2 : ℝ) ^ x.log2 ≤ Mag.real x ∧ Mag.real x < 2 ^ (x.log2 + 1) := by
  cases x with
  | ratio n d e =>
    obtain ⟨hn, hd⟩ := h
    have hdp : (0 : ℝ) < d := by exact_mod_cast Nat.pos_of_ne_zero hd
    have hc : ∀ k : ℤ, d * 2 ^ k.toNat ≤ n * 2 ^ (-k).toNat ↔ (2 : ℝ) ^ k ≤ n / d := by
      intro k
      rw [le_div_iff₀ hdp, ← Nat.cast_le (α := ℝ)]
      push_cast
      rw [← zpow_toNat k, ← mul_assoc, mul_le_mul_iff_left₀ (by positivity), mul_comm]
    have hlo : (2 : ℝ) ^ ((n.log2 : ℤ) - d.log2 - 1) ≤ n / d := by
      rw [le_div_iff₀ hdp]
      calc (2 : ℝ) ^ ((n.log2 : ℤ) - d.log2 - 1) * d
          ≤ 2 ^ ((n.log2 : ℤ) - d.log2 - 1) * 2 ^ ((d.log2 : ℤ) + 1) :=
            mul_le_mul_of_nonneg_left (real_lt_log2 d).le (two_zpow_pos _).le
        _ = 2 ^ (n.log2 : ℤ) := by rw [← zpow_add₀ two_ne_zero]; congr 1; ring
        _ ≤ n := log2_le_real hn
    have hhi : (n : ℝ) / d < 2 ^ ((n.log2 : ℤ) - d.log2 + 1) := by
      rw [div_lt_iff₀ hdp]
      calc (n : ℝ) < 2 ^ ((n.log2 : ℤ) + 1) := real_lt_log2 n
        _ = 2 ^ ((n.log2 : ℤ) - d.log2 + 1) * 2 ^ (d.log2 : ℤ) := by rw [← zpow_add₀ two_ne_zero]; congr 1; ring
        _ ≤ _ := mul_le_mul_of_nonneg_left (log2_le_real hd) (two_zpow_pos _).le
    simp only [Mag.log2, Mag.real, hc]
    split
    · next hk =>
      refine ⟨?_, ?_⟩
      · rw [zpow_add₀ two_ne_zero]; exact mul_le_mul_of_nonneg_right hk (two_zpow_pos e).le
      · rw [show (n.log2 : ℤ) - d.log2 + e + 1 = ((n.log2 : ℤ) - d.log2 + 1) + e by ring, zpow_add₀ two_ne_zero]
        exact mul_lt_mul_of_pos_right hhi (two_zpow_pos e)
    · next hk =>
      refine ⟨?_, ?_⟩
      · rw [zpow_add₀ two_ne_zero]; exact mul_le_mul_of_nonneg_right hlo (two_zpow_pos e).le
      · rw [show (n.log2 : ℤ) - d.log2 - 1 + e + 1 = ((n.log2 : ℤ) - d.log2) + e by ring, zpow_add₀ two_ne_zero]
        exact mul_lt_mul_of_pos_right (not_le.1 hk) (two_zpow_pos e)
  | root m e =>
    have h1 := leadExp_spec h e
    simp only [leadExp] at h1
    simp only [Mag.log2, Mag.real]
    generalize (m.log2 : ℤ) + e = l at h1
    constructor
    · apply Real.le_sqrt_of_sq_le
      refine le_trans ?_ h1.1
      rw [← zpow_natCast, ← zpow_mul]
      exact zpow_le_zpow_right₀ (by norm_num) (by push_cast; omega)
    · rw [Real.sqrt_lt' (two_zpow_pos _)]
      refine lt_of_lt_of_le h1.2 ?_
      rw [← zpow_natCast, ← zpow_mul]
      exact zpow_le_zpow_right₀ (by norm_num) (by push_cast; omega)

/-- The integer part of a magnitude over `2^k`. -/
theorem Mag.floorAt_spec {x : Mag} (h : Mag.ok x) (k : Int) :
    (x.floorAt k : ℝ) * 2 ^ k ≤ Mag.real x ∧ Mag.real x < ((x.floorAt k : ℝ) + 1) * 2 ^ k := by
  have hl := Mag.log2_spec h
  unfold Mag.floorAt
  split
  · next hk =>
    refine ⟨by simpa using (Mag.real_pos h).le, ?_⟩
    simp only [Nat.cast_zero, zero_add, one_mul]
    exact lt_of_lt_of_le hl.2 (zpow_le_zpow_right₀ (by norm_num) (by omega))
  · cases x with
    | ratio n d e =>
      obtain ⟨hn, hd⟩ := h
      have hdp : (0 : ℝ) < d := by exact_mod_cast Nat.pos_of_ne_zero hd
      have hden : 0 < d * 2 ^ (k - e).toNat := Nat.mul_pos (Nat.pos_of_ne_zero hd) (by positivity)
      have hv : Mag.real (.ratio n d e) =
          ((n * 2 ^ (e - k).toNat : ℕ) : ℝ) / (d * 2 ^ (k - e).toNat : ℕ) * 2 ^ k := by
        have hz := zpow_toNat (e - k)
        rw [show -(e - k) = k - e by ring] at hz
        simp only [Mag.real]
        push_cast
        rw [← hz, show (2 : ℝ) ^ e = 2 ^ (e - k) * 2 ^ k by rw [← zpow_add₀ two_ne_zero]; congr 1; ring]
        field_simp
      rw [hv]
      dsimp only
      constructor
      · exact mul_le_mul_of_nonneg_right Nat.cast_div_le (two_zpow_pos k).le
      · refine mul_lt_mul_of_pos_right ?_ (two_zpow_pos k)
        rw [div_lt_iff₀ (by exact_mod_cast hden)]
        have := Nat.lt_mul_div_succ (n * 2 ^ (e - k).toNat) hden
        rw [mul_comm (d * _)] at this
        exact_mod_cast this
    | root m e =>
      have hs := scaleFloor_spec m (e - 2 * k)
      have hq := isqrt_spec (scaleFloor m (e - 2 * k))
      have hv : Mag.real (.root m e) = Real.sqrt (m * 2 ^ (e - 2 * k)) * 2 ^ k := by
        have : (m : ℝ) * 2 ^ e = (m * 2 ^ (e - 2 * k)) * (2 ^ k) ^ 2 := by
          rw [← zpow_natCast, ← zpow_mul, mul_assoc, ← zpow_add₀ two_ne_zero]
          congr 2; push_cast; ring
        rw [Mag.real, this, Real.sqrt_mul (by positivity), Real.sqrt_sq (two_zpow_pos k).le]
      rw [hv]
      dsimp only
      generalize (m : ℝ) * 2 ^ (e - 2 * k) = w at hs
      generalize isqrt (scaleFloor m (e - 2 * k)) = q at hq
      generalize scaleFloor m (e - 2 * k) = f at hs hq
      constructor
      · refine mul_le_mul_of_nonneg_right ?_ (two_zpow_pos k).le
        apply Real.le_sqrt_of_sq_le
        refine le_trans ?_ hs.1
        rw [sq]; exact_mod_cast hq.1
      · refine mul_lt_mul_of_pos_right ?_ (two_zpow_pos k)
        rw [Real.sqrt_lt' (by positivity)]
        refine lt_of_lt_of_le hs.2 ?_
        rw [sq]; exact_mod_cast hq.2

/-- A magnitude is a multiple of `2^k` exactly where its integer part over `2^k` is all of it. -/
theorem Mag.exactAt_spec {x : Mag} (h : Mag.ok x) (k : Int) :
    x.exactAt k = true ↔ (x.floorAt k : ℝ) * 2 ^ k = Mag.real x := by
  unfold Mag.exactAt Mag.floorAt
  split
  · have := Mag.real_pos h
    simp only [Bool.false_eq_true, Nat.cast_zero, zero_mul, false_iff]
    exact this.ne
  · cases x with
    | ratio n d e =>
      obtain ⟨hn, hd⟩ := h
      have hdp : (0 : ℝ) < d := by exact_mod_cast Nat.pos_of_ne_zero hd
      have hden : 0 < d * 2 ^ (k - e).toNat := Nat.mul_pos (Nat.pos_of_ne_zero hd) (by positivity)
      have hv : Mag.real (.ratio n d e) =
          ((n * 2 ^ (e - k).toNat : ℕ) : ℝ) / (d * 2 ^ (k - e).toNat : ℕ) * 2 ^ k := by
        have hz := zpow_toNat (e - k)
        rw [show -(e - k) = k - e by ring] at hz
        simp only [Mag.real]
        push_cast
        rw [← hz, show (2 : ℝ) ^ e = 2 ^ (e - k) * 2 ^ k by rw [← zpow_add₀ two_ne_zero]; congr 1; ring]
        field_simp
      simp only [hv, decide_eq_true_eq]
      rw [mul_left_inj' (two_zpow_pos k).ne', eq_div_iff (by exact_mod_cast hden.ne')]
      constructor
      · intro hm; exact_mod_cast Nat.div_mul_cancel (Nat.dvd_of_mod_eq_zero hm)
      · intro hm
        have : n * 2 ^ (e - k).toNat / (d * 2 ^ (k - e).toNat) * (d * 2 ^ (k - e).toNat) = n * 2 ^ (e - k).toNat := by
          exact_mod_cast hm
        exact Nat.mod_eq_zero_of_dvd (Dvd.intro_left _ this)
    | root m e =>
      have hs := scaleFloor_spec m (e - 2 * k)
      have he := scaleExact_spec m (e - 2 * k)
      have hq := isqrt_spec (scaleFloor m (e - 2 * k))
      have hv : Mag.real (.root m e) = Real.sqrt (m * 2 ^ (e - 2 * k)) * 2 ^ k := by
        have : (m : ℝ) * 2 ^ e = (m * 2 ^ (e - 2 * k)) * (2 ^ k) ^ 2 := by
          rw [← zpow_natCast, ← zpow_mul, mul_assoc, ← zpow_add₀ two_ne_zero]
          congr 2; push_cast; ring
        rw [Mag.real, this, Real.sqrt_mul (by positivity), Real.sqrt_sq (two_zpow_pos k).le]
      have hw : (0 : ℝ) ≤ m * 2 ^ (e - 2 * k) := by positivity
      rw [hv]
      simp only [Bool.and_eq_true, decide_eq_true_eq, he]
      rw [mul_left_inj' (two_zpow_pos k).ne']
      generalize (m : ℝ) * 2 ^ (e - 2 * k) = w at hs hw
      generalize isqrt (scaleFloor m (e - 2 * k)) = q at hq
      generalize scaleFloor m (e - 2 * k) = f at hs hq
      constructor
      · rintro ⟨h1, h2⟩
        rw [← h1, ← h2]; push_cast
        rw [Real.sqrt_mul_self (by positivity)]
      · intro hqw
        have h2 : (q : ℝ) * q = w := by rw [hqw, Real.mul_self_sqrt hw]
        have h3 : ((q * q : ℕ) : ℝ) = w := by exact_mod_cast h2
        have h4 : f = q * q := by
          have a1 : (f : ℝ) ≤ (q * q : ℕ) := by rw [h3]; exact hs.1
          have a2 : f ≤ q * q := by exact_mod_cast a1
          exact le_antisymm a2 hq.1
        exact ⟨by rw [h4, h3], h4.symm⟩

/-- The signed number of a magnitude. -/
noncomputable def signed (neg : Bool) (v : ℝ) : ℝ := if neg then -v else v

theorem signed_abs (neg : Bool) {v : ℝ} (h : 0 ≤ v) : |signed neg v| = v := by
  cases neg <;> simp [signed, abs_of_nonneg h]

theorem signed_neg_iff (neg : Bool) {v : ℝ} (h : 0 < v) : signed neg v < 0 ↔ neg = true := by
  cases neg
  · simpa [signed] using h.le
  · simpa [signed] using h

/-- What decides a rounding to a multiple of `2^k`: the multiple below, and whether the number is at it, past the
middle, or at the middle. -/
theorem roundedTo_of {v : ℝ} (hp : 0 < v) (neg : Bool) (k : ℤ) (rc : Rounding) (n : ℕ) (inexact up : Bool)
    (h1 : (n : ℝ) * 2 ^ k ≤ v) (h2 : v < ((n : ℝ) + 1) * 2 ^ k) (hi : inexact = true ↔ (n : ℝ) * 2 ^ k ≠ v)
    (hu : up = true ↔ (n : ℝ) * 2 ^ k ≠ v ∧
      (match rc with
       | .chop => False
       | .down => neg = true
       | .up => neg = false
       | .nearest => (2 : ℝ) ^ k < 2 * (v - n * 2 ^ k) ∨ ((2 : ℝ) ^ k = 2 * (v - n * 2 ^ k) ∧ n % 2 = 1))) :
    RoundedTo k rc (signed neg v) (signed neg ((if up then n + 1 else n : ℕ) * 2 ^ k)) inexact up := by
  have ha := signed_abs neg hp.le
  refine ⟨n, by rw [ha]; exact h1, by rw [ha]; exact h2, by rw [ha]; exact hi, ?_, ?_⟩
  · rw [ha, hu]
    cases rc <;> cases neg <;> simp [signed, hp, not_lt.2 hp.le]
  · have h0 : ¬ v < 0 := not_lt.2 hp.le
    clear hu hi
    cases neg <;> cases up <;> simp [signed, h0, hp]

/-- Rounding to a multiple of `2^k` (rules R60, R61): what `Mag.roundTo` answers is the multiple the rule picks. -/
theorem Mag.roundTo_spec {x : Mag} (h : Mag.ok x) (neg : Bool) (k : Int) (rc : Rounding) :
    RoundedTo k rc (signed neg (Mag.real x))
      (signed neg ((x.roundTo neg k rc).mant * 2 ^ (x.roundTo neg k rc).exp))
      (x.roundTo neg k rc).inexact (x.roundTo neg k rc).up := by
  have hp := Mag.real_pos h
  have hf := Mag.floorAt_spec h (k - 1)
  have hx := Mag.exactAt_spec h (k - 1)
  have h2 : (2 : ℝ) ^ k = 2 * 2 ^ (k - 1) := by
    rw [← zpow_one_add₀ two_ne_zero]; congr 1; ring
  have ht := two_zpow_pos (k - 1)
  unfold Mag.roundTo; dsimp only
  generalize x.floorAt (k - 1) = q at hf hx
  generalize x.exactAt (k - 1) = half at hx
  generalize Mag.real x = v at hp hf hx
  obtain ⟨lo, rfl | rfl⟩ : ∃ lo, q = 2 * lo ∨ q = 2 * lo + 1 := ⟨q / 2, by omega⟩
  · -- the integer part at half the spacing is even: the number is below the middle
    have hd : 2 * lo / 2 = lo := by omega
    have hm : 2 * lo % 2 = 0 := by omega
    push_cast at hf hx
    have l1 : (lo : ℝ) * 2 ^ k ≤ v := by rw [h2]; linarith [hf.1]
    have l2 : v < ((lo : ℝ) + 1) * 2 ^ k := by rw [h2]; nlinarith [hf.2]
    cases half with
    | true =>
      have he : (lo : ℝ) * 2 ^ k = v := by rw [h2]; linarith [hx.1 rfl]
      simp only [hd, hm, decide_true, Bool.and_true, if_true]
      exact roundedTo_of hp neg k rc lo false false l1 l2 (by simp [he]) (by simp [he])
    | false =>
      have he : (lo : ℝ) * 2 ^ k ≠ v := fun e => by
        have := hx.2 (by rw [h2] at e; linarith)
        simp at this
      have l3 : ¬ (2 : ℝ) ^ k < 2 * (v - lo * 2 ^ k) := by rw [h2]; nlinarith [hf.2]
      have l4 : ¬ (2 : ℝ) ^ k = 2 * (v - lo * 2 ^ k) := by
        intro e; rw [h2] at e; nlinarith [hf.2]
      simp only [hd, hm, Bool.false_and, Bool.false_eq_true, if_false]
      refine roundedTo_of hp neg k rc lo true _ l1 l2 (by simp [he]) ?_
      cases rc <;> cases neg <;> simp [he, l3, l4]
  · -- it is odd: the number is at the middle or past it
    have hd : (2 * lo + 1) / 2 = lo := by omega
    have hm : (2 * lo + 1) % 2 = 1 := by omega
    push_cast at hf hx
    have l1 : (lo : ℝ) * 2 ^ k ≤ v := by rw [h2]; nlinarith [hf.1]
    have l2 : v < ((lo : ℝ) + 1) * 2 ^ k := by rw [h2]; nlinarith [hf.2]
    have he : (lo : ℝ) * 2 ^ k ≠ v := fun e => by rw [h2] at e; nlinarith [hf.1]
    simp only [hd, hm, one_ne_zero, decide_false, Bool.and_false, Bool.false_eq_true, if_false, decide_true,
      Bool.true_and]
    refine roundedTo_of hp neg k rc lo true _ l1 l2 (by simp [he]) ?_
    cases half with
    | true =>
      have l3 : ¬ (2 : ℝ) ^ k < 2 * (v - lo * 2 ^ k) := by rw [h2]; nlinarith [hx.1 rfl]
      have l4 : (2 : ℝ) ^ k = 2 * (v - lo * 2 ^ k) := by rw [h2]; nlinarith [hx.1 rfl]
      cases rc <;> cases neg <;> simp [he, ← l4]
    | false =>
      have hne : (2 * (lo : ℝ) + 1) * 2 ^ (k - 1) ≠ v := fun e => by simpa using hx.2 e
      have l3 : (2 : ℝ) ^ k < 2 * (v - lo * 2 ^ k) := by
        have := lt_of_le_of_ne hf.1 hne
        rw [h2]; nlinarith
      cases rc <;> cases neg <;> simp [he, l3]

theorem Mag.roundTo_exp (x : Mag) (neg : Bool) (k : Int) (rc : Rounding) : (x.roundTo neg k rc).exp = k := by
  unfold Mag.roundTo; dsimp only; split <;> rfl

/-- The rounding function of rule R60. -/
theorem Mag.roundPrec_spec {x : Mag} (h : Mag.ok x) (neg : Bool) (p : Nat) (rc : Rounding) :
    CorrectlyRounded p rc (signed neg (Mag.real x))
      (signed neg ((x.roundPrec neg p rc).mant * 2 ^ (x.roundPrec neg p rc).exp))
      (x.roundPrec neg p rc).inexact (x.roundPrec neg p rc).up := by
  have hl := Mag.log2_spec h
  have ha := signed_abs neg (Mag.real_pos h).le
  exact ⟨x.log2, by rw [ha]; exact hl.1, by rw [ha]; exact hl.2, Mag.roundTo_spec h neg _ rc⟩

/-- The multiple a rounding picks is determined. -/
theorem RoundedTo.unique {k : ℤ} {rc : Rounding} {x y y' : ℝ} {i i' u u' : Bool} (h : RoundedTo k rc x y i u)
    (h' : RoundedTo k rc x y' i' u') : y = y' ∧ i = i' ∧ u = u' := by
  obtain ⟨n, a1, a2, a3, a4, a5⟩ := h
  obtain ⟨m, b1, b2, b3, b4, b5⟩ := h'
  have hk := two_zpow_pos k
  have hnm : n = m := by
    have c1 : (n : ℝ) < m + 1 := lt_of_mul_lt_mul_right (lt_of_le_of_lt a1 b2) hk.le
    have c2 : (m : ℝ) < n + 1 := lt_of_mul_lt_mul_right (lt_of_le_of_lt b1 a2) hk.le
    have c1' : n < m + 1 := by exact_mod_cast c1
    have c2' : m < n + 1 := by exact_mod_cast c2
    omega
  subst hnm
  have hi : i = i' := Bool.eq_iff_iff.2 (a3.trans b3.symm)
  have hu : u = u' := Bool.eq_iff_iff.2 (a4.trans b4.symm)
  subst hi hu
  exact ⟨a5.trans b5.symm, rfl, rfl⟩

theorem CorrectlyRounded.unique {p : ℕ} {rc : Rounding} {x y y' : ℝ} {i i' u u' : Bool}
    (h : CorrectlyRounded p rc x y i u) (h' : CorrectlyRounded p rc x y' i' u') : y = y' ∧ i = i' ∧ u = u' := by
  obtain ⟨e, a1, a2, a3⟩ := h
  obtain ⟨f, b1, b2, b3⟩ := h'
  obtain rfl := exponent_unique a1 a2 b1 b2
  exact RoundedTo.unique a3 b3

end Sys2Proof.Laws
end

