-- ==== Sys2Proof/Laws/Exact.lean ====
section
/-! SUPPORT. Where a rounding is exact, and with it which flags FPREM, FPREM1 and FSQRT cannot set. -/

namespace Sys2Proof.Laws

open Sys2Proof.Machine

variable {K : List (BitVec 3)} {F : List Flag}

/-- A multiple of `2^k` is rounded to itself. -/
theorem roundedTo_exact {k e : ℤ} {rc : Rounding} {x y : ℝ} {n : ℕ} {i u : Bool} (h : RoundedTo k rc x y i u)
    (hx : |x| = n * 2 ^ e) (hk : k ≤ e) : i = false := by
  obtain ⟨m, a1, a2, a3, -, -⟩ := h
  have hkp := two_zpow_pos k
  have hm : |x| = ((n * 2 ^ (e - k).toNat : ℕ) : ℝ) * 2 ^ k := by
    rw [hx]; push_cast
    rw [← zpow_natCast, Int.toNat_of_nonneg (by omega), mul_assoc, ← zpow_add₀ two_ne_zero]
    congr 2; ring
  rw [hm] at a1 a2 a3
  generalize n * 2 ^ (e - k).toNat = q at a1 a2 a3
  have c1 : (m : ℝ) ≤ q := le_of_mul_le_mul_right a1 hkp
  have c2 : (q : ℝ) < m + 1 := lt_of_mul_lt_mul_right a2 hkp.le
  have c1' : m ≤ q := by exact_mod_cast c1
  have c2' : q < m + 1 := by exact_mod_cast c2
  have : m = q := by omega
  subst this
  cases i
  · rfl
  · exact absurd rfl (a3.1 rfl)

/-- A number of at most `p` significant bits is rounded to itself. -/
theorem correctlyRounded_exact {p : ℕ} {e : ℤ} {rc : Rounding} {x y : ℝ} {n : ℕ} {i u : Bool}
    (h : CorrectlyRounded p rc x y i u) (hx : |x| = n * 2 ^ e) (hn : n < 2 ^ p) : i = false := by
  obtain ⟨l, a1, a2, a3⟩ := h
  refine roundedTo_exact a3 hx ?_
  by_contra hc
  have h1 : (2 : ℝ) ^ p * 2 ^ e ≤ |x| := by
    refine le_trans ?_ a1
    rw [← zpow_natCast, ← zpow_add₀ two_ne_zero]
    exact zpow_le_zpow_right₀ (by norm_num) (by omega)
  rw [hx] at h1
  have h2 : (2 : ℝ) ^ p ≤ n := le_of_mul_le_mul_right h1 (two_zpow_pos e)
  have h3 : 2 ^ p ≤ n := by exact_mod_cast h2
  omega

/-- A rounding to `p` bits answers between `2^(p-1)` and `2^p` units. -/
theorem Mag.roundPrec_mant {x : Mag} (h : Mag.ok x) (neg : Bool) {p : Nat} (hp : 1 ≤ p) (rc : Rounding) :
    2 ^ (p - 1) ≤ (x.roundPrec neg p rc).mant ∧ (x.roundPrec neg p rc).mant ≤ 2 ^ p ∧
      (x.roundPrec neg p rc).exp = x.log2 - p + 1 := by
  have hl := Mag.log2_spec h
  have hpos := Mag.real_pos h
  have he := Mag.roundTo_exp x neg (x.log2 - p + 1) rc
  have hr := Mag.roundTo_spec h neg (x.log2 - p + 1) rc
  obtain ⟨n, a1, a2, -, -, a5⟩ := hr
  rw [he] at a5
  have hm : (((x.roundTo neg (x.log2 - p + 1) rc).mant : ℕ) : ℝ) =
      if (x.roundTo neg (x.log2 - p + 1) rc).up then (n : ℝ) + 1 else n := by
    have := congrArg abs a5
    rw [signed_abs neg (by positivity), abs_mul, abs_of_nonneg (a := _ * _) (by split <;> positivity)] at this
    have h1 : |(if signed neg (Mag.real x) < 0 then (-1 : ℝ) else 1)| = 1 := by split <;> simp
    rw [h1, one_mul] at this
    exact mul_right_cancel₀ (two_zpow_pos _).ne' this
  rw [signed_abs neg hpos.le] at a1 a2
  have hk := two_zpow_pos (x.log2 - p + 1)
  have n1 : 2 ^ (p - 1) ≤ n := by
    have : (2 : ℝ) ^ (p - 1) * 2 ^ (x.log2 - p + 1) < (n + 1) * 2 ^ (x.log2 - p + 1) := by
      refine lt_of_le_of_lt ?_ a2
      refine le_trans (le_of_eq ?_) hl.1
      rw [← zpow_natCast, ← zpow_add₀ two_ne_zero]; congr 1; omega
    have := lt_of_mul_lt_mul_right this hk.le
    have : 2 ^ (p - 1) < n + 1 := by exact_mod_cast this
    omega
  have n2 : n < 2 ^ p := by
    have : (n : ℝ) * 2 ^ (x.log2 - p + 1) < 2 ^ p * 2 ^ (x.log2 - p + 1) := by
      refine lt_of_le_of_lt a1 (lt_of_lt_of_le hl.2 (le_of_eq ?_))
      rw [← zpow_natCast, ← zpow_add₀ two_ne_zero]; congr 1; omega
    have := lt_of_mul_lt_mul_right this hk.le
    exact_mod_cast this
  unfold Mag.roundPrec
  refine ⟨?_, ?_, he⟩
  · split at hm
    · have : (x.roundTo neg (x.log2 - p + 1) rc).mant = n + 1 := by exact_mod_cast hm
      omega
    · have : (x.roundTo neg (x.log2 - p + 1) rc).mant = n := by exact_mod_cast hm
      omega
  · split at hm
    · have : (x.roundTo neg (x.log2 - p + 1) rc).mant = n + 1 := by exact_mod_cast hm
      omega
    · have : (x.roundTo neg (x.log2 - p + 1) rc).mant = n := by exact_mod_cast hm
      omega

/-- A rounding moves the leading exponent up by one at most. -/
theorem Mag.roundPrec_leadExp {x : Mag} (h : Mag.ok x) (neg : Bool) {p : Nat} (hp : 1 ≤ p) (rc : Rounding) :
    x.log2 ≤ leadExp (x.roundPrec neg p rc).mant (x.roundPrec neg p rc).exp ∧
      leadExp (x.roundPrec neg p rc).mant (x.roundPrec neg p rc).exp ≤ x.log2 + 1 := by
  obtain ⟨h1, h2, h3⟩ := Mag.roundPrec_mant h neg hp rc
  have h0 : (x.roundPrec neg p rc).mant ≠ 0 := by
    have : 0 < 2 ^ (p - 1) := by positivity
    omega
  have l1 : p - 1 ≤ (x.roundPrec neg p rc).mant.log2 := (Nat.le_log2 h0).2 h1
  have l2 : (x.roundPrec neg p rc).mant.log2 ≤ p := by
    have := (Nat.log2_lt (k := p + 1) h0).2 (by rw [pow_succ]; have : 0 < 2 ^ p := by positivity
                                                omega)
    omega
  unfold leadExp
  rw [h3]
  omega

/-! ### Register values -/

theorem sigOf_lt (x : Ext) : sigOf x < 2 ^ 64 := BitVec.isLt _

theorem expoOf_lt (x : Ext) : expoOf x < 2 ^ 15 := BitVec.isLt _

/-- A finite nonzero value: its significand is not zero and its exponent is bounded (rules R33, R34). -/
theorem valOf_finite {x : Ext} (h : classOf x = .normal ∨ classOf x = .denormal) :
    (valOf x).mant ≠ 0 ∧ (valOf x).mant < 2 ^ 64 ∧ -16445 ≤ (valOf x).exp ∧ (valOf x).exp ≤ 16320 := by
  have hs := sigOf_lt x
  have he := expoOf_lt x
  have hJ : intBit x = true → sigOf x ≠ 0 := by
    intro hj hz
    have h0 : x.extractLsb' 0 64 = 0#64 := BitVec.eq_of_toNat_eq hz
    have := congrArg (fun b => b.getLsbD 63) h0
    simp [intBit] at hj this
    rw [hj] at this
    exact absurd this (by simp)
  have key : sigOf x ≠ 0 ∧ expoOf x ≠ 0x7FFF := by
    unfold classOf at h
    split_ifs at h <;> simp_all
  refine ⟨key.1, hs, ?_, ?_⟩ <;> simp only [valOf] <;> omega

/-- The class of a value that the instructions' front tests let through. -/
theorem class_finite {x : Ext} (h1 : classOf x ≠ .unsupported) (h2 : classOf x ≠ .nan) (h3 : classOf x ≠ .infinity)
    (h4 : classOf x ≠ .zero) : classOf x = .normal ∨ classOf x = .denormal := by
  cases h : classOf x <;> simp_all

theorem dyad_mag_ok {d : Dyad} (h : d.mant ≠ 0) : Mag.ok d.mag := ⟨h, one_ne_zero⟩

theorem dyad_mag_real (d : Dyad) : Mag.real d.mag = d.mant * 2 ^ d.exp := by simp [Dyad.mag, Mag.real]

theorem dyad_mag_log2 {d : Dyad} (h : d.mant ≠ 0) : d.mag.log2 = leadExp d.mant d.exp := by
  have h1 := Mag.log2_spec (dyad_mag_ok h)
  have h2 := leadExp_spec h d.exp
  rw [dyad_mag_real] at h1
  exact exponent_unique h1.1 h1.2 h2.1 h2.2

/-- A delivery of a number of at most 64 bits that is a multiple of `2^-16445` and below `2^16384` is exact: no
overflow, no precision exception (rules R526, R527, R538). -/
theorem calc_deliverExact {i : BitVec 3} (h : i ∈ K) (hu : .ue ∈ F) (neg : Bool) {d : Dyad} (h0 : d.mant ≠ 0)
    (hm : d.mant < 2 ^ 64) (he : -16445 ≤ d.exp) (hl : leadExp d.mant d.exp < 16384) (s : State) :
    Calc [0#3] K F s (s.deliver i neg d.mag 64) := by
  have hok := dyad_mag_ok h0
  have hv : |signed neg (Mag.real d.mag)| = d.mant * 2 ^ d.exp := by
    rw [signed_abs neg (Mag.real_pos hok).le, dyad_mag_real]
  have hr := Mag.roundPrec_spec hok neg 64 (rounding s.cw)
  have hx := correctlyRounded_exact hr hv hm
  have hd := roundedTo_exact (Mag.roundTo_spec hok neg (-16382 - (((64 : Nat) : Int) - 1)) (rounding s.cw)) hv (by omega)
  refine calc_settleIf h (fun e => ?_) (fun _ => hu) s (fun e => ?_)
  · -- an exact rounding keeps the leading exponent
    exfalso
    obtain ⟨m1, m2, m3⟩ := Mag.roundPrec_mant hok neg (p := 64) (by norm_num) (rounding s.cw)
    obtain ⟨l, b1, b2, n, a1, a2, a3, a4, a5⟩ := hr
    have hn : (n : ℝ) * 2 ^ (l - (64 : ℕ) + 1) = |signed neg (Mag.real d.mag)| := by
      by_contra hc
      have := a3.2 hc
      rw [hx] at this
      exact absurd this (by simp)
    have hup : (d.mag.roundPrec neg 64 (rounding s.cw)).up = false := by
      cases hu' : (d.mag.roundPrec neg 64 (rounding s.cw)).up
      · rfl
      · exact absurd hn (a4.1 hu').1
    rw [hup] at a5
    have hy := congrArg abs a5
    rw [signed_abs neg (by positivity), abs_mul] at hy
    have hone : |(if signed neg (Mag.real d.mag) < 0 then (-1 : ℝ) else 1)| = 1 := by split <;> simp
    rw [hone, one_mul] at hy
    simp only [Bool.false_eq_true, if_false] at hy
    rw [abs_of_nonneg (by positivity), hn, hv] at hy
    have hne : (d.mag.roundPrec neg 64 (rounding s.cw)).mant ≠ 0 := by
      have : 0 < 2 ^ (64 - 1) := by norm_num
      omega
    have q1 := leadExp_spec hne (d.mag.roundPrec neg 64 (rounding s.cw)).exp
    have q2 := leadExp_spec h0 d.exp
    rw [hy] at q1
    have := exponent_unique q1.1 q1.2 q2.1 q2.2
    omega
  · rcases e with e | e
    · rw [hx] at e; exact absurd e (by simp)
    · rw [hd] at e; exact absurd e (by simp)

/-! ### FSQRT -/

/-- FSQRT neither overflows nor underflows (rule R307). -/
theorem calc_squareRoot (h : 0#3 ∈ K) (hp : .pe ∈ F) {a : Ext} (h1 : classOf a ≠ .unsupported) (h2 : classOf a ≠ .nan)
    (s : State) : Calc [0#3] K F s (s.squareRoot a) := by
  unfold State.squareRoot
  refine calc_ite (fun _ => calc_withC1 _ s) fun hc => ?_
  rw [not_or] at hc
  obtain ⟨v1, v2, v3, v4⟩ := valOf_finite (class_finite h1 h2 hc.1 hc.2)
  have hok : Mag.ok (.root (valOf a).mant (valOf a).exp) := v1
  have hlog : (valOf a).mant.log2 < 64 := (Nat.log2_lt v1).2 v2
  have hb : -8223 ≤ (Mag.root (valOf a).mant (valOf a).exp).log2 ∧
      (Mag.root (valOf a).mant (valOf a).exp).log2 ≤ 8191 := by
    simp only [Mag.log2]; omega
  split
  · next p hpp =>
    have hp1 : 1 ≤ p := by
      unfold precision at hpp; split_ifs at hpp <;> simp_all <;> omega
    have hl := Mag.roundPrec_leadExp hok false hp1 (rounding s.cw)
    exact calc_settle h (fun e => by omega) (fun e => by omega) hp s
  · exact ((calc_openSt h s).trans (calc_openPE hp _)).trans (calc_openC1 _)

/-! ### FPREM and FPREM1 -/

/-- The difference `|a| - q · 2^k · |b|` as a multiple of a power of two. -/
theorem remainderOf_spec (a b : Dyad) (q : Nat) (k : Int) :
    ((remainderOf a b q k).mant : ℝ) * 2 ^ (remainderOf a b q k).exp =
      |(a.mant : ℝ) * 2 ^ a.exp - q * (b.mant * 2 ^ (b.exp + k))| ∧
    (remainderOf a b q k).exp = min a.exp (b.exp + k) := by
  refine ⟨?_, rfl⟩
  simp only [remainderOf, Dyad.add, Dyad.atExp, Dyad.abs, Bool.false_eq_true, if_false, if_true]
  set e := min a.exp (b.exp + k) with he
  have e1 : (a.mant : ℝ) * 2 ^ a.exp = (a.mant * 2 ^ (a.exp - e).toNat : ℤ) * (2 : ℝ) ^ e := by
    push_cast
    rw [← zpow_natCast, Int.toNat_of_nonneg (by omega), mul_assoc, ← zpow_add₀ two_ne_zero]
    congr 2; ring
  have e2 : (q : ℝ) * (b.mant * 2 ^ (b.exp + k)) = ((q * b.mant : ℕ) * 2 ^ (b.exp + k - e).toNat : ℤ) * (2 : ℝ) ^ e := by
    push_cast
    rw [← zpow_natCast, Int.toNat_of_nonneg (by omega), mul_assoc, mul_assoc, ← zpow_add₀ two_ne_zero]
    congr 3; ring
  rw [e1, e2, ← sub_mul, abs_mul, abs_of_pos (two_zpow_pos e)]
  congr 1
  rw [Nat.cast_natAbs]
  push_cast
  rw [← sub_eq_add_neg]

/-- A remainder that is below the divisor and not above the dividend has at most 64 bits (rule R303). -/
theorem remainderOf_bound {a b : Dyad} {q : Nat} {k : Int} (ha : a.mant < 2 ^ 64) (hb : b.mant < 2 ^ 64)
    (h1 : |(a.mant : ℝ) * 2 ^ a.exp - q * (b.mant * 2 ^ (b.exp + k))| ≤ a.mant * 2 ^ a.exp)
    (h2 : |(a.mant : ℝ) * 2 ^ a.exp - q * (b.mant * 2 ^ (b.exp + k))| ≤ b.mant * 2 ^ (b.exp + k)) :
    (remainderOf a b q k).mant < 2 ^ 64 := by
  obtain ⟨hr, he⟩ := remainderOf_spec a b q k
  rw [← hr] at h1 h2
  rcases le_total a.exp (b.exp + k) with hc | hc
  · rw [he, min_eq_left hc] at h1
    have := le_of_mul_le_mul_right h1 (two_zpow_pos _)
    have : (remainderOf a b q k).mant ≤ a.mant := by exact_mod_cast this
    omega
  · rw [he, min_eq_right hc] at h2
    have := le_of_mul_le_mul_right h2 (two_zpow_pos _)
    have : (remainderOf a b q k).mant ≤ b.mant := by exact_mod_cast this
    omega

/-- The truncated quotient leaves a remainder from 0 up to the divisor. -/
theorem floor_remainder {a b q : ℝ} (hb : 0 < b) (h1 : q ≤ a / b) (h2 : a / b < q + 1) :
    0 ≤ a - q * b ∧ a - q * b < b := by
  rw [le_div_iff₀ hb] at h1
  rw [div_lt_iff₀ hb] at h2
  constructor <;> nlinarith

theorem ratio_real_sub (m n : Nat) (e f k : ℤ) (hn : n ≠ 0) :
    Mag.real (.ratio m n (e - f - k)) = (m * 2 ^ e : ℝ) / (n * 2 ^ (f + k)) := by
  have : (n : ℝ) ≠ 0 := by exact_mod_cast hn
  have h2 : (2 : ℝ) ^ (f + k) ≠ 0 := (two_zpow_pos _).ne'
  rw [Mag.real, show e - f - k = e - (f + k) by ring, zpow_sub₀ two_ne_zero]
  field_simp

/-- The quotient to nearest leaves a remainder of at most half the divisor. -/
theorem nearest_remainder {a b : ℝ} {q : ℕ} {y : ℝ} {i u : Bool} (ha : 0 < a) (hb : 0 < b)
    (h : RoundedTo 0 .nearest (a / b) y i u) (hy : y = q) : |a - q * b| ≤ b / 2 := by
  obtain ⟨n, a1, a2, a3, a4, a5⟩ := h
  have hp : 0 < a / b := div_pos ha hb
  rw [abs_of_pos hp] at a1 a2 a3 a4
  rw [if_neg (not_lt.2 hp.le)] at a5
  simp only [zpow_zero, mul_one, one_mul] at a1 a2 a3 a4 a5
  have hab : a = a / b * b := by field_simp
  rw [hab, ← sub_mul, abs_mul, abs_of_pos hb]
  suffices |a / b - q| ≤ 1 / 2 by nlinarith
  rw [← hy, a5]
  cases u with
  | true =>
    obtain ⟨-, hu⟩ := a4.1 rfl
    simp only [if_true]
    rw [abs_le]
    rcases hu with hu | ⟨hu, -⟩ <;> constructor <;> linarith
  | false =>
    simp only [Bool.false_eq_true, if_false]
    rw [abs_le]
    refine ⟨by linarith, ?_⟩
    by_contra hc
    rw [not_le] at hc
    have := a4.2 ⟨fun e => by rw [e] at hc; linarith, .inl (by linarith)⟩
    exact absurd this (by simp)

/-- The remainder of a complete reduction has at most 64 bits, is not above the dividend, and is below the divisor or
at most half of it (rules R303, R304). -/
theorem complete_remainder (nearest : Bool) {a b : Dyad} (ha0 : a.mant ≠ 0) (hb0 : b.mant ≠ 0) :
    |(a.mant : ℝ) * 2 ^ a.exp - premQuotient nearest a b * (b.mant * 2 ^ (b.exp + 0))| ≤ a.mant * 2 ^ a.exp ∧
    |(a.mant : ℝ) * 2 ^ a.exp - premQuotient nearest a b * (b.mant * 2 ^ (b.exp + 0))| ≤ b.mant * 2 ^ (b.exp + 0) := by
  have hA : (0 : ℝ) < a.mant * 2 ^ a.exp := by
    have : (0 : ℝ) < a.mant := by exact_mod_cast Nat.pos_of_ne_zero ha0
    positivity
  have hB : (0 : ℝ) < b.mant * 2 ^ (b.exp + 0) := by
    have : (0 : ℝ) < b.mant := by exact_mod_cast Nat.pos_of_ne_zero hb0
    positivity
  have hok : Mag.ok (.ratio a.mant b.mant (a.exp - b.exp)) := ⟨ha0, hb0⟩
  have hre : Mag.real (.ratio a.mant b.mant (a.exp - b.exp)) = (a.mant * 2 ^ a.exp : ℝ) / (b.mant * 2 ^ (b.exp + 0)) := by
    have := ratio_real_sub a.mant b.mant a.exp b.exp 0 hb0
    simpa using this
  cases nearest with
  | false =>
    have hf := Mag.floorAt_spec hok 0
    rw [hre, zpow_zero, mul_one, mul_one] at hf
    obtain ⟨r1, r2⟩ := floor_remainder hB hf.1 hf.2
    simp only [premQuotient, Bool.false_eq_true, if_false]
    rw [abs_of_nonneg r1]
    refine ⟨?_, r2.le⟩
    have : (0 : ℝ) ≤ ((Mag.ratio a.mant b.mant (a.exp - b.exp)).floorAt 0 : ℝ) * (b.mant * 2 ^ (b.exp + 0)) := by positivity
    linarith
  | true =>
    have hr := Mag.roundTo_spec hok false 0 .nearest
    rw [hre] at hr
    simp only [signed, Bool.false_eq_true, if_false, Mag.roundTo_exp, zpow_zero, mul_one] at hr
    have hn := nearest_remainder hA hB hr rfl
    simp only [premQuotient, if_true]
    refine ⟨?_, by linarith⟩
    generalize hq : (Mag.roundTo (Mag.ratio a.mant b.mant (a.exp - b.exp)) false 0 Rounding.nearest).mant = q at hn
    generalize (a.mant : ℝ) * 2 ^ a.exp = A at hn hA
    generalize (b.mant : ℝ) * 2 ^ (b.exp + 0) = B at hn hB
    rcases Nat.eq_zero_or_pos q with rfl | hq1
    · simp [abs_of_pos hA]
    · have hq2 : (1 : ℝ) ≤ q := by exact_mod_cast hq1
      rw [abs_le] at hn ⊢
      constructor <;> nlinarith

theorem incomplete_remainder {a b : Dyad} (ha0 : a.mant ≠ 0) (hb0 : b.mant ≠ 0) (k : ℤ) :
    |(a.mant : ℝ) * 2 ^ a.exp - (Mag.ratio a.mant b.mant (a.exp - b.exp - k)).floorAt 0 * (b.mant * 2 ^ (b.exp + k))| ≤
        a.mant * 2 ^ a.exp ∧
    |(a.mant : ℝ) * 2 ^ a.exp - (Mag.ratio a.mant b.mant (a.exp - b.exp - k)).floorAt 0 * (b.mant * 2 ^ (b.exp + k))| ≤
        b.mant * 2 ^ (b.exp + k) := by
  have hB : (0 : ℝ) < b.mant * 2 ^ (b.exp + k) := by
    have : (0 : ℝ) < b.mant := by exact_mod_cast Nat.pos_of_ne_zero hb0
    positivity
  have hf := Mag.floorAt_spec (x := .ratio a.mant b.mant (a.exp - b.exp - k)) ⟨ha0, hb0⟩ 0
  rw [ratio_real_sub _ _ _ _ _ hb0, zpow_zero, mul_one, mul_one] at hf
  obtain ⟨r1, r2⟩ := floor_remainder hB hf.1 hf.2
  rw [abs_of_nonneg r1]
  refine ⟨?_, r2.le⟩
  have : (0 : ℝ) ≤ ((Mag.ratio a.mant b.mant (a.exp - b.exp - k)).floorAt 0 : ℝ) * (b.mant * 2 ^ (b.exp + k)) := by
    positivity
  linarith

theorem calc_deliverRemainder (h : 0#3 ∈ K) (hu : .ue ∈ F) (a : Ext) {x y : Dyad} {q : Nat} {k : ℤ}
    (hx : x.mant < 2 ^ 64 ∧ -16445 ≤ x.exp ∧ x.exp ≤ 16320) (hy : y.mant < 2 ^ 64 ∧ -16445 ≤ y.exp + k)
    (h1 : |(x.mant : ℝ) * 2 ^ x.exp - q * (y.mant * 2 ^ (y.exp + k))| ≤ x.mant * 2 ^ x.exp)
    (h2 : |(x.mant : ℝ) * 2 ^ x.exp - q * (y.mant * 2 ^ (y.exp + k))| ≤ y.mant * 2 ^ (y.exp + k)) (s : State) :
    Calc [0#3] K F s (s.deliverRemainder a (remainderOf x y q k)) := by
  unfold State.deliverRemainder
  refine calc_ite (fun _ => calc_setSt h _ s) fun h0 => ?_
  obtain ⟨hr, he⟩ := remainderOf_spec x y q k
  refine calc_deliverExact h hu _ h0 (remainderOf_bound hx.1 hy.1 h1 h2) (by rw [he]; omega) ?_ s
  have hl := leadExp_spec h0 (remainderOf x y q k).exp
  rw [hr] at hl
  have hX : (x.mant : ℝ) * 2 ^ x.exp < 2 ^ (16384 : ℤ) := by
    have hm : (x.mant : ℝ) < 2 ^ (64 : ℤ) := by exact_mod_cast hx.1
    calc (x.mant : ℝ) * 2 ^ x.exp < 2 ^ (64 : ℤ) * 2 ^ x.exp := mul_lt_mul_of_pos_right hm (two_zpow_pos _)
      _ = 2 ^ (64 + x.exp) := by rw [← zpow_add₀ two_ne_zero]
      _ ≤ 2 ^ (16384 : ℤ) := zpow_le_zpow_right₀ (by norm_num) (by omega)
  exact (zpow_lt_zpow_iff_right₀ (by norm_num : (1 : ℝ) < 2)).1 (lt_of_le_of_lt hl.1 (lt_of_le_of_lt h1 hX))

/-- FPREM and FPREM1 never set OE, ZE or PE (rules R303, R527). -/
theorem calc_prem (nearest : Bool) (h : 0#3 ∈ K) (hie : .ie ∈ F) (hsf : .sf ∈ F) (hde : .de ∈ F) (hu : .ue ∈ F)
    (s : State) : Calc [0#3] K F s (s.prem nearest) := by
  have h0 : (0#3) ∈ [0#3] := by simp
  unfold State.prem; dsimp only
  refine calc_ite (fun _ => ?_) fun _ => calc_ite (fun _ => ?_) fun c2 => calc_ite (fun _ => ?_) fun c3 =>
    calc_ite (fun _ => ?_) fun c4 => ?_
  · exact calc_raiseStack hie hsf h0 false (fun t => calc_setSt h _ t) s
  · exact calc_raiseInvalid hie h0 (fun t => calc_setSt h _ t) s
  · exact calc_nanTwo hie h0 _ _ (fun v t => calc_setSt h v t) s
  · exact calc_raiseInvalid hie h0 (fun t => calc_setSt h _ t) s
  · refine calc_denormalTest hde h0 _ (fun t => ?_) s
    rw [not_or] at c2 c3 c4
    refine calc_ite (fun _ => ?_) fun c5 => ?_
    · exact (((calc_withC0 _ t).trans (calc_withC1 _ _)).trans (calc_withC2 _ _)).trans (calc_withC3 _ _)
    have fa := valOf_finite (class_finite c2.1 c3.1 c4.1 c5)
    refine calc_ite (fun _ => ?_) fun c6 => ?_
    · refine (((calc_withC0 false t).trans (calc_withC2 false _)).trans (calc_withC3 false _)).trans ?_
      have hlog : (valOf (s.st 0#3)).mant.log2 < 64 := (Nat.log2_lt fa.1).2 fa.2.1
      exact calc_deliverExact h hu _ fa.1 fa.2.1 fa.2.2.1 (by unfold leadExp; omega) _
    have fb := valOf_finite (class_finite c2.2 c3.2 c6 c4.2)
    unfold State.reduce; dsimp only
    refine calc_ite (fun _ => ?_) fun c7 => ?_
    · have hr := complete_remainder nearest fa.1 fb.1
      exact ((((calc_deliverRemainder h hu _ fa.2 ⟨fb.2.1, by omega⟩ hr.1 hr.2 t).trans (calc_withC2 _ _)).trans
        (calc_withC0 _ _)).trans (calc_withC3 _ _)).trans (calc_withC1 _ _)
    · have hr := incomplete_remainder fa.1 fb.1 (leadExp (valOf (s.st 0#3)).mant (valOf (s.st 0#3)).exp -
        leadExp (valOf (s.st 1#3)).mant (valOf (s.st 1#3)).exp - (32 + (Config.premStep (leadExp (valOf (s.st 0#3)).mant
          (valOf (s.st 0#3)).exp - leadExp (valOf (s.st 1#3)).mant (valOf (s.st 1#3)).exp).toNat).toNat))
      have hstep := (Config.premStep (leadExp (valOf (s.st 0#3)).mant
          (valOf (s.st 0#3)).exp - leadExp (valOf (s.st 1#3)).mant (valOf (s.st 1#3)).exp).toNat).isLt
      refine (((((calc_deliverRemainder h hu _ fa.2 ⟨fb.2.1, ?_⟩ hr.1 hr.2 t).trans (calc_withC2 _ _)).trans
        (calc_openC0 _)).trans (calc_openC1 _)).trans (calc_openC3 _))
      have := fb.2.2.1
      omega

end Sys2Proof.Laws
end

