-- ==== Sys2Proof/Laws/Memory.lean ====
section
/-! SUPPORT. Memory: a read gives the last write, a write leaves other places alone, every operation keeps the
canonical form, and canonical memories that read alike are equal. -/

namespace Sys2Proof.Laws

open Sys2Proof.Machine

theorem read_of_lt {m : List Host.Cell} {a : Nat} (h : ∀ c ∈ m, a < c.1) : Memory.read m a = blank := by
  induction m with
  | nil => rfl
  | cons c m ih =>
    have hc := h c (by simp)
    simp only [Memory.read]
    rw [if_neg (by omega), ih fun d hd => h d (by simp [hd])]

theorem mem_write {m : List Host.Cell} {a : Nat} {b : Byte} {c : Host.Cell} (h : c ∈ Memory.write m a b) :
    c ∈ m ∨ (c = (a, b) ∧ b ≠ blank) := by
  induction m with
  | nil => simp only [Memory.write] at h; split at h <;> simp_all
  | cons d m ih =>
    simp only [Memory.write] at h
    split_ifs at h with h1 h2 h3 h4
    all_goals
      simp only [List.mem_cons] at h ⊢
      try rcases h with h | h
      all_goals tauto

theorem wf_write {m : List Host.Cell} (h : Memory.wf m) (a : Nat) (b : Byte) : Memory.wf (Memory.write m a b) := by
  refine ⟨?_, fun c hc => ?_⟩
  · have hp := h.1
    clear h
    induction m with
    | nil => simp only [Memory.write]; split <;> simp
    | cons d m ih =>
      rw [List.pairwise_cons] at hp
      simp only [Memory.write]
      split_ifs with h1 h2 h3 h4
      · exact List.pairwise_cons.2 hp
      · refine List.pairwise_cons.2 ⟨fun c hc => ?_, List.pairwise_cons.2 hp⟩
        rcases List.mem_cons.1 hc with rfl | hc
        · exact h1
        · exact lt_trans h1 (hp.1 c hc)
      · exact hp.2
      · exact List.pairwise_cons.2 ⟨fun c hc => h3 ▸ hp.1 c hc, hp.2⟩
      · refine List.pairwise_cons.2 ⟨fun c hc => ?_, ih hp.2⟩
        rcases mem_write hc with hc | ⟨rfl, -⟩
        · exact hp.1 c hc
        · simp only; omega
  · rcases mem_write hc with hc | ⟨rfl, hb⟩
    · exact h.2 c hc
    · exact hb

/-- A read after a write of one byte. -/
theorem read_write {m : List Host.Cell} (h : Memory.wf m) (a x : Nat) (b : Byte) :
    Memory.read (Memory.write m a b) x = if x = a then b else Memory.read m x := by
  have hp := h.1
  clear h
  induction m with
  | nil => simp only [Memory.write]; split_ifs <;> simp_all [Memory.read, eq_comm]
  | cons d m ih =>
    rw [List.pairwise_cons] at hp
    simp only [Memory.write]
    split_ifs with h1 h2 h3 h4 h5 h6 h7 h8
    all_goals first
      | (subst_vars
         rw [read_of_lt]
         intro c hc
         rcases List.mem_cons.1 hc with rfl | hc
         · exact h1
         · exact lt_trans h1 (hp.1 c hc))
      | rfl
      | (subst_vars; simp [Memory.read]; done)
      | (subst_vars; rw [read_of_lt (fun c hc => hp.1 c hc)])
      | (subst_vars; simp only [Memory.read]; rw [if_neg (by omega)]; done)
      | (subst_vars; simp only [Memory.read]; split_ifs <;> first | rfl | omega)
      | (simp only [Memory.read]; rw [ih hp.2]; split_ifs <;> first | rfl | omega)

theorem wf_writeBytes {m : List Host.Cell} (h : Memory.wf m) (a : Nat) (bs : List Byte) :
    Memory.wf (Memory.writeBytes m a bs) := by
  induction bs generalizing m a with
  | nil => exact h
  | cons b bs ih => exact ih (wf_write h a b) (a + 1)

theorem mem_writeBytes {m : List Host.Cell} {a : Nat} {bs : List Byte} {c : Host.Cell}
    (h : c ∈ Memory.writeBytes m a bs) : c ∈ m ∨ (a ≤ c.1 ∧ c.1 < a + bs.length) := by
  induction bs generalizing m a with
  | nil => exact .inl h
  | cons b bs ih =>
    rcases ih h with h | ⟨h1, h2⟩
    · rcases mem_write h with h | ⟨rfl, -⟩
      · exact .inl h
      · exact .inr (by simp)
    · exact .inr ⟨by omega, by simp only [List.length_cons]; omega⟩

/-- A read after a write of bytes: the byte written, or what was there. -/
theorem read_writeBytes {m : List Host.Cell} (h : Memory.wf m) (a x : Nat) (bs : List Byte) :
    Memory.read (Memory.writeBytes m a bs) x =
      if a ≤ x ∧ x < a + bs.length then bs.getD (x - a) 0#8 else Memory.read m x := by
  induction bs generalizing m a with
  | nil => rw [if_neg (by simp only [List.length_nil]; omega)]; rfl
  | cons b bs ih =>
    rw [Memory.writeBytes, ih (wf_write h a b), read_write h]
    simp only [List.length_cons]
    by_cases hx : x = a
    · subst hx; rw [if_neg (by omega), if_pos rfl, if_pos (by omega)]; simp
    · rw [if_neg hx]
      by_cases hy : a ≤ x ∧ x < a + (bs.length + 1)
      · rw [if_pos (by omega), if_pos hy]
        obtain ⟨n, hn⟩ : ∃ n, x - a = n + 1 := ⟨x - a - 1, by omega⟩
        rw [hn, show x - (a + 1) = n by omega]; simp
      · rw [if_neg (by omega), if_neg hy]

/-- A write leaves every place outside it alone. -/
theorem read_writeBytes_outside {m : List Host.Cell} (h : Memory.wf m) {a x : Nat} {bs : List Byte}
    (hx : x < a ∨ a + bs.length ≤ x) : Memory.read (Memory.writeBytes m a bs) x = Memory.read m x := by
  rw [read_writeBytes h, if_neg (by omega)]

/-- What was written is read back. -/
theorem readBytes_writeBytes {m : List Host.Cell} (h : Memory.wf m) (a : Nat) (bs : List Byte) :
    Memory.readBytes (Memory.writeBytes m a bs) a bs.length = bs := by
  induction bs generalizing m a with
  | nil => rfl
  | cons b bs ih =>
    rw [List.length_cons, Memory.readBytes, Memory.writeBytes, ih (wf_write h a b),
      read_writeBytes_outside (wf_write h a b) (.inl (by omega)), read_write h, if_pos rfl]

@[simp] theorem length_readBytes (m : List Host.Cell) (a n : Nat) : (Memory.readBytes m a n).length = n := by
  induction n generalizing a with
  | zero => rfl
  | succ n ih => simp [Memory.readBytes, ih]

@[simp] theorem length_bytesAt (s : State) (a : Addr) (n : Nat) : (s.bytesAt a n).length = n := length_readBytes _ _ _

/-- Memories in canonical form that read alike are equal data. -/
theorem memory_ext {m m' : List Host.Cell} (h : Memory.wf m) (h' : Memory.wf m')
    (heq : ∀ a, Memory.read m a = Memory.read m' a) : m = m' := by
  induction m generalizing m' with
  | nil =>
    cases m' with
    | nil => rfl
    | cons d m' =>
      have := heq d.1
      simp only [Memory.read, if_true] at this
      exact absurd this.symm (h'.2 d (by simp))
  | cons c m ih =>
    have hc := h.2 c (by simp)
    cases m' with
    | nil =>
      have := heq c.1
      simp only [Memory.read, if_true] at this
      exact absurd this hc
    | cons d m' =>
      have hd := h'.2 d (by simp)
      have hp := List.pairwise_cons.1 h.1
      have hp' := List.pairwise_cons.1 h'.1
      have hcd : c.1 = d.1 := by
        rcases lt_trichotomy c.1 d.1 with hlt | heq' | hgt
        · have := heq c.1
          rw [read_of_lt (m := d :: m') (a := c.1)] at this
          · simp only [Memory.read, if_true] at this; exact absurd this hc
          · intro e he
            rcases List.mem_cons.1 he with rfl | he
            · exact hlt
            · exact lt_trans hlt (hp'.1 e he)
        · exact heq'
        · have := heq d.1
          rw [read_of_lt (m := c :: m) (a := d.1)] at this
          · simp only [Memory.read, if_true] at this; exact absurd this.symm hd
          · intro e he
            rcases List.mem_cons.1 he with rfl | he
            · exact hgt
            · exact lt_trans hgt (hp.1 e he)
      have hv : c.2 = d.2 := by
        have := heq c.1
        simpa [Memory.read, hcd] using this
      have htail : m = m' := by
        refine ih ⟨hp.2, fun e he => h.2 e (by simp [he])⟩ ⟨hp'.2, fun e he => h'.2 e (by simp [he])⟩ fun a => ?_
        by_cases ha : c.1 < a
        · have := heq a
          simp only [Memory.read] at this
          rwa [if_neg (by omega), if_neg (by omega)] at this
        · rw [read_of_lt fun e he => by have := hp.1 e he; omega,
            read_of_lt fun e he => by have := hp'.1 e he; omega]
      rw [htail, Prod.ext hcd hv]

/-- The noted addresses stay strictly rising. -/
theorem mem_addAddr {xs : List Nat} {a x : Nat} : x ∈ addAddr xs a ↔ x ∈ xs ∨ x = a := by
  induction xs with
  | nil => simp [addAddr]
  | cons y ys ih => simp only [addAddr]; split_ifs <;> simp_all <;> tauto

theorem sorted_addAddr {xs : List Nat} (h : xs.Pairwise (· < ·)) (a : Nat) : (addAddr xs a).Pairwise (· < ·) := by
  induction xs with
  | nil => simp [addAddr]
  | cons y ys ih =>
    rw [List.pairwise_cons] at h
    simp only [addAddr]
    split_ifs with h1 h2
    · refine List.pairwise_cons.2 ⟨fun x hx => ?_, List.pairwise_cons.2 h⟩
      rcases List.mem_cons.1 hx with rfl | hx
      · exact h1
      · exact lt_trans h1 (h.1 x hx)
    · exact List.pairwise_cons.2 h
    · refine List.pairwise_cons.2 ⟨fun x hx => ?_, ih h.2⟩
      rcases mem_addAddr.1 hx with hx | rfl
      · exact h.1 x hx
      · omega

theorem sorted_addAddrs {xs : List Nat} (h : xs.Pairwise (· < ·)) (a n : Nat) :
    (addAddrs xs a n).Pairwise (· < ·) := by
  induction n generalizing xs a with
  | zero => exact h
  | succ n ih => exact ih (sorted_addAddr h a) (a + 1)

theorem mem_addAddrs {xs : List Nat} {a n x : Nat} : x ∈ addAddrs xs a n ↔ x ∈ xs ∨ (a ≤ x ∧ x < a + n) := by
  induction n generalizing xs a with
  | zero => simp only [addAddrs, Nat.add_zero]; exact ⟨.inl, fun h => h.resolve_right (by omega)⟩
  | succ n ih =>
    simp only [addAddrs]
    rw [ih, mem_addAddr]
    constructor
    · rintro ((h | rfl) | h)
      · exact .inl h
      · exact .inr (by omega)
      · exact .inr (by omega)
    · rintro (h | h)
      · exact .inl (.inl h)
      · by_cases hx : x = a
        · exact .inl (.inr hx)
        · exact .inr (by omega)

/-- Bytes that are all there lie inside the address space (rule R90). -/
theorem hasBytes_limit {p : Params} {a n x : Nat} (h : hasBytes p a n = true) (hx : a ≤ x ∧ x < a + n) :
    x < p.addrLimit := by
  induction n generalizing a with
  | zero => omega
  | succ n ih =>
    simp only [hasBytes, Bool.and_eq_true] at h
    by_cases hxa : x = a
    · subst hxa
      have := h.1
      simp only [hasByte, Bool.and_eq_true, decide_eq_true_eq] at this
      exact this.1
    · exact ih h.2 (by omega)

/-- A store leaves every byte outside it alone. -/
theorem byteAt_store {s : State} (h : Memory.wf s.mem) (a : Addr) (bs : List Byte) (x : Nat) :
    (s.store a bs).byteAt x =
      if a.toNat ≤ x ∧ x < a.toNat + bs.length then bs.getD (x - a.toNat) 0#8 else s.byteAt x :=
  read_writeBytes h a.toNat x bs

/-- A store is read back. -/
theorem bytesAt_store {s : State} (h : Memory.wf s.mem) (a : Addr) (bs : List Byte) :
    (s.store a bs).bytesAt a bs.length = bs := readBytes_writeBytes h a.toNat bs

/-- Bytes laid out least significant first read back (rule R91). -/
@[simp] theorem length_leBytes (n v : Nat) : (leBytes n v).length = n := by
  induction n generalizing v with
  | zero => rfl
  | succ n ih => simp [leBytes, ih]

theorem leNat_leBytes (n v : Nat) : leNat (leBytes n v) = v % 256 ^ n := by
  induction n generalizing v with
  | zero => simp [leBytes, leNat, Nat.mod_one]
  | succ n ih =>
    simp only [leBytes, leNat, ih, BitVec.toNat_ofNat]
    rw [show (256 : Nat) ^ (n + 1) = 256 * 256 ^ n by ring, Nat.mod_mul]

theorem leNat_lt (bs : List Byte) : leNat bs < 256 ^ bs.length := by
  induction bs with
  | nil => simp [leNat]
  | cons b bs ih =>
    have := b.isLt
    simp only [leNat, List.length_cons, pow_succ]
    omega

theorem leBytes_leNat (bs : List Byte) : leBytes bs.length (leNat bs) = bs := by
  induction bs with
  | nil => rfl
  | cons b bs ih =>
    have := b.isLt
    simp only [List.length_cons, leBytes, leNat]
    rw [show (b.toNat + 256 * leNat bs) / 256 = leNat bs by omega, ih]
    congr 1
    apply BitVec.eq_of_toNat_eq
    simp only [BitVec.toNat_ofNat]
    omega

end Sys2Proof.Laws
end

