-- ==== Sys2Proof/Laws/PerInstr.lean ====
section
/-! SUPPORT. A law of every instruction, one lemma per constructor: the decoding tables undo the encoding table. -/

namespace Sys2Proof.Laws.Tables

/-- The row a form stands for, by the decoding tables. -/
def row (f : Form) : Option Instr :=
  match f.core with
  | none => some .fwait
  | some c =>
    let base := match c with
      | .reg ooo g r => decodeReg ooo g r
      | .mem ooo d a => decodeMem ooo d a
    let sized := if f.o66 then base.bind Instr.sizedForm else base
    if f.wait then sized.bind Instr.waitForm else sized

/-- The form of an instruction stands for that instruction, so no two rows share an encoding (rules R136 to
R146). -/
def Statement (i : Instr) : Prop := row i.form = some i

theorem faddM32 (addr : Addr) : Statement (.faddM32 addr) := rfl
theorem faddM64 (addr : Addr) : Statement (.faddM64 addr) := rfl
theorem faddSt0 (i : BitVec 3) : Statement (.faddSt0 i) := rfl
theorem faddSti (i : BitVec 3) : Statement (.faddSti i) := rfl
theorem faddp (i : BitVec 3) : Statement (.faddp i) := rfl
theorem fiaddM16 (addr : Addr) : Statement (.fiaddM16 addr) := rfl
theorem fiaddM32 (addr : Addr) : Statement (.fiaddM32 addr) := rfl
theorem fdivM32 (addr : Addr) : Statement (.fdivM32 addr) := rfl
theorem fdivM64 (addr : Addr) : Statement (.fdivM64 addr) := rfl
theorem fdivSt0 (i : BitVec 3) : Statement (.fdivSt0 i) := rfl
theorem fdivSti (i : BitVec 3) : Statement (.fdivSti i) := rfl
theorem fdivp (i : BitVec 3) : Statement (.fdivp i) := rfl
theorem fidivM16 (addr : Addr) : Statement (.fidivM16 addr) := rfl
theorem fidivM32 (addr : Addr) : Statement (.fidivM32 addr) := rfl
theorem fdivrM32 (addr : Addr) : Statement (.fdivrM32 addr) := rfl
theorem fdivrM64 (addr : Addr) : Statement (.fdivrM64 addr) := rfl
theorem fdivrSt0 (i : BitVec 3) : Statement (.fdivrSt0 i) := rfl
theorem fdivrSti (i : BitVec 3) : Statement (.fdivrSti i) := rfl
theorem fdivrp (i : BitVec 3) : Statement (.fdivrp i) := rfl
theorem fidivrM16 (addr : Addr) : Statement (.fidivrM16 addr) := rfl
theorem fidivrM32 (addr : Addr) : Statement (.fidivrM32 addr) := rfl
theorem fmulM32 (addr : Addr) : Statement (.fmulM32 addr) := rfl
theorem fmulM64 (addr : Addr) : Statement (.fmulM64 addr) := rfl
theorem fmulSt0 (i : BitVec 3) : Statement (.fmulSt0 i) := rfl
theorem fmulSti (i : BitVec 3) : Statement (.fmulSti i) := rfl
theorem fmulp (i : BitVec 3) : Statement (.fmulp i) := rfl
theorem fimulM16 (addr : Addr) : Statement (.fimulM16 addr) := rfl
theorem fimulM32 (addr : Addr) : Statement (.fimulM32 addr) := rfl
theorem fsubM32 (addr : Addr) : Statement (.fsubM32 addr) := rfl
theorem fsubM64 (addr : Addr) : Statement (.fsubM64 addr) := rfl
theorem fsubSt0 (i : BitVec 3) : Statement (.fsubSt0 i) := rfl
theorem fsubSti (i : BitVec 3) : Statement (.fsubSti i) := rfl
theorem fsubp (i : BitVec 3) : Statement (.fsubp i) := rfl
theorem fisubM16 (addr : Addr) : Statement (.fisubM16 addr) := rfl
theorem fisubM32 (addr : Addr) : Statement (.fisubM32 addr) := rfl
theorem fsubrM32 (addr : Addr) : Statement (.fsubrM32 addr) := rfl
theorem fsubrM64 (addr : Addr) : Statement (.fsubrM64 addr) := rfl
theorem fsubrSt0 (i : BitVec 3) : Statement (.fsubrSt0 i) := rfl
theorem fsubrSti (i : BitVec 3) : Statement (.fsubrSti i) := rfl
theorem fsubrp (i : BitVec 3) : Statement (.fsubrp i) := rfl
theorem fisubrM16 (addr : Addr) : Statement (.fisubrM16 addr) := rfl
theorem fisubrM32 (addr : Addr) : Statement (.fisubrM32 addr) := rfl
theorem f2xm1 : Statement .f2xm1 := rfl
theorem fcos : Statement .fcos := rfl
theorem fpatan : Statement .fpatan := rfl
theorem fptan : Statement .fptan := rfl
theorem fsin : Statement .fsin := rfl
theorem fsincos : Statement .fsincos := rfl
theorem fyl2x : Statement .fyl2x := rfl
theorem fyl2xp1 : Statement .fyl2xp1 := rfl
theorem fabs : Statement .fabs := rfl
theorem fchs : Statement .fchs := rfl
theorem fprem : Statement .fprem := rfl
theorem fprem1 : Statement .fprem1 := rfl
theorem frndint : Statement .frndint := rfl
theorem fscale : Statement .fscale := rfl
theorem fsqrt : Statement .fsqrt := rfl
theorem fxtract : Statement .fxtract := rfl
theorem fbld (addr : Addr) : Statement (.fbld addr) := rfl
theorem fbstp (addr : Addr) : Statement (.fbstp addr) := rfl
theorem fcmovb (i : BitVec 3) : Statement (.fcmovb i) := rfl
theorem fcmove (i : BitVec 3) : Statement (.fcmove i) := rfl
theorem fcmovbe (i : BitVec 3) : Statement (.fcmovbe i) := rfl
theorem fcmovu (i : BitVec 3) : Statement (.fcmovu i) := rfl
theorem fcmovnb (i : BitVec 3) : Statement (.fcmovnb i) := rfl
theorem fcmovne (i : BitVec 3) : Statement (.fcmovne i) := rfl
theorem fcmovnbe (i : BitVec 3) : Statement (.fcmovnbe i) := rfl
theorem fcmovnu (i : BitVec 3) : Statement (.fcmovnu i) := rfl
theorem fildM16 (addr : Addr) : Statement (.fildM16 addr) := rfl
theorem fildM32 (addr : Addr) : Statement (.fildM32 addr) := rfl
theorem fildM64 (addr : Addr) : Statement (.fildM64 addr) := rfl
theorem fistM16 (addr : Addr) : Statement (.fistM16 addr) := rfl
theorem fistM32 (addr : Addr) : Statement (.fistM32 addr) := rfl
theorem fistpM16 (addr : Addr) : Statement (.fistpM16 addr) := rfl
theorem fistpM32 (addr : Addr) : Statement (.fistpM32 addr) := rfl
theorem fistpM64 (addr : Addr) : Statement (.fistpM64 addr) := rfl
theorem fldM32 (addr : Addr) : Statement (.fldM32 addr) := rfl
theorem fldM64 (addr : Addr) : Statement (.fldM64 addr) := rfl
theorem fldM80 (addr : Addr) : Statement (.fldM80 addr) := rfl
theorem fldSt (i : BitVec 3) : Statement (.fldSt i) := rfl
theorem fld1 : Statement .fld1 := rfl
theorem fldl2t : Statement .fldl2t := rfl
theorem fldl2e : Statement .fldl2e := rfl
theorem fldpi : Statement .fldpi := rfl
theorem fldlg2 : Statement .fldlg2 := rfl
theorem fldln2 : Statement .fldln2 := rfl
theorem fldz : Statement .fldz := rfl
theorem fstM32 (addr : Addr) : Statement (.fstM32 addr) := rfl
theorem fstM64 (addr : Addr) : Statement (.fstM64 addr) := rfl
theorem fstSt (i : BitVec 3) : Statement (.fstSt i) := rfl
theorem fstpM32 (addr : Addr) : Statement (.fstpM32 addr) := rfl
theorem fstpM64 (addr : Addr) : Statement (.fstpM64 addr) := rfl
theorem fstpM80 (addr : Addr) : Statement (.fstpM80 addr) := rfl
theorem fstpSt (i : BitVec 3) : Statement (.fstpSt i) := rfl
theorem fxch (i : BitVec 3) : Statement (.fxch i) := rfl
theorem fnclex : Statement .fnclex := rfl
theorem fdecstp : Statement .fdecstp := rfl
theorem fndisi : Statement .fndisi := rfl
theorem fneni : Statement .fneni := rfl
theorem ffree (i : BitVec 3) : Statement (.ffree i) := rfl
theorem fincstp : Statement .fincstp := rfl
theorem fninit : Statement .fninit := rfl
theorem fldcw (addr : Addr) : Statement (.fldcw addr) := rfl
theorem fldenv (addr : Addr) : Statement (.fldenv addr) := rfl
theorem fnop : Statement .fnop := rfl
theorem frstor (addr : Addr) : Statement (.frstor addr) := rfl
theorem fnsave (addr : Addr) : Statement (.fnsave addr) := rfl
theorem fsetpm : Statement .fsetpm := rfl
theorem fnstcw (addr : Addr) : Statement (.fnstcw addr) := rfl
theorem fnstenv (addr : Addr) : Statement (.fnstenv addr) := rfl
theorem fnstswM16 (addr : Addr) : Statement (.fnstswM16 addr) := rfl
theorem fnstswAx : Statement .fnstswAx := rfl
theorem fcomM32 (addr : Addr) : Statement (.fcomM32 addr) := rfl
theorem fcomM64 (addr : Addr) : Statement (.fcomM64 addr) := rfl
theorem fcomSt (i : BitVec 3) : Statement (.fcomSt i) := rfl
theorem fcompM32 (addr : Addr) : Statement (.fcompM32 addr) := rfl
theorem fcompM64 (addr : Addr) : Statement (.fcompM64 addr) := rfl
theorem fcompSt (i : BitVec 3) : Statement (.fcompSt i) := rfl
theorem fcompp : Statement .fcompp := rfl
theorem fcomi (i : BitVec 3) : Statement (.fcomi i) := rfl
theorem fcomip (i : BitVec 3) : Statement (.fcomip i) := rfl
theorem fucomi (i : BitVec 3) : Statement (.fucomi i) := rfl
theorem fucomip (i : BitVec 3) : Statement (.fucomip i) := rfl
theorem ficomM16 (addr : Addr) : Statement (.ficomM16 addr) := rfl
theorem ficomM32 (addr : Addr) : Statement (.ficomM32 addr) := rfl
theorem ficompM16 (addr : Addr) : Statement (.ficompM16 addr) := rfl
theorem ficompM32 (addr : Addr) : Statement (.ficompM32 addr) := rfl
theorem ftst : Statement .ftst := rfl
theorem fucom (i : BitVec 3) : Statement (.fucom i) := rfl
theorem fucomp (i : BitVec 3) : Statement (.fucomp i) := rfl
theorem fucompp : Statement .fucompp := rfl
theorem fxam : Statement .fxam := rfl
theorem fwait : Statement .fwait := rfl
theorem fclex : Statement .fclex := rfl
theorem fdisi : Statement .fdisi := rfl
theorem feni : Statement .feni := rfl
theorem finit : Statement .finit := rfl
theorem fsave (addr : Addr) : Statement (.fsave addr) := rfl
theorem fstcw (addr : Addr) : Statement (.fstcw addr) := rfl
theorem fstenv (addr : Addr) : Statement (.fstenv addr) := rfl
theorem fstswM16 (addr : Addr) : Statement (.fstswM16 addr) := rfl
theorem fstswAx : Statement .fstswAx := rfl
theorem fldenvO66 (addr : Addr) : Statement (.fldenvO66 addr) := rfl
theorem fnstenvO66 (addr : Addr) : Statement (.fnstenvO66 addr) := rfl
theorem frstorO66 (addr : Addr) : Statement (.frstorO66 addr) := rfl
theorem fnsaveO66 (addr : Addr) : Statement (.fnsaveO66 addr) := rfl
theorem fstenvO66 (addr : Addr) : Statement (.fstenvO66 addr) := rfl
theorem fsaveO66 (addr : Addr) : Statement (.fsaveO66 addr) := rfl

end Sys2Proof.Laws.Tables
end

