-- ==== Sys2Proof/Laws/Step.lean ====
section
/-! SUPPORT. The step around an instruction: when it completes, what it can answer, and how the frame of a computation
becomes the frame of the instruction. -/

namespace Sys2Proof.Laws

open Sys2Proof.Machine

/-- Where no trap is taken first: the hypothesis of Ready on the pending exception. -/
def Quiet (sync : Sync) (s : State) : Prop :=
  match sync with
  | .waiting => s.pending = false
  | .noWait => s.windowOpen = false

theorem Quiet.trapsBefore {sync : Sync} {s : State} (h : Quiet sync s) : s.trapsBefore sync = false := by
  cases sync
  · exact h
  · simp only [Quiet] at h; simp [State.trapsBefore, h]

theorem Quiet.entering {sync : Sync} {s : State} (h : Quiet sync s) : s.entering sync = s := by
  cases sync
  · rfl
  · simp only [Quiet] at h; simp [State.entering, h]

/-- An instruction that is ready and whose rule answers a state completes. -/
theorem around_runs {sync : Sync} {ptr : Pointers} {i : Instr} {body : State → Except Fault State} {s t : State}
    (ha : i.available s.cfg = true) (hp : s.passesTop (i.length s.cfg) = false) (hq : Quiet sync s)
    (hb : body s = .ok t) : around sync ptr i body s = .next (t.retire ptr i) := by
  simp only [around, ha, hp, hq.trapsBefore, hq.entering, hb, Bool.not_true, Bool.false_eq_true, if_false]

/-- The same from Ready, for the way the instruction synchronises. -/
theorem Ready.runs {sync : Sync} {ptr : Pointers} {i : Instr} {body : State → Except Fault State} {s t : State}
    (h : Ready i s) (hs : syncOf i = sync) (hb : body s = .ok t) :
    around sync ptr i body s = .next (t.retire ptr i) := by
  subst hs
  obtain ⟨ha, hp, hq⟩ := h
  exact around_runs ha hp (by cases hh : syncOf i <;> simpa [Quiet, hh] using hq) hb

/-- What an instruction can answer when it answers a state: what the handler of the trap leaves, or the state of its
own rule, retired. -/
theorem around_cases {sync : Sync} {ptr : Pointers} {i : Instr} {body : State → Except Fault State} {s u : State}
    (h : around sync ptr i body s = .next u) :
    (s.trapsBefore sync = true ∧ s.cfg.fpTrap = .resume ∧ u = s.handled) ∨
      (i.available s.cfg = true ∧ s.passesTop (i.length s.cfg) = false ∧ s.trapsBefore sync = false ∧
        ∃ t, body (s.entering sync) = .ok t ∧ u = t.retire ptr i) := by
  unfold around at h
  split at h
  · exact absurd h (by simp)
  · next ha =>
    split at h
    · exact absurd h (by simp)
    · next hp =>
      split at h
      · next ht =>
        unfold State.takeTrap at h
        split at h
        · exact absurd h (by simp)
        · next hr => exact .inl ⟨ht, hr, by simpa using h.symm⟩
      · next ht =>
        split at h
        · exact absurd h (by simp)
        · next t hb =>
          exact .inr ⟨by simpa using ha, by simpa using hp, by simpa using ht, t, hb, by simpa using h.symm⟩

theorem loading_there {a : Addr} {n : Nat} {f : List Byte → State → State} {s : State}
    (h : hasBytes s.cfg a.toNat n = true) : loading a n f s = .ok (f (s.bytesAt a n) s) := by
  simp [loading, h]

theorem loading_cases {a : Addr} {n : Nat} {f : List Byte → State → State} {s t : State} (h : loading a n f s = .ok t) :
    hasBytes s.cfg a.toNat n = true ∧ t = f (s.bytesAt a n) s := by
  unfold loading at h
  split at h
  · next hb => exact ⟨hb, by simpa using h.symm⟩
  · exact absurd h (by simp)

/-- A store that is carried out, or suppressed. -/
theorem storing_there {a : Addr} {n : Nat} {f : State → State × Option (List Byte)} {s : State}
    (h : hasBytes s.cfg a.toNat n = true) :
    storing a n f s = .ok (match (f s).2 with | none => (f s).1 | some bs => (f s).1.store a bs) := by
  unfold storing
  cases (f s).2 with
  | none => rfl
  | some bs => simp [h]

theorem storing_cases {a : Addr} {n : Nat} {f : State → State × Option (List Byte)} {s t : State}
    (h : storing a n f s = .ok t) :
    ((f s).2 = none ∧ t = (f s).1) ∨
      ∃ bs, (f s).2 = some bs ∧ hasBytes s.cfg a.toNat n = true ∧ t = (f s).1.store a bs := by
  unfold storing at h
  split at h
  · next e => exact .inl ⟨e, by simpa using h.symm⟩
  · next bs e =>
    split at h
    · next hb => exact .inr ⟨bs, e, hb, by simpa using h.symm⟩
    · exact absurd h (by simp)

/-! ### Wait forms and fetching -/

/-- All a wait form can answer (rules R145, R400): what FWAIT answers, or, with nothing pending, what the no-wait form
answers in the state FWAIT leaves. -/
theorem waitThen_cases (fwait next : State → Host.Outcome State Fault Refusal) (s : State) :
    waitThen fwait next s = fwait s ∨
      ∃ t u, s.pending = false ∧ fwait s = .next t ∧ next t = .next u ∧ waitThen fwait next s = .next u := by
  unfold waitThen
  cases hp : s.pending
  · cases hf : fwait s with
    | next t =>
      cases hn : next t with
      | next u => exact .inr ⟨t, u, rfl, rfl, hn, by simp [hn]⟩
      | fault f => exact .inl (by simp [hn])
      | refused r => exact .inl (by simp [hn])
    | fault f => exact .inl (by simp)
    | refused r => exact .inl (by simp)
  · exact .inl (by simp)

/-- The two steps of a wait form that is not stopped. -/
theorem waitThen_runs {fwait next : State → Host.Outcome State Fault Refusal} {s t u : State}
    (hp : s.pending = false) (hf : fwait s = .next t) (hn : next t = .next u) : waitThen fwait next s = .next u := by
  simp [waitThen, hp, hf, hn]

/-- Where the no-wait form stops, FWAIT has been done. -/
theorem waitThen_stops {fwait next : State → Host.Outcome State Fault Refusal} {s t : State}
    (hp : s.pending = false) (hf : fwait s = .next t) (hn : ∀ u, next t ≠ .next u) :
    waitThen fwait next s = .next t := by
  cases h : next t with
  | next u => exact absurd h (hn u)
  | fault f => simp [waitThen, hp, hf, h]
  | refused r => simp [waitThen, hp, hf, h]

/-- Where the bytes at pc decode and the run has stored to none of them, they are what is fetched (rules R115, R135). -/
theorem firstWritten_none {ws : List Nat} {a n : Nat} (h : ∀ k, k < n → a + k ∉ ws) : firstWritten ws a n = none := by
  induction n generalizing a with
  | zero => rfl
  | succ n ih =>
    rw [firstWritten, if_neg (show a ∉ ws from h 0 (by omega))]
    exact ih fun k hk => by
      have := h (k + 1) (by omega)
      rwa [show a + 1 + k = a + (k + 1) by omega]

theorem fetched_decoded {s : State} {i : Instr} {n : Nat} (hd : decode s.cfg s.code = .ok (i, n))
    (h : ∀ k, k < n → s.pcNat + k ∉ s.written) : s.fetched = .instr i := by
  simp [State.fetched, hd, firstWritten_none h]

/-- Past the top of the address range there is nothing to fetch (rule R55). -/
theorem code_pcOver {s : State} (h : s.pcOver = true) : s.code = [] := by
  simp [State.code, longest, fetchBytes, hasByte, State.pcNat, h]

/-- 9BH is a step of its own unless the run fuses wait forms (rules R145, R588). -/
theorem decode_fwait {p : Params} (h : p.fusedWait = false) (rest : List Byte) :
    decode p (0x9B#8 :: rest) = .ok (.fwait, 1) := by simp [decode, h]

/-! ### Retiring -/

theorem retire_rest (ptr : Pointers) (i : Instr) (t : State) :
    (t.retire ptr i).cfg = t.cfg ∧ (t.retire ptr i).regs = t.regs ∧ (t.retire ptr i).tags = t.tags ∧
    (t.retire ptr i).sw = t.sw ∧ (t.retire ptr i).cw = t.cw ∧ (t.retire ptr i).ax = t.ax ∧
    (t.retire ptr i).zf = t.zf ∧ (t.retire ptr i).pf = t.pf ∧ (t.retire ptr i).cf = t.cf ∧
    (t.retire ptr i).pm287 = t.pm287 ∧ (t.retire ptr i).mem = t.mem ∧ (t.retire ptr i).written = t.written ∧
    (t.retire ptr i).pc = t.pc + BitVec.ofNat 32 (i.length t.cfg) ∧
    (t.retire ptr i).pcOver = decide (t.cfg.addrLimit ≤ t.pcNat + i.length t.cfg) := by
  cases ptr
  · unfold State.retire State.recordPointers
    cases i.operand <;> exact ⟨rfl, rfl, rfl, rfl, rfl, rfl, rfl, rfl, rfl, rfl, rfl, rfl, rfl, rfl⟩
  · exact ⟨rfl, rfl, rfl, rfl, rfl, rfl, rfl, rfl, rfl, rfl, rfl, rfl, rfl, rfl⟩

section
variable (ptr : Pointers) (i : Instr) (t : State)
@[simp] theorem retire_cfg : (t.retire ptr i).cfg = t.cfg := (retire_rest ptr i t).1
@[simp] theorem retire_regs : (t.retire ptr i).regs = t.regs := (retire_rest ptr i t).2.1
@[simp] theorem retire_tags : (t.retire ptr i).tags = t.tags := (retire_rest ptr i t).2.2.1
@[simp] theorem retire_sw : (t.retire ptr i).sw = t.sw := (retire_rest ptr i t).2.2.2.1
@[simp] theorem retire_cw : (t.retire ptr i).cw = t.cw := (retire_rest ptr i t).2.2.2.2.1
@[simp] theorem retire_ax : (t.retire ptr i).ax = t.ax := (retire_rest ptr i t).2.2.2.2.2.1
@[simp] theorem retire_zf : (t.retire ptr i).zf = t.zf := (retire_rest ptr i t).2.2.2.2.2.2.1
@[simp] theorem retire_pf : (t.retire ptr i).pf = t.pf := (retire_rest ptr i t).2.2.2.2.2.2.2.1
@[simp] theorem retire_cf : (t.retire ptr i).cf = t.cf := (retire_rest ptr i t).2.2.2.2.2.2.2.2.1
@[simp] theorem retire_pm287 : (t.retire ptr i).pm287 = t.pm287 := (retire_rest ptr i t).2.2.2.2.2.2.2.2.2.1
@[simp] theorem retire_mem : (t.retire ptr i).mem = t.mem := (retire_rest ptr i t).2.2.2.2.2.2.2.2.2.2.1
@[simp] theorem retire_written : (t.retire ptr i).written = t.written := (retire_rest ptr i t).2.2.2.2.2.2.2.2.2.2.2.1
@[simp] theorem retire_pc : (t.retire ptr i).pc = t.pc + BitVec.ofNat 32 (i.length t.cfg) :=
  (retire_rest ptr i t).2.2.2.2.2.2.2.2.2.2.2.2.1
@[simp] theorem retire_pcOver : (t.retire ptr i).pcOver = decide (t.cfg.addrLimit ≤ t.pcNat + i.length t.cfg) :=
  (retire_rest ptr i t).2.2.2.2.2.2.2.2.2.2.2.2.2
@[simp] theorem retire_reg (k : BitVec 3) : (t.retire ptr i).reg k = t.reg k := reg_congr (retire_regs ptr i t) k
@[simp] theorem retire_tag (k : BitVec 3) : (t.retire ptr i).tag k = t.tag k := tag_congr (retire_tags ptr i t) k
@[simp] theorem retire_byteAt (a : Nat) : (t.retire ptr i).byteAt a = t.byteAt a := by simp [State.byteAt]
end

/-- The pointers an instruction records (rules R51 to R54). -/
theorem retire_record (i : Instr) (t : State) :
    (t.retire .record i).fip = t.pc ∧ (t.retire .record i).fop = i.fop t.cfg ∧
    (t.retire .record i).fcs = (if Params.realMode t.cfg then t.fcs else t.cfg.csSel) ∧
    ∀ a, i.operand = some a →
      (t.retire .record i).fdp = a ∧ (t.retire .record i).fds = (if Params.realMode t.cfg then t.fds else t.cfg.dsSel) := by
  simp only [State.retire, State.recordPointers]
  split
  · next b e =>
    refine ⟨rfl, rfl, rfl, fun a ha => ?_⟩
    rw [ha] at e
    exact ⟨(by simpa using e.symm), rfl⟩
  · next e => exact ⟨rfl, rfl, rfl, fun a ha => by simp_all⟩

theorem retire_keep (i : Instr) (t : State) : PointersKept t (t.retire .keep i) := ⟨rfl, rfl, rfl, rfl, rfl⟩

/-! ### From a computation to the frame of the instruction -/

/-- Two states that agree in what a frame speaks of. -/
theorem computes_of_host {i : Instr} {s t : State} (h : CalcHost (topMoves i) (touched i) (mayRaise i) s t) :
    Computes i s (t.retire .record i) := by
  have h : Calc (topMoves i) (touched i) (mayRaise i) (withHost t.zf t.pf t.cf s) t := h
  have hcfg : t.cfg = s.cfg := (Calc.cfg h : t.cfg = (withHost t.zf t.pf t.cf s).cfg)
  have hpc : t.pc = s.pc := (Calc.pc h : t.pc = (withHost t.zf t.pf t.cf s).pc)
  have hat : t.pcNat = s.pcNat := (Calc.pcNat h : t.pcNat = (withHost t.zf t.pf t.cf s).pcNat)
  obtain ⟨p1, p2, p3, p4⟩ := retire_record i t
  refine ⟨?_, ⟨?_, ?_, ?_, ?_⟩, ⟨?_, ?_, ?_⟩, ?_, ?_, ?_⟩
  · simp [Advanced, hcfg, hpc, hat]
  · rw [p1, hpc]
  · rw [p2, hcfg]
  · rw [p3, hcfg, show t.fcs = s.fcs from (Calc.fcs h : t.fcs = (withHost t.zf t.pf t.cf s).fcs)]
  · intro a ha
    rw [(p4 a ha).1, (p4 a ha).2, hcfg, show t.fds = s.fds from (Calc.fds h : t.fds = (withHost t.zf t.pf t.cf s).fds)]
    exact ⟨rfl, rfl⟩
  · simpa using hcfg
  · rw [retire_cw]
    exact (Calc.cw h : t.cw = (withHost t.zf t.pf t.cf s).cw)
  · rw [retire_pm287]
    exact (Calc.pm287 h : t.pm287 = (withHost t.zf t.pf t.cf s).pm287)
  · intro k hk
    rw [retire_reg, retire_tag]
    exact Calc.regs h k hk
  · intro f
    rw [retire_sw]
    exact Calc.flags h f
  · obtain ⟨d, hd, e⟩ := Calc.top h
    exact ⟨d, hd, by rw [retire_sw]; exact e⟩

theorem computes_of_calc {i : Instr} {s t : State} (h : Calc (topMoves i) (touched i) (mayRaise i) s t) :
    Computes i s (t.retire .record i) := computes_of_host h.host

/-- The frame of a computation followed by a store. -/
theorem computes_store {i : Instr} {s t : State} (h : Calc (topMoves i) (touched i) (mayRaise i) s t) (a : Addr)
    (bs : List Byte) : Computes i s ((t.store a bs).retire .record i) := by
  obtain ⟨h1, ⟨h2, h3, h4, h5⟩, ⟨h6, h7, h8⟩, h9, h10, h11⟩ := computes_of_calc h
  have hc : (t.store a bs).retire .record i =
      { t.retire .record i with
        mem := Memory.writeBytes t.mem a.toNat bs, written := addAddrs t.written a.toNat bs.length } := by
    simp only [State.retire, State.recordPointers, State.store]
    split <;> rfl
  rw [hc]
  exact ⟨h1, ⟨h2, h3, h4, h5⟩, ⟨h6, h7, h8⟩, h9, h10, h11⟩

theorem hostKept_of_calc {D K : List (BitVec 3)} {F : List Flag} {s t : State} (h : Calc D K F s t) (ptr : Pointers)
    (i : Instr) : HostKept s (t.retire ptr i) := by
  refine ⟨?_, ?_, ?_, ?_⟩
  · simpa using h.ax
  · simpa using h.zf
  · simpa using h.pf
  · simpa using h.cf

theorem memoryKept_of_host {D K : List (BitVec 3)} {F : List Flag} {s t : State} (h : CalcHost D K F s t)
    (ptr : Pointers) (i : Instr) : MemoryKept s (t.retire ptr i) := by
  intro a
  have h : Calc D K F (withHost t.zf t.pf t.cf s) t := h
  have : t.mem = s.mem := (Calc.mem h : t.mem = (withHost t.zf t.pf t.cf s).mem)
  simp [State.byteAt, this]

theorem memoryKept_of_calc {D K : List (BitVec 3)} {F : List Flag} {s t : State} (h : Calc D K F s t)
    (ptr : Pointers) (i : Instr) : MemoryKept s (t.retire ptr i) := memoryKept_of_host h.host ptr i

end Sys2Proof.Laws
end

