-- ==== Sys2Proof/Tests/Slice0.lean ====
section
/-! SUPPORT. Tests. The words are those of spec/opcode_table.json and the tables of 30_encoding.md, the results those of
spec/95_test_vectors.md (the vector's number ends the name) and of the examples in the rules. Each obligation with
hypotheses has a witness that meets them. -/

namespace Sys2Proof.Tests

set_option Elab.async false

open Sys2Proof Sys2Proof.Machine

/-! ### Helpers -/

/-- Values pushed in turn, the first of the list last, so that it is ST(0). -/
def pushAll : List Ext → State → State
  | [], s => s
  | v :: vs, s => (pushAll vs s).push v

/-- The reset state with a control word, values on the stack, and bytes at address 1000H. -/
def start (cw : Word16) (vs : List Ext) (m : List Byte) : State :=
  { pushAll vs State.reset with cw := cw, mem := Memory.writeBytes [] 0x1000 m }

/-- The state with other host flags. -/
def withHostFlags (z p c : Bool) (s : State) : State := { s with zf := z, pf := p, cf := c }

/-- A next state with a property. -/
def holds (o : Host.Outcome State Fault Refusal) (p : State → Bool) : Bool :=
  match o with
  | .next t => p t
  | _ => false

/-- A fault, and a refusal. -/
def faults (o : Host.Outcome State Fault Refusal) (f : Fault) : Bool :=
  match o with
  | .fault g => decide (g = f)
  | _ => false

def refuses (o : Host.Outcome State Fault Refusal) (r : Refusal) : Bool :=
  match o with
  | .refused q => decide (q = r)
  | _ => false

/-- The flags that are set. -/
def raised (t : State) : List Machine.Flag := [.ie, .de, .ze, .oe, .ue, .pe, .sf].filter fun f => t.sw.flag f

/-- Does each byte string decode, whole, to its instruction, with wait forms read as one instruction? -/
def decodesTo (l : List (List Byte × Instr)) : Bool :=
  l.all fun x => decide (decode { fusedWait := true } x.1 = .ok (x.2, x.1.length))

/-! ### WellFormed: each check refuses an ill-formed term -/

theorem test_wellFormed_good : (Instr.fsin.wellFormed {} && (Instr.fldM32 0x10000#32).wellFormed {}) = true := by decide

theorem test_wellFormed_generation : Instr.fsin.wellFormed { gen := .g287 } = false := by decide

theorem test_wellFormed_wait_generation : Instr.fstswAx.wellFormed { gen := .g8087, fusedWait := true } = false := by
  decide

theorem test_wellFormed_wait_form :
    Instr.fclex.wellFormed {} = false ∧ Instr.fclex.wellFormed { fusedWait := true } = true := by decide

theorem test_wellFormed_address : (Instr.fldM32 0x10000#32).wellFormed { addrSize := .s16 } = false := by decide

/-! ### Decoding: the word of every row -/

theorem test_decode_arithmetic_1 : decodesTo [
    ([0xD8#8, 0x05#8, 0x78#8, 0x56#8, 0x34#8, 0x12#8], .faddM32 0x12345678#32),
    ([0xDC#8, 0x05#8, 0x78#8, 0x56#8, 0x34#8, 0x12#8], .faddM64 0x12345678#32),
    ([0xD8#8, 0xC5#8], .faddSt0 5#3),
    ([0xDC#8, 0xC5#8], .faddSti 5#3),
    ([0xDE#8, 0xC5#8], .faddp 5#3),
    ([0xDE#8, 0x05#8, 0x78#8, 0x56#8, 0x34#8, 0x12#8], .fiaddM16 0x12345678#32),
    ([0xDA#8, 0x05#8, 0x78#8, 0x56#8, 0x34#8, 0x12#8], .fiaddM32 0x12345678#32),
    ([0xD8#8, 0x35#8, 0x78#8, 0x56#8, 0x34#8, 0x12#8], .fdivM32 0x12345678#32),
    ([0xDC#8, 0x35#8, 0x78#8, 0x56#8, 0x34#8, 0x12#8], .fdivM64 0x12345678#32),
    ([0xD8#8, 0xF5#8], .fdivSt0 5#3),
    ([0xDC#8, 0xFD#8], .fdivSti 5#3),
    ([0xDE#8, 0xFD#8], .fdivp 5#3),
    ([0xDE#8, 0x35#8, 0x78#8, 0x56#8, 0x34#8, 0x12#8], .fidivM16 0x12345678#32),
    ([0xDA#8, 0x35#8, 0x78#8, 0x56#8, 0x34#8, 0x12#8], .fidivM32 0x12345678#32),
    ([0xD8#8, 0x3D#8, 0x78#8, 0x56#8, 0x34#8, 0x12#8], .fdivrM32 0x12345678#32),
    ([0xDC#8, 0x3D#8, 0x78#8, 0x56#8, 0x34#8, 0x12#8], .fdivrM64 0x12345678#32),
    ([0xD8#8, 0xFD#8], .fdivrSt0 5#3),
    ([0xDC#8, 0xF5#8], .fdivrSti 5#3),
    ([0xDE#8, 0xF5#8], .fdivrp 5#3),
    ([0xDE#8, 0x3D#8, 0x78#8, 0x56#8, 0x34#8, 0x12#8], .fidivrM16 0x12345678#32),
    ([0xDA#8, 0x3D#8, 0x78#8, 0x56#8, 0x34#8, 0x12#8], .fidivrM32 0x12345678#32),
    ([0xD8#8, 0x0D#8, 0x78#8, 0x56#8, 0x34#8, 0x12#8], .fmulM32 0x12345678#32),
    ([0xDC#8, 0x0D#8, 0x78#8, 0x56#8, 0x34#8, 0x12#8], .fmulM64 0x12345678#32),
    ([0xD8#8, 0xCD#8], .fmulSt0 5#3)] = true := by
  decide +kernel

theorem test_decode_arithmetic_2 : decodesTo [
    ([0xDC#8, 0xCD#8], .fmulSti 5#3),
    ([0xDE#8, 0xCD#8], .fmulp 5#3),
    ([0xDE#8, 0x0D#8, 0x78#8, 0x56#8, 0x34#8, 0x12#8], .fimulM16 0x12345678#32),
    ([0xDA#8, 0x0D#8, 0x78#8, 0x56#8, 0x34#8, 0x12#8], .fimulM32 0x12345678#32),
    ([0xD8#8, 0x25#8, 0x78#8, 0x56#8, 0x34#8, 0x12#8], .fsubM32 0x12345678#32),
    ([0xDC#8, 0x25#8, 0x78#8, 0x56#8, 0x34#8, 0x12#8], .fsubM64 0x12345678#32),
    ([0xD8#8, 0xE5#8], .fsubSt0 5#3),
    ([0xDC#8, 0xED#8], .fsubSti 5#3),
    ([0xDE#8, 0xED#8], .fsubp 5#3),
    ([0xDE#8, 0x25#8, 0x78#8, 0x56#8, 0x34#8, 0x12#8], .fisubM16 0x12345678#32),
    ([0xDA#8, 0x25#8, 0x78#8, 0x56#8, 0x34#8, 0x12#8], .fisubM32 0x12345678#32),
    ([0xD8#8, 0x2D#8, 0x78#8, 0x56#8, 0x34#8, 0x12#8], .fsubrM32 0x12345678#32),
    ([0xDC#8, 0x2D#8, 0x78#8, 0x56#8, 0x34#8, 0x12#8], .fsubrM64 0x12345678#32),
    ([0xD8#8, 0xED#8], .fsubrSt0 5#3),
    ([0xDC#8, 0xE5#8], .fsubrSti 5#3),
    ([0xDE#8, 0xE5#8], .fsubrp 5#3),
    ([0xDE#8, 0x2D#8, 0x78#8, 0x56#8, 0x34#8, 0x12#8], .fisubrM16 0x12345678#32),
    ([0xDA#8, 0x2D#8, 0x78#8, 0x56#8, 0x34#8, 0x12#8], .fisubrM32 0x12345678#32)] = true := by
  decide +kernel

theorem test_decode_transcendental : decodesTo [
    ([0xD9#8, 0xF0#8], .f2xm1),
    ([0xD9#8, 0xFF#8], .fcos),
    ([0xD9#8, 0xF3#8], .fpatan),
    ([0xD9#8, 0xF2#8], .fptan),
    ([0xD9#8, 0xFE#8], .fsin),
    ([0xD9#8, 0xFB#8], .fsincos),
    ([0xD9#8, 0xF1#8], .fyl2x),
    ([0xD9#8, 0xF9#8], .fyl2xp1)] = true := by
  decide +kernel

theorem test_decode_other_arithmetic : decodesTo [
    ([0xD9#8, 0xE1#8], .fabs),
    ([0xD9#8, 0xE0#8], .fchs),
    ([0xD9#8, 0xF8#8], .fprem),
    ([0xD9#8, 0xF5#8], .fprem1),
    ([0xD9#8, 0xFC#8], .frndint),
    ([0xD9#8, 0xFD#8], .fscale),
    ([0xD9#8, 0xFA#8], .fsqrt),
    ([0xD9#8, 0xF4#8], .fxtract)] = true := by
  decide +kernel

theorem test_decode_transfer_1 : decodesTo [
    ([0xDF#8, 0x25#8, 0x78#8, 0x56#8, 0x34#8, 0x12#8], .fbld 0x12345678#32),
    ([0xDF#8, 0x35#8, 0x78#8, 0x56#8, 0x34#8, 0x12#8], .fbstp 0x12345678#32),
    ([0xDA#8, 0xC5#8], .fcmovb 5#3),
    ([0xDA#8, 0xCD#8], .fcmove 5#3),
    ([0xDA#8, 0xD5#8], .fcmovbe 5#3),
    ([0xDA#8, 0xDD#8], .fcmovu 5#3),
    ([0xDB#8, 0xC5#8], .fcmovnb 5#3),
    ([0xDB#8, 0xCD#8], .fcmovne 5#3),
    ([0xDB#8, 0xD5#8], .fcmovnbe 5#3),
    ([0xDB#8, 0xDD#8], .fcmovnu 5#3),
    ([0xDF#8, 0x05#8, 0x78#8, 0x56#8, 0x34#8, 0x12#8], .fildM16 0x12345678#32),
    ([0xDB#8, 0x05#8, 0x78#8, 0x56#8, 0x34#8, 0x12#8], .fildM32 0x12345678#32),
    ([0xDF#8, 0x2D#8, 0x78#8, 0x56#8, 0x34#8, 0x12#8], .fildM64 0x12345678#32),
    ([0xDF#8, 0x15#8, 0x78#8, 0x56#8, 0x34#8, 0x12#8], .fistM16 0x12345678#32),
    ([0xDB#8, 0x15#8, 0x78#8, 0x56#8, 0x34#8, 0x12#8], .fistM32 0x12345678#32),
    ([0xDF#8, 0x1D#8, 0x78#8, 0x56#8, 0x34#8, 0x12#8], .fistpM16 0x12345678#32),
    ([0xDB#8, 0x1D#8, 0x78#8, 0x56#8, 0x34#8, 0x12#8], .fistpM32 0x12345678#32),
    ([0xDF#8, 0x3D#8, 0x78#8, 0x56#8, 0x34#8, 0x12#8], .fistpM64 0x12345678#32),
    ([0xD9#8, 0x05#8, 0x78#8, 0x56#8, 0x34#8, 0x12#8], .fldM32 0x12345678#32),
    ([0xDD#8, 0x05#8, 0x78#8, 0x56#8, 0x34#8, 0x12#8], .fldM64 0x12345678#32),
    ([0xDB#8, 0x2D#8, 0x78#8, 0x56#8, 0x34#8, 0x12#8], .fldM80 0x12345678#32),
    ([0xD9#8, 0xC5#8], .fldSt 5#3),
    ([0xD9#8, 0xE8#8], .fld1),
    ([0xD9#8, 0xE9#8], .fldl2t)] = true := by
  decide +kernel

theorem test_decode_transfer_2 : decodesTo [
    ([0xD9#8, 0xEA#8], .fldl2e),
    ([0xD9#8, 0xEB#8], .fldpi),
    ([0xD9#8, 0xEC#8], .fldlg2),
    ([0xD9#8, 0xED#8], .fldln2),
    ([0xD9#8, 0xEE#8], .fldz),
    ([0xD9#8, 0x15#8, 0x78#8, 0x56#8, 0x34#8, 0x12#8], .fstM32 0x12345678#32),
    ([0xDD#8, 0x15#8, 0x78#8, 0x56#8, 0x34#8, 0x12#8], .fstM64 0x12345678#32),
    ([0xDD#8, 0xD5#8], .fstSt 5#3),
    ([0xD9#8, 0x1D#8, 0x78#8, 0x56#8, 0x34#8, 0x12#8], .fstpM32 0x12345678#32),
    ([0xDD#8, 0x1D#8, 0x78#8, 0x56#8, 0x34#8, 0x12#8], .fstpM64 0x12345678#32),
    ([0xDB#8, 0x3D#8, 0x78#8, 0x56#8, 0x34#8, 0x12#8], .fstpM80 0x12345678#32),
    ([0xDD#8, 0xDD#8], .fstpSt 5#3),
    ([0xD9#8, 0xCD#8], .fxch 5#3)] = true := by
  decide +kernel

theorem test_decode_control_1 : decodesTo [
    ([0xDB#8, 0xE2#8], .fnclex),
    ([0xD9#8, 0xF6#8], .fdecstp),
    ([0xDB#8, 0xE1#8], .fndisi),
    ([0xDB#8, 0xE0#8], .fneni),
    ([0xDD#8, 0xC5#8], .ffree 5#3),
    ([0xD9#8, 0xF7#8], .fincstp),
    ([0xDB#8, 0xE3#8], .fninit),
    ([0xD9#8, 0x2D#8, 0x78#8, 0x56#8, 0x34#8, 0x12#8], .fldcw 0x12345678#32),
    ([0xD9#8, 0x25#8, 0x78#8, 0x56#8, 0x34#8, 0x12#8], .fldenv 0x12345678#32),
    ([0xD9#8, 0xD0#8], .fnop),
    ([0xDD#8, 0x25#8, 0x78#8, 0x56#8, 0x34#8, 0x12#8], .frstor 0x12345678#32),
    ([0xDD#8, 0x35#8, 0x78#8, 0x56#8, 0x34#8, 0x12#8], .fnsave 0x12345678#32),
    ([0xDB#8, 0xE4#8], .fsetpm),
    ([0xD9#8, 0x3D#8, 0x78#8, 0x56#8, 0x34#8, 0x12#8], .fnstcw 0x12345678#32),
    ([0xD9#8, 0x35#8, 0x78#8, 0x56#8, 0x34#8, 0x12#8], .fnstenv 0x12345678#32),
    ([0xDD#8, 0x3D#8, 0x78#8, 0x56#8, 0x34#8, 0x12#8], .fnstswM16 0x12345678#32),
    ([0xDF#8, 0xE0#8], .fnstswAx),
    ([0x9B#8], .fwait),
    ([0x9B#8, 0xDB#8, 0xE2#8], .fclex),
    ([0x9B#8, 0xDB#8, 0xE1#8], .fdisi),
    ([0x9B#8, 0xDB#8, 0xE0#8], .feni),
    ([0x9B#8, 0xDB#8, 0xE3#8], .finit),
    ([0x9B#8, 0xDD#8, 0x35#8, 0x78#8, 0x56#8, 0x34#8, 0x12#8], .fsave 0x12345678#32),
    ([0x9B#8, 0xD9#8, 0x3D#8, 0x78#8, 0x56#8, 0x34#8, 0x12#8], .fstcw 0x12345678#32)] = true := by
  decide +kernel

theorem test_decode_control_2 : decodesTo [
    ([0x9B#8, 0xD9#8, 0x35#8, 0x78#8, 0x56#8, 0x34#8, 0x12#8], .fstenv 0x12345678#32),
    ([0x9B#8, 0xDD#8, 0x3D#8, 0x78#8, 0x56#8, 0x34#8, 0x12#8], .fstswM16 0x12345678#32),
    ([0x9B#8, 0xDF#8, 0xE0#8], .fstswAx),
    ([0x66#8, 0xD9#8, 0x25#8, 0x78#8, 0x56#8, 0x34#8, 0x12#8], .fldenvO66 0x12345678#32),
    ([0x66#8, 0xD9#8, 0x35#8, 0x78#8, 0x56#8, 0x34#8, 0x12#8], .fnstenvO66 0x12345678#32),
    ([0x66#8, 0xDD#8, 0x25#8, 0x78#8, 0x56#8, 0x34#8, 0x12#8], .frstorO66 0x12345678#32),
    ([0x66#8, 0xDD#8, 0x35#8, 0x78#8, 0x56#8, 0x34#8, 0x12#8], .fnsaveO66 0x12345678#32),
    ([0x9B#8, 0x66#8, 0xD9#8, 0x35#8, 0x78#8, 0x56#8, 0x34#8, 0x12#8], .fstenvO66 0x12345678#32),
    ([0x9B#8, 0x66#8, 0xDD#8, 0x35#8, 0x78#8, 0x56#8, 0x34#8, 0x12#8], .fsaveO66 0x12345678#32)] = true := by
  decide +kernel

theorem test_decode_comparison : decodesTo [
    ([0xD8#8, 0x15#8, 0x78#8, 0x56#8, 0x34#8, 0x12#8], .fcomM32 0x12345678#32),
    ([0xDC#8, 0x15#8, 0x78#8, 0x56#8, 0x34#8, 0x12#8], .fcomM64 0x12345678#32),
    ([0xD8#8, 0xD5#8], .fcomSt 5#3),
    ([0xD8#8, 0x1D#8, 0x78#8, 0x56#8, 0x34#8, 0x12#8], .fcompM32 0x12345678#32),
    ([0xDC#8, 0x1D#8, 0x78#8, 0x56#8, 0x34#8, 0x12#8], .fcompM64 0x12345678#32),
    ([0xD8#8, 0xDD#8], .fcompSt 5#3),
    ([0xDE#8, 0xD9#8], .fcompp),
    ([0xDB#8, 0xF5#8], .fcomi 5#3),
    ([0xDF#8, 0xF5#8], .fcomip 5#3),
    ([0xDB#8, 0xED#8], .fucomi 5#3),
    ([0xDF#8, 0xED#8], .fucomip 5#3),
    ([0xDE#8, 0x15#8, 0x78#8, 0x56#8, 0x34#8, 0x12#8], .ficomM16 0x12345678#32),
    ([0xDA#8, 0x15#8, 0x78#8, 0x56#8, 0x34#8, 0x12#8], .ficomM32 0x12345678#32),
    ([0xDE#8, 0x1D#8, 0x78#8, 0x56#8, 0x34#8, 0x12#8], .ficompM16 0x12345678#32),
    ([0xDA#8, 0x1D#8, 0x78#8, 0x56#8, 0x34#8, 0x12#8], .ficompM32 0x12345678#32),
    ([0xD9#8, 0xE4#8], .ftst),
    ([0xDD#8, 0xE5#8], .fucom 5#3),
    ([0xDD#8, 0xED#8], .fucomp 5#3),
    ([0xDA#8, 0xE9#8], .fucompp),
    ([0xD9#8, 0xE5#8], .fxam)] = true := by
  decide +kernel

theorem test_decode_addr16 : decode { addrSize := .s16 } [0xD8#8, 0x06#8, 0x34#8, 0x12#8] =
    .ok (.faddM32 0x1234#32, 4) := by decide

theorem test_decode_fwait_alone : decode {} [0x9B#8, 0xD9#8, 0xE8#8] = .ok (.fwait, 1) := by decide

/-- 9BH is a step of its own whatever follows (rules R145, R588). -/
theorem test_decode_wait_alone : decode {} [0x9B#8, 0xDB#8, 0xE2#8] = .ok (.fwait, 1) := by decide

theorem test_decode_reserved : decode {} [0xD9#8, 0xEF#8] = .error ⟨2, .illegal⟩ := by decide

theorem test_decode_generation : decode { gen := .g287 } [0xD9#8, 0xFE#8] = .error ⟨2, .illegal⟩ := by decide

theorem test_decode_addressing : decode {} [0xD8#8, 0x45#8, 0#8] =
    .error ⟨2, .unsupportedAddressing 0x45#8⟩ := by decide

theorem test_decode_prefixed : decode {} [0xF0#8, 0xD8#8, 0xC1#8] =
    .error ⟨1, .unsupportedPrefix 0xF0#8⟩ := by decide

theorem test_decode_notFpu : decode {} [0x90#8] = .error ⟨1, .notFpu 0x90#8⟩ := by decide

theorem test_fetch_missing_byte :
    faults (step { State.reset with cfg := { provided := [⟨0, 1⟩] }, mem := [(0, 0xD8#8)] }) (.memFault 1) = true := by
  decide +kernel

theorem test_fetch_stored_byte :
    refuses (step { State.reset with mem := [(0, 0xD8#8), (1, 0xC1#8)], written := [1] }) (.selfModify 1) = true := by
  decide +kernel

/-- The two steps of the bytes of FCLEX (rule R145). -/
theorem test_step_wait_form :
    holds (step { State.reset with mem := [(0, 0x9B#8), (1, 0xDB#8), (2, 0xE2#8)], sw := { ie := true } })
      (fun t => t.pc == 1#32 && raised t == [.ie] && holds (step t) (fun u => u.pc == 3#32 && raised u == [])) = true := by
  decide +kernel

/-- With wait forms fused and a stored byte behind 9BH, FWAIT is done and the refusal comes with the next fetch. -/
theorem test_fetch_stored_byte_behind_wait :
    holds (step { State.reset with
        cfg := { fusedWait := true }, mem := [(0, 0x9B#8), (1, 0xDB#8), (2, 0xE2#8)], written := [2] })
      (fun t => t.pc == 1#32 && refuses (step t) (.selfModify 2)) = true := by
  decide +kernel

/-- FSTCW without its operand byte: FWAIT is done (rule R145), then the store faults. -/
theorem test_fstcw_missing_operand :
    holds (exec (.fstcw 0x1FFF#32) { State.reset with cfg := { provided := [⟨0, 0x2000⟩] } })
      (fun t => t.pc == 1#32 && faults (exec (.fnstcw 0x1FFF#32) t) (.memFault 0x1FFF)) = true := by
  decide +kernel

/-- An instruction whose last byte is the last address runs; the next one is refused (rule R55). -/
theorem test_top_of_range :
    holds (step { State.reset with pc := 0xFFFFFFFE#32, mem := [(0xFFFFFFFE, 0xD9#8), (0xFFFFFFFF, 0xD0#8)] })
      (fun t => t.pcOver && refuses (step t) (.pastTop 0x100000000)) = true := by
  decide +kernel

theorem test_past_top_of_range :
    refuses (step { State.reset with pc := 0xFFFFFFFF#32, mem := [(0xFFFFFFFF, 0xD9#8)] }) (.pastTop 0x100000000) =
      true := by
  decide +kernel

theorem test_step_runs : holds (step { State.reset with mem := [(0, 0xD9#8), (1, 0xE8#8)] })
    (fun t => t.st 0#3 == 0x3FFF8000000000000000#80 && t.pc == 2#32 && t.fip == 0#32 && t.fop == 0x1E8#11) = true := by
  decide +kernel

theorem test_trap : faults (exec .fld1 { State.reset with cw := 0x037E#16, sw := { ie := true } })
    (.floatingPointTrap ⟨0x8081#16, 0#32, 0#16, 0#32, 0#16, 0#11, 0#32⟩) = true := by decide +kernel

theorem test_missing_operand : faults (exec (.fldM64 0x1FFC#32)
    { State.reset with cfg := { provided := [⟨0, 0x2000⟩] } }) (.memFault 0x1FFC) = true := by decide +kernel

/-! ### One step of each instruction -/

theorem test_fdivSt0_A1 : holds (exec (.fdivSt0 1#3) (start 0x037F#16 [0x3FFF8000000000000000#80,
  0x4000C000000000000000#80] [])) (fun t => t.st 0#3 == 0x3FFDAAAAAAAAAAAAAAAB#80 && raised t == [.pe] &&
  t.sw.c1 == true) = true := by decide +kernel

theorem test_fdivSt0_A13 : holds (exec (.fdivSt0 1#3) (start 0x037B#16 [0x3FFF8000000000000000#80,
  0x00000000000000000000#80] [])) (fun t => t.st 0#3 == 0x3FFF8000000000000000#80 &&
  t.st 1#3 == 0x00000000000000000000#80 && raised t == [.ze] && t.sw.c1 == false &&
  t.sw.top == 6#3) = true := by decide +kernel

theorem test_faddSt0_A8 : holds (exec (.faddSt0 1#3) (start 0x037F#16 [0x7FFF8000000000000000#80,
  0xFFFF8000000000000000#80] [])) (fun t => t.st 0#3 == 0xFFFFC000000000000000#80 && raised t == [.ie] &&
  t.sw.c1 == false) = true := by decide +kernel

theorem test_faddSt0_A15 : holds (exec (.faddSt0 1#3) (start 0x077F#16 [0x00000000000000000000#80,
  0x80000000000000000000#80] [])) (fun t => t.st 0#3 == 0x80000000000000000000#80 && raised t == [] &&
  t.sw.c1 == false) = true := by decide +kernel

theorem test_fsubSt0_A16 : holds (exec (.fsubSt0 1#3) (start 0x077F#16 [0x3FFF8000000000000000#80,
  0x3FFF8000000000000000#80] [])) (fun t => t.st 0#3 == 0x80000000000000000000#80 && raised t == [] &&
  t.sw.c1 == false) = true := by decide +kernel

theorem test_fmulSt0_A17 : holds (exec (.fmulSt0 1#3) (start 0x037F#16 [0x7FFEFFFFFFFFFFFFFFFF#80,
  0x40008000000000000000#80] [])) (fun t => t.st 0#3 == 0x7FFF8000000000000000#80 && raised t == [.oe, .pe] &&
  t.sw.c1 == true) = true := by decide +kernel

theorem test_fmulSt0_A21 : holds (exec (.fmulSt0 1#3) (start 0x037F#16 [0x00018000000000000001#80,
  0x3FFE8000000000000000#80] [])) (fun t => t.st 0#3 == 0x00004000000000000000#80 && raised t == [.ue, .pe] &&
  t.sw.c1 == false) = true := by decide +kernel

theorem test_faddp_A24 : holds (exec (.faddp 1#3) (start 0x037F#16 [0x3FFF8000000000000000#80,
  0x40008000000000000000#80] [])) (fun t => t.st 0#3 == 0x4000C000000000000000#80 && raised t == [] &&
  t.sw.c1 == false && t.sw.top == 7#3) = true := by decide +kernel

theorem test_fsubrSt0_A31 : holds (exec (.fsubrSt0 1#3) (start 0x037F#16 [0x40008000000000000000#80,
  0x4001C000000000000000#80] [])) (fun t => t.st 0#3 == 0x40018000000000000000#80 && raised t == [] &&
  t.sw.c1 == false) = true := by decide +kernel

theorem test_fdivrSt0_A33 : holds (exec (.fdivrSt0 1#3) (start 0x037F#16 [0x40008000000000000000#80,
  0x4001C000000000000000#80] [])) (fun t => t.st 0#3 == 0x4000C000000000000000#80 && raised t == [] &&
  t.sw.c1 == false) = true := by decide +kernel

theorem test_fsubSti_A34 : holds (exec (.fsubSti 1#3) (start 0x037F#16 [0x40008000000000000000#80,
  0x4001C000000000000000#80] [])) (fun t => t.st 1#3 == 0x40018000000000000000#80 &&
  t.st 0#3 == 0x40008000000000000000#80 && raised t == [] && t.sw.c1 == false) = true := by decide +kernel

theorem test_fsubrSti_A35 : holds (exec (.fsubrSti 1#3) (start 0x037F#16 [0x40008000000000000000#80,
  0x4001C000000000000000#80] [])) (fun t => t.st 1#3 == 0xC0018000000000000000#80 && raised t == [] &&
  t.sw.c1 == false) = true := by decide +kernel

theorem test_fdivSti_A36 : holds (exec (.fdivSti 1#3) (start 0x037F#16 [0x40008000000000000000#80,
  0x4001C000000000000000#80] [])) (fun t => t.st 1#3 == 0x4000C000000000000000#80 && raised t == [] &&
  t.sw.c1 == false) = true := by decide +kernel

theorem test_fdivrSti_A37 : holds (exec (.fdivrSti 1#3) (start 0x037F#16 [0x40008000000000000000#80,
  0x4001C000000000000000#80] [])) (fun t => t.st 1#3 == 0x3FFDAAAAAAAAAAAAAAAB#80 && raised t == [.pe] &&
  t.sw.c1 == true) = true := by decide +kernel

theorem test_fiaddM16_A38 : holds (exec (.fiaddM16 0x1000#32) (start 0x037F#16 [0x3FFF8000000000000000#80] [0xFF#8,
  0xFF#8])) (fun t => t.st 0#3 == 0x00000000000000000000#80 && raised t == [] &&
  t.sw.c1 == false) = true := by decide +kernel

theorem test_faddM32_A39 : holds (exec (.faddM32 0x1000#32) (start 0x037F#16 [0x3FFF8000000000000000#80] [0x00#8,
  0x00#8, 0x00#8, 0x40#8])) (fun t => t.st 0#3 == 0x4000C000000000000000#80 && raised t == [] &&
  t.sw.c1 == false) = true := by decide +kernel

theorem test_fsubrM32_A40 : holds (exec (.fsubrM32 0x1000#32) (start 0x037F#16 [0x40008000000000000000#80] [0x00#8,
  0x00#8, 0xC0#8, 0x40#8])) (fun t => t.st 0#3 == 0x40018000000000000000#80 && raised t == [] &&
  t.sw.c1 == false) = true := by decide +kernel

theorem test_fdivrM64_A41 : holds (exec (.fdivrM64 0x1000#32) (start 0x037F#16 [0x40008000000000000000#80] [0x00#8,
  0x00#8, 0x00#8, 0x00#8, 0x00#8, 0x00#8, 0x18#8, 0x40#8])) (fun t => t.st 0#3 == 0x4000C000000000000000#80 &&
  raised t == [] && t.sw.c1 == false) = true := by decide +kernel

theorem test_fimulM32_A42 : holds (exec (.fimulM32 0x1000#32) (start 0x037F#16 [0x40008000000000000000#80] [0xFD#8,
  0xFF#8, 0xFF#8, 0xFF#8])) (fun t => t.st 0#3 == 0xC001C000000000000000#80 && raised t == [] &&
  t.sw.c1 == false) = true := by decide +kernel

theorem test_fidivM16_A43 : holds (exec (.fidivM16 0x1000#32) (start 0x037F#16 [0x40008000000000000000#80] [0x00#8,
  0x00#8])) (fun t => t.st 0#3 == 0x7FFF8000000000000000#80 && raised t == [.ze] &&
  t.sw.c1 == false) = true := by decide +kernel

theorem test_fisubM16_A44 : holds (exec (.fisubM16 0x1000#32) (start 0x037F#16 [0x40008000000000000000#80] [0x05#8,
  0x00#8])) (fun t => t.st 0#3 == 0xC000C000000000000000#80 && raised t == [] &&
  t.sw.c1 == false) = true := by decide +kernel

theorem test_fisubrM32_A45 : holds (exec (.fisubrM32 0x1000#32) (start 0x037F#16 [0x40008000000000000000#80]
  [0x05#8, 0x00#8, 0x00#8, 0x00#8])) (fun t => t.st 0#3 == 0x4000C000000000000000#80 && raised t == [] &&
  t.sw.c1 == false) = true := by decide +kernel

theorem test_faddM64_R41faddM64 : holds (exec (.faddM64 0x1000#32) (start 0x037F#16 [0x4000A000000000000000#80]
  [0x00#8, 0x00#8, 0x00#8, 0x00#8, 0x00#8, 0x00#8, 0xE8#8, 0x3F#8])) (fun t => t.st 0#3 ==
  0x4000D000000000000000#80 && raised t == [] && t.sw.c1 == false) = true := by decide +kernel

theorem test_faddSti_R41faddSti : holds (exec (.faddSti 1#3) (start 0x037F#16 [0x4000A000000000000000#80,
  0x3FFEC000000000000000#80] [])) (fun t => t.st 1#3 == 0x4000D000000000000000#80 &&
  t.st 0#3 == 0x4000A000000000000000#80 && raised t == [] && t.sw.c1 == false) = true := by decide +kernel

theorem test_fiaddM32_R41faddI32 : holds (exec (.fiaddM32 0x1000#32) (start 0x037F#16 [0x4000A000000000000000#80]
  [0x03#8, 0x00#8, 0x00#8, 0x00#8])) (fun t => t.st 0#3 == 0x4001B000000000000000#80 && raised t == [] &&
  t.sw.c1 == false) = true := by decide +kernel

theorem test_fdivM32_R41fdivM32 : holds (exec (.fdivM32 0x1000#32) (start 0x037F#16 [0x4000A000000000000000#80]
  [0x00#8, 0x00#8, 0x40#8, 0x3F#8])) (fun t => t.st 0#3 == 0x4000D555555555555555#80 && raised t == [.pe] &&
  t.sw.c1 == false) = true := by decide +kernel

theorem test_fdivM64_R41fdivM64 : holds (exec (.fdivM64 0x1000#32) (start 0x037F#16 [0x4000A000000000000000#80]
  [0x00#8, 0x00#8, 0x00#8, 0x00#8, 0x00#8, 0x00#8, 0xE8#8, 0x3F#8])) (fun t => t.st 0#3 ==
  0x4000D555555555555555#80 && raised t == [.pe] && t.sw.c1 == false) = true := by decide +kernel

theorem test_fdivp_R41fdivp : holds (exec (.fdivp 1#3) (start 0x037F#16 [0x4000A000000000000000#80,
  0x3FFEC000000000000000#80] [])) (fun t => t.st 0#3 == 0x3FFD999999999999999A#80 && raised t == [.pe] &&
  t.sw.c1 == true && t.sw.top == 7#3) = true := by decide +kernel

theorem test_fidivM32_R41fdivI32 : holds (exec (.fidivM32 0x1000#32) (start 0x037F#16 [0x4000A000000000000000#80]
  [0x03#8, 0x00#8, 0x00#8, 0x00#8])) (fun t => t.st 0#3 == 0x3FFED555555555555555#80 && raised t == [.pe] &&
  t.sw.c1 == false) = true := by decide +kernel

theorem test_fdivrM32_R41fdivrM32 : holds (exec (.fdivrM32 0x1000#32) (start 0x037F#16 [0x4000A000000000000000#80]
  [0x00#8, 0x00#8, 0x40#8, 0x3F#8])) (fun t => t.st 0#3 == 0x3FFD999999999999999A#80 && raised t == [.pe] &&
  t.sw.c1 == true) = true := by decide +kernel

theorem test_fdivrp_R41fdivrp : holds (exec (.fdivrp 1#3) (start 0x037F#16 [0x4000A000000000000000#80,
  0x3FFEC000000000000000#80] [])) (fun t => t.st 0#3 == 0x4000D555555555555555#80 && raised t == [.pe] &&
  t.sw.c1 == false && t.sw.top == 7#3) = true := by decide +kernel

theorem test_fidivrM16_R41fdivrI16 : holds (exec (.fidivrM16 0x1000#32) (start 0x037F#16
  [0x4000A000000000000000#80] [0x03#8, 0x00#8])) (fun t => t.st 0#3 == 0x3FFF999999999999999A#80 &&
  raised t == [.pe] && t.sw.c1 == true) = true := by decide +kernel

theorem test_fidivrM32_R41fdivrI32 : holds (exec (.fidivrM32 0x1000#32) (start 0x037F#16
  [0x4000A000000000000000#80] [0x03#8, 0x00#8, 0x00#8, 0x00#8])) (fun t => t.st 0#3 == 0x3FFF999999999999999A#80 &&
  raised t == [.pe] && t.sw.c1 == true) = true := by decide +kernel

theorem test_fmulM32_R41fmulM32 : holds (exec (.fmulM32 0x1000#32) (start 0x037F#16 [0x4000A000000000000000#80]
  [0x00#8, 0x00#8, 0x40#8, 0x3F#8])) (fun t => t.st 0#3 == 0x3FFFF000000000000000#80 && raised t == [] &&
  t.sw.c1 == false) = true := by decide +kernel

theorem test_fmulM64_R41fmulM64 : holds (exec (.fmulM64 0x1000#32) (start 0x037F#16 [0x4000A000000000000000#80]
  [0x00#8, 0x00#8, 0x00#8, 0x00#8, 0x00#8, 0x00#8, 0xE8#8, 0x3F#8])) (fun t => t.st 0#3 ==
  0x3FFFF000000000000000#80 && raised t == [] && t.sw.c1 == false) = true := by decide +kernel

theorem test_fmulSti_R41fmulSti : holds (exec (.fmulSti 1#3) (start 0x037F#16 [0x4000A000000000000000#80,
  0x3FFEC000000000000000#80] [])) (fun t => t.st 1#3 == 0x3FFFF000000000000000#80 &&
  t.st 0#3 == 0x4000A000000000000000#80 && raised t == [] && t.sw.c1 == false) = true := by decide +kernel

theorem test_fmulp_R41fmulp : holds (exec (.fmulp 1#3) (start 0x037F#16 [0x4000A000000000000000#80,
  0x3FFEC000000000000000#80] [])) (fun t => t.st 0#3 == 0x3FFFF000000000000000#80 && raised t == [] &&
  t.sw.c1 == false && t.sw.top == 7#3) = true := by decide +kernel

theorem test_fimulM16_R41fmulI16 : holds (exec (.fimulM16 0x1000#32) (start 0x037F#16 [0x4000A000000000000000#80]
  [0x03#8, 0x00#8])) (fun t => t.st 0#3 == 0x4001F000000000000000#80 && raised t == [] &&
  t.sw.c1 == false) = true := by decide +kernel

theorem test_fsubM32_R41fsubM32 : holds (exec (.fsubM32 0x1000#32) (start 0x037F#16 [0x4000A000000000000000#80]
  [0x00#8, 0x00#8, 0x40#8, 0x3F#8])) (fun t => t.st 0#3 == 0x3FFFE000000000000000#80 && raised t == [] &&
  t.sw.c1 == false) = true := by decide +kernel

theorem test_fsubM64_R41fsubM64 : holds (exec (.fsubM64 0x1000#32) (start 0x037F#16 [0x4000A000000000000000#80]
  [0x00#8, 0x00#8, 0x00#8, 0x00#8, 0x00#8, 0x00#8, 0xE8#8, 0x3F#8])) (fun t => t.st 0#3 ==
  0x3FFFE000000000000000#80 && raised t == [] && t.sw.c1 == false) = true := by decide +kernel

theorem test_fsubp_R41fsubp : holds (exec (.fsubp 1#3) (start 0x037F#16 [0x4000A000000000000000#80,
  0x3FFEC000000000000000#80] [])) (fun t => t.st 0#3 == 0xBFFFE000000000000000#80 && raised t == [] &&
  t.sw.c1 == false && t.sw.top == 7#3) = true := by decide +kernel

theorem test_fisubM32_R41fsubI32 : holds (exec (.fisubM32 0x1000#32) (start 0x037F#16 [0x4000A000000000000000#80]
  [0x03#8, 0x00#8, 0x00#8, 0x00#8])) (fun t => t.st 0#3 == 0xBFFE8000000000000000#80 && raised t == [] &&
  t.sw.c1 == false) = true := by decide +kernel

theorem test_fsubrM64_R41fsubrM64 : holds (exec (.fsubrM64 0x1000#32) (start 0x037F#16 [0x4000A000000000000000#80]
  [0x00#8, 0x00#8, 0x00#8, 0x00#8, 0x00#8, 0x00#8, 0xE8#8, 0x3F#8])) (fun t => t.st 0#3 ==
  0xBFFFE000000000000000#80 && raised t == [] && t.sw.c1 == false) = true := by decide +kernel

theorem test_fsubrp_R41fsubrp : holds (exec (.fsubrp 1#3) (start 0x037F#16 [0x4000A000000000000000#80,
  0x3FFEC000000000000000#80] [])) (fun t => t.st 0#3 == 0x3FFFE000000000000000#80 && raised t == [] &&
  t.sw.c1 == false && t.sw.top == 7#3) = true := by decide +kernel

theorem test_fisubrM16_R41fsubrI16 : holds (exec (.fisubrM16 0x1000#32) (start 0x037F#16
  [0x4000A000000000000000#80] [0x03#8, 0x00#8])) (fun t => t.st 0#3 == 0x3FFE8000000000000000#80 &&
  raised t == [] && t.sw.c1 == false) = true := by decide +kernel

theorem test_fabs_B1 : holds (exec (.fabs) (start 0x037F#16 [0x80000000000000000000#80] [])) (fun t => t.st 0#3 ==
  0x00000000000000000000#80 && raised t == [] && t.sw.c1 == false) = true := by decide +kernel

theorem test_fchs_B3 : holds (exec (.fchs) (start 0x037F#16 [0x3FFF8000000000000000#80] [])) (fun t => t.st 0#3 ==
  0xBFFF8000000000000000#80 && raised t == [] && t.sw.c1 == false) = true := by decide +kernel

theorem test_fsqrt_B5 : holds (exec (.fsqrt) (start 0x037F#16 [0x40008000000000000000#80] [])) (fun t => t.st 0#3
  == 0x3FFFB504F333F9DE6484#80 && raised t == [.pe] && t.sw.c1 == false) = true := by decide +kernel

theorem test_fsqrt_B6b : holds (exec (.fsqrt) (start 0x007F#16 [0x40008000000000000000#80] [])) (fun t => t.st 0#3
  == 0x3FFFB504F30000000000#80 && raised t == [.pe] && t.sw.c1 == false) = true := by decide +kernel

theorem test_frndint_B10 : holds (exec (.frndint) (start 0x037F#16 [0x4000A000000000000000#80] [])) (fun t => t.st
  0#3 == 0x40008000000000000000#80 && raised t == [.pe] && t.sw.c1 == false) = true := by decide +kernel

theorem test_frndint_R305e : holds (exec (.frndint) (start 0x037F#16 [0x7FFEFFFFFFFFFFFFFFFF#80] [])) (fun t =>
  t.st 0#3 == 0x7FFEFFFFFFFFFFFFFFFF#80 && raised t == [] && t.sw.c1 == false) = true := by decide +kernel

theorem test_fscale_B17 : holds (exec (.fscale) (start 0x037F#16 [0x3FFF8000000000000000#80,
  0x4000F000000000000000#80] [])) (fun t => t.st 0#3 == 0x40028000000000000000#80 &&
  t.st 1#3 == 0x4000F000000000000000#80 && raised t == [] && t.sw.c1 == false) = true := by decide +kernel

theorem test_fscale_R306d : holds (exec (.fscale) (start 0x037F#16 [0x3FFFC000000000000000#80,
  0xFFFEFFFFFFFFFFFFFFFF#80] [])) (fun t => t.st 0#3 == 0x00000000000000000000#80 && raised t == [.ue, .pe] &&
  t.sw.c1 == false) = true := by decide +kernel

theorem test_fxtract_B24 : holds (exec (.fxtract) (start 0x037F#16 [0x4002C000000000000000#80] [])) (fun t => t.st
  0#3 == 0x3FFFC000000000000000#80 && t.st 1#3 == 0x4000C000000000000000#80 && raised t == [] &&
  t.sw.c1 == false && t.sw.top == 6#3) = true := by decide +kernel

theorem test_fxtract_B28 : holds (exec (.fxtract) (start 0x037F#16 [0x00000000000000000001#80] [])) (fun t => t.st
  0#3 == 0x3FFF8000000000000000#80 && t.st 1#3 == 0xC00D807A000000000000#80 && raised t == [.de] &&
  t.sw.c1 == false) = true := by decide +kernel

theorem test_fprem_B29 : holds (exec (.fprem) (start 0x037F#16 [0x4001E000000000000000#80,
  0x4000C000000000000000#80] [])) (fun t => t.st 0#3 == 0x3FFF8000000000000000#80 && raised t == [] && [t.sw.c3,
  t.sw.c2, t.sw.c1, t.sw.c0] == [true, false, false, false]) = true := by decide +kernel

theorem test_fprem_B38 : holds (exec (.fprem) (start 0x037F#16 [0x7FFF8000000000000000#80,
  0x4000C000000000000000#80] [])) (fun t => t.st 0#3 == 0xFFFFC000000000000000#80 && raised t == [.ie] &&
  t.sw.c1 == false) = true := by decide +kernel

theorem test_fprem1_B30 : holds (exec (.fprem1) (start 0x037F#16 [0x4001E000000000000000#80,
  0x4000C000000000000000#80] [])) (fun t => t.st 0#3 == 0x3FFF8000000000000000#80 && raised t == [] && [t.sw.c3,
  t.sw.c2, t.sw.c1, t.sw.c0] == [true, false, false, false]) = true := by decide +kernel

theorem test_fprem1_R304b : holds (exec (.fprem1) (start 0x037F#16 [0x4001A000000000000000#80,
  0x40008000000000000000#80] [])) (fun t => t.st 0#3 == 0x3FFF8000000000000000#80 && raised t == [] && [t.sw.c3,
  t.sw.c2, t.sw.c1, t.sw.c0] == [true, false, false, false]) = true := by decide +kernel

theorem test_fldM32_T1 : holds (exec (.fldM32 0x1000#32) (start 0x037F#16 [] [0x00#8, 0x00#8, 0x80#8,
  0x3F#8])) (fun t => t.st 0#3 == 0x3FFF8000000000000000#80 && raised t == [] && t.sw.c1 == false &&
  t.sw.top == 7#3) = true := by decide +kernel

theorem test_fldM32_T4 : holds (exec (.fldM32 0x1000#32) (start 0x037F#16 [] [0x01#8, 0x00#8, 0xC0#8,
  0x7F#8])) (fun t => t.st 0#3 == 0x7FFFC000010000000000#80 && raised t == [] &&
  t.sw.c1 == false) = true := by decide +kernel

theorem test_fldM64_T5 : holds (exec (.fldM64 0x1000#32) (start 0x037F#16 [] [0x00#8, 0x00#8, 0x00#8, 0x00#8,
  0x00#8, 0x00#8, 0x04#8, 0xC0#8])) (fun t => t.st 0#3 == 0xC000A000000000000000#80 && raised t == [] &&
  t.sw.c1 == false) = true := by decide +kernel

theorem test_fldM80_T7 : holds (exec (.fldM80 0x1000#32) (start 0x037F#16 [] [0x01#8, 0x00#8, 0x00#8, 0x00#8,
  0x00#8, 0x00#8, 0x00#8, 0x80#8, 0xFF#8, 0x7F#8])) (fun t => t.st 0#3 == 0x7FFF8000000000000001#80 &&
  raised t == [] && t.sw.c1 == false) = true := by decide +kernel

theorem test_fildM16_T8 : holds (exec (.fildM16 0x1000#32) (start 0x037F#16 [] [0xFE#8,
  0xFF#8])) (fun t => t.st 0#3 == 0xC0008000000000000000#80 && raised t == [] &&
  t.sw.c1 == false) = true := by decide +kernel

theorem test_fildM32_T9 : holds (exec (.fildM32 0x1000#32) (start 0x037F#16 [] [0xFF#8, 0xFF#8, 0xFF#8,
  0x7F#8])) (fun t => t.st 0#3 == 0x401DFFFFFFFE00000000#80 && raised t == [] &&
  t.sw.c1 == false) = true := by decide +kernel

theorem test_fildM64_T10 : holds (exec (.fildM64 0x1000#32) (start 0x037F#16 [] [0x00#8, 0x00#8, 0x00#8, 0x00#8,
  0x00#8, 0x00#8, 0x00#8, 0x80#8])) (fun t => t.st 0#3 == 0xC03E8000000000000000#80 && raised t == [] &&
  t.sw.c1 == false) = true := by decide +kernel

theorem test_fldSt_T12 : holds (exec (.fldSt 1#3) (start 0x037F#16 [0x3FFF8000000000000000#80,
  0x40008000000000000000#80] [])) (fun t => t.st 0#3 == 0x40008000000000000000#80 &&
  t.st 1#3 == 0x3FFF8000000000000000#80 && t.st 2#3 == 0x40008000000000000000#80 && raised t == [] &&
  t.sw.c1 == false && t.sw.top == 5#3) = true := by decide +kernel

theorem test_fld1_T13 : holds (exec (.fld1) (start 0x037F#16 [0x3FFF8000000000000000#80, 0x3FFF8000000000000000#80,
  0x3FFF8000000000000000#80, 0x3FFF8000000000000000#80, 0x3FFF8000000000000000#80, 0x3FFF8000000000000000#80,
  0x3FFF8000000000000000#80, 0x3FFF8000000000000000#80] [])) (fun t => t.st 0#3 == 0xFFFFC000000000000000#80 &&
  raised t == [.ie, .sf] && t.sw.c1 == true && t.sw.top == 7#3) = true := by decide +kernel

theorem test_fistM16_T14 : holds (exec (.fistM16 0x1000#32) (start 0x037F#16 [0x4000A000000000000000#80] [])) (fun
  t => t.st 0#3 == 0x4000A000000000000000#80 && raised t == [.pe] && t.sw.c1 == false &&
  t.bytesAt 0x1000#32 2 == [0x02#8, 0x00#8]) = true := by decide +kernel

theorem test_fistpM32_T16 : holds (exec (.fistpM32 0x1000#32) (start 0x0F7F#16 [0xC000B000000000000000#80] []))
  (fun t => raised t == [.pe] && t.sw.c1 == false && t.sw.top == 0#3 && t.bytesAt 0x1000#32 4 == [0xFE#8, 0xFF#8,
  0xFF#8, 0xFF#8]) = true := by decide +kernel

theorem test_fistpM16_T18 : holds (exec (.fistpM16 0x1000#32) (start 0x037F#16 [0x400E9C40000000000000#80] []))
  (fun t => raised t == [.ie] && t.sw.c1 == false && t.sw.top == 0#3 && t.bytesAt 0x1000#32 2 == [0x00#8,
  0x80#8]) = true := by decide +kernel

theorem test_fistpM16_T23 : holds (exec (.fistpM16 0x1000#32) (start 0x037F#16 [] [])) (fun t => raised t == [.ie,
  .sf] && t.sw.c1 == false && t.sw.top == 1#3 && t.bytesAt 0x1000#32 2 == [0x00#8,
  0x80#8]) = true := by decide +kernel

theorem test_fistpM64_T22 : holds (exec (.fistpM64 0x1000#32) (start 0x037F#16 [0x7FFFC000000000000000#80] []))
  (fun t => raised t == [.ie] && t.sw.c1 == false && t.sw.top == 0#3 && t.bytesAt 0x1000#32 8 == [0x00#8, 0x00#8,
  0x00#8, 0x00#8, 0x00#8, 0x00#8, 0x00#8, 0x80#8]) = true := by decide +kernel

theorem test_fbld_T24 : holds (exec (.fbld 0x1000#32) (start 0x037F#16 [] [0x23#8, 0x01#8, 0x00#8, 0x00#8, 0x00#8,
  0x00#8, 0x00#8, 0x00#8, 0x00#8, 0x80#8])) (fun t => t.st 0#3 == 0xC005F600000000000000#80 && raised t == [] &&
  t.sw.c1 == false) = true := by decide +kernel

theorem test_fbld_T26 : holds (exec (.fbld 0x1000#32) (start 0x037F#16 [] [0x99#8, 0x99#8, 0x99#8, 0x99#8, 0x99#8,
  0x99#8, 0x99#8, 0x99#8, 0x99#8, 0x00#8])) (fun t => t.st 0#3 == 0x403ADE0B6B3A763FFFF0#80 && raised t == [] &&
  t.sw.c1 == false) = true := by decide +kernel

theorem test_fbstp_T28 : holds (exec (.fbstp 0x1000#32) (start 0x037F#16 [0xC005F700000000000000#80] [])) (fun t =>
  raised t == [.pe] && t.sw.c1 == true && t.sw.top == 0#3 && t.bytesAt 0x1000#32 10 == [0x24#8, 0x01#8, 0x00#8,
  0x00#8, 0x00#8, 0x00#8, 0x00#8, 0x00#8, 0x00#8, 0x80#8]) = true := by decide +kernel

theorem test_fbstp_T30 : holds (exec (.fbstp 0x1000#32) (start 0x037F#16 [0xBFFD8000000000000000#80] [])) (fun t =>
  raised t == [.pe] && t.sw.c1 == false && t.sw.top == 0#3 && t.bytesAt 0x1000#32 10 == [0x00#8, 0x00#8, 0x00#8,
  0x00#8, 0x00#8, 0x00#8, 0x00#8, 0x00#8, 0x00#8, 0x80#8]) = true := by decide +kernel

theorem test_fstM32_T31 : holds (exec (.fstM32 0x1000#32) (start 0x037F#16 [0x3FFDAAAAAAAAAAAAAAAB#80] [])) (fun t
  => raised t == [.pe] && t.sw.c1 == true && t.sw.top == 7#3 && t.bytesAt 0x1000#32 4 == [0xAB#8, 0xAA#8, 0xAA#8,
  0x3E#8]) = true := by decide +kernel

theorem test_fstM32_R363c : holds (exec (.fstM32 0x1000#32) (start 0x037F#16 [0x3F6A8000000000000000#80] [])) (fun
  t => raised t == [] && t.sw.c1 == false && t.bytesAt 0x1000#32 4 == [0x01#8, 0x00#8, 0x00#8,
  0x00#8]) = true := by decide +kernel

theorem test_fstM64_T32 : holds (exec (.fstM64 0x1000#32) (start 0x037F#16 [0x3FFDAAAAAAAAAAAAAAAB#80] [])) (fun t
  => raised t == [.pe] && t.sw.c1 == false && t.bytesAt 0x1000#32 8 == [0x55#8, 0x55#8, 0x55#8, 0x55#8, 0x55#8,
  0x55#8, 0xD5#8, 0x3F#8]) = true := by decide +kernel

theorem test_fstpM80_T40 : holds (exec (.fstpM80 0x1000#32) (start 0x037F#16 [0x7FFF8000000000000001#80] [])) (fun
  t => raised t == [] && t.sw.c1 == false && t.sw.top == 0#3 && t.bytesAt 0x1000#32 10 == [0x01#8, 0x00#8, 0x00#8,
  0x00#8, 0x00#8, 0x00#8, 0x00#8, 0x80#8, 0xFF#8, 0x7F#8]) = true := by decide +kernel

theorem test_fstpM64_R364d : holds (exec (.fstpM64 0x1000#32) (start 0x037F#16 [0x43FF8000000000000000#80] []))
  (fun t => raised t == [.oe, .pe] && t.sw.c1 == true && t.sw.top == 0#3 && t.bytesAt 0x1000#32 8 == [0x00#8,
  0x00#8, 0x00#8, 0x00#8, 0x00#8, 0x00#8, 0xF0#8, 0x7F#8]) = true := by decide +kernel

theorem test_fstpSt_T42 : holds (exec (.fstpSt 1#3) (start 0x037F#16 [0x3FFF8000000000000000#80,
  0x40008000000000000000#80] [])) (fun t => t.st 0#3 == 0x3FFF8000000000000000#80 && raised t == [] &&
  t.sw.c1 == false && t.sw.top == 7#3) = true := by decide +kernel

theorem test_fstSt_T43 : holds (exec (.fstSt 2#3) (start 0x037F#16 [0x3FFF8000000000000000#80,
  0x40008000000000000000#80] [])) (fun t => t.st 2#3 == 0x3FFF8000000000000000#80 && raised t == [] &&
  t.sw.c1 == false && (t.tag 0#3 == .valid)) = true := by decide +kernel

theorem test_fxch_T44 : holds (exec (.fxch 1#3) (start 0x037F#16 [0x3FFF8000000000000000#80,
  0x40008000000000000000#80] [])) (fun t => t.st 0#3 == 0x40008000000000000000#80 &&
  t.st 1#3 == 0x3FFF8000000000000000#80 && raised t == [] && t.sw.c1 == false) = true := by decide +kernel

theorem test_fxch_T45 : holds (exec (.fxch 1#3) (start 0x037F#16 [0x3FFF8000000000000000#80] [])) (fun t => t.st
  0#3 == 0xFFFFC000000000000000#80 && t.st 1#3 == 0x3FFF8000000000000000#80 && raised t == [.ie, .sf] &&
  t.sw.c1 == false) = true := by decide +kernel

theorem test_fcmovb_T46 : holds (exec (.fcmovb 1#3) (withHostFlags false false true (start 0x037F#16
  [0x4001A000000000000000#80, 0x4000C000000000000000#80] []))) (fun t => t.st 0#3 == 0x4000C000000000000000#80 &&
  raised t == [] && t.sw.c1 == false) = true := by decide +kernel

theorem test_fcmovb_T50 : holds (exec (.fcmovb 1#3) (withHostFlags false false false (start 0x037F#16
  [0x4001A000000000000000#80] []))) (fun t => t.st 0#3 == 0xFFFFC000000000000000#80 && raised t == [.ie, .sf] &&
  t.sw.c1 == false) = true := by decide +kernel

theorem test_fcmovnbe_T48 : holds (exec (.fcmovnbe 1#3) (withHostFlags false false false (start 0x037F#16
  [0x4001A000000000000000#80, 0x4000C000000000000000#80] []))) (fun t => t.st 0#3 == 0x4000C000000000000000#80 &&
  raised t == [] && t.sw.c1 == false) = true := by decide +kernel

theorem test_fcmovu_T49 : holds (exec (.fcmovu 1#3) (withHostFlags false true false (start 0x037F#16
  [0x4001A000000000000000#80, 0x4000C000000000000000#80] []))) (fun t => t.st 0#3 == 0x4000C000000000000000#80 &&
  raised t == [] && t.sw.c1 == false) = true := by decide +kernel

theorem test_fldl2t_Cfldl2t037F : holds (exec (.fldl2t) (start 0x037F#16 [] [])) (fun t => t.st 0#3 ==
  0x4000D49A784BCD1B8AFE#80 && raised t == [] && t.sw.c1 == false) = true := by decide +kernel

theorem test_fldl2e_Cfldl2e037F : holds (exec (.fldl2e) (start 0x037F#16 [] [])) (fun t => t.st 0#3 ==
  0x3FFFB8AA3B295C17F0BC#80 && raised t == [] && t.sw.c1 == false) = true := by decide +kernel

theorem test_fldpi_Cfldpi037F : holds (exec (.fldpi) (start 0x037F#16 [] [])) (fun t => t.st 0#3 ==
  0x4000C90FDAA22168C235#80 && raised t == [] && t.sw.c1 == false) = true := by decide +kernel

theorem test_fldpi_Cfldpi0F7F : holds (exec (.fldpi) (start 0x0F7F#16 [] [])) (fun t => t.st 0#3 ==
  0x4000C90FDAA22168C234#80 && raised t == [] && t.sw.c1 == false) = true := by decide +kernel

theorem test_fldlg2_Cfldlg2037F : holds (exec (.fldlg2) (start 0x037F#16 [] [])) (fun t => t.st 0#3 ==
  0x3FFD9A209A84FBCFF799#80 && raised t == [] && t.sw.c1 == false) = true := by decide +kernel

theorem test_fldln2_Cfldln2037F : holds (exec (.fldln2) (start 0x037F#16 [] [])) (fun t => t.st 0#3 ==
  0x3FFEB17217F7D1CF79AC#80 && raised t == [] && t.sw.c1 == false) = true := by decide +kernel

theorem test_f2xm1_X1 : holds (exec (.f2xm1) (start 0x037F#16 [0x00000000000000000000#80] [])) (fun t => t.st 0#3
  == 0x00000000000000000000#80 && raised t == [] && t.sw.c1 == false) = true := by decide +kernel

theorem test_fsin_X4 : holds (exec (.fsin) (start 0x037F#16 [0x00000000000000000000#80] [])) (fun t => t.st 0#3 ==
  0x00000000000000000000#80 && raised t == [] && t.sw.c1 == false && (t.sw.c2 == false)) = true := by decide +kernel

theorem test_fsin_X7 : holds (exec (.fsin) (start 0x037F#16 [0x403E8000000000000000#80] [])) (fun t => t.st 0#3 ==
  0x403E8000000000000000#80 && raised t == [] && (t.sw.c2 == true)) = true := by decide +kernel

theorem test_fcos_X8 : holds (exec (.fcos) (start 0x037F#16 [0x00000000000000000000#80] [])) (fun t => t.st 0#3 ==
  0x3FFF8000000000000000#80 && raised t == [] && t.sw.c1 == false && (t.sw.c2 == false)) = true := by decide +kernel

theorem test_fptan_X10 : holds (exec (.fptan) (start 0x037F#16 [0x00000000000000000000#80] [])) (fun t => t.st 0#3
  == 0x3FFF8000000000000000#80 && t.st 1#3 == 0x00000000000000000000#80 && raised t == [] && t.sw.c1 == false &&
  t.sw.top == 6#3 && (t.sw.c2 == false)) = true := by decide +kernel

theorem test_fsincos_X14 : holds (exec (.fsincos) (start 0x037F#16 [0x00000000000000000000#80] [])) (fun t => t.st
  0#3 == 0x3FFF8000000000000000#80 && t.st 1#3 == 0x00000000000000000000#80 && raised t == [] &&
  t.sw.c1 == false && t.sw.top == 6#3 && (t.sw.c2 == false)) = true := by decide +kernel

theorem test_fpatan_X16 : holds (exec (.fpatan) (start 0x037F#16 [0x3FFF8000000000000000#80,
  0x00000000000000000000#80] [])) (fun t => t.st 0#3 == 0x00000000000000000000#80 && raised t == [] &&
  t.sw.c1 == false && t.sw.top == 7#3) = true := by decide +kernel

theorem test_fyl2x_X17 : holds (exec (.fyl2x) (start 0x037F#16 [0x3FFF8000000000000000#80,
  0x4000C000000000000000#80] [])) (fun t => t.st 0#3 == 0x00000000000000000000#80 && raised t == [] &&
  t.sw.c1 == false && t.sw.top == 7#3) = true := by decide +kernel

theorem test_fyl2x_X23 : holds (exec (.fyl2x) (start 0x037F#16 [0x7FFF8000000000000000#80,
  0x4000C000000000000000#80] [])) (fun t => t.st 0#3 == 0x7FFF8000000000000000#80 && raised t == [] &&
  t.sw.c1 == false && t.sw.top == 7#3) = true := by decide +kernel

theorem test_fyl2xp1_X24 : holds (exec (.fyl2xp1) (start 0x037F#16 [0x00000000000000000000#80,
  0x4000C000000000000000#80] [])) (fun t => t.st 0#3 == 0x00000000000000000000#80 && raised t == [] &&
  t.sw.c1 == false && t.sw.top == 7#3) = true := by decide +kernel

theorem test_fninit_K1 : holds (exec (.fninit) (start 0x037F#16 [0x3FFF8000000000000000#80] [])) (fun t => raised t
  == [] && [t.sw.c3, t.sw.c2, t.sw.c1, t.sw.c0] == [false, false, false, false] && t.sw.top == 0#3 &&
  (t.cw == 0x037F#16) && (t.swWord == 0#16) && (t.tagWord == 0xFFFF#16) &&
  (t.reg 7#3 == 0x3FFF8000000000000000#80)) = true := by decide +kernel

theorem test_fnstcw_K2 : holds (exec (.fnstcw 0x1000#32) (start 0x0A7F#16 [] [])) (fun t => raised t == [] &&
  t.bytesAt 0x1000#32 2 == [0x7F#8, 0x0A#8]) = true := by decide +kernel

theorem test_fldcw_K3 : holds (exec (.fldcw 0x1000#32) (start 0x037F#16 [] [0xFF#8,
  0xFF#8])) (fun t => raised t == [] && (t.cw == 0x1F7F#16)) = true := by decide +kernel

theorem test_fnstswM16_K5 : holds (exec (.fnstswM16 0x1000#32) (start 0x037F#16 [0x3FFF8000000000000000#80,
  0x40008000000000000000#80, 0x4000C000000000000000#80] [])) (fun t => raised t == [] &&
  t.bytesAt 0x1000#32 2 == [0x00#8, 0x28#8]) = true := by decide +kernel

theorem test_fincstp_K7 : holds (exec (.fincstp) (start 0x037F#16 [0x3FFF8000000000000000#80,
  0x40008000000000000000#80] [])) (fun t => t.st 0#3 == 0x40008000000000000000#80 && raised t == [] &&
  t.sw.c1 == false && t.sw.top == 7#3 && (t.tag 6#3 == .valid)) = true := by decide +kernel

theorem test_fdecstp_K8 : holds (exec (.fdecstp) (start 0x037F#16 [0x3FFF8000000000000000#80,
  0x40008000000000000000#80] [])) (fun t => t.st 1#3 == 0x3FFF8000000000000000#80 &&
  t.st 2#3 == 0x40008000000000000000#80 && raised t == [] && t.sw.c1 == false &&
  t.sw.top == 5#3) = true := by decide +kernel

theorem test_ffree_K11 : holds (exec (.ffree 1#3) (start 0x037F#16 [0x3FFF8000000000000000#80,
  0x40008000000000000000#80] [])) (fun t => raised t == [] && (t.tagWord == 0xCFFF#16) &&
  (t.reg 7#3 == 0x40008000000000000000#80)) = true := by decide +kernel

theorem test_fldenv_K18 : holds (exec (.fldenv 0x1000#32) (start 0x037F#16 [0x3FFF8000000000000000#80] [0x7F#8,
  0x03#8, 0x00#8, 0x00#8, 0x80#8, 0xB8#8, 0x00#8, 0x00#8, 0x00#8, 0x00#8, 0x00#8,
  0x00#8])) (fun t => raised t == [] && t.sw.c1 == false && t.sw.top == 7#3 && (t.es == false) &&
  (t.tag 7#3 == .valid) && (t.tag 0#3 == .zero) && (t.swWord == 0x3800#16)) = true := by decide +kernel

theorem test_fndisi_K20 : holds (exec (.fndisi) (start 0x037F#16 [0x3FFF8000000000000000#80] [])) (fun t => raised
  t == [] && t.sw.c1 == false && (t.pc == 2#32) && (t.cw == 0x037F#16)) = true := by decide +kernel

theorem test_fnstenvO66_FS66 : holds (exec (.fnstenvO66 0x1000#32) (start 0x037F#16 [0x3FFF8000000000000000#80]
  [])) (fun t => raised t == [] && t.bytesAt 0x1000#32 6 == [0x7F#8, 0x03#8, 0x00#8, 0x38#8, 0xFF#8,
  0x3F#8]) = true := by decide +kernel

theorem test_fcomSt_M1 : holds (exec (.fcomSt 1#3) (start 0x037F#16 [0x4001A000000000000000#80,
  0x4000C000000000000000#80] [])) (fun t => raised t == [] && [t.sw.c3, t.sw.c2, t.sw.c1, t.sw.c0] == [false,
  false, false, false] && t.sw.top == 6#3) = true := by decide +kernel

theorem test_fcomSt_M12 : holds (exec (.fcomSt 1#3) (start 0x037F#16 [0x4001A000000000000000#80] [])) (fun t =>
  raised t == [.ie, .sf] && [t.sw.c3, t.sw.c2, t.sw.c1, t.sw.c0] == [true, true, false,
  true]) = true := by decide +kernel

theorem test_fucom_M6 : holds (exec (.fucom 1#3) (start 0x037F#16 [0x7FFFC000000000000000#80,
  0x4000C000000000000000#80] [])) (fun t => raised t == [] && [t.sw.c3, t.sw.c2, t.sw.c1, t.sw.c0] == [true, true,
  false, true] && t.sw.top == 6#3) = true := by decide +kernel

theorem test_fcompSt_M9 : holds (exec (.fcompSt 1#3) (start 0x037F#16 [0x4001A000000000000000#80,
  0x4000C000000000000000#80] [])) (fun t => raised t == [] && [t.sw.c3, t.sw.c2, t.sw.c1, t.sw.c0] == [false,
  false, false, false] && t.sw.top == 7#3) = true := by decide +kernel

theorem test_fcompp_M10 : holds (exec (.fcompp) (start 0x037F#16 [0x4001A000000000000000#80,
  0x4000C000000000000000#80] [])) (fun t => raised t == [] && [t.sw.c3, t.sw.c2, t.sw.c1, t.sw.c0] == [false,
  false, false, false] && t.sw.top == 0#3) = true := by decide +kernel

theorem test_fucompp_M11 : holds (exec (.fucompp) (start 0x037F#16 [0x4000C000000000000000#80,
  0x4001A000000000000000#80] [])) (fun t => raised t == [] && [t.sw.c3, t.sw.c2, t.sw.c1, t.sw.c0] == [false,
  false, false, true] && t.sw.top == 0#3) = true := by decide +kernel

theorem test_fcomi_M15 : holds (exec (.fcomi 1#3) (start 0x037F#16 [0x4001A000000000000000#80,
  0x4000C000000000000000#80] [])) (fun t => raised t == [] && [t.sw.c3, t.sw.c2, t.sw.c1, t.sw.c0] == [false,
  false, false, false] && t.sw.top == 6#3 && ((t.zf,t.pf,t.cf) == (false,false,false))) = true := by decide +kernel

theorem test_fcomi_M18 : holds (exec (.fcomi 1#3) (start 0x037F#16 [0x7FFFC000000000000000#80,
  0x4000C000000000000000#80] [])) (fun t => raised t == [.ie] && [t.sw.c3, t.sw.c2, t.sw.c1, t.sw.c0] == [false,
  false, false, false] && t.sw.top == 6#3 && ((t.zf,t.pf,t.cf) == (true,true,true))) = true := by decide +kernel

theorem test_fucomi_M19 : holds (exec (.fucomi 1#3) (start 0x037F#16 [0x7FFFC000000000000000#80,
  0x4000C000000000000000#80] [])) (fun t => raised t == [] && [t.sw.c3, t.sw.c2, t.sw.c1, t.sw.c0] == [false,
  false, false, false] && t.sw.top == 6#3 && ((t.zf,t.pf,t.cf) == (true,true,true))) = true := by decide +kernel

theorem test_fcomip_M20 : holds (exec (.fcomip 1#3) (start 0x037F#16 [0x4000C000000000000000#80,
  0x4001A000000000000000#80] [])) (fun t => raised t == [] && [t.sw.c3, t.sw.c2, t.sw.c1, t.sw.c0] == [false,
  false, false, false] && t.sw.top == 7#3 && ((t.zf,t.pf,t.cf) == (false,false,true))) = true := by decide +kernel

theorem test_fucomip_M21 : holds (exec (.fucomip 1#3) (start 0x037F#16 [0x4000C000000000000000#80,
  0x4000C000000000000000#80] [])) (fun t => raised t == [] && [t.sw.c3, t.sw.c2, t.sw.c1, t.sw.c0] == [false,
  false, false, false] && t.sw.top == 7#3 && ((t.zf,t.pf,t.cf) == (true,false,false))) = true := by decide +kernel

theorem test_ficomM16_M22 : holds (exec (.ficomM16 0x1000#32) (start 0x037F#16 [0x4001A000000000000000#80] [0x04#8,
  0x00#8])) (fun t => raised t == [] && [t.sw.c3, t.sw.c2, t.sw.c1, t.sw.c0] == [false, false, false,
  false]) = true := by decide +kernel

theorem test_ficompM32_M23 : holds (exec (.ficompM32 0x1000#32) (start 0x037F#16 [0x4001A000000000000000#80]
  [0x07#8, 0x00#8, 0x00#8, 0x00#8])) (fun t => raised t == [] && [t.sw.c3, t.sw.c2, t.sw.c1, t.sw.c0] == [false,
  false, false, true] && t.sw.top == 0#3) = true := by decide +kernel

theorem test_fcomM32_M24 : holds (exec (.fcomM32 0x1000#32) (start 0x037F#16 [0x4001A000000000000000#80] [0x00#8,
  0x00#8, 0xA0#8, 0x40#8])) (fun t => raised t == [] && [t.sw.c3, t.sw.c2, t.sw.c1, t.sw.c0] == [true, false,
  false, false]) = true := by decide +kernel

theorem test_fcompM64_M25 : holds (exec (.fcompM64 0x1000#32) (start 0x037F#16 [0x4001A000000000000000#80] [0x9C#8,
  0x75#8, 0x00#8, 0x88#8, 0x3C#8, 0xE4#8, 0x37#8, 0x7E#8])) (fun t => raised t == [] && [t.sw.c3, t.sw.c2, t.sw.c1,
  t.sw.c0] == [false, false, false, true] && t.sw.top == 0#3) = true := by decide +kernel

theorem test_ftst_M26 : holds (exec (.ftst) (start 0x037F#16 [0x4001A000000000000000#80] [])) (fun t => raised t ==
  [] && [t.sw.c3, t.sw.c2, t.sw.c1, t.sw.c0] == [false, false, false, false]) = true := by decide +kernel

theorem test_ftst_M29 : holds (exec (.ftst) (start 0x037F#16 [0x7FFFC000000000000000#80] [])) (fun t => raised t ==
  [.ie] && [t.sw.c3, t.sw.c2, t.sw.c1, t.sw.c0] == [true, true, false, true]) = true := by decide +kernel

theorem test_fxam_FX0 : holds (exec (.fxam) (start 0x037F#16 [0x4001A000000000000000#80] [])) (fun t => raised t ==
  [] && [t.sw.c3, t.sw.c2, t.sw.c1, t.sw.c0] == [false, true, false, false]) = true := by decide +kernel

theorem test_fxam_FXe : holds (exec (.fxam) (start 0x037F#16 [] [])) (fun t => raised t == [] && [t.sw.c3, t.sw.c2,
  t.sw.c1, t.sw.c0] == [true, false, false, true]) = true := by decide +kernel

/-! ### Witnesses: a state and operands that meet the hypotheses of each obligation -/

theorem next_of {o : Host.Outcome State Fault Refusal} {p : State → Bool} (h : holds o p = true) :
    ∃ t, o = .next t ∧ p t = true := by
  cases o with
  | next t => exact ⟨t, rfl, h⟩
  | fault f => exact absurd h (by simp [holds])
  | refused r => exact absurd h (by simp [holds])

theorem ready_of {i : Instr} {s : State}
    (h : (i.available s.cfg && !s.passesTop (i.length s.cfg) &&
      (match syncOf i with | .waiting => !s.pending | .noWait => !s.windowOpen)) = true) : Ready i s := by
  rw [Bool.and_eq_true, Bool.and_eq_true] at h
  refine ⟨h.1.1, by simpa using h.1.2, ?_⟩
  have h2 := h.2
  revert h2
  cases syncOf i <;> simp

theorem there_of {i : Instr} {s : State}
    (h : (match i.operand with | some a => hasBytes s.cfg a.toNat (widthOf s.cfg i) | none => true) = true) :
    OperandThere i s := by
  unfold OperandThere
  split at h <;> simp_all

/-- The real number `± 2^e`. -/
noncomputable def pw (neg : Bool) (e : ℤ) : ℝ := (if neg then -1 else 1) * 2 ^ e

theorem pw_abs (neg : Bool) (e : ℤ) : |pw neg e| = (2 : ℝ) ^ e := by
  have h : (0 : ℝ) < 2 ^ e := by positivity
  cases neg <;> simp [pw, abs_of_pos h]

theorem pw_ne (neg : Bool) (e : ℤ) : pw neg e ≠ 0 := by
  intro h
  have := pw_abs neg e
  rw [h, abs_zero] at this
  exact absurd this.symm (by positivity)

theorem pw_neg_iff (neg : Bool) (e : ℤ) : pw neg e < 0 ↔ neg = true := by
  have h : (0 : ℝ) < 2 ^ e := by positivity
  cases neg
  · simp [pw]; exact h.le
  · simp [pw]; exact h

theorem hasValue_pw {x : Ext} (neg : Bool) (n : Nat) (e : ℤ) (hc : classOf x = .normal) (hs : signOf x = neg)
    (he : max (expoOf x) 1 = n) (hj : intBit x = true) (hf : fracOf x = 0#63) (hn : e = (n : ℤ) - 16383) :
    HasValue x (pw neg e) := by
  refine ⟨Or.inr (Or.inl hc), ?_⟩
  have he' : (max (expoOf x) 1 : ℤ) = n := by rw [← he]; simp
  rw [he', hs, hj, hf, hn]
  simp [pw]

theorem hasValue_zero {x : Ext} (hc : classOf x = .zero) (hj : intBit x = false) (hf : fracOf x = 0#63) :
    HasValue x 0 := by
  refine ⟨Or.inl hc, ?_⟩
  rw [hj, hf]
  simp

theorem exact_rounded (neg : Bool) {k e : ℤ} (h : k ≤ e) (rc : Rounding) :
    RoundedTo k rc (pw neg e) (pw neg e) false false := by
  have hn : ((2 ^ (e - k).toNat : ℕ) : ℝ) * 2 ^ k = 2 ^ e := by
    have hz : ((2 : ℝ) ^ (e - k).toNat) = 2 ^ (e - k) := by
      rw [← zpow_natCast, Int.toNat_of_nonneg (by omega)]
    rw [Nat.cast_pow, Nat.cast_ofNat, hz, ← zpow_add₀ (by norm_num)]
    congr 1
    omega
  have hk : (0 : ℝ) < 2 ^ k := by positivity
  refine ⟨2 ^ (e - k).toNat, ?_, ?_, ?_, ?_, ?_⟩
  · rw [pw_abs, hn]
  · rw [pw_abs, add_mul, hn, one_mul]; linarith
  · simp only [pw_abs, hn, ne_eq, not_true_eq_false]; simp
  · simp only [pw_abs, hn, ne_eq, not_true_eq_false]; simp
  · have : (if pw neg e < 0 then (-1 : ℝ) else 1) = (if neg then -1 else 1) := by
      have := pw_neg_iff neg e
      cases neg <;> simp_all
    simp only [this, Bool.false_eq_true, if_false, hn]
    rfl

theorem nat_rounded (n : ℕ) (rc : Rounding) : RoundedTo 0 rc (n : ℝ) (n : ℝ) false false := by
  refine ⟨n, ?_, ?_, ?_, ?_, ?_⟩ <;> simp

theorem exact_correct (neg : Bool) {p : ℕ} (hp : 1 ≤ p) (e : ℤ) (rc : Rounding) :
    CorrectlyRounded p rc (pw neg e) (pw neg e) false false := by
  have h : (0 : ℝ) < 2 ^ e := by positivity
  refine ⟨e, ?_, ?_, exact_rounded neg (by omega) rc⟩
  · rw [pw_abs]
  · rw [pw_abs, zpow_add₀ (by norm_num)]; linarith

theorem pw_mono {a b : ℤ} (h : a ≤ b) : (2 : ℝ) ^ a ≤ 2 ^ b := zpow_le_zpow_right₀ (by norm_num) h

theorem pw_lt {a b : ℤ} (h : a < b) : (2 : ℝ) ^ a < 2 ^ b := zpow_lt_zpow_right₀ (by norm_num) h

theorem inRange_pw (neg : Bool) {e : ℤ} (h1 : -16382 ≤ e) (h2 : e < 16384) : InRange (pw neg e) := by
  rw [InRange, pw_abs]; exact ⟨pw_mono h1, pw_lt h2⟩

/-- The control word of rule R411. -/
abbrev dflt : Word16 := 0x037F#16

/-- 1.0 and 2.0. -/
abbrev one80 : Ext := 0x3FFF8000000000000000#80
abbrev two80 : Ext := 0x40008000000000000000#80

/-- The least denormal. -/
abbrev tiny80 : Ext := 1#80

/-- 1/2. -/
abbrev half80 : Ext := 0x3FFE8000000000000000#80

theorem one_pw : HasValue one80 (pw false 0) := by
  refine hasValue_pw false 16383 0 ?_ ?_ ?_ ?_ ?_ ?_ <;> decide

theorem minus_pw : HasValue 0xBFFF8000000000000000#80 (pw true 0) := by
  refine hasValue_pw true 16383 0 ?_ ?_ ?_ ?_ ?_ ?_ <;> decide

theorem two_pw : HasValue two80 (pw false 1) := by
  refine hasValue_pw false 16384 1 ?_ ?_ ?_ ?_ ?_ ?_ <;> decide

/-- Also FWAIT before other bytes, and the wait forms of a run that fuses them. -/
theorem witness_DecodeOfEncode :
    (Instr.fsin.wellFormed {} = true ∧ Instr.fsin ≠ .fwait) ∧
    (Instr.fwait.wellFormed {} = true ∧ Params.fusedWait {} = false) ∧
    (Instr.fwait.wellFormed { fusedWait := true } = true ∧ Instr.fsaveO66 0xFFFFFFFF#32 ≠ .fwait ∧
      (Instr.fsaveO66 0xFFFFFFFF#32).wellFormed { fusedWait := true } = true) := by decide

theorem witness_EncodeOfDecode : decode {} [0xD9#8, 0xFE#8, 0x90#8] = .ok (.fsin, 2) := by decide

/-- FADD ST(0),ST(1) at address 0; `written` notes its second byte. -/
abbrev codeAt (written : List Nat) : State :=
  { State.reset with mem := [(0, 0xD8#8), (1, 0xC1#8)], written := written }

theorem witness_StepRunsDecodedInstruction :
    (decode (codeAt []).cfg (codeAt []).code = .ok (.faddSt0 1#3, 2) ∧
      ∀ k, k < 2 → (codeAt []).pcNat + k ∉ (codeAt []).written) ∧
    (decode (codeAt [1]).cfg (codeAt [1]).code = .ok (.faddSt0 1#3, 2) ∧
      ∃ k, k < 2 ∧ (codeAt [1]).pcNat + k ∈ (codeAt [1]).written) :=
  ⟨⟨by decide +kernel, by simp⟩, ⟨by decide +kernel, 1, by decide, by decide⟩⟩

theorem witness_StepKeepsInvariant : (codeAt []).wf ∧ ∃ t, step (codeAt []) = .next t := by
  refine ⟨by decide +kernel, ?_⟩
  obtain ⟨t, h, -⟩ := next_of (o := step (codeAt [])) (p := fun _ => true) (by decide +kernel)
  exact ⟨t, h⟩

/-- The top of the address range: an instruction of two bytes that begins at the last address, and one just past it. -/
theorem witness_StopsAndTheirReasons :
    (Instr.fsin.isWaitForm = false ∧ Instr.fsin.available { gen := .g287 } = false) ∧
    (Instr.fsin.isWaitForm = false ∧ Instr.fwait.isWaitForm = false ∧ Instr.fsin.available {} = true ∧
      (∃ s : State, s.cfg = {} ∧ s.pcOver = false ∧ s.cfg.addrLimit < s.pcNat + Instr.fsin.length s.cfg ∧
        s.cfg.addrLimit = s.pcNat + Instr.fwait.length s.cfg) ∧
      ∃ s : State, s.cfg = {} ∧ s.pcOver = true ∧ s.cfg.addrLimit < s.pcNat + Instr.fwait.length s.cfg) :=
  ⟨by decide, by decide, by decide, by decide, ⟨{ State.reset with pc := 0xFFFFFFFF#32 }, rfl, rfl, by decide, by decide⟩,
    { State.reset with pcOver := true }, rfl, rfl, by decide⟩

/-- An unmasked invalid operation is pending. -/
abbrev pend (trap : TrapPolicy) : State :=
  { State.reset with cfg := { fpTrap := trap }, cw := 0x037E#16, sw := { ie := true } }

/-- Where the instruction ends with the last address. -/
theorem witness_PendingTrapTaken (trap : TrapPolicy) :
    ∃ s : State, syncOf .fld1 = .waiting ∧ Instr.fld1.available s.cfg = true ∧
      s.pcNat + Instr.fld1.length s.cfg = s.cfg.addrLimit ∧ s.swWord.getLsbD 7 = true ∧
      ¬(s.cfg.gen = .g8087 ∧ s.cw.getLsbD 7 = true) ∧ s.cfg.fpTrap = trap :=
  ⟨{ pend trap with pc := 0xFFFFFFFE#32 }, by cases trap <;> decide +kernel⟩

/-- IE by an empty operand with IM = 0, ZE with ZM = 0, DE with DM = 0. -/
theorem witness_UnmaskedStopsWithoutEffect :
    (∃ s t, Ready (.faddSt0 1#3) s ∧ s.es = false ∧ exec (.faddSt0 1#3) s = .next t ∧
      t.sw.ie = true ∧ s.cw.getLsbD 0 = false) ∧
    (∃ s t, Ready (.fdivSt0 1#3) s ∧ s.es = false ∧ exec (.fdivSt0 1#3) s = .next t ∧
      t.sw.ze = true ∧ s.cw.getLsbD 2 = false) ∧
    (∃ s t, Ready .fsqrt s ∧ s.es = false ∧ exec .fsqrt s = .next t ∧
      t.sw.de = true ∧ s.cw.getLsbD 1 = false) := by
  refine ⟨?_, ?_, ?_⟩
  · obtain ⟨t, h, hp⟩ := next_of (o := exec (.faddSt0 1#3) (start 0x037E#16 [] [])) (p := fun t => t.sw.ie)
      (by decide +kernel)
    exact ⟨_, t, ready_of (by decide +kernel), by decide +kernel, h, hp, by decide⟩
  · obtain ⟨t, h, hp⟩ := next_of (o := exec (.fdivSt0 1#3) (start 0x037B#16 [one80, 0#80] [])) (p := fun t => t.sw.ze)
      (by decide +kernel)
    exact ⟨_, t, ready_of (by decide +kernel), by decide +kernel, h, hp, by decide⟩
  · obtain ⟨t, h, hp⟩ := next_of (o := exec .fsqrt (start 0x037D#16 [1#80] [])) (p := fun t => t.sw.de)
      (by decide +kernel)
    exact ⟨_, t, ready_of (by decide +kernel), by decide +kernel, h, hp, by decide⟩

/-- FSQRT of a denormal; FCOM and FADD of 1 and a denormal, in a register and, a single, in memory; FYL2XP1 of 1/4 and a
denormal y. -/
theorem witness_UnmaskedStopsWithoutEffect_denormal :
    (∃ s, Ready .fsqrt s ∧ OperandThere .fsqrt s ∧ s.cw.getLsbD 1 = false ∧ RaisesDenormal .fsqrt s) ∧
    (∃ s, Ready (.fcomSt 1#3) s ∧ OperandThere (.fcomSt 1#3) s ∧ s.cw.getLsbD 1 = false ∧
      RaisesDenormal (.fcomSt 1#3) s) ∧
    (∃ s, Ready (.faddM32 0x1000#32) s ∧ OperandThere (.faddM32 0x1000#32) s ∧ s.cw.getLsbD 1 = false ∧
      RaisesDenormal (.faddM32 0x1000#32) s) ∧
    (∃ s, Ready .fyl2xp1 s ∧ OperandThere .fyl2xp1 s ∧ s.cw.getLsbD 1 = false ∧ RaisesDenormal .fyl2xp1 s) := by
  refine ⟨⟨start 0x037D#16 [tiny80] [], ready_of (by decide +kernel), there_of (by decide), by decide, ?_⟩,
    ⟨start 0x037D#16 [one80, tiny80] [], ready_of (by decide +kernel), there_of (by decide), by decide, ?_⟩,
    ⟨start 0x037D#16 [one80] [1#8, 0#8, 0#8, 0#8], ready_of (by decide +kernel), there_of (by decide +kernel),
      by decide, ?_⟩,
    ⟨start 0x037D#16 [0x3FFD8000000000000000#80, tiny80] [], ready_of (by decide +kernel), there_of (by decide),
      by decide, ?_⟩⟩
  · refine ⟨by decide, by decide, by decide +kernel, ?_, by decide, fun k x h => (nomatch h), fun _ h => (nomatch h), ?_,
      by simp, by simp⟩
    · simp only [IsNumber]; decide +kernel
    · simp only [InvalidPair, IsNumber, reduceCtorEq, false_and, List.mem_cons, List.not_mem_nil, or_false, true_and]
      decide +kernel
  · refine ⟨by decide, by decide, by decide +kernel, ?_, by decide, fun k x h hx => ?_, fun _ h => (nomatch h), ?_,
      by simp, by simp⟩
    · simp only [IsNumber]; decide +kernel
    · obtain rfl : SourceKind.reg 1#3 = k := Option.some.inj h
      rw [SourceBits] at hx
      subst hx
      exact ⟨by simp only [IsNumber]; decide +kernel, fun _ h => (nomatch h)⟩
    · simp [InvalidPair]
  · refine ⟨by decide, by decide, by decide +kernel, ?_, by decide, fun k x h hx => ?_, ?_, ?_, by simp, by simp⟩
    · simp only [IsNumber]; decide +kernel
    · obtain rfl : SourceKind.real single = k := Option.some.inj h
      rw [SourceBits, show leNat ((start 0x037D#16 [one80] [1#8, 0#8, 0#8, 0#8]).bytesAt
        (addressOf (.faddM32 0x1000#32)) single.bytes) = 1 by decide +kernel, if_neg (by decide)] at hx
      obtain ⟨-, v, -, hv, -⟩ := hx
      refine ⟨by simp only [IsNumber, List.mem_cons]; tauto, fun _ h => ?_⟩
      cases h; simp
    · intro _ h; cases h; simp
    · simp [InvalidPair]
  · refine ⟨by decide, by decide, by decide +kernel, ?_, by decide, fun k x h => (nomatch h), fun _ h => (nomatch h), ?_,
      by simp, fun _ => ⟨pw false (-2), ?_, ?_⟩⟩
    · simp only [IsNumber]; decide +kernel
    · simp only [InvalidPair, reduceCtorEq, false_and, List.mem_cons, List.not_mem_nil, or_false, true_and]
      decide +kernel
    · rw [show (start 0x037D#16 [0x3FFD8000000000000000#80, tiny80] []).st 0#3 = 0x3FFD8000000000000000#80 by
        decide +kernel]
      refine hasValue_pw false 16381 (-2) ?_ ?_ ?_ ?_ ?_ ?_ <;> decide
    · have h : Real.sqrt 2 ≤ 3 / 2 := Real.sqrt_le_iff.mpr ⟨by norm_num, by norm_num⟩
      rw [pw_abs]; norm_num; linarith

/-- The last byte of the operand is the first that is not provided; for the store, ST(0) is a NaN with IM = 0. -/
theorem witness_MissingOperandFaults :
    (∃ s, Ready (.fldM64 0x1FF9#32) s ∧ hasBytes s.cfg 0x1FF9 (widthOf s.cfg (.fldM64 0x1FF9#32)) = false) ∧
    (∃ s, Ready (.fistM16 0x1FFF#32) s ∧ s.cw.getLsbD 0 = false ∧ classOf (s.st 0#3) = .nan ∧
      hasBytes s.cfg 0x1FFF (widthOf s.cfg (.fistM16 0x1FFF#32)) = false) ∧
    (∃ s, Ready (.fstcw 0x1FFF#32) s ∧ (Instr.fstcw 0x1FFF#32).isWaitForm = true ∧
      hasBytes s.cfg 0x1FFF (widthOf s.cfg (.fstcw 0x1FFF#32)) = false) :=
  ⟨⟨{ State.reset with cfg := { provided := [⟨0, 0x2000⟩] } }, ready_of (by decide +kernel), by decide +kernel⟩,
   ⟨{ start 0x037E#16 [indef] [] with cfg := { provided := [⟨0, 0x2000⟩] } }, ready_of (by decide +kernel),
    by decide, by decide +kernel, by decide +kernel⟩,
   ⟨{ State.reset with cfg := { provided := [⟨0, 0x2000⟩] } }, ready_of (by decide +kernel), by decide,
    by decide +kernel⟩⟩

theorem witness_OnlyFstswAxTouchesAx : State.reset.cfg.fpTrap = .stop ∧ Instr.fld1 ≠ .fnstswAx ∧ Instr.fld1 ≠ .fstswAx := by
  decide

theorem witness_OnlyFcomiAndFcmovTouchHostFlags : State.reset.cfg.fpTrap = .stop ∧
    (∀ k, Instr.fld1 ∉ [Instr.fcomi k, .fcomip k, .fucomi k, .fucomip k]) ∧
    (∀ k, Instr.fld1 ∉ [Instr.fcmovb k, .fcmove k, .fcmovbe k, .fcmovu k, .fcmovnb k, .fcmovne k, .fcmovnbe k,
      .fcmovnu k]) := by
  refine ⟨by decide, ?_, ?_⟩ <;> intro k <;> simp

/-- One instruction of each family, with its operand there. -/
theorem witness_ComputationsComplete :
    ∀ i ∈ [Instr.faddM64 0xFFFFFFF8#32, .fsqrt, .fyl2xp1, .fbld 0#32, .fxch 7#3],
      familyOf i ∈ [Family.arith, .other, .transcend, .load, .move] ∧ Ready i State.reset ∧
      OperandThere i State.reset := by
  intro i hi
  simp only [List.mem_cons, List.not_mem_nil, or_false] at hi
  obtain rfl | rfl | rfl | rfl | rfl := hi <;>
    exact ⟨by decide, ready_of (by decide +kernel), there_of (by decide +kernel)⟩

/-- 1 + 1 = 2. -/
theorem witness_ArithCorrectlyRounded :
    ∃ s : State, arithRow (.faddSt0 1#3) = some ⟨.add, 0#3, .reg 1#3, false⟩ ∧ Ready (.faddSt0 1#3) s ∧
      OperandThere (.faddSt0 1#3) s ∧ DenormalsPass (.faddSt0 1#3) s ∧ precision s.cw = some 64 ∧ s.isEmpty 0#3 = false ∧
      HasValue (s.st 0#3) (pw false 0) ∧ SourceValue (.reg 1#3) (addressOf (.faddSt0 1#3)) s (pw false 0) ∧
      RealResult .add (pw false 0) (pw false 0) (pw false 1) ∧
      CorrectlyRounded 64 (rounding s.cw) (pw false 1) (pw false 1) false false ∧ InRange (pw false 1) := by
  refine ⟨start dflt [one80, one80] [], rfl, ready_of (by decide +kernel), there_of (by decide), by decide, by decide,
    by decide +kernel, ?_, ⟨by decide +kernel, ?_⟩, ?_, exact_correct _ (by norm_num) _ _,
    inRange_pw _ (by norm_num) (by norm_num)⟩
  · rw [show (start dflt [one80, one80] []).st 0#3 = one80 by decide +kernel]; exact one_pw
  · rw [show (start dflt [one80, one80] []).st 1#3 = one80 by decide +kernel]; exact one_pw
  · simp only [RealResult, pw]; norm_num

/-- 2^16383 times 2 is 2^16384, the least magnitude that overflows. -/
theorem witness_ArithOverflow :
    ∃ s : State, arithRow (.fmulSt0 1#3) = some ⟨.mul, 0#3, .reg 1#3, false⟩ ∧ Ready (.fmulSt0 1#3) s ∧
      OperandThere (.fmulSt0 1#3) s ∧ DenormalsPass (.fmulSt0 1#3) s ∧ precision s.cw = some 64 ∧ s.isEmpty 0#3 = false ∧
      HasValue (s.st 0#3) (pw false 16383) ∧ SourceValue (.reg 1#3) (addressOf (.fmulSt0 1#3)) s (pw false 1) ∧
      RealResult .mul (pw false 16383) (pw false 1) (pw false 16384) ∧
      CorrectlyRounded 64 (rounding s.cw) (pw false 16384) (pw false 16384) false false ∧
      (2 : ℝ) ^ (16384 : ℤ) ≤ |pw false 16384| := by
  refine ⟨start dflt [0x7FFE8000000000000000#80, two80] [], rfl, ready_of (by decide +kernel), there_of (by decide),
    by decide, by decide, by decide +kernel, ?_, ⟨by decide +kernel, ?_⟩, ?_, exact_correct _ (by norm_num) _ _, ?_⟩
  · rw [show (start dflt [0x7FFE8000000000000000#80, two80] []).st 0#3 = 0x7FFE8000000000000000#80 by decide +kernel]
    refine hasValue_pw false 32766 16383 ?_ ?_ ?_ ?_ ?_ ?_ <;> decide
  · rw [show (start dflt [0x7FFE8000000000000000#80, two80] []).st 1#3 = two80 by decide +kernel]; exact two_pw
  · simp only [RealResult, pw, Bool.false_eq_true, if_false, one_mul]
    rw [← zpow_add₀ (by norm_num)]
    norm_num
  · rw [pw_abs]

/-- 2^-16382 times 1/2 is below the normal range. -/
theorem witness_ArithUnderflow :
    ∃ s : State, arithRow (.fmulSt0 1#3) = some ⟨.mul, 0#3, .reg 1#3, false⟩ ∧ Ready (.fmulSt0 1#3) s ∧
      OperandThere (.fmulSt0 1#3) s ∧ DenormalsPass (.fmulSt0 1#3) s ∧ precision s.cw = some 64 ∧ s.isEmpty 0#3 = false ∧
      HasValue (s.st 0#3) (pw false (-16382)) ∧ SourceValue (.reg 1#3) (addressOf (.fmulSt0 1#3)) s (pw false (-1)) ∧
      RealResult .mul (pw false (-16382)) (pw false (-1)) (pw false (-16383)) ∧
      CorrectlyRounded 64 (rounding s.cw) (pw false (-16383)) (pw false (-16383)) false false ∧
      |pw false (-16383)| < (2 : ℝ) ^ (-16382 : ℤ) ∧
      RoundedTo (-16382 - (((64 : ℕ) : ℤ) - 1)) (rounding s.cw) (pw false (-16383)) (pw false (-16383)) false false := by
  refine ⟨start dflt [0x00018000000000000000#80, 0x3FFE8000000000000000#80] [], rfl, ready_of (by decide +kernel),
    there_of (by decide), by decide, by decide, by decide +kernel, ?_, ⟨by decide +kernel, ?_⟩, ?_,
    exact_correct _ (by norm_num) _ _, ?_, exact_rounded _ (by norm_num) _⟩
  · rw [show (start dflt [0x00018000000000000000#80, 0x3FFE8000000000000000#80] []).st 0#3 =
      0x00018000000000000000#80 by decide +kernel]
    refine hasValue_pw false 1 (-16382) ?_ ?_ ?_ ?_ ?_ ?_ <;> decide
  · rw [show (start dflt [0x00018000000000000000#80, 0x3FFE8000000000000000#80] []).st 1#3 =
      0x3FFE8000000000000000#80 by decide +kernel]
    refine hasValue_pw false 16382 (-1) ?_ ?_ ?_ ?_ ?_ ?_ <;> decide
  · simp only [RealResult, pw, Bool.false_eq_true, if_false, one_mul]
    rw [← zpow_add₀ (by norm_num)]
    norm_num
  · rw [pw_abs]; exact pw_lt (by norm_num)

/-- 1 / 0 and, reversed, 0 below 1; 1 divided by -0 in memory; FYL2X and FXTRACT of a zero. -/
theorem witness_DivideByZero :
    ((∃ s : State, Ready (.fdivSt0 1#3) s ∧ s.isEmpty 0#3 = false ∧ HasValue (s.st 0#3) (pw false 0) ∧
      SourceValue (.reg 1#3) (addressOf (.fdivSt0 1#3)) s 0 ∧ pw false 0 ≠ 0) ∧
    (∃ s : State, Ready (.fdivrSt0 1#3) s ∧ s.isEmpty 0#3 = false ∧ HasValue (s.st 0#3) 0 ∧
      SourceValue (.reg 1#3) (addressOf (.fdivrSt0 1#3)) s (pw false 0) ∧ pw false 0 ≠ 0) ∧
    (∃ s : State, Ready (.fdivM32 0x1000#32) s ∧ OperandThere (.fdivM32 0x1000#32) s ∧ s.isEmpty 0#3 = false ∧
      HasValue (s.st 0#3) (pw false 0) ∧ SourceValue (.real single) (addressOf (.fdivM32 0x1000#32)) s 0 ∧
      (SourceKind.real single).sign (addressOf (.fdivM32 0x1000#32)) s = true)) ∧
    (∃ s : State, Ready .fyl2x s ∧ s.isEmpty 0#3 = false ∧ s.isEmpty 1#3 = false ∧ classOf (s.st 0#3) = .zero ∧
      HasValue (s.st 1#3) (pw false 0) ∧ pw false 0 ≠ 0) ∧
    (∃ s : State, Ready .fxtract s ∧ s.isEmpty 0#3 = false ∧ s.isEmpty 7#3 = true ∧ classOf (s.st 0#3) = .zero) := by
  refine ⟨⟨⟨start dflt [one80, 0#80] [], ready_of (by decide +kernel), by decide +kernel, ?_, ⟨by decide +kernel, ?_⟩,
    pw_ne _ _⟩, ⟨start dflt [0#80, one80] [], ready_of (by decide +kernel), by decide +kernel, ?_,
    ⟨by decide +kernel, ?_⟩, pw_ne _ _⟩, ⟨start dflt [one80] [0#8, 0#8, 0#8, 0x80#8], ready_of (by decide +kernel),
    there_of (by decide +kernel), by decide +kernel, ?_, ?_, by decide +kernel⟩⟩,
    ⟨start dflt [0#80, one80] [], ready_of (by decide +kernel), by decide +kernel, by decide +kernel,
     by decide +kernel, ?_, pw_ne _ _⟩,
    ⟨start dflt [0#80] [], ready_of (by decide +kernel), by decide +kernel, by decide +kernel, by decide +kernel⟩⟩
  · rw [show (start dflt [one80, 0#80] []).st 0#3 = one80 by decide +kernel]; exact one_pw
  · rw [show (start dflt [one80, 0#80] []).st 1#3 = 0#80 by decide +kernel]
    exact hasValue_zero (by decide) (by decide) (by decide)
  · rw [show (start dflt [0#80, one80] []).st 0#3 = 0#80 by decide +kernel]
    exact hasValue_zero (by decide) (by decide) (by decide)
  · rw [show (start dflt [0#80, one80] []).st 1#3 = one80 by decide +kernel]; exact one_pw
  · rw [show (start dflt [one80] [0#8, 0#8, 0#8, 0x80#8]).st 0#3 = one80 by decide +kernel]; exact one_pw
  · simp only [SourceValue]
    rw [show leNat ((start dflt [one80] [0#8, 0#8, 0#8, 0x80#8]).bytesAt (addressOf (.fdivM32 0x1000#32))
      single.bytes) = 0x80000000 by decide +kernel]
    refine ⟨by decide, ?_⟩
    rw [show single.expoOf 0x80000000 = 0 by decide, show single.fracOf 0x80000000 = 0 by decide]
    simp
  · rw [show (start dflt [0#80, one80] []).st 1#3 = one80 by decide +kernel]; exact one_pw

/-- An infinity or NaN in memory as a source. -/
theorem sourceBits_expMax {f : RealFmt} {a : Addr} {s : State} {x : Ext}
    (h : (decide (f.expoOf (leNat (s.bytesAt a f.bytes)) = f.expMax) &&
      (decide (signOf x = f.negOf (leNat (s.bytesAt a f.bytes))) && (decide (expoOf x = 0x7FFF) && (intBit x &&
      decide ((fracOf x).toNat = f.fracOf (leNat (s.bytesAt a f.bytes)) * 2 ^ (63 - f.fracBits)))))) = true) :
    SourceBits (.real f) a s x := by
  simp only [Bool.and_eq_true, decide_eq_true_eq] at h
  obtain ⟨h1, h2, h3, h4, h5⟩ := h
  refine ⟨h2, ?_⟩
  rw [if_pos h1]
  exact ⟨h3, h4, h5⟩

/-- An empty ST(1), each of the invalid pairs, a zero times an infinity in memory, and an unsupported operand. -/
theorem witness_ArithInvalidOperation :
    (Ready (.faddSt0 1#3) State.reset ∧ OperandThere (.faddSt0 1#3) State.reset ∧ State.reset.isEmpty 1#3 = true) ∧
    (∃ s : State, Ready (.faddSt0 1#3) s ∧ (s.isEmpty 0#3 || s.isEmpty 1#3) = false ∧ classOf (s.st 0#3) = .infinity ∧
      classOf (s.st 1#3) = .infinity ∧ signOf (s.st 0#3) ≠ signOf (s.st 1#3)) ∧
    (∃ s : State, Ready (.fsubrSt0 1#3) s ∧ (s.isEmpty 0#3 || s.isEmpty 1#3) = false ∧ classOf (s.st 0#3) = .infinity ∧
      classOf (s.st 1#3) = .infinity ∧ signOf (s.st 0#3) = signOf (s.st 1#3)) ∧
    (∃ s : State, Ready (.fmulM32 0x1000#32) s ∧ OperandThere (.fmulM32 0x1000#32) s ∧ s.isEmpty 0#3 = false ∧
      classOf (s.st 0#3) = .zero ∧ SourceBits (.real single) (addressOf (.fmulM32 0x1000#32)) s (infOf false) ∧
      classOf (infOf false) = .infinity) ∧
    (∃ s : State, Ready (.fdivSt0 1#3) s ∧ (s.isEmpty 0#3 || s.isEmpty 1#3) = false ∧
      classOf (s.st 0#3) = classOf (s.st 1#3) ∧ classOf (s.st 0#3) = .zero) ∧
    (∃ s : State, Ready (.faddSt0 1#3) s ∧ (s.isEmpty 0#3 || s.isEmpty 1#3) = false ∧
      classOf (s.st 0#3) = .unsupported) :=
  ⟨⟨ready_of (by decide +kernel), there_of (by decide +kernel), by decide +kernel⟩,
   ⟨start dflt [infOf false, infOf true] [], ready_of (by decide +kernel), by decide +kernel, by decide +kernel,
    by decide +kernel, by decide +kernel⟩,
   ⟨start dflt [infOf true, infOf true] [], ready_of (by decide +kernel), by decide +kernel, by decide +kernel,
    by decide +kernel, by decide +kernel⟩,
   ⟨start dflt [0#80] [0#8, 0#8, 0x80#8, 0x7F#8], ready_of (by decide +kernel), there_of (by decide +kernel),
    by decide +kernel, by decide +kernel, sourceBits_expMax (by decide +kernel), by decide⟩,
   ⟨start dflt [0#80, 0#80] [], ready_of (by decide +kernel), by decide +kernel, by decide +kernel,
    by decide +kernel⟩,
   ⟨start dflt [1#80 <<< 64, one80] [], ready_of (by decide +kernel), by decide +kernel, by decide +kernel⟩⟩

/-- A state with two values and round down, ready for the register forms of the arithmetic instructions. -/
abbrev pairOf (a b : Ext) : State := start 0x077F#16 [a, b] []

/-- A quiet NaN and a signalling one, in registers and with the second in memory; two quiet NaNs of one significand, equal
and of opposite signs. -/
theorem witness_ArithNaN :
    (∃ s : State, arithRow (.faddSt0 1#3) = some ⟨.add, 0#3, .reg 1#3, false⟩ ∧ Ready (.faddSt0 1#3) s ∧
      OperandThere (.faddSt0 1#3) s ∧ s.isEmpty 0#3 = false ∧ (SourceKind.reg 1#3).isEmpty s = false ∧
      isQNaN (s.st 0#3) = true ∧ isSNaN (s.st 1#3) = true ∧ classOf (s.st 0#3) = .nan ∧
      classOf (s.st 1#3) ≠ .unsupported ∧ SourceBits (.reg 1#3) (addressOf (.faddSt0 1#3)) s (s.st 1#3)) ∧
    (∃ s : State, arithRow (.fsubM32 0x1000#32) = some ⟨.sub, 0#3, .real single, false⟩ ∧
      Ready (.fsubM32 0x1000#32) s ∧ OperandThere (.fsubM32 0x1000#32) s ∧ s.isEmpty 0#3 = false ∧
      (SourceKind.real single).isEmpty s = false ∧ classOf (s.st 0#3) = .nan ∧
      SourceBits (.real single) (addressOf (.fsubM32 0x1000#32)) s 0xFFFF8000010000000000#80 ∧
      isSNaN 0xFFFF8000010000000000#80 = true) ∧
    (∀ a ∈ [indef, 0x7FFFC000000000000000#80], Ready (.faddSt0 1#3) (pairOf a indef) ∧
      (pairOf a indef).isEmpty 0#3 = false ∧ (SourceKind.reg 1#3).isEmpty (pairOf a indef) = false ∧
      (pairOf a indef).st 0#3 = a ∧ (pairOf a indef).st 1#3 = indef ∧ classOf a = .nan ∧ sigOf a = sigOf indef ∧
      isQNaN a = isQNaN indef) :=
  ⟨⟨start dflt [indef, 0x7FFF8000000000000001#80] [], rfl, ready_of (by decide +kernel), there_of (by decide +kernel),
    by decide +kernel, by decide +kernel, by decide +kernel, by decide +kernel, by decide +kernel, by decide +kernel,
    rfl⟩,
   ⟨start dflt [indef] [1#8, 0#8, 0x80#8, 0xFF#8], rfl, ready_of (by decide +kernel), there_of (by decide +kernel),
    by decide +kernel, rfl, by decide +kernel, sourceBits_expMax (by decide +kernel), by decide⟩,
   fun a ha => by
    obtain rfl | rfl : a = indef ∨ a = 0x7FFFC000000000000000#80 := by simpa using ha
    all_goals
      exact ⟨ready_of (by decide +kernel), by decide +kernel, by decide +kernel, by decide +kernel, by decide +kernel,
        by decide, by decide, by decide⟩⟩

/-- One pair for each clause: an infinity and a number, two zeros, equal numbers of opposite signs; products and
quotients that are an infinity or a zero; a source in memory. -/
theorem witness_ArithSpecialResults :
    (∀ x ∈ [(Instr.faddSt0 1#3, infOf true, one80), (.fsubSt0 1#3, 0#80, 0#80), (.fsubSt0 1#3, one80, one80),
        (.fmulSt0 1#3, infOf true, one80), (.fmulSt0 1#3, 0#80, one80), (.fdivSt0 1#3, infOf true, one80),
        (.fdivSt0 1#3, 0#80, one80), (.fdivSt0 1#3, one80, infOf true)],
      Ready x.1 (pairOf x.2.1 x.2.2) ∧ (pairOf x.2.1 x.2.2).isEmpty 0#3 = false ∧
      (SourceKind.reg 1#3).isEmpty (pairOf x.2.1 x.2.2) = false ∧ (pairOf x.2.1 x.2.2).st 0#3 = x.2.1 ∧
      (pairOf x.2.1 x.2.2).st 1#3 = x.2.2) ∧
    SpecialResult .add .down (infOf true) one80 .infinity true ∧
    SpecialResult .sub .down 0#80 0#80 .zero true ∧
    SpecialResult .sub .down one80 one80 .zero true ∧
    SpecialResult .mul .down (infOf true) one80 .infinity true ∧
    SpecialResult .mul .down 0#80 one80 .zero false ∧
    SpecialResult .div .down (infOf true) one80 .infinity true ∧
    SpecialResult .div .down 0#80 one80 .zero false ∧
    SpecialResult .div .down one80 (infOf true) .zero true ∧
    (∃ s : State, Ready (.faddM32 0x1000#32) s ∧ OperandThere (.faddM32 0x1000#32) s ∧ s.isEmpty 0#3 = false ∧
      SourceBits (.real single) (addressOf (.faddM32 0x1000#32)) s (infOf true) ∧ s.st 0#3 = one80) := by
  refine ⟨fun x hx => ⟨ready_of ?_, ?_, ?_, ?_, ?_⟩,
    .inl ⟨rfl, ?_, ?_, .inl ⟨?_, ?_, ?_⟩⟩, .inr (.inl ⟨rfl, ?_, ?_, ?_⟩),
    .inr (.inr ⟨rfl, ?_, ?_, pw false 0, pw false 0, one_pw, one_pw, rfl, pw_ne _ _⟩), ⟨?_, ?_, ?_, ?_⟩,
    ⟨?_, ?_, ?_, ?_⟩, ⟨?_, ?_, ?_, ?_⟩, ⟨?_, ?_, ?_, ?_⟩, ⟨?_, ?_, ?_, ?_⟩,
    start dflt [one80] [0#8, 0#8, 0x80#8, 0xFF#8], ready_of ?_, there_of ?_, ?_, sourceBits_expMax ?_, ?_⟩
  iterate 5 revert x; decide +kernel
  all_goals (try simp only [IsNumber])
  all_goals decide +kernel

theorem witness_SignInstructions :
    (Ready .fabs (start dflt [indef] []) ∧ (start dflt [indef] []).isEmpty 0#3 = false) ∧
    (Ready .fchs State.reset ∧ State.reset.isEmpty 0#3 = true) :=
  ⟨⟨ready_of (by decide +kernel), by decide +kernel⟩, ⟨ready_of (by decide +kernel), by decide +kernel⟩⟩

/-- The square root of 4. -/
theorem witness_SquareRootRounded :
    ∃ s : State, Ready .fsqrt s ∧ s.isEmpty 0#3 = false ∧ DenormalsPass .fsqrt s ∧ precision s.cw = some 64 ∧
      HasValue (s.st 0#3) (pw false 2) ∧ 0 < pw false 2 ∧
      CorrectlyRounded 64 (rounding s.cw) (Real.sqrt (pw false 2)) (pw false 1) false false := by
  refine ⟨start dflt [0x40018000000000000000#80] [], ready_of (by decide +kernel), by decide +kernel, by decide,
    by decide, ?_, by simp [pw], ?_⟩
  · rw [show (start dflt [0x40018000000000000000#80] []).st 0#3 = 0x40018000000000000000#80 by decide +kernel]
    refine hasValue_pw false 16385 2 ?_ ?_ ?_ ?_ ?_ ?_ <;> decide
  · rw [show Real.sqrt (pw false 2) = pw false 1 by
      rw [show pw false 2 = (2 : ℝ) ^ 2 by norm_num [pw], Real.sqrt_sq (by norm_num)]; norm_num [pw]]
    exact exact_correct _ (by norm_num) _ _

theorem witness_RoundToInteger :
    ∃ s : State, Ready .frndint s ∧ s.isEmpty 0#3 = false ∧ DenormalsPass .frndint s ∧ HasValue (s.st 0#3) (pw true 0) ∧
      RoundedTo 0 (rounding s.cw) (pw true 0) (pw true 0) false false := by
  refine ⟨start dflt [0xBFFF8000000000000000#80] [], ready_of (by decide +kernel), by decide +kernel, by decide, ?_,
    exact_rounded _ (by norm_num) _⟩
  rw [show (start dflt [0xBFFF8000000000000000#80] []).st 0#3 = 0xBFFF8000000000000000#80 by decide +kernel]
  exact minus_pw

/-- 2^63 and 1, exponents 63 apart, the most that is reduced at once; 2^64 and 1; a zero dividend and an infinite divisor. -/
theorem witness_RemainderExact :
    (∀ e ∈ [(63 : ℤ), 64], ∃ s : State, Ready .fprem s ∧ Ready .fprem1 s ∧ s.isEmpty 0#3 = false ∧ s.isEmpty 1#3 = false ∧
      DenormalsPass .fprem s ∧ DenormalsPass .fprem1 s ∧ s.cw.getLsbD 4 = true ∧ HasValue (s.st 0#3) (pw false e) ∧
      HasValue (s.st 1#3) (pw false 0) ∧ (2 : ℝ) ^ e ≤ |pw false e| ∧ |pw false e| < (2 : ℝ) ^ (e + 1) ∧
      (2 : ℝ) ^ (0 : ℤ) ≤ |pw false 0| ∧ |pw false 0| < (2 : ℝ) ^ ((0 : ℤ) + 1) ∧ (e - 0 < 64 ↔ e = 63)) ∧
    (∀ v ∈ [one80, infOf false], ∃ s : State, Ready .fprem s ∧ s.isEmpty 0#3 = false ∧ s.isEmpty 1#3 = false ∧
      DenormalsPass .fprem s ∧ s.cw.getLsbD 4 = true ∧
      HasValue (s.st 0#3) 0 ∧ s.st 1#3 = v ∧ classOf v ∈ [Machine.Class.normal, .infinity]) := by
  have one : ∀ x, (start dflt [x, one80] []).st 1#3 = one80 := fun x => by simp [start, pushAll, State.st, State.reg,
    State.phys, State.push, State.setSt, State.setReg, State.setTop, State.reset]
  refine ⟨fun e he => ?_, fun v hv => ?_⟩
  · simp only [List.mem_cons, List.not_mem_nil, or_false] at he
    obtain rfl | rfl := he
    · refine ⟨start dflt [0x403E8000000000000000#80, one80] [], ready_of (by decide +kernel),
        ready_of (by decide +kernel), by decide +kernel, by decide +kernel, by decide, by decide, by decide, ?_, ?_, ?_,
        ?_, ?_, ?_, by norm_num⟩
      · rw [show (start dflt [0x403E8000000000000000#80, one80] []).st 0#3 = 0x403E8000000000000000#80 by decide +kernel]
        refine hasValue_pw false 16446 63 ?_ ?_ ?_ ?_ ?_ ?_ <;> decide
      · rw [one]; exact one_pw
      · rw [pw_abs]
      · rw [pw_abs]; exact pw_lt (by norm_num)
      · rw [pw_abs]
      · rw [pw_abs]; exact pw_lt (by norm_num)
    · refine ⟨start dflt [0x403F8000000000000000#80, one80] [], ready_of (by decide +kernel),
        ready_of (by decide +kernel), by decide +kernel, by decide +kernel, by decide, by decide, by decide, ?_, ?_, ?_,
        ?_, ?_, ?_, by norm_num⟩
      · rw [show (start dflt [0x403F8000000000000000#80, one80] []).st 0#3 = 0x403F8000000000000000#80 by decide +kernel]
        refine hasValue_pw false 16447 64 ?_ ?_ ?_ ?_ ?_ ?_ <;> decide
      · rw [one]; exact one_pw
      · rw [pw_abs]
      · rw [pw_abs]; exact pw_lt (by norm_num)
      · rw [pw_abs]
      · rw [pw_abs]; exact pw_lt (by norm_num)
  · simp only [List.mem_cons, List.not_mem_nil, or_false] at hv
    obtain rfl | rfl := hv
    · refine ⟨start dflt [0#80, one80] [], ready_of (by decide +kernel), by decide +kernel, by decide +kernel, by decide,
        by decide, ?_, by decide +kernel, by decide⟩
      rw [show (start dflt [0#80, one80] []).st 0#3 = 0#80 by decide +kernel]
      exact hasValue_zero (by decide) (by decide) (by decide)
    · refine ⟨start dflt [0#80, infOf false] [], ready_of (by decide +kernel), by decide +kernel, by decide +kernel,
        by decide, by decide, ?_, by decide +kernel, by decide⟩
      rw [show (start dflt [0#80, infOf false] []).st 0#3 = 0#80 by decide +kernel]
      exact hasValue_zero (by decide) (by decide) (by decide)

/-- 1 scaled by 2, by 2^14, the least that overflows, and by -2^14, below the normal range. -/
theorem witness_ScaleExact :
    (∀ c ∈ [(two80, false, 16384, (1 : ℤ)), (0x400D8000000000000000#80, false, 16397, 14),
        (0xC00D8000000000000000#80, true, 16397, 14)],
      ∃ s : State, Ready .fscale s ∧ s.isEmpty 0#3 = false ∧ s.isEmpty 1#3 = false ∧ DenormalsPass .fscale s ∧
        HasValue (s.st 0#3) (pw false 0) ∧ HasValue (s.st 1#3) (pw c.2.1 c.2.2.2) ∧ pw false 0 ≠ 0) ∧
    (pw false 2 = pw false 0 * 2 ^ (if 0 ≤ pw false 1 then ⌊pw false 1⌋ else ⌈pw false 1⌉) ∧ InRange (pw false 2)) ∧
    (pw false 16384 = pw false 0 * 2 ^ (if 0 ≤ pw false 14 then ⌊pw false 14⌋ else ⌈pw false 14⌉) ∧
      (2 : ℝ) ^ (16384 : ℤ) ≤ |pw false 16384|) ∧
    (pw false (-16384) = pw false 0 * 2 ^ (if 0 ≤ pw true 14 then ⌊pw true 14⌋ else ⌈pw true 14⌉) ∧
      |pw false (-16384)| < (2 : ℝ) ^ (-16382 : ℤ) ∧
      RoundedTo (-16445) .nearest (pw false (-16384)) (pw false (-16384)) false false) := by
  refine ⟨fun c hc => ⟨start dflt [one80, c.1] [], ready_of ?_, ?_, ?_, ?_, ?_, ?_, pw_ne _ _⟩,
    ⟨?_, inRange_pw _ (by norm_num) (by norm_num)⟩, ⟨?_, by rw [pw_abs]⟩,
    ⟨?_, by rw [pw_abs]; exact pw_lt (by norm_num), exact_rounded _ (by norm_num) _⟩⟩
  · revert c; decide +kernel
  · revert c; decide +kernel
  · revert c; decide +kernel
  · revert c; decide +kernel
  · have h : (start dflt [one80, c.1] []).st 0#3 = one80 := by revert c; decide +kernel
    rw [h]; exact one_pw
  · refine hasValue_pw c.2.1 c.2.2.1 c.2.2.2 ?_ ?_ ?_ ?_ ?_ ?_ <;> revert c <;> decide +kernel
  · have h : pw false 1 = ((2 : ℤ) : ℝ) := by norm_num [pw]
    rw [h, if_pos (by norm_num), Int.floor_intCast]
    simp [pw]
  · have h : pw false 14 = ((16384 : ℤ) : ℝ) := by norm_num [pw]
    rw [h, if_pos (by norm_num), Int.floor_intCast]
    simp [pw]
  · have h : pw true 14 = ((-16384 : ℤ) : ℝ) := by norm_num [pw]
    rw [h, if_neg (by norm_num), Int.ceil_intCast]
    simp [pw]

theorem witness_ExtractExact :
    ∃ s : State, Ready .fxtract s ∧ s.isEmpty 0#3 = false ∧ s.isEmpty 7#3 = true ∧ DenormalsPass .fxtract s ∧
      HasValue (s.st 0#3) (pw false 1) ∧ (2 : ℝ) ^ (1 : ℤ) ≤ |pw false 1| ∧ |pw false 1| < (2 : ℝ) ^ ((1 : ℤ) + 1) := by
  refine ⟨start dflt [two80] [], ready_of (by decide +kernel), by decide +kernel, by decide +kernel, by decide, ?_, ?_, ?_⟩
  · rw [show (start dflt [two80] []).st 0#3 = two80 by decide +kernel]; exact two_pw
  · rw [pw_abs]
  · rw [pw_abs]; exact pw_lt (by norm_num)

/-- One state for each clause of the invalid operands, and an unsupported one. -/
theorem witness_InvalidOperands :
    (∀ x ∈ [(Instr.fsqrt, 0xBFFF8000000000000000#80, one80), (.fprem, infOf true, one80), (.fprem1, one80, 0#80),
        (.fscale, 0#80, infOf false), (.fscale, infOf true, infOf true), (.fsin, infOf true, one80),
        (.fyl2x, 0xBFFF8000000000000000#80, one80), (.fyl2x, infOf false, 0#80), (.fyl2x, one80, infOf true),
        (.fyl2xp1, 0#80, infOf false), (.fxtract, 1#80 <<< 64, one80)],
      familyOf x.1 ∈ [Family.other, .transcend] ∧ Ready x.1 (pairOf x.2.1 x.2.2) ∧
      (∀ k ∈ sources x.1, (pairOf x.2.1 x.2.2).isEmpty k = false) ∧ (pairOf x.2.1 x.2.2).isEmpty 7#3 = true ∧
      (pairOf x.2.1 x.2.2).st 0#3 = x.2.1 ∧ (pairOf x.2.1 x.2.2).st 1#3 = x.2.2) ∧
    InvalidPair .fsqrt 0xBFFF8000000000000000#80 one80 ∧ InvalidPair .fprem (infOf true) one80 ∧
    InvalidPair .fprem1 one80 0#80 ∧ InvalidPair .fscale 0#80 (infOf false) ∧
    InvalidPair .fscale (infOf true) (infOf true) ∧ InvalidPair .fsin (infOf true) one80 ∧
    InvalidPair .fyl2x 0xBFFF8000000000000000#80 one80 ∧ InvalidPair .fyl2x (infOf false) 0#80 ∧
    InvalidPair .fyl2x one80 (infOf true) ∧ InvalidPair .fyl2xp1 0#80 (infOf false) ∧
    0#3 ∈ sources .fxtract ∧ classOf (1#80 <<< 64) = .unsupported := by
  refine ⟨?_, .inl ?_, .inr (.inl ?_), .inr (.inl ?_), .inr (.inr (.inl ?_)), .inr (.inr (.inl ?_)),
    .inr (.inr (.inr (.inl ?_))), .inr (.inr (.inr (.inr (.inl ⟨rfl, ?_, ?_, .inl ?_⟩)))),
    .inr (.inr (.inr (.inr (.inl ⟨rfl, ?_, ?_, .inr (.inl ?_)⟩)))),
    .inr (.inr (.inr (.inr (.inl ⟨rfl, ?_, ?_, .inr (.inr ⟨?_, ?_⟩)⟩)))), .inr (.inr (.inr (.inr (.inr ?_)))), ?_, ?_⟩
  · intro x hx
    refine ⟨?_, ready_of ?_, ?_, ?_, ?_, ?_⟩ <;> revert x <;> decide +kernel
  case refine_17 => simpa [pw] using one_pw
  all_goals (try simp only [IsNumber])
  all_goals decide +kernel

/-- One operand and two, quiet and signalling, and FSINCOS with a register to push to. -/
theorem witness_NaNOperands :
    ∀ x ∈ [(Instr.fsqrt, indef, one80), (.fxtract, 0x7FFF8000000000000001#80, one80),
        (.fsincos, 0x7FFF8000000000000001#80, one80), (.fprem, one80, indef),
        (.fpatan, indef, 0x7FFF8000000000000001#80)],
      familyOf x.1 ∈ [Family.other, .transcend] ∧ x.1 ∉ [Instr.fabs, .fchs] ∧ Ready x.1 (pairOf x.2.1 x.2.2) ∧
      (∀ k ∈ sources x.1, (pairOf x.2.1 x.2.2).isEmpty k = false) ∧ (pairOf x.2.1 x.2.2).isEmpty 7#3 = true ∧
      (∀ k ∈ sources x.1, classOf ((pairOf x.2.1 x.2.2).st k) ≠ .unsupported) ∧
      ∃ k ∈ sources x.1, classOf ((pairOf x.2.1 x.2.2).st k) = .nan := by
  intro x hx
  refine ⟨?_, ?_, ready_of ?_, ?_, ?_, ?_, ?_⟩ <;> revert x <;> decide +kernel

/-- One pair for each clause of the exact answers and of the multiples of pi. -/
theorem witness_ExactResults :
    (∀ x ∈ [(Instr.frndint, infOf true, one80), (.fsqrt, 0x80000000000000000000#80, one80), (.fsqrt, infOf false, one80),
        (.f2xm1, 0#80, one80), (.fscale, infOf true, one80), (.fscale, one80, infOf true),
        (.fscale, one80, infOf false), (.fpatan, one80, 0#80), (.fpatan, infOf false, one80),
        (.fyl2x, infOf false, one80), (.fyl2x, two80, infOf true), (.fyl2x, 0#80, infOf true), (.fyl2x, two80, 0#80),
        (.fyl2x, one80, two80), (.fyl2xp1, 0#80, one80), (.fyl2xp1, 0x3FFD8000000000000000#80, infOf true),
        (.fpatan, infOf true, infOf false), (.fpatan, one80, infOf false), (.fpatan, 0#80, one80),
        (.fpatan, 0xBFFF8000000000000000#80, 0#80)],
      Ready x.1 (pairOf x.2.1 x.2.2) ∧ (∀ k ∈ sources x.1, (pairOf x.2.1 x.2.2).isEmpty k = false) ∧
      DenormalsPass x.1 (pairOf x.2.1 x.2.2) ∧ AcceptsOperands x.1 (pairOf x.2.1 x.2.2) ∧
      (pairOf x.2.1 x.2.2).st 0#3 = x.2.1 ∧ (pairOf x.2.1 x.2.2).st 1#3 = x.2.2) ∧
    (ExactResult .frndint (infOf true) one80 .infinity true ∧
      ExactResult .fsqrt 0x80000000000000000000#80 one80 .zero true ∧
      ExactResult .fsqrt (infOf false) one80 .infinity false ∧ ExactResult .f2xm1 0#80 one80 .zero false ∧
      ExactResult .fscale (infOf true) one80 .infinity true ∧ ExactResult .fscale one80 (infOf true) .zero false ∧
      ExactResult .fscale one80 (infOf false) .infinity false ∧ ExactResult .fpatan one80 0#80 .zero false ∧
      ExactResult .fpatan (infOf false) one80 .zero false ∧ ExactResult .fyl2x (infOf false) one80 .infinity false ∧
      ExactResult .fyl2x two80 (infOf true) .infinity true ∧ ExactResult .fyl2x 0#80 (infOf true) .infinity false ∧
      ExactResult .fyl2x two80 0#80 .zero false ∧ ExactResult .fyl2x one80 two80 .zero false ∧
      ExactResult .fyl2xp1 0#80 one80 .zero false ∧
      ExactResult .fyl2xp1 0x3FFD8000000000000000#80 (infOf true) .infinity true) ∧
    (PiMultiple (infOf true) (infOf false) 0x96CBE3F9990E91A7 1 ∧ PiMultiple one80 (infOf false) 0xC90FDAA22168C234 0 ∧
      PiMultiple 0#80 one80 0xC90FDAA22168C234 0 ∧
      PiMultiple 0xBFFF8000000000000000#80 0#80 0xC90FDAA22168C234 1) ∧
    (Ready .fxtract (pairOf (infOf true) one80) ∧ (pairOf (infOf true) one80).isEmpty 0#3 = false ∧
      (pairOf (infOf true) one80).isEmpty 7#3 = true ∧ classOf ((pairOf (infOf true) one80).st 0#3) = .infinity) := by
  have zero : HasValue 0#80 0 := hasValue_zero (by decide) (by decide) (by decide)
  have quarter : HasValue 0x3FFD8000000000000000#80 (pw false (-2)) := by
    refine hasValue_pw false 16381 (-2) ?_ ?_ ?_ ?_ ?_ ?_ <;> decide
  have unit : pw false 0 = 1 := by simp [pw]
  have range : (1 / 4 : ℝ) ≤ 1 - Real.sqrt 2 / 2 := by
    have h : Real.sqrt 2 ≤ 3 / 2 := Real.sqrt_le_iff.mpr ⟨by norm_num, by norm_num⟩
    linarith
  have double : pw false 1 = 2 := by norm_num [pw]
  refine ⟨fun x hx => ?_, ?_, ?_, ready_of (by decide +kernel), by decide +kernel, by decide +kernel, by decide +kernel⟩
  · refine ⟨ready_of ?_, ?_, .inl ?_, .inl ?_, ?_, ?_⟩ <;> revert x <;> decide +kernel
  · simp only [ExactResult, InvalidPair, Yl2xExact, Yl2xp1Exact, IsNumber, IsFiniteNonzero, reduceCtorEq, List.mem_cons,
      List.not_mem_nil, false_and, false_or, or_false, true_and]
    exact ⟨by decide +kernel, by decide +kernel, by decide +kernel, by decide +kernel, by decide +kernel, by decide +kernel,
      by decide +kernel, by decide +kernel, by decide +kernel, .inl (by decide +kernel),
      .inr ⟨_, two_pw, .inl ⟨by decide +kernel, by rw [double]; norm_num, by rw [double]; norm_num, by
        rw [double]; norm_num; decide +kernel⟩⟩,
      .inr ⟨_, zero, .inl ⟨by decide +kernel, by norm_num, by norm_num, by norm_num; decide +kernel⟩⟩,
      .inr ⟨_, two_pw, .inr (.inl ⟨by decide +kernel, by rw [double]; norm_num, by rw [double]; norm_num; decide +kernel⟩)⟩,
      .inr ⟨_, one_pw, .inr (.inr ⟨by decide +kernel, unit, by decide +kernel⟩)⟩,
      ⟨by decide +kernel, _, zero, by norm_num; linarith, .inl (by norm_num; decide +kernel)⟩,
      ⟨by decide +kernel, _, quarter, by rw [pw_abs]; norm_num; linarith, by decide +kernel, pw_ne _ _⟩⟩
  · simp only [PiMultiple, IsNumber, IsFiniteNonzero]
    refine ⟨.inl ⟨?_, ?_, ?_⟩, .inr (.inl ⟨by simp, ?_⟩), .inr (.inl ⟨by simp, ?_⟩), .inr (.inr ⟨by simp, ?_⟩)⟩ <;> decide +kernel

/-- With DM = 0 and no denormal the exception is not raised; with DM = 1 a denormal operand is there and passes. -/
theorem witness_DenormalsPass :
    (∀ x ∈ [(Instr.fprem, start 0x037D#16 [one80, one80] []), (.faddM32 0x1000#32, start 0x037D#16 [one80] [0#8, 0#8, 0#8, 0x80#8])],
      Ready x.1 x.2 ∧ x.2.cw.getLsbD 1 = false ∧ DenormalsPass x.1 x.2) ∧
    (∀ x ∈ [(Instr.fprem, pairOf one80 tiny80), (.fpatan, pairOf tiny80 one80), (.fcomi 1#3, pairOf one80 tiny80),
        (.fmulM32 0x1000#32, start dflt [one80] [1#8, 0#8, 0#8, 0#8]), (.ficomM16 0x1000#32, pairOf tiny80 one80)],
      Ready x.1 x.2 ∧ DenormalsPass x.1 x.2 ∧ denormalOperand x.1 x.2 = true) := by
  refine ⟨fun x hx => ⟨ready_of ?_, ?_, ?_⟩, fun x hx => ⟨ready_of ?_, ?_, ?_⟩⟩ <;> revert x <;> decide +kernel

/-- One of the older parts, with values on the stack. -/
abbrev older (g : Gen) (vs : List Ext) : State := { start dflt vs [] with cfg := { gen := g } }

/-- 1/2 of FPTAN, F2XM1 (the end of its range) and, over 1, of FPATAN, on the 8087 and the 287. -/
theorem witness_AcceptsOperands :
    ∀ g ∈ [Gen.g8087, .g287],
      (Ready .f2xm1 (older g [half80]) ∧ AcceptsOperands .f2xm1 (older g [half80])) ∧
      (Ready .fptan (older g [half80]) ∧ AcceptsOperands .fptan (older g [half80])) ∧
      (Ready .fptan (older g [0#80]) ∧ classOf ((older g [0#80]).st 0#3) = .zero) ∧
      (Ready .fpatan (older g [one80, half80]) ∧ AcceptsOperands .fpatan (older g [one80, half80])) := by
  intro g hg
  have h0 : (older g [half80]).st 0#3 = half80 := by revert g; decide +kernel
  have hx : (older g [one80, half80]).st 0#3 = one80 := by revert g; decide +kernel
  have hy : (older g [one80, half80]).st 1#3 = half80 := by revert g; decide +kernel
  have half : pw false (-1) = 1 / 2 := by norm_num [pw]
  have half_pw : HasValue half80 (1 / 2) := by
    rw [← half]
    refine hasValue_pw false 16382 (-1) ?_ ?_ ?_ ?_ ?_ ?_ <;> decide
  have unit_pw : HasValue one80 1 := by simpa [pw] using one_pw
  have hpi := Real.pi_gt_three
  refine ⟨⟨ready_of ?_, .inr ⟨fun _ => ⟨1 / 2, h0 ▸ half_pw, by norm_num, le_rfl⟩, nofun, nofun⟩⟩,
    ⟨ready_of ?_, .inr ⟨nofun, fun _ => ⟨1 / 2, h0 ▸ half_pw, by norm_num, by linarith⟩, nofun⟩⟩, ⟨ready_of ?_, ?_⟩,
    ⟨ready_of ?_, .inr ⟨nofun, nofun, fun _ => ⟨1, 1 / 2, hx ▸ unit_pw, hy ▸ half_pw, by norm_num [abs_of_pos]⟩⟩⟩⟩ <;>
    (try clear h0 hx hy) <;> revert g <;> decide +kernel

/-- A zero, and 2^63, the least magnitude out of range. -/
theorem witness_TrigSpecialOperands :
    (Ready .fsincos (start dflt [0#80] []) ∧ (start dflt [0#80] []).isEmpty 0#3 = false ∧
      (start dflt [0#80] []).isEmpty 7#3 = true ∧ classOf ((start dflt [0#80] []).st 0#3) = .zero) ∧
    (∃ s : State, Ready .fptan s ∧ s.isEmpty 0#3 = false ∧ s.isEmpty 7#3 = true ∧ Gen.g387.rank ≤ s.cfg.gen.rank ∧
      HasValue (s.st 0#3) (pw true 63) ∧ (2 : ℝ) ^ (63 : ℤ) ≤ |pw true 63|) := by
  refine ⟨⟨ready_of (by decide +kernel), by decide +kernel, by decide +kernel, by decide +kernel⟩,
    ⟨start dflt [0xC03E8000000000000000#80] [], ready_of (by decide +kernel), by decide +kernel, by decide +kernel,
     by decide, ?_, by rw [pw_abs]⟩⟩
  rw [show (start dflt [0xC03E8000000000000000#80] []).st 0#3 = 0xC03E8000000000000000#80 by decide +kernel]
  refine hasValue_pw true 16446 63 ?_ ?_ ?_ ?_ ?_ ?_ <;> decide

theorem witness_TrigInRange :
    ∃ s : State, Ready .fsincos s ∧ Ready .fsin s ∧ Ready .fcos s ∧ Ready .fptan s ∧ s.isEmpty 0#3 = false ∧
      s.isEmpty 7#3 = true ∧ (∀ i, AcceptsOperands i s ∧ DenormalsPass i s) ∧ s.cw.getLsbD 4 = true ∧
      HasValue (s.st 0#3) (pw false 0) ∧ pw false 0 ≠ 0 ∧ |pw false 0| < (2 : ℝ) ^ (63 : ℤ) := by
  refine ⟨start dflt [one80] [], ready_of (by decide +kernel), ready_of (by decide +kernel), ready_of (by decide +kernel),
    ready_of (by decide +kernel), by decide +kernel, by decide +kernel, fun _ => ⟨.inl (by decide), .inl (by decide)⟩, by decide, ?_,
    pw_ne _ _, ?_⟩
  · rw [show (start dflt [one80] []).st 0#3 = one80 by decide +kernel]; exact one_pw
  · rw [pw_abs]; exact pw_lt (by norm_num)

/-- A positive and a negative x. -/
theorem witness_ArctangentQuadrant (neg : Bool) :
    ∃ s : State, Ready .fpatan s ∧ s.isEmpty 0#3 = false ∧ s.isEmpty 1#3 = false ∧
      AcceptsOperands .fpatan s ∧ DenormalsPass .fpatan s ∧ s.cw.getLsbD 4 = true ∧
      HasValue (s.st 0#3) (pw neg 0) ∧ HasValue (s.st 1#3) (pw false 1) ∧ pw neg 0 ≠ 0 ∧ pw false 1 ≠ 0 := by
  cases neg
  · refine ⟨start dflt [one80, two80] [], ready_of (by decide +kernel), by decide +kernel, by decide +kernel,
      .inl (by decide), by decide, by decide, ?_, ?_, pw_ne _ _, pw_ne _ _⟩
    · rw [show (start dflt [one80, two80] []).st 0#3 = one80 by decide +kernel]; exact one_pw
    · rw [show (start dflt [one80, two80] []).st 1#3 = two80 by decide +kernel]; exact two_pw
  · refine ⟨start dflt [0xBFFF8000000000000000#80, two80] [], ready_of (by decide +kernel), by decide +kernel,
      by decide +kernel, .inl (by decide), by decide, by decide, ?_, ?_, pw_ne _ _, pw_ne _ _⟩
    · rw [show (start dflt [0xBFFF8000000000000000#80, two80] []).st 0#3 = 0xBFFF8000000000000000#80 by decide +kernel]
      exact minus_pw
    · rw [show (start dflt [0xBFFF8000000000000000#80, two80] []).st 1#3 = two80 by decide +kernel]; exact two_pw

/-- F2XM1 of 1, the end of the range; FYL2X of x = 2, and FYL2XP1 of x = 1/4. -/
theorem witness_ExponentialAndLogarithms :
    (∃ s : State, Ready .f2xm1 s ∧ s.isEmpty 0#3 = false ∧ AcceptsOperands .f2xm1 s ∧ DenormalsPass .f2xm1 s ∧
      s.cw.getLsbD 4 = true ∧ HasValue (s.st 0#3) (pw false 0) ∧ pw false 0 ≠ 0 ∧ |pw false 0| ≤ 1) ∧
    (∃ s : State, Ready .fyl2x s ∧ s.isEmpty 0#3 = false ∧ s.isEmpty 1#3 = false ∧ DenormalsPass .fyl2x s ∧
      s.cw.getLsbD 3 = true ∧ s.cw.getLsbD 4 = true ∧ HasValue (s.st 0#3) (pw false 1) ∧
      HasValue (s.st 1#3) (pw false 0) ∧ 0 < pw false 1 ∧ pw false 1 ≠ 1) ∧
    (∃ s : State, Ready .fyl2xp1 s ∧ s.isEmpty 0#3 = false ∧ s.isEmpty 1#3 = false ∧ DenormalsPass .fyl2xp1 s ∧
      s.cw.getLsbD 3 = true ∧ s.cw.getLsbD 4 = true ∧ HasValue (s.st 0#3) (pw false (-2)) ∧
      HasValue (s.st 1#3) (pw false 0) ∧ |pw false (-2)| ≤ 1 - Real.sqrt 2 / 2) := by
  refine ⟨⟨start dflt [one80] [], ready_of (by decide +kernel), by decide +kernel, .inl (by decide), by decide, by decide, ?_,
    pw_ne _ _, by rw [pw_abs]; simp⟩, ⟨start dflt [two80, one80] [], ready_of (by decide +kernel), by decide +kernel, by decide +kernel, by decide,
    by decide, by decide, ?_, ?_, by simp [pw], by norm_num [pw]⟩,
    ⟨start dflt [0x3FFD8000000000000000#80, one80] [], ready_of (by decide +kernel), by decide +kernel,
     by decide +kernel, by decide, by decide, by decide, ?_, ?_, ?_⟩⟩
  · rw [show (start dflt [one80] []).st 0#3 = one80 by decide +kernel]; exact one_pw
  · rw [show (start dflt [two80, one80] []).st 0#3 = two80 by decide +kernel]; exact two_pw
  · rw [show (start dflt [two80, one80] []).st 1#3 = one80 by decide +kernel]; exact one_pw
  · rw [show (start dflt [0x3FFD8000000000000000#80, one80] []).st 0#3 = 0x3FFD8000000000000000#80 by decide +kernel]
    refine hasValue_pw false 16381 (-2) ?_ ?_ ?_ ?_ ?_ ?_ <;> decide
  · rw [show (start dflt [0x3FFD8000000000000000#80, one80] []).st 1#3 = one80 by decide +kernel]; exact one_pw
  · rw [pw_abs]
    have h : Real.sqrt 2 ≤ 3 / 2 := Real.sqrt_le_iff.mpr ⟨by norm_num, by norm_num⟩
    norm_num
    linarith

/-- All digits 9 and the sign set, for FBLD. -/
theorem witness_LoadIntegerAndBcdExact :
    ((16, Instr.fildM16) ∈ [(16, Instr.fildM16), (32, Instr.fildM32), (64, Instr.fildM64)] ∧
    Ready (.fildM16 0x1000#32) State.reset ∧ OperandThere (.fildM16 0x1000#32) State.reset ∧
    State.reset.isEmpty 7#3 = true) ∧
    ∃ (s : State) (digit : Fin 18 → Fin 10), Ready (.fbld 0x1000#32) s ∧ OperandThere (.fbld 0x1000#32) s ∧
      s.isEmpty 7#3 = true ∧
      (∀ k : Fin 9, s.byteAt ((0x1000#32).toNat + k.val) = BitVec.ofNat 8
        ((digit ⟨2 * k.val, by omega⟩).val + 16 * (digit ⟨2 * k.val + 1, by omega⟩).val)) ∧
      s.byteAt ((0x1000#32).toNat + 9) = 0x80#8 :=
  ⟨⟨by simp, ready_of (by decide +kernel), there_of (by decide +kernel), by decide +kernel⟩,
   start dflt [] (List.replicate 9 0x99#8 ++ [0x80#8]), fun _ => 9, ready_of (by decide +kernel),
   there_of (by decide +kernel), by decide +kernel, by decide +kernel, by decide +kernel⟩

/-- The least denormal of the single format; a signalling NaN and an infinity. -/
theorem witness_LoadRealExact :
    (∃ (s : State) (v : ℝ), Ready (.fldM32 0x1000#32) s ∧ OperandThere (.fldM32 0x1000#32) s ∧ s.isEmpty 7#3 = true ∧
      FormatValue single (leNat (s.bytesAt 0x1000#32 single.bytes)) v ∧ v ≠ 0) ∧
    (∀ x ∈ [([1#8, 0#8, 0x80#8, 0xFF#8], 0xFFFF8000010000000000#80), ([0#8, 0#8, 0x80#8, 0x7F#8], infOf false)],
      Ready (.fldM32 0x1000#32) (start 0x037E#16 [] x.1) ∧ OperandThere (.fldM32 0x1000#32) (start 0x037E#16 [] x.1) ∧
      (start 0x037E#16 [] x.1).isEmpty 7#3 = true ∧
      single.expoOf (leNat ((start 0x037E#16 [] x.1).bytesAt 0x1000#32 single.bytes)) = single.expMax ∧
      SourceBits (.real single) 0x1000#32 (start 0x037E#16 [] x.1) x.2) := by
  refine ⟨⟨start dflt [] [1#8], 2 ^ (-149 : ℤ), ready_of (by decide +kernel), there_of (by decide +kernel),
    by decide +kernel, ?_, by positivity⟩, fun x hx => ?_⟩
  rotate_left
  · refine ⟨ready_of ?_, there_of ?_, ?_, ?_, sourceBits_expMax ?_⟩ <;> revert x <;> decide +kernel
  rw [show leNat ((start dflt [] [1#8]).bytesAt 0x1000#32 single.bytes) = 1 by decide +kernel]
  refine ⟨by decide, ?_⟩
  rw [show single.negOf 1 = false by decide, show single.expoOf 1 = 0 by decide, show single.fracOf 1 = 1 by decide,
    show single.bias = 127 by decide, show single.fracBits = 23 from rfl]
  norm_num

theorem witness_ExtendedBitsUnchanged :
    (Ready (.fldM80 0x1000#32) State.reset ∧ OperandThere (.fldM80 0x1000#32) State.reset ∧
      State.reset.isEmpty 7#3 = true) ∧
    (Ready (.fldSt 0#3) (start dflt [indef] []) ∧ (start dflt [indef] []).isEmpty 0#3 = false ∧
      (start dflt [indef] []).isEmpty 7#3 = true) ∧
    (Ready (.fstpM80 0x1000#32) (start dflt [indef] []) ∧ OperandThere (.fstpM80 0x1000#32) (start dflt [indef] []) ∧
      Memory.wf (start dflt [indef] []).mem ∧ (start dflt [indef] []).isEmpty 0#3 = false) ∧
    (Ready (.fstpM80 0x1000#32) State.reset ∧ OperandThere (.fstpM80 0x1000#32) State.reset ∧
      Memory.wf State.reset.mem ∧ State.reset.isEmpty 0#3 = true) :=
  ⟨⟨ready_of (by decide +kernel), there_of (by decide +kernel), by decide +kernel⟩,
   ⟨ready_of (by decide +kernel), by decide +kernel, by decide +kernel⟩,
   ⟨ready_of (by decide +kernel), there_of (by decide +kernel), by decide +kernel, by decide +kernel⟩,
   ⟨ready_of (by decide +kernel), there_of (by decide +kernel), by decide, by decide +kernel⟩⟩

theorem witness_LoadConstants : Ready .fldpi State.reset ∧ State.reset.isEmpty 7#3 = true :=
  ⟨ready_of (by decide +kernel), by decide +kernel⟩

/-- A full stack, for a load and for FSINCOS; an empty source of a load, a store, a compare and a move. -/
theorem witness_StackFaults :
    (∀ i ∈ [Instr.fld1, .fsincos], ∃ s, familyOf i ≠ .control ∧ Ready i s ∧ OperandThere i s ∧
      (∀ k ∈ sources i, s.isEmpty k = false) ∧ 7#3 ∈ topMoves i ∧ s.isEmpty 7#3 = false) ∧
    (∀ i ∈ [Instr.fldSt 3#3, .fistpM16 0x1000#32, .fcompp, .fxch 7#3, .fyl2x],
      familyOf i ≠ .control ∧ Ready i State.reset ∧ OperandThere i State.reset ∧
      ∃ k ∈ sources i, State.reset.isEmpty k = true) := by
  refine ⟨fun i hi => ⟨start dflt [one80, one80, one80, one80, one80, one80, one80, one80] [], ?_, ready_of ?_,
    there_of ?_, ?_, ?_, ?_⟩, fun i hi => ⟨?_, ready_of ?_, there_of ?_, ?_⟩⟩ <;> revert i <;> decide +kernel

theorem witness_StoreCompletes :
    familyOf (.fbstp 0xFFFFFFF6#32) = .store ∧ Ready (.fbstp 0xFFFFFFF6#32) State.reset ∧
    OperandThere (.fbstp 0xFFFFFFF6#32) State.reset ∧ Memory.wf State.reset.mem :=
  ⟨rfl, ready_of (by decide +kernel), there_of (by decide +kernel), by decide⟩

/-- -2^15, the least integer that fits in 16 bits, and 2^15, the least that does not. -/
theorem witness_StoreIntegerRounded (neg : Bool) :
    ∃ s : State, Ready (.fistpM16 0x1000#32) s ∧ OperandThere (.fistpM16 0x1000#32) s ∧ Memory.wf s.mem ∧
      s.isEmpty 0#3 = false ∧ HasValue (s.st 0#3) (pw neg 15) ∧
      RoundedTo 0 (rounding s.cw) (pw neg 15) (pw neg 15) false false ∧
      ((-(2 : ℝ) ^ (((16 : ℕ) : ℤ) - 1) ≤ pw neg 15 ∧ pw neg 15 < (2 : ℝ) ^ (((16 : ℕ) : ℤ) - 1)) ↔ neg = true) := by
  cases neg
  · refine ⟨start dflt [0x400E8000000000000000#80] [], ready_of (by decide +kernel), there_of (by decide +kernel),
      by decide +kernel, by decide +kernel, ?_, exact_rounded _ (by norm_num) _, ?_⟩
    · rw [show (start dflt [0x400E8000000000000000#80] []).st 0#3 = 0x400E8000000000000000#80 by decide +kernel]
      refine hasValue_pw false 16398 15 ?_ ?_ ?_ ?_ ?_ ?_ <;> decide
    · norm_num [pw]
  · refine ⟨start dflt [0xC00E8000000000000000#80] [], ready_of (by decide +kernel), there_of (by decide +kernel),
      by decide +kernel, by decide +kernel, ?_, exact_rounded _ (by norm_num) _, ?_⟩
    · rw [show (start dflt [0xC00E8000000000000000#80] []).st 0#3 = 0xC00E8000000000000000#80 by decide +kernel]
      refine hasValue_pw true 16398 15 ?_ ?_ ?_ ?_ ?_ ?_ <;> decide
    · norm_num [pw]

/-- An empty register: the last clauses of the stores. -/
theorem witness_StoreIntegerRounded_empty :
    ∀ i ∈ [Instr.fistpM64 0x1000#32, .fstM32 0x1000#32, .fstpM64 0x1000#32, .fbstp 0x1000#32],
      Ready i State.reset ∧ OperandThere i State.reset ∧ Memory.wf State.reset.mem ∧ State.reset.isEmpty 0#3 = true := by
  intro i hi
  refine ⟨ready_of ?_, there_of ?_, by decide, by decide +kernel⟩ <;> revert i <;> decide +kernel

/-- 2^-126, the least normal magnitude of the single format, 2^128, the least that overflows, and 2^-127, below the
normal range; a zero, an infinity, a signalling NaN and an unsupported value. -/
theorem witness_StoreRealRounded :
    (∀ x ∈ [(0x3F818000000000000000#80, 16257, (-126 : ℤ)), (0x407F8000000000000000#80, 16511, 128),
        (0x3F808000000000000000#80, 16256, -127)],
      ∃ s : State, Ready (.fstM32 0x1000#32) s ∧ OperandThere (.fstM32 0x1000#32) s ∧ Memory.wf s.mem ∧
        s.isEmpty 0#3 = false ∧ HasValue (s.st 0#3) (pw false x.2.2) ∧
        CorrectlyRounded (single.fracBits + 1) (rounding s.cw) (pw false x.2.2) (pw false x.2.2) false false ∧
        RoundedTo (single.emin - single.fracBits) (rounding s.cw) (pw false x.2.2) (pw false x.2.2) false false) ∧
    ((2 : ℝ) ^ single.emin ≤ |pw false (-126)| ∧ |pw false (-126)| < (2 : ℝ) ^ (single.emax + 1) ∧
      (2 : ℝ) ^ (single.emax + 1) ≤ |pw false 128| ∧ |pw false (-127)| < (2 : ℝ) ^ single.emin) ∧
    (∀ x ∈ [(0#80, Machine.Class.zero), (infOf true, .infinity), (0x7FFF8000000000000001#80, .nan),
        (1#80 <<< 64, .unsupported)],
      Ready (.fstM32 0x1000#32) (start dflt [x.1] []) ∧ OperandThere (.fstM32 0x1000#32) (start dflt [x.1] []) ∧
        (start dflt [x.1] []).isEmpty 0#3 = false ∧ classOf ((start dflt [x.1] []).st 0#3) = x.2) := by
  refine ⟨?_, ⟨?_, ?_, ?_, ?_⟩, ?_⟩
  · intro x hx
    refine ⟨start dflt [x.1] [], ready_of ?_, there_of ?_, ?_, ?_, ?_, exact_correct _ (by decide) _ _,
      exact_rounded _ ?_ _⟩
    · revert x; decide +kernel
    · revert x; decide +kernel
    · revert x; decide +kernel
    · revert x; decide +kernel
    · refine hasValue_pw false x.2.1 x.2.2 ?_ ?_ ?_ ?_ ?_ ?_ <;> revert x <;> decide +kernel
    · revert x; decide
  · rw [pw_abs, show single.emin = -126 by decide]
  · rw [pw_abs, show single.emax = 127 by decide]; exact pw_lt (by norm_num)
  · rw [pw_abs, show single.emax = 127 by decide]; exact pw_mono (by norm_num)
  · rw [pw_abs, show single.emin = -126 by decide]; exact pw_lt (by norm_num)
  · intro x hx
    refine ⟨ready_of ?_, there_of ?_, ?_, ?_⟩ <;> revert x <;> decide +kernel

/-- 10^18 - 1, the greatest magnitude that fits, 10^18, the least that does not, and a NaN. -/
theorem witness_StoreBcdRounded :
    (∀ x ∈ [(0x403ADE0B6B3A763FFFF0#80, 10 ^ 18 - 1), (0x403ADE0B6B3A76400000#80, (10 : ℕ) ^ 18)],
      ∃ s : State, Ready (.fbstp 0x1000#32) s ∧ OperandThere (.fbstp 0x1000#32) s ∧ Memory.wf s.mem ∧
        s.isEmpty 0#3 = false ∧ HasValue (s.st 0#3) (x.2 : ℝ) ∧
        RoundedTo 0 (rounding s.cw) (x.2 : ℝ) (x.2 : ℝ) false false) ∧
    |((10 ^ 18 - 1 : ℕ) : ℝ)| < 10 ^ 18 ∧ 10 ^ 18 ≤ |((10 ^ 18 : ℕ) : ℝ)| ∧
    (Ready (.fbstp 0x1000#32) (start dflt [indef] []) ∧ OperandThere (.fbstp 0x1000#32) (start dflt [indef] []) ∧
      (start dflt [indef] []).isEmpty 0#3 = false ∧ classOf ((start dflt [indef] []).st 0#3) = .nan) := by
  refine ⟨fun x hx => ⟨start dflt [x.1] [], ready_of ?_, there_of ?_, ?_, ?_, ?_, nat_rounded _ _⟩, by norm_num,
    by norm_num, ready_of (by decide +kernel), there_of (by decide +kernel), by decide +kernel, by decide +kernel⟩
  iterate 4 revert x; decide +kernel
  have h : ∀ x ∈ [(0x403ADE0B6B3A763FFFF0#80, 10 ^ 18 - 1), (0x403ADE0B6B3A76400000#80, (10 : ℕ) ^ 18)],
      classOf x.1 = .normal ∧ signOf x.1 = false ∧ expoOf x.1 = 16442 ∧ intBit x.1 = true ∧
      (fracOf x.1).toNat = x.2 * 16 - 2 ^ 63 ∧ 2 ^ 63 ≤ x.2 * 16 := by decide +kernel
  obtain ⟨hc, hs, he, hj, hf, hle⟩ := h x hx
  have hx0 : (start dflt [x.1] []).st 0#3 = x.1 := by revert x; decide +kernel
  rw [hx0]
  refine ⟨.inr (.inl hc), ?_⟩
  rw [hs, he, hj, hf, Nat.cast_sub hle]
  norm_num
  ring

/-- The condition false and true. -/
theorem witness_ConditionalMoves (c : Bool) :
    ∃ s : State, Ready (.fcmovb 1#3) s ∧ s.isEmpty 0#3 = false ∧ s.isEmpty 1#3 = false ∧ s.cf = c := by
  cases c
  · exact ⟨withHostFlags false false false (start dflt [one80, two80] []), ready_of (by decide +kernel),
      by decide +kernel, by decide +kernel, rfl⟩
  · exact ⟨withHostFlags false false true (start dflt [one80, two80] []), ready_of (by decide +kernel),
      by decide +kernel, by decide +kernel, rfl⟩

theorem witness_ConditionalMoves_empty : Ready (.fcmovb 1#3) State.reset ∧ State.reset.isEmpty 1#3 = true :=
  ⟨ready_of (by decide +kernel), by decide +kernel⟩

/-- Both registers filled, both empty, and only ST(1) empty. -/
theorem witness_RegisterMoves :
    (∃ s : State, s.isEmpty 0#3 = false ∧ Ready (.fstSt 1#3) s ∧ Ready (.fstpSt 0#3) s ∧ Ready (.fxch 1#3) s ∧
      s.isEmpty 1#3 = false) ∧
    (State.reset.isEmpty 0#3 = true ∧ Ready (.fstSt 1#3) State.reset ∧ Ready (.fstpSt 0#3) State.reset ∧
      Ready (.fxch 0#3) State.reset) ∧
    (∃ s : State, s.isEmpty 0#3 = false ∧ s.isEmpty 1#3 = true ∧ Ready (.fxch 1#3) s) :=
  ⟨⟨start dflt [one80, two80] [], by decide +kernel, ready_of (by decide +kernel), ready_of (by decide +kernel),
    ready_of (by decide +kernel), by decide +kernel⟩,
   ⟨by decide +kernel, ready_of (by decide +kernel), ready_of (by decide +kernel), ready_of (by decide +kernel)⟩,
   ⟨start dflt [one80] [], by decide +kernel, by decide +kernel, ready_of (by decide +kernel)⟩⟩

theorem witness_CompareCompletes :
    ∀ i ∈ [Instr.fcomM32 0xFFFFFFFC#32, .fcompp, .fucomip 7#3, .ftst, .fxam],
      familyOf i = .compare ∧ Ready i State.reset ∧ OperandThere i State.reset := by
  intro i hi
  simp only [List.mem_cons, List.not_mem_nil, or_false] at hi
  obtain rfl | rfl | rfl | rfl | rfl := hi <;>
    exact ⟨by decide, ready_of (by decide +kernel), there_of (by decide +kernel)⟩

/-- 1 compared with 2 and with an infinity, with the result in the condition codes and in the host flags. -/
theorem witness_CompareOrders :
    (∀ x ∈ [two80, infOf true], Ready (.fcompSt 1#3) (start dflt [one80, x] []) ∧
      Ready (.fcomi 1#3) (start dflt [one80, x] []) ∧ DenormalsPass (.fcompSt 1#3) (start dflt [one80, x] []) ∧
      (start dflt [one80, x] []).isEmpty 0#3 = false ∧ (SourceKind.reg 1#3).isEmpty (start dflt [one80, x] []) = false ∧
      SourceBits (.reg 1#3) 0#32 (start dflt [one80, x] []) x ∧ (start dflt [one80, x] []).st 0#3 = one80) ∧
    ExtendedValue one80 (pw false 0 : ℝ) ∧ ExtendedValue two80 (pw false 1 : ℝ) ∧ ExtendedValue (infOf true) ⊥ ∧
    compareRow (.fcompSt 1#3) = some ⟨.reg 1#3, false, false, 1⟩ ∧
    compareRow (.fcomi 1#3) = some ⟨.reg 1#3, false, true, 0⟩ := by
  refine ⟨fun x hx => ?_, .inl ⟨_, one_pw, rfl⟩, .inl ⟨_, two_pw, rfl⟩,
    .inr ⟨by decide, by simp [show signOf (infOf true) = true by decide]⟩, rfl, rfl⟩
  obtain rfl | rfl : x = two80 ∨ x = infOf true := by simpa using hx
  all_goals
    refine ⟨ready_of ?_, ready_of ?_, ?_, ?_, ?_, ?_, ?_⟩ <;> (try simp only [SourceBits]) <;> decide +kernel

/-- A quiet NaN under FUCOM is not invalid, under FCOM with IM = 0 it is; an empty stack, for FTST too; a quiet NaN in
memory, and a NaN compared with an integer. -/
theorem witness_CompareUnordered :
    (∃ s : State, Ready (.fucom 1#3) s ∧ compareRow (.fucom 1#3) = some ⟨.reg 1#3, true, false, 0⟩ ∧
      classOf (s.st 0#3) = .nan ∧ s.isEmpty 0#3 = false ∧ s.isEmpty 1#3 = false ∧ isSNaN (s.st 0#3) = false ∧
      classOf (s.st 1#3) = .normal) ∧
    (∃ s : State, Ready (.fcomSt 1#3) s ∧ compareRow (.fcomSt 1#3) = some ⟨.reg 1#3, false, false, 0⟩ ∧
      classOf (s.st 0#3) = .nan ∧ s.cw.getLsbD 0 = false) ∧
    (Ready (.fcomSt 1#3) State.reset ∧ Ready .ftst State.reset ∧ compareRow .ftst = some ⟨.zero, false, false, 0⟩ ∧
      SourceBits .zero 0#32 State.reset 0#80 ∧ State.reset.isEmpty 0#3 = true) ∧
    (∃ s : State, Ready (.fcompM64 0x1000#32) s ∧ OperandThere (.fcompM64 0x1000#32) s ∧
      compareRow (.fcompM64 0x1000#32) = some ⟨.real double, false, false, 1⟩ ∧ s.isEmpty 0#3 = false ∧
      SourceBits (.real double) (addressOf (.fcompM64 0x1000#32)) s 0x7FFFC000000000000000#80 ∧
      classOf 0x7FFFC000000000000000#80 = .nan) ∧
    (∃ s : State, Ready (.ficomM16 0x1000#32) s ∧ OperandThere (.ficomM16 0x1000#32) s ∧
      compareRow (.ficomM16 0x1000#32) = some ⟨.int 16, false, false, 0⟩ ∧ classOf (s.st 0#3) = .nan ∧
      SourceBits (.int 16) (addressOf (.ficomM16 0x1000#32)) s 0#80) := by
  refine ⟨⟨start dflt [indef, one80] [], ready_of (by decide +kernel), rfl, by decide +kernel, by decide +kernel,
    by decide +kernel, by decide +kernel, by decide +kernel⟩,
   ⟨start 0x037E#16 [indef, one80] [], ready_of (by decide +kernel), rfl, by decide +kernel, by decide⟩,
   ⟨ready_of (by decide +kernel), ready_of (by decide +kernel), rfl, rfl, by decide +kernel⟩,
   ⟨start dflt [one80] [0#8, 0#8, 0#8, 0#8, 0#8, 0#8, 0xF8#8, 0x7F#8], ready_of (by decide +kernel),
    there_of (by decide +kernel), rfl, by decide +kernel, sourceBits_expMax (by decide +kernel), by decide⟩,
   ⟨start dflt [indef] [], ready_of (by decide +kernel), there_of (by decide +kernel), rfl, by decide +kernel,
    by decide +kernel, ?_⟩⟩
  rw [show intAt 16 (addressOf (.ficomM16 0x1000#32)) (start dflt [indef] []) = 0 by decide +kernel]
  simpa using hasValue_zero (x := 0#80) (by decide) (by decide) (by decide)

theorem witness_ExamineClasses : Ready .fxam State.reset := ready_of (by decide +kernel)

/-- Where the instruction ends with the last address, and with an exception pending. -/
theorem witness_FninitAndFnclex :
    (∃ s : State, s.pcNat + 2 = s.cfg.addrLimit ∧ s.windowOpen = false) ∧
    (pend .stop).pcNat + 2 ≤ (pend .stop).cfg.addrLimit ∧ (pend .stop).windowOpen = false :=
  ⟨⟨{ State.reset with pc := 0xFFFFFFFE#32 }, by decide, by decide⟩, by decide +kernel, by decide +kernel⟩

theorem witness_StackManagement :
    Ready .fdecstp State.reset ∧ Ready .fincstp State.reset ∧ Ready (.ffree 7#3) State.reset :=
  ⟨ready_of (by decide +kernel), ready_of (by decide +kernel), ready_of (by decide +kernel)⟩

/-- FNOP and FWAIT; the others on the generation that implements each, and on the default one. -/
theorem witness_NoOperations :
    (Ready .fnop State.reset ∧ Ready .fwait State.reset) ∧
    Ready .fndisi { State.reset with cfg := { gen := .g8087 } } ∧ Ready .fneni { State.reset with cfg := { gen := .g8087 } } ∧
    Ready .fsetpm { State.reset with cfg := { gen := .g287 } } ∧ Ready .fndisi State.reset ∧ Ready .fsetpm State.reset :=
  ⟨⟨ready_of (by decide +kernel), ready_of (by decide +kernel)⟩, ready_of (by decide +kernel), ready_of (by decide +kernel),
   ready_of (by decide +kernel), ready_of (by decide +kernel), ready_of (by decide +kernel)⟩

theorem witness_Fldcw : Ready (.fldcw 0x1000#32) State.reset ∧ OperandThere (.fldcw 0x1000#32) State.reset :=
  ⟨ready_of (by decide +kernel), there_of (by decide +kernel)⟩

theorem witness_StoreControlAndStatus :
    Ready (.fnstcw 0x1000#32) State.reset ∧ OperandThere (.fnstcw 0x1000#32) State.reset ∧
    Ready (.fnstswM16 0x1000#32) State.reset ∧ OperandThere (.fnstswM16 0x1000#32) State.reset ∧
    Ready .fnstswAx State.reset ∧ OperandThere .fnstswAx State.reset ∧ Memory.wf State.reset.mem ∧ State.reset.wf :=
  ⟨ready_of (by decide +kernel), there_of (by decide +kernel), ready_of (by decide +kernel),
   there_of (by decide +kernel), ready_of (by decide +kernel), there_of (by decide +kernel), by decide, by decide +kernel⟩

theorem witness_StoreEnvironment :
    Ready (.fnstenv 0x1000#32) (pend .stop) ∧ OperandThere (.fnstenv 0x1000#32) (pend .stop) ∧
    Ready (.fnstenvO66 0xFFFFFFF2#32) (pend .stop) ∧ OperandThere (.fnstenvO66 0xFFFFFFF2#32) (pend .stop) ∧
    Memory.wf (pend .stop).mem :=
  ⟨ready_of (by decide +kernel), there_of (by decide +kernel), ready_of (by decide +kernel),
   there_of (by decide +kernel), by decide⟩

theorem witness_SaveState :
    Ready (.fnsave 0x1000#32) (pend .stop) ∧ OperandThere (.fnsave 0x1000#32) (pend .stop) ∧
    Ready (.fnsaveO66 0xFFFFFFA2#32) (pend .stop) ∧ OperandThere (.fnsaveO66 0xFFFFFFA2#32) (pend .stop) ∧
    Memory.wf (pend .stop).mem :=
  ⟨ready_of (by decide +kernel), there_of (by decide +kernel), ready_of (by decide +kernel),
   there_of (by decide +kernel), by decide⟩

theorem witness_LoadState :
    ∀ i ∈ [Instr.fldenv 0x1000#32, .fldenvO66 0x1000#32, .frstor 0x1000#32, .frstorO66 0x1000#32],
      Ready i State.reset ∧ OperandThere i State.reset := by
  intro i hi
  simp only [List.mem_cons, List.not_mem_nil, or_false] at hi
  obtain rfl | rfl | rfl | rfl := hi <;> exact ⟨ready_of (by decide +kernel), there_of (by decide +kernel)⟩

/-- Pointers in the fields of each of the four layouts, in protected and in real mode, with and without 66H. -/
theorem witness_ImageLayouts :
    ∀ m ∈ [CpuMode.prot, .real],
      let s := { State.reset with cfg := { cpuMode := m }, fip := 0x000ABCDE#32, fdp := 0x00054321#32, fop := 0x123#11 }
      Memory.wf s.mem ∧ Params.realMode s.cfg = decide (m = .real) ∧
      (∀ i ∈ [Instr.fnstenv 0x1000#32, .fldenv 0x1000#32], widthOf s.cfg i = 28 ∧ Ready i s ∧ OperandThere i s) ∧
      (∀ i ∈ [Instr.fnstenvO66 0x1000#32, .fldenvO66 0x1000#32], widthOf s.cfg i = 14 ∧ Ready i s ∧ OperandThere i s) ∧
      (∀ i ∈ [Instr.fnsave 0x1000#32, .frstor 0x1000#32], widthOf s.cfg i = 108 ∧ Ready i s ∧ OperandThere i s) ∧
      (∀ i ∈ [Instr.fnsaveO66 0x1000#32, .frstorO66 0x1000#32], widthOf s.cfg i = 94 ∧ Ready i s ∧ OperandThere i s) := by
  intro m hm
  refine ⟨?_, ?_, fun i hi => ⟨?_, ready_of ?_, there_of ?_⟩, fun i hi => ⟨?_, ready_of ?_, there_of ?_⟩,
    fun i hi => ⟨?_, ready_of ?_, there_of ?_⟩, fun i hi => ⟨?_, ready_of ?_, there_of ?_⟩⟩ <;>
    (try revert i) <;> revert m <;> decide +kernel

/-- The image stored from the reset state, loaded in the state that stored it. -/
theorem witness_EnvironmentRoundTrip :
    State.reset.wf ∧ Ready (.fnstenv 0x1000#32) State.reset ∧ OperandThere (.fnstenv 0x1000#32) State.reset ∧
    ∃ u, exec (.fnstenv 0x1000#32) State.reset = .next u ∧ u.cfg = State.reset.cfg ∧ Ready (.fldenv 0x1000#32) u := by
  obtain ⟨u, h, hp⟩ := next_of (o := exec (.fnstenv 0x1000#32) State.reset)
    (p := fun u => decide (u.cfg = State.reset.cfg) && (Instr.available u.cfg (.fldenv 0x1000#32) &&
      !u.passesTop (Instr.length u.cfg (.fldenv 0x1000#32)) && !u.pending)) (by decide +kernel)
  rw [Bool.and_eq_true] at hp
  exact ⟨by decide +kernel, ready_of (by decide +kernel), there_of (by decide +kernel), u, h, of_decide_eq_true hp.1,
    ready_of hp.2⟩

/-- The same of the whole state, in the layout of 108 bytes and, with 66H, in that of 94. -/
theorem witness_SaveRestoreRoundTrip :
    widthOf State.reset.cfg (.fnsave 0x1000#32) = 108 ∧ widthOf State.reset.cfg (.fnsaveO66 0x1000#32) = 94 ∧
    Ready (.fnsaveO66 0x1000#32) State.reset ∧ OperandThere (.fnsaveO66 0x1000#32) State.reset ∧
    State.reset.wf ∧ Ready (.fnsave 0x1000#32) State.reset ∧ OperandThere (.fnsave 0x1000#32) State.reset ∧
    ∃ u, exec (.fnsave 0x1000#32) State.reset = .next u ∧ u.cfg = State.reset.cfg ∧ Ready (.frstor 0x1000#32) u := by
  obtain ⟨u, h, hp⟩ := next_of (o := exec (.fnsave 0x1000#32) State.reset)
    (p := fun u => decide (u.cfg = State.reset.cfg) && (Instr.available u.cfg (.frstor 0x1000#32) &&
      !u.passesTop (Instr.length u.cfg (.frstor 0x1000#32)) && !u.pending)) (by decide +kernel)
  rw [Bool.and_eq_true] at hp
  exact ⟨by decide, by decide, ready_of (by decide +kernel), there_of (by decide +kernel), by decide +kernel,
    ready_of (by decide +kernel), there_of (by decide +kernel), u, h, of_decide_eq_true hp.1,
    ready_of hp.2⟩

theorem witness_WaitFormsComplete :
    (Instr.waitForm .fnclex = some .fclex ∧ Ready .fclex State.reset ∧ OperandThere .fclex State.reset ∧
    Instr.waitForm (.fnsaveO66 0x1000#32) = some (.fsaveO66 0x1000#32) ∧ Ready (.fsaveO66 0x1000#32) State.reset ∧
    OperandThere (.fsaveO66 0x1000#32) State.reset) ∧
    (∃ s : State, Instr.waitForm .fnclex = some .fclex ∧ Ready .fclex s ∧ OperandThere .fclex s ∧
      s.cfg.fusedWait = false ∧ decode { s.cfg with fusedWait := true } s.code = .ok (.fclex, Instr.length s.cfg .fclex) ∧
      s.written = []) :=
  ⟨⟨rfl, ready_of (by decide +kernel), there_of (by decide), rfl, ready_of (by decide +kernel),
   there_of (by decide +kernel)⟩,
   { State.reset with mem := [(0, 0x9B#8), (1, 0xDB#8), (2, 0xE2#8)] }, rfl, ready_of (by decide +kernel),
   there_of (by decide), rfl, by decide +kernel, rfl⟩

/-! The instructions without a vector: expected from their own rules (rules R334 to R340, R346, R361, R366, R402, R407,
R414, R415, R418, R426, R473 to R489, R427, and R145 for the wait forms). -/

theorem test_fcmove : holds (exec (.fcmove 1#3) (withHostFlags true false false (start 0x037F#16 [one80, two80] [])))
  (fun t => t.st 0#3 == two80 && raised t == []) = true := by decide +kernel

theorem test_fcmovbe : holds (exec (.fcmovbe 1#3) (withHostFlags false true false (start 0x037F#16 [one80, two80] [])))
  (fun t => t.st 0#3 == one80 && raised t == []) = true := by decide +kernel

theorem test_fcmovnb : holds (exec (.fcmovnb 1#3) (withHostFlags true true true (start 0x037F#16 [one80, two80] [])))
  (fun t => t.st 0#3 == one80 && raised t == []) = true := by decide +kernel

theorem test_fcmovne : holds (exec (.fcmovne 1#3) (withHostFlags false true true (start 0x037F#16 [one80, two80] [])))
  (fun t => t.st 0#3 == two80 && raised t == []) = true := by decide +kernel

theorem test_fcmovnu : holds (exec (.fcmovnu 1#3) (withHostFlags true false true (start 0x037F#16 [one80, two80] [])))
  (fun t => t.st 0#3 == two80 && raised t == []) = true := by decide +kernel

theorem test_fistM32 : holds (exec (.fistM32 0x1000#32) (start 0x037F#16 [0x401DFFFFFFFF00000000#80] []))
  (fun t => t.bytesAt 0x1000#32 4 == [0x00#8, 0x00#8, 0x00#8, 0x80#8] && raised t == [.ie]) = true := by decide +kernel

theorem test_fldz : holds (exec .fldz (start 0x037F#16 [] [])) (fun t => t.st 0#3 == 0#80 && t.sw.top == 7#3) = true := by
  decide +kernel

theorem test_fstpM32 : holds (exec (.fstpM32 0x1000#32) (start 0x0377#16 [0x407F8000000000000000#80] []))
  (fun t => t.bytesAt 0x1000#32 4 == [0#8, 0#8, 0#8, 0#8] && raised t == [.oe] && t.sw.top == 7#3) = true := by
  decide +kernel

theorem test_fnclex : holds (exec .fnclex { State.reset with sw := { top := 7#3, pe := true, ie := true }, cw := 0x035E#16 })
  (fun t => raised t == [] && t.sw.top == 7#3 && !t.es) = true := by decide +kernel

theorem test_fneni : holds (exec .fneni { State.reset with cfg := { gen := .g8087 }, cw := 0x03FF#16 })
  (fun t => t.cw == 0x037F#16) = true := by decide +kernel

theorem test_fnop : holds (exec .fnop State.reset) (fun t => t.pc == 2#32 && t.fop == 0x1D0#11) = true := by decide +kernel

theorem test_fsetpm : holds (exec .fsetpm { State.reset with cfg := { gen := .g287 } }) (fun t => t.pm287) = true := by
  decide +kernel

theorem test_fnstswAx : holds (exec .fnstswAx { State.reset with sw := { top := 6#3, c0 := true } })
  (fun t => t.ax == 0x3100#16) = true := by decide +kernel

theorem test_fcomM64 : holds (exec (.fcomM64 0x1000#32)
  (start 0x037F#16 [one80] [0#8, 0#8, 0#8, 0#8, 0#8, 0#8, 0xF0#8, 0x3F#8]))
  (fun t => [t.sw.c3, t.sw.c2, t.sw.c0] == [true, false, false]) = true := by decide +kernel

theorem test_fcompM32 : holds (exec (.fcompM32 0x1000#32) (start 0x037F#16 [two80] [0#8, 0#8, 0x80#8, 0x3F#8]))
  (fun t => [t.sw.c3, t.sw.c2, t.sw.c0] == [false, false, false] && t.sw.top == 0#3) = true := by decide +kernel

theorem test_ficomM32 : holds (exec (.ficomM32 0x1000#32) (start 0x037F#16 [two80] [3#8]))
  (fun t => [t.sw.c3, t.sw.c2, t.sw.c0] == [false, false, true] && t.sw.top == 7#3) = true := by decide +kernel

theorem test_ficompM16 : holds (exec (.ficompM16 0x1000#32) (start 0x037F#16 [two80] [0xFF#8, 0xFF#8]))
  (fun t => [t.sw.c3, t.sw.c2, t.sw.c0] == [false, false, false] && t.sw.top == 0#3) = true := by decide +kernel

theorem test_fucomp : holds (exec (.fucomp 1#3) (start 0x037F#16 [indef, one80] []))
  (fun t => [t.sw.c3, t.sw.c2, t.sw.c0] == [true, true, true] && raised t == [] && t.sw.top == 7#3) = true := by
  decide +kernel

theorem test_fwait : holds (exec .fwait State.reset) (fun t => t.pc == 1#32 && t.fop == 0#11) = true := by decide +kernel

/-- An infinity with IM = 0: IE, the operand kept, C2 cleared (rule R206). -/
theorem test_fsin_infinity_unmasked : holds (exec .fsin { start 0x037E#16 [infOf false] [] with
    sw := { top := 7#3, c2 := true } }) (fun t => raised t == [.ie] && !t.sw.c2 && t.st 0#3 == infOf false) = true := by
  decide +kernel

theorem test_ficomM16_denormal_unmasked : holds (exec (.ficomM16 0x1000#32) { start 0x037D#16 [1#80] [] with
  sw := { (start 0x037D#16 [1#80] []).sw with c1 := true } })
  (fun t => !t.sw.c1 && raised t == [.de] && t.es) = true := by decide +kernel

theorem test_fdivSt0_zero_unmasked : holds (exec (.fdivSt0 1#3) { start 0x037B#16 [one80, 0#80] [] with
  sw := { (start 0x037B#16 [one80, 0#80] []).sw with c1 := true } })
  (fun t => !t.sw.c1 && raised t == [.ze] && t.st 0#3 == one80) = true := by decide +kernel

theorem test_fclex : holds (exec .fclex { State.reset with sw := { ie := true } })
  (fun t => raised t == [] && t.pc == 3#32) = true := by decide +kernel

theorem test_fdisi : holds (exec .fdisi { State.reset with cfg := { gen := .g8087 } })
  (fun t => t.cw == 0x03FF#16 && t.pc == 3#32) = true := by decide +kernel

theorem test_feni : holds (exec .feni State.reset) (fun t => t.cw == 0x037F#16 && t.pc == 3#32) = true := by
  decide +kernel

theorem test_finit_waits : faults (exec .finit (pend .stop))
  (.floatingPointTrap ⟨0x8081#16, 0#32, 0#16, 0#32, 0#16, 0#11, 0#32⟩) = true := by decide +kernel

theorem test_fstcw : holds (exec (.fstcw 0x1000#32) State.reset)
  (fun t => t.bytesAt 0x1000#32 2 == [0x7F#8, 0x03#8] && t.pc == 7#32) = true := by decide +kernel

theorem test_fstswM16 : holds (exec (.fstswM16 0x1000#32) { State.reset with sw := { pe := true } })
  (fun t => raised t == [.pe] && t.pc == 7#32) = true := by decide +kernel

theorem test_fstswAx : holds (exec .fstswAx { State.reset with sw := { top := 6#3 } })
  (fun t => t.sw.top == 6#3 && t.pc == 3#32) = true := by decide +kernel

theorem test_fstenv : holds (exec (.fstenv 0x1000#32) { State.reset with cw := 0x0340#16 })
  (fun t => t.bytesAt 0x1000#32 2 == [0x40#8, 0x03#8] && t.cw == 0x037F#16) = true := by decide +kernel

theorem test_fstenvO66 : holds (exec (.fstenvO66 0x1000#32) { State.reset with cw := 0x0340#16 })
  (fun t => t.cw == 0x037F#16 && t.pc == 8#32) = true := by decide +kernel

theorem test_fsave : holds (exec (.fsave 0x1000#32) (start 0x037F#16 [one80] []))
  (fun t => t.sw.top == 0#3 && t.reg 7#3 == one80 && t.tag 7#3 == .empty && t.pc == 7#32) = true := by decide +kernel

theorem test_fsaveO66 : holds (exec (.fsaveO66 0x1000#32) (start 0x037F#16 [one80] []))
  (fun t => t.sw.top == 0#3 && t.tag 7#3 == .empty && t.pc == 8#32) = true := by decide +kernel

theorem test_fnsaveO66 : holds (exec (.fnsaveO66 0x1000#32) (start 0x037F#16 [one80] []))
  (fun t => t.bytesAt 0x1016#32 2 == [0xFF#8, 0x3F#8] && t.st 7#3 == one80) = true := by decide +kernel

theorem test_frstor : holds (exec (.frstor 0x1000#32) (start 0x037F#16 []
    ([0x7F#8, 0x03#8, 0#8, 0#8, 0x00#8, 0x38#8, 0#8, 0#8, 0xFF#8, 0x3F#8] ++ List.replicate 18 0#8 ++
      [0#8, 0#8, 0#8, 0#8, 0#8, 0#8, 0#8, 0x80#8, 0xFF#8, 0x3F#8])))
  (fun t => t.st 0#3 == one80 && t.sw.top == 7#3 && t.tag 7#3 == .valid && t.tag 0#3 == .empty) = true := by
  decide +kernel

theorem test_frstorO66 : holds (exec (.frstorO66 0x1000#32) (start 0x037F#16 []
    ([0x7F#8, 0x03#8, 0x00#8, 0x38#8, 0xFF#8, 0x3F#8] ++ List.replicate 8 0#8 ++
      [0#8, 0#8, 0#8, 0#8, 0#8, 0#8, 0#8, 0x80#8, 0xFF#8, 0x3F#8])))
  (fun t => t.st 0#3 == one80 && t.sw.top == 7#3) = true := by decide +kernel

theorem test_fldenvO66 : holds (exec (.fldenvO66 0x1000#32)
  (start 0x037F#16 [] [0x7E#8, 0x03#8, 0x01#8, 0x38#8, 0xFF#8, 0xFF#8]))
  (fun t => t.cw == 0x037E#16 && t.swWord == 0xB881#16) = true := by decide +kernel

end Sys2Proof.Tests
end

section
/-! AX is the host's (10_state.md rule R56): the instructions neither read it nor, but for FSTSW AX and FNSTSW AX, write
it. Each operation is shown to commute with a change of AX, from the updates of the state up to the step. -/

namespace Sys2Proof.Laws.HostAx

open Sys2Proof.Machine

/-- The state with another value in AX. -/
def withAx (v : Word16) (s : State) : State := { s with ax := v }

/-- The operation does the same whatever AX holds, and leaves AX as it is. -/
abbrev Blind (f : State → State) : Prop := ∀ v s, f (withAx v s) = withAx v (f s)

/-- The same of an operation that also answers the bytes to store, which do not depend on AX. -/
abbrev BlindStore (f : State → State × Option (List Byte)) : Prop :=
  ∀ v s, f (withAx v s) = (f s).map (withAx v) id

/-- The same of the rule of an instruction: whether and how it faults does not depend on AX. -/
abbrev BlindRule (body : State → Except Fault State) : Prop := ∀ v s, body (withAx v s) = (body s).map (withAx v)

/-- A branch on a condition that AX has no part in: both sides take the same branch, and the change moves out. -/
theorem ite_map {α β : Type} {m : α → β} {c : Prop} [Decidable c] {a b : α} {a' b' : β} (ha : c → a' = m a)
    (hb : ¬c → b' = m b) : (if c then a' else b') = m (if c then a else b) := by
  split
  · next e => exact ha e
  · next e => exact hb e

/-! ### Flags, registers and the stack -/

@[simp] theorem withC0_blind (b : Bool) : Blind (State.withC0 b) := fun _ _ => rfl
@[simp] theorem withC1_blind (b : Bool) : Blind (State.withC1 b) := fun _ _ => rfl
@[simp] theorem withC2_blind (b : Bool) : Blind (State.withC2 b) := fun _ _ => rfl
@[simp] theorem withC3_blind (b : Bool) : Blind (State.withC3 b) := fun _ _ => rfl
@[simp] theorem drawn_blind : Blind State.drawn := fun _ _ => rfl
@[simp] theorem openC0_blind : Blind State.openC0 := fun _ _ => rfl
@[simp] theorem openC1_blind : Blind State.openC1 := fun _ _ => rfl
@[simp] theorem openC2_blind : Blind State.openC2 := fun _ _ => rfl
@[simp] theorem openC3_blind : Blind State.openC3 := fun _ _ => rfl
@[simp] theorem openC03_blind : Blind State.openC03 := fun _ _ => by simp [State.openC03]
@[simp] theorem openC023_blind : Blind State.openC023 := fun _ _ => by simp [State.openC023]
@[simp] theorem openC0123_blind : Blind State.openC0123 := fun _ _ => by simp [State.openC0123]
@[simp] theorem raiseInexact_blind (c : Bool) : Blind (State.raiseInexact c) := fun _ _ => rfl
@[simp] theorem flagOverflow_blind : Blind State.flagOverflow := fun _ _ => rfl
@[simp] theorem flagUnderflow_blind : Blind State.flagUnderflow := fun _ _ => rfl
@[simp] theorem setSt_blind (i : BitVec 3) (x : Ext) : Blind (fun s => s.setSt i x) := fun _ _ => rfl
@[simp] theorem push_blind (x : Ext) : Blind (fun s => s.push x) := fun _ _ => rfl
@[simp] theorem pop_blind : Blind State.pop := fun _ _ => rfl
@[simp] theorem openSt_blind (i : BitVec 3) : Blind (State.openSt i) := fun _ _ => rfl
@[simp] theorem openOE_blind : Blind State.openOE := fun _ _ => rfl
@[simp] theorem openUE_blind : Blind State.openUE := fun _ _ => rfl
@[simp] theorem openPE_blind : Blind State.openPE := fun _ _ => rfl
@[simp] theorem openResult_blind (i : BitVec 3) : Blind (State.openResult i) := fun _ _ => by simp [State.openResult]
@[simp] theorem openDelivery_blind (i : BitVec 3) : Blind (State.openDelivery i) := fun _ _ => by
  simp [State.openDelivery]
@[simp] theorem bothResults_blind (x : Ext) : Blind (State.bothResults x) := fun _ _ => rfl

@[simp] theorem popIf_blind (b : Bool) : Blind (State.popIf b) := fun _ _ => ite_map (fun _ => rfl) fun _ => rfl

@[simp] theorem inexactOr_blind (i c : Bool) : Blind (State.inexactOr i c) := fun _ _ =>
  ite_map (fun _ => rfl) fun _ => rfl

/-- Opening condition codes at the end of a rule. -/
theorem Blind.openC023 {f : State → State} (h : Blind f) : Blind fun s => (f s).openC023 := fun v s =>
  (congrArg State.openC023 (h v s)).trans (openC023_blind v (f s))

theorem Blind.openC03 {f : State → State} (h : Blind f) : Blind fun s => (f s).openC03 := fun v s =>
  (congrArg State.openC03 (h v s)).trans (openC03_blind v (f s))

theorem Blind.openC0123 {f : State → State} (h : Blind f) : Blind fun s => (f s).openC0123 := fun v s =>
  (congrArg State.openC0123 (h v s)).trans (openC0123_blind v (f s))

theorem id_blind : Blind id := fun _ _ => rfl
theorem indefSt0_blind : Blind State.indefSt0 := fun _ _ => rfl
theorem examine_blind : Blind State.examine := fun _ _ => rfl

/-! ### Exceptions -/

theorem raiseStack_blind (o : Bool) {masked : State → State} (h : Blind masked) : Blind (State.raiseStack o masked) :=
  fun v s => ite_map (fun _ => h v { s with sw := { s.sw with ie := true, sf := true, c1 := o } }) fun _ => rfl

theorem raiseInvalid_blind {masked : State → State} (h : Blind masked) : Blind (State.raiseInvalid masked) :=
  fun v s => ite_map (fun _ => h v { s with sw := { s.sw with ie := true, c1 := false } }) fun _ => rfl

theorem raiseZeroDivide_blind {masked : State → State} (h : Blind masked) : Blind (State.raiseZeroDivide masked) :=
  fun v s => ite_map (fun _ => h v { s with sw := { s.sw with ze := true, c1 := false } }) fun _ => rfl

theorem raiseDenormal_blind {go stop : State → State} (hgo : Blind go) (hstop : Blind stop) :
    Blind (State.raiseDenormal go stop) := fun v s =>
  ite_map (fun _ => hgo v { s with sw := { s.sw with de := true } })
    fun _ => hstop v (State.withC1 false { s with sw := { s.sw with de := true } })

theorem denormalTest_blind (den : Bool) {go : State → State} (h : Blind go) : Blind (State.denormalTest den go) :=
  fun v s => ite_map (fun _ => raiseDenormal_blind h (fun _ _ => rfl) v s) fun _ => h v s

theorem nanOne_blind (a : Ext) {write : Ext → State → State} (h : ∀ x, Blind (write x)) :
    Blind (State.nanOne a write) := fun v s =>
  ite_map (fun _ => raiseInvalid_blind (h _) v s) fun _ => h a v (s.withC1 false)

theorem nanTwo_blind (a b : Ext) {write : Ext → State → State} (h : ∀ x, Blind (write x)) :
    Blind (State.nanTwo a b write) := fun v s =>
  ite_map (fun _ => raiseInvalid_blind (h _) v s) fun _ => h (nan2 a b) v (s.withC1 false)

/-! ### Delivery -/

@[simp] theorem setScaled_blind (i : BitVec 3) (neg : Bool) (m : Nat) (e : Int) :
    Blind (State.setScaled i neg m e) := fun _ _ => ite_map (fun _ => rfl) fun _ => rfl

@[simp] theorem overflow_blind (i : BitVec 3) (neg : Bool) (r : Rounded) (p : Nat) (rc : Rounding) :
    Blind (State.overflow i neg r p rc) := fun _ _ => ite_map (fun _ => rfl) fun _ => by simp

@[simp] theorem underflow_blind (i : BitVec 3) (neg : Bool) (x : Mag) (r : Rounded) (p : Nat) (rc : Rounding) :
    Blind (State.underflow i neg x r p rc) := fun _ _ =>
  ite_map (fun _ => ite_map (fun _ => rfl) fun _ => rfl) fun _ => by simp

@[simp] theorem settle_blind (i : BitVec 3) (neg : Bool) (x : Mag) (r : Rounded) (p : Nat) :
    Blind (State.settle i neg x r p) := fun _ s =>
  ite_map (fun _ => overflow_blind i neg r p (rounding s.cw) _ s) fun _ =>
    ite_map (fun _ => underflow_blind i neg x r p (rounding s.cw) _ s) fun _ => by simp

@[simp] theorem deliver_blind (i : BitVec 3) (neg : Bool) (x : Mag) (p : Nat) : Blind (State.deliver i neg x p) :=
  fun v s => settle_blind i neg x (x.roundPrec neg p (rounding s.cw)) p v s

@[simp] theorem finish_blind (i : BitVec 3) (t : Trans) : Blind (State.finish i t) := settle_blind i _ _ _ _

@[simp] theorem deliverPC_blind (i : BitVec 3) (neg : Bool) (x : Mag) : Blind (State.deliverPC i neg x) := by
  intro v s
  have hcw : (withAx v s).cw = s.cw := rfl
  unfold State.deliverPC
  rw [hcw]
  cases precision s.cw with
  | some p => exact deliver_blind i neg x p v s
  | none => exact openDelivery_blind i v s

/-! ### Basic arithmetic and comparison -/

@[simp] theorem arithResult_blind (op : ArithOp) (d : BitVec 3) (a b : Ext) : Blind (State.arithResult op d a b) := by
  intro v s
  unfold State.arithResult
  cases op.special a b with
  | some r => rfl
  | none =>
    cases op.exact a b with
    | some y => exact deliverPC_blind d y.1 y.2 v s
    | none => rfl

theorem arith_blind (op : ArithOp) (d : BitVec 3) (src : Source) (pop : Bool) :
    Blind (State.arith op d src pop) := by
  intro v s
  have answer : ∀ x, Blind fun t => State.popIf pop (t.setSt d x) := fun x _ _ => by simp
  have hsrc : src.operand (withAx v s) = src.operand s ∧ src.isEmpty (withAx v s) = src.isEmpty s := by
    cases src <;> exact ⟨rfl, rfl⟩
  unfold State.arith
  rw [hsrc.1, hsrc.2]
  refine ite_map (fun _ => ?_) fun _ => ite_map (fun _ => ?_) fun _ => ite_map (fun _ => ?_) fun _ =>
    ite_map (fun _ => ?_) fun _ => ite_map (fun _ => ?_) fun _ => ?_
  · exact raiseStack_blind false (answer indef) v s
  · exact raiseInvalid_blind (answer indef) v s
  · exact nanTwo_blind _ _ answer v s
  · exact raiseInvalid_blind (answer indef) v s
  · exact raiseZeroDivide_blind (answer _) v s
  · exact denormalTest_blind _ (fun _ _ => by simp) v s

@[simp] theorem pops_blind : ∀ n, Blind (State.pops n)
  | 0, _, _ => rfl
  | n + 1, v, s => pops_blind n v s.pop

theorem setResult_blind (dst : ResultTo) (rel : Relation) : Blind (State.setResult dst rel) := fun _ _ => by
  cases dst <;> rfl

theorem openResultFlags_blind (dst : ResultTo) : Blind (State.openResultFlags dst) := fun _ _ => by
  cases dst <;> rfl

theorem compare_blind (src : Source) (quietOk : Bool) (dst : ResultTo) (npop : Nat) :
    Blind (State.compare src quietOk dst npop) := by
  intro v s
  have answer : ∀ rel, Blind fun t => State.pops npop (t.setResult dst rel) := fun rel _ _ => by
    simp [setResult_blind dst rel]
  have hsrc : src.operand (withAx v s) = src.operand s ∧ src.isEmpty (withAx v s) = src.isEmpty s := by
    cases src <;> exact ⟨rfl, rfl⟩
  unfold State.compare
  rw [hsrc.1, hsrc.2]
  refine ite_map (fun _ => ?_) fun _ => ite_map (fun _ => ?_) fun _ => ite_map (fun _ => ?_) fun _ =>
    ite_map (fun _ => ?_) fun _ => ?_
  · exact raiseStack_blind false (answer .unordered) v s
  · exact raiseInvalid_blind (answer .unordered) v s
  · exact answer .unordered v s
  · exact raiseDenormal_blind (answer _) (openResultFlags_blind dst) v s
  · exact answer _ v s

/-! ### Other arithmetic -/

theorem unary_blind (invalid : Ext → Bool) {f : Ext → State → State} (h : ∀ a, Blind (f a)) :
    Blind (State.unary invalid f) := by
  intro v s
  have answer : ∀ x, Blind fun t => t.setSt 0#3 x := setSt_blind 0#3
  refine ite_map (fun _ => ?_) fun _ => ite_map (fun _ => ?_) fun _ => ite_map (fun _ => ?_) fun _ =>
    ite_map (fun _ => ?_) fun _ => ?_
  · exact raiseStack_blind false (answer indef) v s
  · exact raiseInvalid_blind (answer indef) v s
  · exact nanOne_blind _ answer v s
  · exact raiseInvalid_blind (answer indef) v s
  · exact denormalTest_blind _ (h _) v s

theorem onSign_blind (f : Ext → Ext) : Blind (State.onSign f) := fun v s =>
  ite_map (fun _ => raiseStack_blind false (setSt_blind 0#3 indef) v s) fun _ => rfl

theorem roundInt_blind (a : Ext) : Blind (State.roundInt a) := fun _ s =>
  ite_map (fun _ => rfl) fun _ =>
    inexactOr_blind _ _ _ (s.setSt 0#3 (extOf (signOf a) ((valOf a).mag.roundTo (signOf a) 0 (rounding s.cw)).mant 0))

theorem squareRoot_blind (a : Ext) : Blind (State.squareRoot a) := by
  intro v s
  have hcw : (withAx v s).cw = s.cw := rfl
  unfold State.squareRoot
  rw [hcw]
  refine ite_map (fun _ => rfl) fun _ => ?_
  cases precision s.cw with
  | some p => exact deliver_blind _ _ _ p v s
  | none => rfl

@[simp] theorem deliverRemainder_blind (a : Ext) (x : Dyad) : Blind (State.deliverRemainder a x) := fun v s =>
  ite_map (fun _ => rfl) fun _ => deliver_blind _ _ _ _ v s

@[simp] theorem reduce_blind (nearest : Bool) (a b : Ext) : Blind (State.reduce nearest a b) := fun v s =>
  ite_map (fun _ => by simp) fun _ => by simp

theorem prem_blind (nearest : Bool) : Blind (State.prem nearest) := by
  intro v s
  have answer : ∀ x, Blind fun t => t.setSt 0#3 x := setSt_blind 0#3
  refine ite_map (fun _ => ?_) fun _ => ite_map (fun _ => ?_) fun _ => ite_map (fun _ => ?_) fun _ =>
    ite_map (fun _ => ?_) fun _ => ?_
  · exact raiseStack_blind false (answer indef) v s
  · exact raiseInvalid_blind (answer indef) v s
  · exact nanTwo_blind _ _ answer v s
  · exact raiseInvalid_blind (answer indef) v s
  · refine denormalTest_blind _ (fun v t => ?_) v s
    exact ite_map (fun _ => rfl) fun _ => ite_map (fun _ => by simp) fun _ => reduce_blind _ _ _ v t

theorem scale_blind : Blind State.scale := by
  intro v s
  have answer : ∀ x, Blind fun t => t.setSt 0#3 x := setSt_blind 0#3
  refine ite_map (fun _ => ?_) fun _ => ite_map (fun _ => ?_) fun _ => ite_map (fun _ => ?_) fun _ =>
    ite_map (fun _ => ?_) fun _ => ?_
  · exact raiseStack_blind false (answer indef) v s
  · exact raiseInvalid_blind (answer indef) v s
  · exact nanTwo_blind _ _ answer v s
  · exact raiseInvalid_blind (answer indef) v s
  · refine denormalTest_blind _ (fun v t => ?_) v s
    exact ite_map (fun _ => rfl) fun _ => ite_map (fun _ => rfl) fun _ => deliver_blind _ _ _ _ v t

theorem xtract_blind : Blind State.xtract := by
  intro v s
  refine ite_map (fun _ => ?_) fun _ => ite_map (fun _ => ?_) fun _ => ite_map (fun _ => ?_) fun _ =>
    ite_map (fun _ => ?_) fun _ => ?_
  · exact raiseStack_blind false (bothResults_blind indef) v s
  · exact raiseStack_blind true (bothResults_blind indef) v s
  · exact raiseInvalid_blind (bothResults_blind indef) v s
  · exact nanOne_blind _ bothResults_blind v s
  · refine denormalTest_blind _ (fun v t => ?_) v s
    exact ite_map (fun _ => raiseZeroDivide_blind (fun _ _ => rfl) v t) fun _ =>
      ite_map (fun _ => rfl) fun _ => rfl

/-! ### Transcendental instructions -/

theorem f2xm1_blind : Blind State.f2xm1 := by
  intro v s
  have answer : ∀ x, Blind fun t => t.setSt 0#3 x := setSt_blind 0#3
  refine ite_map (fun _ => ?_) fun _ => ite_map (fun _ => ?_) fun _ => ite_map (fun _ => ?_) fun _ => ?_
  · exact raiseStack_blind false (answer indef) v s
  · exact raiseInvalid_blind (answer indef) v s
  · exact nanOne_blind _ answer v s
  · refine denormalTest_blind _ (fun v t => ?_) v s
    exact ite_map (fun _ => rfl) fun _ => ite_map (fun _ => openResult_blind 0#3 v t) fun _ => finish_blind _ _ v t

theorem trigInvalid_blind {masked : State → State} (h : Blind masked) : Blind (State.trigInvalid masked) := fun v s =>
  congrArg (State.withC2 false) (raiseInvalid_blind h v s)

theorem trigNaN_blind (x : Ext) {write : Ext → State → State} (h : ∀ y, Blind (write y)) :
    Blind (State.trigNaN x write) := fun v s => congrArg (State.withC2 false) (nanOne_blind x h v s)

theorem trig_blind {badFormat zero : State → State} (hbad : Blind badFormat) (hzero : Blind zero)
    (f : Ext → Rounding → Trans) : Blind (State.trig badFormat zero f) := by
  intro v s
  have answer : ∀ x, Blind fun t => t.setSt 0#3 x := setSt_blind 0#3
  refine ite_map (fun _ => ?_) fun _ => ite_map (fun _ => ?_) fun _ => ite_map (fun _ => ?_) fun _ =>
    ite_map (fun _ => ?_) fun _ => ?_
  · exact raiseStack_blind false (answer indef) v s
  · exact hbad v s
  · exact trigNaN_blind _ answer v s
  · exact trigInvalid_blind (answer indef) v s
  · refine denormalTest_blind _ (fun v t => ?_) v s
    refine ite_map (fun _ => ?_) fun _ => ite_map (fun _ => rfl) fun _ => ?_
    · rw [hzero]; rfl
    · exact congrArg (State.withC2 false) (finish_blind _ _ v t)

theorem trigPair_blind {takes : Ext → State → Bool} (htakes : ∀ x v s, takes x (withAx v s) = takes x s)
    {f : Ext → State → State} (h : ∀ x, Blind (f x)) : Blind (State.trigPair takes f) := by
  intro v s
  refine ite_map (fun _ => ?_) fun _ => ite_map (fun _ => ?_) fun _ => ite_map (fun _ => ?_) fun _ =>
    ite_map (fun _ => ?_) fun _ => ?_
  · exact raiseStack_blind false (bothResults_blind indef) v s
  · exact raiseStack_blind true (bothResults_blind indef) v s
  · exact trigInvalid_blind (bothResults_blind indef) v s
  · exact trigNaN_blind _ bothResults_blind v s
  · refine denormalTest_blind _ (fun v t => ?_) v s
    rw [htakes]
    refine ite_map (fun _ => rfl) fun _ => ite_map (fun _ => ?_) fun _ => ite_map (fun _ => rfl) fun _ => ?_
    · simp
    · exact congrArg (State.withC2 false) (h _ v t)

theorem tangent_blind (x : Ext) : Blind (State.tangent x) := fun v s =>
  (congrArg (fun t : State => t.push one) (finish_blind _ _ v s)).trans (push_blind one v _)

theorem pushCosine_blind (c : Trans) : Blind fun s => s.pushCosine c := fun _ _ =>
  ite_map (fun _ => rfl) fun _ => rfl

theorem sineCosine_blind (x : Ext) : Blind (State.sineCosine x) := fun v s =>
  (congrArg (fun t : State => t.pushCosine _) (finish_blind _ _ v s)).trans (pushCosine_blind _ v _)

theorem pairFront_blind {f : Ext → Ext → State → State} (h : ∀ y x, Blind (f y x)) :
    Blind (State.pairFront f) := by
  intro v s
  have answer : ∀ x, Blind fun t => (t.setSt 1#3 x).pop := fun _ _ _ => rfl
  refine ite_map (fun _ => ?_) fun _ => ite_map (fun _ => ?_) fun _ => ite_map (fun _ => ?_) fun _ => ?_
  · exact raiseStack_blind false (answer indef) v s
  · exact raiseInvalid_blind (answer indef) v s
  · exact nanTwo_blind _ _ answer v s
  · exact h _ _ v s

theorem finishPop_blind (i : BitVec 3) (r : Trans) : Blind fun s => (s.finish i r).pop := fun v s =>
  congrArg State.pop (finish_blind i r v s)

theorem arctan_blind (y x : Ext) : Blind (State.arctan y x) := by
  refine denormalTest_blind _ fun v t => ?_
  refine ite_map (fun _ => ?_) fun _ => ite_map (fun _ => rfl) fun _ => ?_
  · simp
  · exact finishPop_blind _ _ v t

theorem yl2x_blind (y x : Ext) : Blind (State.yl2x y x) := by
  intro v s
  have answer : ∀ x, Blind fun t => (t.setSt 1#3 x).pop := fun _ _ _ => rfl
  refine ite_map (fun _ => ?_) fun _ => ite_map (fun _ => ?_) fun _ => ?_
  · exact raiseInvalid_blind (answer indef) v s
  · exact raiseZeroDivide_blind (answer _) v s
  · refine denormalTest_blind _ (fun v t => ?_) v s
    cases yl2xExact y x with
    | some r => rfl
    | none => exact finishPop_blind _ _ v t

theorem yl2xp1Open_blind : Blind State.yl2xp1Open := fun v s => ite_map (fun _ => rfl) fun _ =>
  congrArg State.pop (openDelivery_blind 1#3 v
    { s with
      sw := { s.sw with
        ie := s.sw.ie || Config.freeBit s.draws
        de := s.sw.de || Config.freeBit (s.draws + 1)
        ze := s.sw.ze || Config.freeBit (s.draws + 2) }
      draws := s.draws + 3 })

theorem yl2xp1_blind (y x : Ext) : Blind (State.yl2xp1 y x) := by
  intro v s
  have answer : ∀ x, Blind fun t => (t.setSt 1#3 x).pop := fun _ _ _ => rfl
  refine ite_map (fun _ => ?_) fun _ => ite_map (fun _ => ?_) fun _ => ?_
  · exact yl2xp1Open_blind v s
  · exact raiseInvalid_blind (answer indef) v s
  · refine denormalTest_blind _ (fun v t => ?_) v s
    exact ite_map (fun _ => rfl) fun _ => ite_map (fun _ => rfl) fun _ => finishPop_blind _ _ v t

/-! ### Data transfer -/

theorem load_blind (x : Ext) : Blind (State.load x) := fun v s =>
  ite_map (fun _ => raiseStack_blind true (push_blind indef) v s) fun _ => rfl

theorem loadBcd_blind (bs : List Byte) : Blind (State.loadBcd bs) := fun v s =>
  ite_map (fun _ => load_blind _ v s) fun _ => ite_map (fun _ => load_blind _ v s) fun _ =>
    congrArg State.drawn (load_blind _ v s)

theorem loadReal_blind (b : Operand) : Blind (State.loadReal b) := by
  intro v s
  have flagged : Blind fun s => if b.denMem then s.raiseDenormal id id else s := fun v s =>
    ite_map (fun _ => raiseDenormal_blind (fun _ _ => rfl) (fun _ _ => rfl) v s) fun _ => rfl
  refine ite_map (fun _ => ?_) fun _ => ite_map (fun _ => ?_) fun _ => ?_
  · exact raiseStack_blind true (push_blind indef) v s
  · exact raiseInvalid_blind (push_blind _) v s
  · exact congrArg (fun t : State => (t.push b.bits).withC1 false) (flagged v s)

theorem loadSt_blind (i : BitVec 3) : Blind (State.loadSt i) := fun v s =>
  ite_map (fun _ => raiseStack_blind false (push_blind indef) v s) fun _ => load_blind _ v s

theorem copyTo_blind (i : BitVec 3) (pop : Bool) : Blind (State.copyTo i pop) := by
  intro v s
  refine ite_map (fun _ => ?_) fun _ => ?_
  · exact raiseStack_blind false (fun v t => popIf_blind pop v (t.setSt i indef)) v s
  · exact popIf_blind pop v ((s.setSt i (s.st 0#3)).withC1 false)

theorem fillEmpty_blind (i : BitVec 3) : Blind (State.fillEmpty i) := fun _ _ => ite_map (fun _ => rfl) fun _ => rfl

theorem exchange_blind (i : BitVec 3) : Blind (State.exchange i) := fun _ _ => rfl

theorem swap_blind (i : BitVec 3) : Blind (State.swap i) := by
  intro v s
  refine ite_map (fun _ => ?_) fun _ => congrArg (State.withC1 false) (exchange_blind i v s)
  refine raiseStack_blind false (fun v t => ?_) v s
  rw [fillEmpty_blind, fillEmpty_blind, exchange_blind]

theorem moveIf_blind (cond : Bool) (i : BitVec 3) : Blind (State.moveIf cond i) := by
  intro v s
  refine ite_map (fun _ => raiseStack_blind false (setSt_blind 0#3 indef) v s) fun _ => ?_
  cases cond <;> rfl

/-! ### Stores -/

theorem openAfter_blind {f : State → State × Option (List Byte)} (h : BlindStore f) :
    BlindStore fun s => openAfter (f s) := fun v s => congrArg openAfter (h v s)

theorem storeStack_blind (bs : List Byte) (pop : Bool) : BlindStore fun s => s.storeStack bs pop := fun v s =>
  Prod.ext (raiseStack_blind false (popIf_blind pop) v s) rfl

theorem storeInvalid_blind (bs : List Byte) (pop : Bool) : BlindStore fun s => s.storeInvalid bs pop := fun v s =>
  Prod.ext (raiseInvalid_blind (popIf_blind pop) v s) rfl

/-- A store that is carried out. -/
theorem bytes_blind {f : State → State} (h : Blind f) {bytes : State → List Byte}
    (hb : ∀ v s, bytes (withAx v s) = bytes s) : BlindStore fun s => (f s, some (bytes s)) := fun v s =>
  Prod.ext (h v s) (congrArg some (hb v s))

/-- What a store does to the flags, then the pop. -/
theorem popAfter_blind {f : State → State} (h : Blind f) (pop : Bool) (bs : List Byte) :
    BlindStore fun s => (State.popIf pop (f s), some bs) :=
  bytes_blind (fun v s => by simp [h v s]) fun _ _ => rfl

theorem storeRounded_blind (fits : Nat → Bool) (image : Nat → List Byte) (bad : List Byte) (pop : Bool) :
    BlindStore (State.storeRounded fits image bad pop) := by
  intro v s
  refine ite_map (fun _ => ?_) fun _ => ite_map (fun _ => ?_) fun _ => ite_map (fun _ => ?_) fun _ => ?_
  · exact storeStack_blind bad pop v s
  · exact storeInvalid_blind bad pop v s
  · exact storeInvalid_blind bad pop v s
  · exact popAfter_blind (inexactOr_blind _ _) pop _ v s

theorem storeInt_blind (w : Nat) (pop : Bool) : BlindStore (State.storeInt w pop) := fun v s => by
  unfold State.storeInt
  exact storeRounded_blind _ _ _ pop v s

theorem storeBcd_blind : BlindStore State.storeBcd := fun v s => storeRounded_blind _ _ _ true v s

/-- The flags of a masked underflow of a store. -/
theorem flagTiny_blind (inexact up : Bool) :
    Blind fun s => if inexact then s.flagUnderflow.raiseInexact up else s.withC1 false := fun _ _ =>
  ite_map (fun _ => rfl) fun _ => rfl

theorem storeFinite_blind (f : RealFmt) (pop : Bool) (a : Ext) : BlindStore (State.storeFinite f pop a) := by
  intro v s
  refine ite_map (fun _ => ite_map (fun _ => ?_) fun _ => rfl) fun _ =>
    ite_map (fun _ => ite_map (fun _ => ?_) fun _ => rfl) fun _ => ?_
  · exact popAfter_blind (f := fun s => s.flagOverflow.raiseInexact _) (fun _ _ => rfl) pop _ v s
  · exact popAfter_blind (flagTiny_blind _ _) pop _ v s
  · exact popAfter_blind (inexactOr_blind _ _) pop _ v s

theorem storeReal_blind (f : RealFmt) (pop : Bool) : BlindStore (State.storeReal f pop) := by
  intro v s
  refine ite_map (fun _ => ?_) fun _ => ite_map (fun _ => ?_) fun _ => ite_map (fun _ => ?_) fun _ =>
    ite_map (fun _ => ?_) fun _ => ?_
  · exact storeStack_blind _ pop v s
  · exact storeInvalid_blind _ pop v s
  · exact storeInvalid_blind _ pop v s
  · exact storeFinite_blind f pop _ v s
  · exact popAfter_blind (withC1_blind false) pop _ v s

theorem storeExt_blind : BlindStore State.storeExt := fun v s =>
  ite_map (fun _ => storeStack_blind _ true v s) fun _ => rfl

/-! ### Control instructions -/

theorem clearPointers_blind : Blind State.clearPointers := fun _ _ => ite_map (fun _ => rfl) fun _ => rfl

theorem initialise_blind : Blind State.initialise := fun v s =>
  clearPointers_blind v { s with cw := 0x037F#16, sw := {}, tags := Vector.replicate 8 .empty }

theorem loadPointers_blind (small : Bool) (bs : List Byte) : Blind (State.loadPointers small bs) := fun _ _ =>
  ite_map (fun _ => ite_map (fun _ => rfl) fun _ => rfl) fun _ => ite_map (fun _ => rfl) fun _ => rfl

theorem loadEnv_blind (small : Bool) (bs : List Byte) : Blind (State.loadEnv small bs) := fun v s =>
  loadPointers_blind small bs v { s with
    cw := cwKeep s.cfg.gen (word16At bs 0)
    sw := Status.ofWord (word16At bs (if small then 2 else 4))
    tags := loadedTags (word16At bs (2 * (if small then 2 else 4))) s.regs }

theorem restore_blind (small : Bool) (bs : List Byte) : Blind (State.restore small bs) := fun v s =>
  loadEnv_blind small bs v { s with
    regs := loadedRegs (envSize small) (Status.ofWord (word16At bs (if small then 2 else 4))).top.toNat bs }

theorem imageDrawn_blind (small : Bool) : Blind (State.imageDrawn small) := fun _ _ =>
  ite_map (fun _ => rfl) fun _ => rfl

theorem maskAll_blind (small : Bool) : Blind fun s => { s.imageDrawn small with cw := s.cw ||| 0x003F#16 } :=
  fun _ _ => by cases small <;> rfl

theorem storeEnv_blind (small : Bool) : BlindStore (State.storeEnv small) :=
  bytes_blind (maskAll_blind small).openC0123 fun _ _ => rfl

theorem save_blind (small : Bool) : BlindStore (State.save small) :=
  bytes_blind (f := fun s => (s.imageDrawn small).initialise)
    (fun v s => (congrArg State.initialise (imageDrawn_blind small v s)).trans (initialise_blind v _)) fun _ _ => rfl

theorem clearExceptions_blind : Blind State.clearExceptions :=
  Blind.openC0123 (f := fun s => { s with sw := { s.sw with
    ie := false, de := false, ze := false, oe := false, ue := false, pe := false, sf := false } }) fun _ _ => rfl

theorem rotate_blind {top : State → BitVec 3} (h : ∀ v s, top (withAx v s) = top s) :
    Blind fun s => s.rotate (top s) :=
  Blind.openC023 (f := fun s => (s.setTop (top s)).withC1 false) fun v s => by simp only [h]; rfl

theorem free_blind (i : BitVec 3) : Blind fun s => (s.setTag (s.phys i) .empty).openC0123 :=
  Blind.openC0123 fun _ _ => rfl

theorem loadCw_blind (bs : List Byte) :
    Blind fun s => State.openC0123 { s with cw := cwKeep s.cfg.gen (word16At bs 0) } := Blind.openC0123 fun _ _ => rfl

theorem setIem_blind (b : Bool) : Blind (State.setIem b) := fun _ _ => rfl

theorem onlyOn_blind (g : Gen) {f : State → State} (h : Blind f) : Blind fun s => if s.cfg.gen = g then f s else s :=
  fun v s => ite_map (fun _ => h v s) fun _ => rfl

/-! ### Rules -/

theorem computing_blind {f : State → State} (h : Blind f) : BlindRule (computing f) := fun v s =>
  congrArg Except.ok (h v s)

theorem loading_blind (a : Addr) (n : Nat) {f : List Byte → State → State} (h : ∀ bs, Blind (f bs)) :
    BlindRule (loading a n f) := fun v s =>
  ite_map (fun _ => congrArg Except.ok (h _ v s)) fun _ => rfl

theorem storing_blind (a : Addr) (n : Nat) {f : State → State × Option (List Byte)} (h : BlindStore f) :
    BlindRule (storing a n f) := by
  intro v s
  unfold storing
  rw [h]
  obtain ⟨t, bytes⟩ := f s
  cases bytes with
  | none => rfl
  | some bs => exact ite_map (fun _ => rfl) fun _ => rfl

theorem arithReg_blind (op : ArithOp) (d j : BitVec 3) (pop : Bool) : BlindRule (arithReg op d j pop) :=
  computing_blind (arith_blind op d (.reg j) pop).openC023

theorem arithReal_blind (op : ArithOp) (f : RealFmt) (a : Addr) : BlindRule (arithReal op f a) :=
  loading_blind _ _ fun _ => (arith_blind op 0#3 _ false).openC023

theorem arithInt_blind (op : ArithOp) (w : Nat) (a : Addr) : BlindRule (arithInt op w a) :=
  loading_blind _ _ fun _ => (arith_blind op 0#3 _ false).openC023

theorem compareReg_blind (j : BitVec 3) (q : Bool) (dst : ResultTo) (n : Nat) : BlindRule (compareReg j q dst n) :=
  computing_blind (compare_blind _ q dst n)

theorem compareReal_blind (f : RealFmt) (n : Nat) (a : Addr) : BlindRule (compareReal f n a) :=
  loading_blind _ _ fun _ => compare_blind _ false .codes n

theorem compareInt_blind (w n : Nat) (a : Addr) : BlindRule (compareInt w n a) :=
  loading_blind _ _ fun _ => compare_blind _ false .codes n

theorem loadConstant_blind (lo : Ext) (b : Bool) : BlindRule (loadConstant lo b) :=
  computing_blind
    (Blind.openC023 (f := fun s => s.load (constantFor lo b (rounding s.cw))) fun v s => load_blind _ v s)

theorem conditionalMove_blind {cond : State → Bool} (h : ∀ v s, cond (withAx v s) = cond s) (i : BitVec 3) :
    BlindRule (conditionalMove cond i) :=
  computing_blind (Blind.openC023 (f := fun s => s.moveIf (cond s) i) fun v s => by
    simp only [h]
    exact moveIf_blind (cond s) i v s)

theorem loadInteger_blind (w : Nat) (a : Addr) : BlindRule (loadInteger w a) :=
  loading_blind _ _ fun _ => (load_blind _).openC023

theorem loadRealFrom_blind (f : RealFmt) (a : Addr) : BlindRule (loadRealFrom f a) :=
  loading_blind _ _ fun _ => (loadReal_blind _).openC023

theorem storeInteger_blind (w : Nat) (pop : Bool) (a : Addr) : BlindRule (storeInteger w pop a) :=
  storing_blind _ _ (openAfter_blind (storeInt_blind w pop))

theorem storeRealTo_blind (f : RealFmt) (pop : Bool) (a : Addr) : BlindRule (storeRealTo f pop a) :=
  storing_blind _ _ (openAfter_blind (storeReal_blind f pop))

theorem loadEnvFrom_blind (o66 : Bool) (a : Addr) : BlindRule (loadEnvFrom o66 a) := fun v s =>
  loading_blind _ _ (loadEnv_blind (effSize16 s.cfg o66)) v s

theorem restoreFrom_blind (o66 : Bool) (a : Addr) : BlindRule (restoreFrom o66 a) := fun v s =>
  loading_blind _ _ (restore_blind (effSize16 s.cfg o66)) v s

theorem storeEnvTo_blind (o66 : Bool) (a : Addr) : BlindRule (storeEnvTo o66 a) := fun v s =>
  storing_blind _ _ (storeEnv_blind (effSize16 s.cfg o66)) v s

theorem saveTo_blind (o66 : Bool) (a : Addr) : BlindRule (saveTo o66 a) := fun v s =>
  storing_blind _ _ (save_blind (effSize16 s.cfg o66)) v s

/-! ### Steps -/

/-- A change of the next state, where there is one. -/
def onNext (m : State → State) : Host.Outcome State Fault Refusal → Host.Outcome State Fault Refusal
  | .next t => .next (m t)
  | .fault f => .fault f
  | .refused r => .refused r

/-- A step that does not read AX and leaves it as it is. A trap ends the run, for a handler may do otherwise. -/
abbrev BlindStep (step : State → Host.Outcome State Fault Refusal) : Prop :=
  ∀ v s, s.cfg.fpTrap = .stop → step (withAx v s) = onNext (withAx v) (step s)

theorem retire_blind (ptr : Pointers) (i : Instr) : Blind (State.retire ptr i) := by
  intro v s
  cases ptr with
  | keep => rfl
  | record =>
    unfold State.retire State.recordPointers
    cases i.operand <;> rfl

theorem takeTrap_blind : BlindStep State.takeTrap := fun v s hs => by
  have hv : (withAx v s).cfg.fpTrap = .stop := hs
  simp only [State.takeTrap, hs, hv]
  rfl

theorem entering_blind (sync : Sync) : Blind (State.entering sync) := fun v s => by
  cases sync with
  | waiting => rfl
  | noWait => exact ite_map (fun _ => rfl) fun _ => rfl

theorem trapsBefore_withAx (sync : Sync) (v : Word16) (s : State) :
    (withAx v s).trapsBefore sync = s.trapsBefore sync := by cases sync <;> rfl

/-- The step around a rule that does not depend on AX. -/
theorem around_blind (sync : Sync) (ptr : Pointers) (i : Instr) {body : State → Except Fault State}
    (h : BlindRule body) : BlindStep (around sync ptr i body) := by
  intro v s hs
  unfold around
  rw [trapsBefore_withAx, entering_blind, h]
  refine ite_map (fun _ => rfl) fun _ => ite_map (fun _ => rfl) fun _ => ite_map (fun _ => ?_) fun _ => ?_
  · exact takeTrap_blind v s hs
  · cases body (s.entering sync) with
    | error f => rfl
    | ok t => exact congrArg Host.Outcome.next (retire_blind ptr i v t)

theorem execFwait_blind : BlindStep execFwait := around_blind _ _ _ (computing_blind openC0123_blind)

/-- FWAIT leaves the parameters of the run alone. -/
theorem execFwait_cfg {s t : State} (hs : s.cfg.fpTrap = .stop) (h : execFwait s = .next t) : t.cfg = s.cfg := by
  obtain ⟨_, hr, _⟩ | ⟨_, _, _, u, hu, rfl⟩ := around_cases h
  · simp [hs] at hr
  · obtain rfl : State.openC0123 s = u := by simpa [computing, State.entering] using hu
    exact (retire_cfg ..).trans (calc_openC0123 (K := []) (F := []) s).cfg

/-- A wait form (rule R145): FWAIT, then a no-wait form that does not depend on AX. -/
theorem waitThen_blind {next : State → Host.Outcome State Fault Refusal} (h : BlindStep next) :
    BlindStep (waitThen execFwait next) := by
  intro v s hs
  have hf := execFwait_blind v s hs
  refine ite_map (fun _ => hf) fun _ => ?_
  rw [hf]
  cases ht : execFwait s with
  | fault f => rfl
  | refused r => rfl
  | next t =>
    have hn := h v t (by rw [execFwait_cfg hs ht]; exact hs)
    simp only [onNext, hn]
    cases next t <;> rfl

/-! ### The no-wait instructions but FNSTSW AX -/

theorem execFnclex_blind : BlindStep execFnclex := around_blind _ _ _ (computing_blind clearExceptions_blind)

theorem execFndisi_blind : BlindStep execFndisi := fun v s hs =>
  around_blind _ (pointersOn .g8087 s) _ (computing_blind (onlyOn_blind .g8087 (setIem_blind true))) v s hs

theorem execFneni_blind : BlindStep execFneni := fun v s hs =>
  around_blind _ (pointersOn .g8087 s) _ (computing_blind (onlyOn_blind .g8087 (setIem_blind false))) v s hs

theorem execFsetpm_blind : BlindStep execFsetpm := fun v s hs =>
  around_blind _ (pointersOn .g287 s) _
    (computing_blind (onlyOn_blind .g287 (f := fun s => { s with pm287 := true }) fun _ _ => rfl)) v s hs

theorem execFninit_blind : BlindStep execFninit := around_blind _ _ _ (computing_blind initialise_blind)

theorem execFnstcw_blind (a : Addr) : BlindStep (execFnstcw a) :=
  around_blind _ _ _ (storing_blind _ _ (bytes_blind openC0123_blind fun _ _ => rfl))

theorem execFnstswM16_blind (a : Addr) : BlindStep (execFnstswM16 a) :=
  around_blind _ _ _ (storing_blind _ _ (bytes_blind openC0123_blind fun _ _ => rfl))

theorem execFnstenv_blind (a : Addr) : BlindStep (execFnstenv a) := around_blind _ _ _ (storeEnvTo_blind false a)
theorem execFnsave_blind (a : Addr) : BlindStep (execFnsave a) := around_blind _ _ _ (saveTo_blind false a)
theorem execFnstenvO66_blind (a : Addr) : BlindStep (execFnstenvO66 a) := around_blind _ _ _ (storeEnvTo_blind true a)
theorem execFnsaveO66_blind (a : Addr) : BlindStep (execFnsaveO66 a) := around_blind _ _ _ (saveTo_blind true a)

/-! ### Every instruction -/

/-- Every instruction but FSTSW AX and FNSTSW AX: its rule does not depend on AX. -/
theorem exec_blind (i : Instr) (hn : i ≠ .fnstswAx) (hw : i ≠ .fstswAx) : BlindStep (exec i) := by
  cases i <;> unfold exec
  -- basic arithmetic: by the source of the second operand
  case faddSt0 | faddSti | faddp | fdivSt0 | fdivSti | fdivp | fdivrSt0 | fdivrSti | fdivrp | fmulSt0 | fmulSti | fmulp
    | fsubSt0 | fsubSti | fsubp | fsubrSt0 | fsubrSti | fsubrp => exact around_blind _ _ _ (arithReg_blind _ _ _ _)
  case faddM32 | faddM64 | fdivM32 | fdivM64 | fdivrM32 | fdivrM64 | fmulM32 | fmulM64 | fsubM32 | fsubM64 | fsubrM32
    | fsubrM64 => exact around_blind _ _ _ (arithReal_blind _ _ _)
  case fiaddM16 | fiaddM32 | fidivM16 | fidivM32 | fidivrM16 | fidivrM32 | fimulM16 | fimulM32 | fisubM16 | fisubM32
    | fisubrM16 | fisubrM32 => exact around_blind _ _ _ (arithInt_blind _ _ _)
  -- transcendental instructions
  case f2xm1 => exact around_blind _ _ _ (computing_blind f2xm1_blind.openC023)
  case fcos =>
    exact around_blind _ _ _
      (computing_blind (trig_blind (raiseInvalid_blind indefSt0_blind) (setSt_blind 0#3 one) _).openC03)
  case fsin =>
    exact around_blind _ _ _ (computing_blind (trig_blind (trigInvalid_blind indefSt0_blind) id_blind _).openC03)
  case fptan => exact around_blind _ _ _ (computing_blind (trigPair_blind (fun _ _ _ => rfl) tangent_blind).openC03)
  case fsincos =>
    exact around_blind _ _ _ (computing_blind (trigPair_blind (fun _ _ _ => rfl) sineCosine_blind).openC03)
  case fpatan => exact around_blind _ _ _ (computing_blind (pairFront_blind arctan_blind).openC023)
  case fyl2x => exact around_blind _ _ _ (computing_blind (pairFront_blind yl2x_blind).openC023)
  case fyl2xp1 => exact around_blind _ _ _ (computing_blind (pairFront_blind yl2xp1_blind).openC023)
  -- other arithmetic
  case fabs | fchs => exact around_blind _ _ _ (computing_blind (onSign_blind _).openC023)
  case fprem | fprem1 => exact around_blind _ _ _ (computing_blind (prem_blind _))
  case frndint => exact around_blind _ _ _ (computing_blind (unary_blind _ roundInt_blind).openC023)
  case fsqrt => exact around_blind _ _ _ (computing_blind (unary_blind _ squareRoot_blind).openC023)
  case fscale => exact around_blind _ _ _ (computing_blind scale_blind.openC023)
  case fxtract => exact around_blind _ _ _ (computing_blind xtract_blind.openC023)
  -- loads
  case fbld => exact around_blind _ _ _ (loading_blind _ _ fun bs => (loadBcd_blind bs).openC023)
  case fildM16 | fildM32 | fildM64 => exact around_blind _ _ _ (loadInteger_blind _ _)
  case fldM32 | fldM64 => exact around_blind _ _ _ (loadRealFrom_blind _ _)
  case fldM80 => exact around_blind _ _ _ (loading_blind _ _ fun _ => (load_blind _).openC023)
  case fldSt => exact around_blind _ _ _ (computing_blind (loadSt_blind _).openC023)
  case fld1 | fldz => exact around_blind _ _ _ (computing_blind (load_blind _).openC023)
  case fldl2t | fldl2e | fldpi | fldlg2 | fldln2 => exact around_blind _ _ _ (loadConstant_blind _ _)
  -- stores
  case fbstp => exact around_blind _ _ _ (storing_blind _ _ (openAfter_blind storeBcd_blind))
  case fistM16 | fistM32 | fistpM16 | fistpM32 | fistpM64 => exact around_blind _ _ _ (storeInteger_blind _ _ _)
  case fstM32 | fstM64 | fstpM32 | fstpM64 => exact around_blind _ _ _ (storeRealTo_blind _ _ _)
  case fstpM80 => exact around_blind _ _ _ (storing_blind _ _ (openAfter_blind storeExt_blind))
  -- moves
  case fcmovb | fcmove | fcmovbe | fcmovu | fcmovnb | fcmovne | fcmovnbe | fcmovnu =>
    exact around_blind _ _ _ (conditionalMove_blind (fun _ _ => rfl) _)
  case fstSt | fstpSt => exact around_blind _ _ _ (computing_blind (copyTo_blind _ _).openC023)
  case fxch => exact around_blind _ _ _ (computing_blind (swap_blind _).openC023)
  -- comparison
  case fcomSt | fcompSt | fcompp | fcomi | fcomip | fucomi | fucomip | fucom | fucomp | fucompp =>
    exact around_blind _ _ _ (compareReg_blind _ _ _ _)
  case fcomM32 | fcomM64 | fcompM32 | fcompM64 => exact around_blind _ _ _ (compareReal_blind _ _ _)
  case ficomM16 | ficomM32 | ficompM16 | ficompM32 => exact around_blind _ _ _ (compareInt_blind _ _ _)
  case ftst => exact around_blind _ _ _ (computing_blind (compare_blind _ _ _ _))
  case fxam => exact around_blind _ _ _ (computing_blind examine_blind)
  -- control instructions that wait, and FWAIT
  case fdecstp | fincstp => exact around_blind _ _ _ (computing_blind (rotate_blind fun _ _ => rfl))
  case ffree => exact around_blind _ _ _ (computing_blind (free_blind _))
  case fnop => exact around_blind _ _ _ (computing_blind openC0123_blind)
  case fldcw => exact around_blind _ _ _ (loading_blind _ _ loadCw_blind)
  case fldenv | fldenvO66 => exact around_blind _ _ _ (loadEnvFrom_blind _ _)
  case frstor | frstorO66 => exact around_blind _ _ _ (restoreFrom_blind _ _)
  case fwait => exact execFwait_blind
  -- no-wait forms, and each wait form from its no-wait form
  case fnclex => exact execFnclex_blind
  case fndisi => exact execFndisi_blind
  case fneni => exact execFneni_blind
  case fninit => exact execFninit_blind
  case fsetpm => exact execFsetpm_blind
  case fnstcw a => exact execFnstcw_blind a
  case fnstswM16 a => exact execFnstswM16_blind a
  case fnstenv a => exact execFnstenv_blind a
  case fnsave a => exact execFnsave_blind a
  case fnstenvO66 a => exact execFnstenvO66_blind a
  case fnsaveO66 a => exact execFnsaveO66_blind a
  case fclex => exact waitThen_blind execFnclex_blind
  case fdisi => exact waitThen_blind execFndisi_blind
  case feni => exact waitThen_blind execFneni_blind
  case finit => exact waitThen_blind execFninit_blind
  case fstcw a => exact waitThen_blind (execFnstcw_blind a)
  case fstswM16 a => exact waitThen_blind (execFnstswM16_blind a)
  case fstenv a => exact waitThen_blind (execFnstenv_blind a)
  case fsave a => exact waitThen_blind (execFnsave_blind a)
  case fstenvO66 a => exact waitThen_blind (execFnstenvO66_blind a)
  case fsaveO66 a => exact waitThen_blind (execFnsaveO66_blind a)
  case fnstswAx => exact absurd rfl hn
  case fstswAx => exact absurd rfl hw

/-- Settles O12, by cases on the instruction: each rule commutes with a change of AX (`exec_blind`). -/
theorem onlyFstswAxTouchesAx : Obligations.OnlyFstswAxTouchesAx := by
  unfold Obligations.OnlyFstswAxTouchesAx
  intro i s v hs hn hw
  calc exec i (withAx v s)
    _ = onNext (withAx v) (exec i s) := exec_blind i hn hw v s hs
    _ = _ := by cases exec i s <;> rfl

end Sys2Proof.Laws.HostAx
end

section
/-! FABS and FCHS (42_arith_other.md rules R301, R302). First what two shared operations, `raise IS` and the undefined
condition codes, leave in SW and the registers; then the two branches of the rule, a full and an empty ST(0). -/

namespace Sys2Proof.Laws.SignBit

open Sys2Proof.Machine

/-! ### The undefined C0, C2 and C3 -/

@[simp] theorem openC023_regs (s : State) : s.openC023.regs = s.regs := rfl
@[simp] theorem openC023_tags (s : State) : s.openC023.tags = s.tags := rfl
@[simp] theorem openC023_reg (s : State) (k : BitVec 3) : s.openC023.reg k = s.reg k := rfl
@[simp] theorem openC023_c1 (s : State) : s.openC023.sw.c1 = s.sw.c1 := rfl
@[simp] theorem openC023_top (s : State) : s.openC023.sw.top = s.sw.top := rfl

@[simp] theorem openC023_flag (s : State) (g : Flag) : s.openC023.sw.flag g = s.sw.flag g :=
  ((calc_openC023 (K := []) (F := []) s).flags g).2 (by simp)

/-! ### The stack fault -/

/-- The flags of `raise IS` (rule R521) do not depend on CW.IM where the masked response leaves SW alone. -/
theorem raiseStack_flags {o : Bool} {masked : State → State} (h : ∀ t, (masked t).sw = t.sw) (s : State) :
    StackFaultFlags o s (s.raiseStack o masked) := by
  have hsw : (s.raiseStack o masked).sw = { s.sw with ie := true, sf := true, c1 := o } := by
    unfold State.raiseStack
    dsimp only
    split
    · exact h _
    · rfl
  unfold StackFaultFlags
  rw [hsw]
  refine ⟨rfl, rfl, rfl, fun g hie hsf => ?_⟩
  cases g with
  | ie => exact absurd rfl hie
  | sf => exact absurd rfl hsf
  | de | ze | oe | ue | pe => rfl

/-- Unmasked, `raise IS` writes no register (rule R521). -/
theorem raiseStack_unmasked {s : State} (h : s.cw.getLsbD 0 = false) (o : Bool) (masked : State → State) :
    (s.raiseStack o masked).regs = s.regs ∧ (s.raiseStack o masked).tags = s.tags := by
  simp only [State.raiseStack, h, Bool.false_eq_true, if_false, and_self]

/-- Masked, a response that writes ST(i) leaves the value there (rule R521). -/
theorem raiseStack_masked_reg {s : State} (h : s.cw.getLsbD 0 = true) (o : Bool) (i : BitVec 3) (v : Ext) :
    (s.raiseStack o fun t => t.setSt i v).reg (s.phys i) = v := by
  simp only [State.raiseStack, h, if_true, reg_setSt]
  exact if_pos rfl

/-! ### The rule of FABS and FCHS -/

theorem onSign_full {s : State} (h : s.isEmpty 0#3 = false) (f : Ext → Ext) :
    s.onSign f = (s.setSt 0#3 (f (s.st 0#3))).withC1 false := by
  simp [State.onSign, h]

theorem onSign_empty {s : State} (h : s.isEmpty 0#3 = true) (f : Ext → Ext) :
    s.onSign f = s.raiseStack false fun t => t.setSt 0#3 indef := by
  simp [State.onSign, h]

theorem onSign_top (f : Ext → Ext) (s : State) : (s.onSign f).sw.top = s.sw.top :=
  (calc_onSign (K := [0#3]) (F := [.ie, .sf]) (by simp) (by simp) (by simp) f s).sameTop

theorem onSign_empty_flags {s : State} (h : s.isEmpty 0#3 = true) (f : Ext → Ext) :
    StackFaultFlags false s (s.onSign f) := by
  rw [onSign_empty h]
  exact raiseStack_flags (fun t => setSt_sw 0#3 indef t) s

/-- C1 is 0 whether ST(0) is empty or not: an underflow of the stack clears it too. -/
theorem onSign_c1 (f : Ext → Ext) (s : State) : (s.onSign f).sw.c1 = false := by
  cases h : s.isEmpty 0#3 with
  | false => rw [onSign_full h]; rfl
  | true =>
    obtain ⟨_, _, hc1, _⟩ := onSign_empty_flags h f
    exact hc1

theorem onSign_full_reg {s : State} (h : s.isEmpty 0#3 = false) (f : Ext → Ext) :
    (s.onSign f).reg (s.phys 0#3) = f (s.st 0#3) := by
  simp [onSign_full h]

theorem onSign_full_flag {s : State} (h : s.isEmpty 0#3 = false) (f : Ext → Ext) (g : Flag) :
    (s.onSign f).sw.flag g = s.sw.flag g := by
  rw [onSign_full h]
  exact ((calc_withC1 (K := []) (F := []) false (s.setSt 0#3 (f (s.st 0#3)))).flags g).2 (by simp)

/-! ### The instructions -/

theorem exec_fabs (s : State) :
    exec .fabs s = around .waiting .record .fabs (computing fun s => (s.onSign clearSign).openC023) s := rfl

theorem exec_fchs (s : State) :
    exec .fchs s = around .waiting .record .fchs (computing fun s => (s.onSign flipSign).openC023) s := rfl

/-- FABS and FCHS are `onSign` with the operation on the bits that the rule gives, then the undefined codes. -/
theorem exec_sign {i : Instr} {f : Ext → Ext}
    (hif : (i, f) ∈ [(Instr.fabs, fun x : Ext => x &&& 0x7FFFFFFFFFFFFFFFFFFF#80),
      (Instr.fchs, fun x : Ext => x ^^^ 0x80000000000000000000#80)]) {s : State} (h : Ready i s) :
    exec i s = .next ((s.onSign f).openC023.retire .record i) := by
  simp only [List.mem_cons, Prod.mk.injEq, List.not_mem_nil, or_false] at hif
  obtain ⟨rfl, rfl⟩ | ⟨rfl, rfl⟩ := hif
  · exact (exec_fabs s).trans (Ready.runs h rfl rfl)
  · exact (exec_fchs s).trans (Ready.runs h rfl rfl)

/-- Both are in the tables of the 8087 already, and have no operand that the address size could change. -/
theorem sign_encodings (p : Params) :
    encode p .fabs = [0xD9#8, 0xE1#8] ∧ Instr.fabs.available p = true ∧
      encode p .fchs = [0xD9#8, 0xE0#8] ∧ Instr.fchs.available p = true :=
  ⟨rfl, decide_eq_true (Nat.zero_le _), rfl, decide_eq_true (Nat.zero_le _)⟩

/-- Settles O22, by cases on whether ST(0) is empty, and if it is, on whether IM masks the stack underflow. -/
theorem signInstructions : Obligations.SignInstructions := by
  unfold Obligations.SignInstructions
  refine ⟨sign_encodings, fun i f s hif hready => ⟨_, exec_sign hif hready, ?_, ?_, fun hfull => ?_, fun hempty => ?_⟩⟩
  · simpa using onSign_c1 f s
  · simpa using onSign_top f s
  · simpa using And.intro (onSign_full_reg hfull f) (onSign_full_flag hfull f)
  · obtain ⟨hie, hsf, _, hrest⟩ := onSign_empty_flags hempty f
    simp only [retire_sw, retire_regs, retire_tags, retire_reg, openC023_flag, openC023_regs, openC023_tags,
      openC023_reg]
    refine ⟨hie, hsf, hrest, ?_⟩
    rw [onSign_empty hempty]
    split
    · next hmasked => exact raiseStack_masked_reg hmasked false 0#3 indef
    · next hunmasked => exact raiseStack_unmasked (by simpa using hunmasked) false _

end Sys2Proof.Laws.SignBit
end

section
/-! FNINIT and FNCLEX (44_control.md rules R411, R402). First what SW, ES and TW read in terms of the flags and the tags;
then what the two rules leave in each part of the FPU, and that they touch nothing else. -/

namespace Sys2Proof.Laws.InitClear

open Sys2Proof.Machine

/-! ### The words that are read, from the flags and the tags -/

theorem flags_clear_fields {w : Status} (h : ∀ f, w.flag f = false) :
    w.ie = false ∧ w.de = false ∧ w.ze = false ∧ w.oe = false ∧ w.ue = false ∧ w.pe = false ∧ w.sf = false :=
  ⟨h .ie, h .de, h .ze, h .oe, h .ue, h .pe, h .sf⟩

/-- With no flag set there is no unmasked exception, whatever CW masks (rule R39). -/
theorem es_of_flags_clear {s : State} (h : ∀ f, s.sw.flag f = false) : s.es = false := by
  obtain ⟨hie, hde, hze, hoe, hue, hpe, _⟩ := flags_clear_fields h
  simp [State.es, hie, hde, hze, hoe, hue, hpe]

/-- With no flag set SW holds TOP and the condition codes only (rules R36, R40). -/
theorem swWord_of_flags_clear {s : State} (h : ∀ f, s.sw.flag f = false) :
    s.swWord = 0#1 ++ BitVec.ofBool s.sw.c3 ++ s.sw.top ++ BitVec.ofBool s.sw.c2 ++ BitVec.ofBool s.sw.c1 ++
      BitVec.ofBool s.sw.c0 ++ 0#8 := by
  obtain ⟨hie, hde, hze, hoe, hue, hpe, hsf⟩ := flags_clear_fields h
  simp only [State.swWord, es_of_flags_clear h, hie, hde, hze, hoe, hue, hpe, hsf]
  generalize s.sw.c3 = c3, s.sw.top = top, s.sw.c2 = c2, s.sw.c1 = c1, s.sw.c0 = c0
  revert c3 top c2 c1 c0
  decide

/-- B, ES, SF and the six exception flags are the bits of SW that TOP and the condition codes leave out. -/
theorem topAndCodes_and_flagMask (c3 : Bool) (top : BitVec 3) (c2 c1 c0 : Bool) :
    (0#1 ++ BitVec.ofBool c3 ++ top ++ BitVec.ofBool c2 ++ BitVec.ofBool c1 ++ BitVec.ofBool c0 ++ 0#8) &&& 0x80FF#16 =
      0#16 := by
  revert c3 top c2 c1 c0
  decide

theorem pending_of_flags_clear {s : State} (h : ∀ f, s.sw.flag f = false) : s.pending = false := by
  simp [State.pending, es_of_flags_clear h]

/-- The default status word reads 0, whatever CW masks. -/
theorem swWord_of_default {s : State} (h : s.sw = {}) : s.swWord = 0#16 := by
  rw [swWord_of_flags_clear fun f => by rw [h]; cases f <;> rfl, h]
  rfl

theorem tagWord_of_allEmpty {s : State} (h : s.tags = Vector.replicate 8 .empty) : s.tagWord = 0xFFFF#16 := by
  have htag : ∀ k, s.tag k = .empty := fun k => by simp [State.tag, h]
  simp only [State.tagWord, htag]
  rfl

/-! ### What lies outside the registers, the words and the pointers of the FPU -/

/-- What is no register, word or pointer of the FPU is as it was. -/
structure OutsideKept (s t : State) : Prop where
  cfg    : t.cfg = s.cfg
  pm287  : t.pm287 = s.pm287
  host   : HostKept s t
  mem    : t.mem = s.mem
  pc     : t.pc = s.pc
  pcOver : t.pcOver = s.pcOver

/-- The same once the instruction has ended, with pc past it. -/
theorem OutsideKept.retired {s t : State} (h : OutsideKept s t) (ptr : Pointers) (i : Instr) :
    (t.retire ptr i).pm287 = s.pm287 ∧ (t.retire ptr i).cfg = s.cfg ∧ HostKept s (t.retire ptr i) ∧
      MemoryKept s (t.retire ptr i) ∧ Advanced i s (t.retire ptr i) := by
  have hnat : t.pcNat = s.pcNat := by simp only [State.pcNat, h.pcOver, h.cfg, h.pc]
  refine ⟨?_, ?_, ?_, fun a => ?_, ?_, ?_⟩
  · rw [retire_pm287, h.pm287]
  · rw [retire_cfg, h.cfg]
  · simpa [HostKept] using h.host
  · rw [retire_byteAt, State.byteAt, State.byteAt, h.mem]
  · rw [retire_pc, h.pc, h.cfg]
  · rw [retire_pcOver, h.cfg, hnat]

/-! ### The rule of FNINIT -/

theorem initialise_outside (s : State) : OutsideKept s s.initialise := by
  unfold State.initialise State.clearPointers
  split <;> exact ⟨rfl, rfl, ⟨rfl, rfl, rfl, rfl⟩, rfl, rfl, rfl⟩

theorem initialise_defaults (s : State) :
    s.initialise.cw = 0x037F#16 ∧ s.initialise.sw = {} ∧ s.initialise.tags = Vector.replicate 8 .empty ∧
      s.initialise.regs = s.regs := by
  unfold State.initialise State.clearPointers
  split <;> exact ⟨rfl, rfl, rfl, rfl⟩

/-- The 387 keeps its pointers, the other generations clear them. -/
theorem initialise_pointers (s : State) :
    if s.cfg.gen = .g387 then PointersKept s s.initialise
    else s.initialise.fip = 0#32 ∧ s.initialise.fcs = 0#16 ∧ s.initialise.fdp = 0#32 ∧ s.initialise.fds = 0#16 ∧
      s.initialise.fop = 0#11 := by
  unfold State.initialise State.clearPointers
  split <;> exact ⟨rfl, rfl, rfl, rfl, rfl⟩

/-! ### The rule of FNCLEX -/

theorem openC0123_regs (s : State) : s.openC0123.regs = s.regs := by
  simp [State.openC0123, State.openC0, State.openC1, State.openC2, State.openC3]

theorem openC0123_tags (s : State) : s.openC0123.tags = s.tags := by
  simp [State.openC0123, State.openC0, State.openC1, State.openC2, State.openC3]

/-- The state with the exception flags and SF cleared. -/
def flagsCleared (s : State) : State :=
  { s with sw := { s.sw with
    ie := false, de := false, ze := false, oe := false, ue := false, pe := false, sf := false } }

/-- The flags are cleared, then the condition codes are left undefined (`calc_openC0123`). -/
theorem calc_clearExceptions (s : State) : Calc [0#3] [] [] (flagsCleared s) s.clearExceptions :=
  calc_openC0123 (flagsCleared s)

theorem clearExceptions_flag (s : State) (f : Flag) : s.clearExceptions.sw.flag f = false :=
  calc s.clearExceptions.sw.flag f
    _ = (flagsCleared s).sw.flag f := ((calc_clearExceptions s).flags f).2 (by simp)
    _ = false := by cases f <;> rfl

theorem clearExceptions_outside (s : State) : OutsideKept s s.clearExceptions :=
  have h := calc_clearExceptions s
  ⟨h.cfg, h.pm287, ⟨h.ax, h.zf, h.pf, h.cf⟩, h.mem, h.pc, h.pcOver⟩

theorem clearExceptions_regs (s : State) : s.clearExceptions.regs = s.regs := openC0123_regs (flagsCleared s)
theorem clearExceptions_tags (s : State) : s.clearExceptions.tags = s.tags := openC0123_tags (flagsCleared s)

theorem clearExceptions_pointers (s : State) : PointersKept s s.clearExceptions :=
  have h := calc_clearExceptions s
  ⟨h.fip, h.fcs, h.fdp, h.fds, h.fop⟩

/-! ### The instructions -/

/-- Both are in the tables of the 8087 already, and have no operand that the address size could change. -/
theorem initClear_encodings (p : Params) :
    encode p .fninit = [0xDB#8, 0xE3#8] ∧ Instr.fninit.available p = true ∧
      encode p .fnclex = [0xDB#8, 0xE2#8] ∧ Instr.fnclex.available p = true :=
  ⟨rfl, decide_eq_true (Nat.zero_le _), rfl, decide_eq_true (Nat.zero_le _)⟩

/-- An available no-wait instruction of two bytes needs room for them and a closed window only: a pending
exception does not hold it up (rule R135). -/
theorem ready_noWait {i : Instr} {s : State} (ha : i.available s.cfg = true) (hl : i.length s.cfg = 2)
    (hs : syncOf i = .noWait) (hroom : s.pcNat + 2 ≤ s.cfg.addrLimit) (hw : s.windowOpen = false) : Ready i s := by
  have hp : s.passesTop (i.length s.cfg) = false := by simpa [State.passesTop, hl] using hroom
  unfold Ready
  rw [hs]
  exact ⟨ha, hp, hw⟩

theorem exec_fninit (s : State) :
    exec .fninit s = around .noWait .keep .fninit (computing State.initialise) s := rfl

theorem exec_fnclex (s : State) :
    exec .fnclex s = around .noWait .keep .fnclex (computing State.clearExceptions) s := rfl

theorem fninit_runs {s : State} (hroom : s.pcNat + 2 ≤ s.cfg.addrLimit) (hw : s.windowOpen = false) :
    exec .fninit s = .next (s.initialise.retire .keep .fninit) := by
  obtain ⟨_, hav, _, _⟩ := initClear_encodings s.cfg
  have hready : Ready .fninit s := ready_noWait hav rfl rfl hroom hw
  exact (exec_fninit s).trans (Ready.runs hready rfl rfl)

theorem fnclex_runs {s : State} (hroom : s.pcNat + 2 ≤ s.cfg.addrLimit) (hw : s.windowOpen = false) :
    exec .fnclex s = .next (s.clearExceptions.retire .keep .fnclex) := by
  obtain ⟨_, _, _, hav⟩ := initClear_encodings s.cfg
  have hready : Ready .fnclex s := ready_noWait hav rfl rfl hroom hw
  exact (exec_fnclex s).trans (Ready.runs hready rfl rfl)

/-- Settles O50, from what the two rules leave (`initialise_defaults`, `clearExceptions_flag`) and what lies outside the
FPU (`OutsideKept.retired`). -/
theorem fninitAndFnclex : Obligations.FninitAndFnclex := by
  unfold Obligations.FninitAndFnclex
  refine ⟨initClear_encodings, fun s hroom hw => ⟨_, fninit_runs hroom hw, ?_⟩,
    fun s hroom hw => ⟨_, fnclex_runs hroom hw, ?_⟩⟩
  · obtain ⟨hcw, hsw, htags, hregs⟩ := initialise_defaults s
    exact ⟨(retire_cw ..).trans hcw, swWord_of_default ((retire_sw ..).trans hsw),
      tagWord_of_allEmpty ((retire_tags ..).trans htags), (retire_regs ..).trans hregs, initialise_pointers s,
      (initialise_outside s).retired .keep .fninit⟩
  · have hcalc := calc_clearExceptions s
    have hflags : ∀ f, (s.clearExceptions.retire .keep .fnclex).sw.flag f = false := fun f => by
      rw [retire_sw, clearExceptions_flag]
    have hmask : (s.clearExceptions.retire .keep .fnclex).swWord &&& 0x80FF#16 = 0#16 := by
      rw [swWord_of_flags_clear hflags, topAndCodes_and_flagMask]
    exact ⟨hmask, pending_of_flags_clear hflags, (congrArg Status.top (retire_sw ..)).trans hcalc.sameTop,
      (retire_cw ..).trans hcalc.cw, (retire_tags ..).trans (clearExceptions_tags s),
      (retire_regs ..).trans (clearExceptions_regs s), clearExceptions_pointers s,
      (clearExceptions_outside s).retired .keep .fnclex⟩

end Sys2Proof.Laws.InitClear
end

section
/-! FXAM (45_comparison.md rule R491). The rule writes the four condition codes and nothing else: what each code says,
then what is left as it was; C3, C2, C0 are read off the table row by row. -/

namespace Sys2Proof.Laws.Examine

open Sys2Proof.Machine

/-! ### The table -/

/-- The first row of the table: emptiness goes by the tag, whatever the bits are. -/
theorem examineRow_of_tag_empty {s : State} (h : s.tag (s.phys 0#3) = .empty) (c : Machine.Class) :
    examineRow (s.isEmpty 0#3) c = (true, false, true) := by
  have hempty : s.isEmpty 0#3 = true := decide_eq_true h
  rw [hempty]
  rfl

/-- The other rows go by the class of the bits alone. -/
theorem examineRow_of_tag_full {s : State} (h : s.tag (s.phys 0#3) ≠ .empty) (c : Machine.Class) :
    examineRow (s.isEmpty 0#3) c = examineRow false c := by
  have hfull : s.isEmpty 0#3 = false := decide_eq_false h
  rw [hfull]

/-! ### The rule of FXAM -/

theorem examine_codes (s : State) :
    (s.examine.sw.c3, s.examine.sw.c2, s.examine.sw.c0) = examineRow (s.isEmpty 0#3) (classOf (s.st 0#3)) := by
  simp [State.examine]

/-- C1 is the sign bit of ST(0) whether the register is empty or not: the later writes of C3, C2 and C0 keep it. -/
theorem examine_c1 (s : State) : s.examine.sw.c1 = (s.st 0#3).getLsbD 79 := by
  simp [State.examine, signOf]

theorem examine_regs (s : State) : s.examine.regs = s.regs := by simp [State.examine]
theorem examine_tags (s : State) : s.examine.tags = s.tags := by simp [State.examine]

theorem examine_flag (s : State) (f : Flag) : s.examine.sw.flag f = s.sw.flag f :=
  ((calc_examine (K := []) (F := []) s).flags f).2 (by simp)

theorem examine_top (s : State) : s.examine.sw.top = s.sw.top := (calc_examine (K := []) (F := []) s).sameTop

/-! ### The instruction -/

theorem exec_fxam (s : State) :
    exec .fxam s = around .waiting .record .fxam (computing State.examine) s := rfl

theorem fxam_runs {s : State} (h : Ready .fxam s) : exec .fxam s = .next (s.examine.retire .record .fxam) :=
  (exec_fxam s).trans (Ready.runs h rfl rfl)

/-- FXAM is in the tables of the 8087 already, and has no operand that the address size could change. -/
theorem fxam_encoding (p : Params) : encode p .fxam = [0xD9#8, 0xE5#8] ∧ Instr.fxam.available p = true :=
  ⟨rfl, decide_eq_true (Nat.zero_le _)⟩

/-- Settles O49, from what the rule leaves (`examine_c1`, `examine_codes`), by cases on whether ST(0) is tagged empty
and, if it is not, on the class of its bits. -/
theorem examineClasses : Obligations.ExamineClasses := by
  unfold Obligations.ExamineClasses
  refine ⟨fxam_encoding, fun s hready => ⟨_, fxam_runs hready, ?_⟩⟩
  simp only [retire_sw, retire_regs, retire_tags]
  refine ⟨examine_c1 s, examine_flag s, examine_regs s, examine_tags s, examine_top s, ?_⟩
  rw [examine_codes]
  split
  · next hempty => exact examineRow_of_tag_empty hempty _
  · next hfull =>
    rw [examineRow_of_tag_full hfull]
    cases classOf (s.st 0#3) <;> rfl

end Sys2Proof.Laws.Examine
end

section
/-! Every instruction but the wait forms is `around` a rule of one of three shapes: a computation, a load or a store. What
holds of the three shapes holds of all instructions, and an instruction that is ready and whose operand is there answers
the state of its rule. -/

namespace Sys2Proof.Laws.Shapes

open Sys2Proof.Machine

/-- A rule of an instruction: it computes, or first reads the bytes of its operand, or answers the bytes it stores. -/
inductive Shape where
  | compute (f : State → State)
  | load (f : List Byte → State → State)
  | store (f : State → State × Option (List Byte))

/-- The source of an arithmetic or compare instruction whose memory operand holds the bytes `bs`. -/
def sourceFrom (k : SourceKind) (bs : List Byte) : Source :=
  match k with
  | .reg j => .reg j
  | .real f => .mem (f.toExt (leNat bs))
  | .int w => .mem (intOperand w bs)
  | .zero => .mem ⟨zeroOf false, false⟩

/-- A rule whose second operand comes from a register, from memory, or is the zero of FTST. -/
def withSource (k : SourceKind) (f : Source → State → State) : Shape :=
  match k with
  | .reg _ | .zero => .compute (f (sourceFrom k []))
  | .real _ | .int _ => .load fun bs => f (sourceFrom k bs)

/-- Where a compare instruction puts its result. -/
def CompareRow.target (row : CompareRow) : ResultTo := if row.host then .eflags else .codes

/-- The rule of an instruction. That of a wait form is its own (`exec_waitForm`), and FWAIT stands here for it. -/
def shapeOf (i : Instr) : Shape :=
  match i with
  | .f2xm1 => .compute fun s => s.f2xm1.openC023
  | .fcos =>
    .compute fun s => (s.trig (State.raiseInvalid State.indefSt0) (fun t => t.setSt 0#3 one) transCos).openC03
  | .fpatan => .compute fun s => (s.pairFront State.arctan).openC023
  | .fptan => .compute fun s => (s.trigPair State.fptanTakes State.tangent).openC03
  | .fsin => .compute fun s => (s.trig (State.trigInvalid State.indefSt0) id transSin).openC03
  | .fsincos => .compute fun s => (s.trigPair (fun _ _ => true) State.sineCosine).openC03
  | .fyl2x => .compute fun s => (s.pairFront State.yl2x).openC023
  | .fyl2xp1 => .compute fun s => (s.pairFront State.yl2xp1).openC023
  | .fabs => .compute fun s => (s.onSign clearSign).openC023
  | .fchs => .compute fun s => (s.onSign flipSign).openC023
  | .fprem => .compute (State.prem false)
  | .fprem1 => .compute (State.prem true)
  | .frndint => .compute fun s => (s.unary (fun _ => false) State.roundInt).openC023
  | .fscale => .compute fun s => s.scale.openC023
  | .fsqrt => .compute fun s => (s.unary sqrtInvalid State.squareRoot).openC023
  | .fxtract => .compute fun s => s.xtract.openC023
  | .fbld _ => .load fun bs s => (s.loadBcd bs).openC023
  | .fbstp _ => .store fun s => openAfter s.storeBcd
  | .fcmovb i => .compute fun s => (s.moveIf s.cf i).openC023
  | .fcmove i => .compute fun s => (s.moveIf s.zf i).openC023
  | .fcmovbe i => .compute fun s => (s.moveIf (s.cf || s.zf) i).openC023
  | .fcmovu i => .compute fun s => (s.moveIf s.pf i).openC023
  | .fcmovnb i => .compute fun s => (s.moveIf (!s.cf) i).openC023
  | .fcmovne i => .compute fun s => (s.moveIf (!s.zf) i).openC023
  | .fcmovnbe i => .compute fun s => (s.moveIf (!s.cf && !s.zf) i).openC023
  | .fcmovnu i => .compute fun s => (s.moveIf (!s.pf) i).openC023
  | .fildM16 _ => .load fun bs s => (s.load (intToExt (signedOf 16 (leNat bs)))).openC023
  | .fildM32 _ => .load fun bs s => (s.load (intToExt (signedOf 32 (leNat bs)))).openC023
  | .fildM64 _ => .load fun bs s => (s.load (intToExt (signedOf 64 (leNat bs)))).openC023
  | .fistM16 _ => .store fun s => openAfter (s.storeInt 16 false)
  | .fistM32 _ => .store fun s => openAfter (s.storeInt 32 false)
  | .fistpM16 _ => .store fun s => openAfter (s.storeInt 16 true)
  | .fistpM32 _ => .store fun s => openAfter (s.storeInt 32 true)
  | .fistpM64 _ => .store fun s => openAfter (s.storeInt 64 true)
  | .fldM32 _ => .load fun bs s => (s.loadReal (single.toExt (leNat bs))).openC023
  | .fldM64 _ => .load fun bs s => (s.loadReal (double.toExt (leNat bs))).openC023
  | .fldM80 _ => .load fun bs s => (s.load (BitVec.ofNat 80 (leNat bs))).openC023
  | .fldSt i => .compute fun s => (s.loadSt i).openC023
  | .fld1 => .compute fun s => (s.load one).openC023
  | .fldl2t => .compute fun s => (s.load (constantFor 0x4000D49A784BCD1B8AFE#80 false (rounding s.cw))).openC023
  | .fldl2e => .compute fun s => (s.load (constantFor 0x3FFFB8AA3B295C17F0BB#80 true (rounding s.cw))).openC023
  | .fldpi => .compute fun s => (s.load (constantFor 0x4000C90FDAA22168C234#80 true (rounding s.cw))).openC023
  | .fldlg2 => .compute fun s => (s.load (constantFor 0x3FFD9A209A84FBCFF798#80 true (rounding s.cw))).openC023
  | .fldln2 => .compute fun s => (s.load (constantFor 0x3FFEB17217F7D1CF79AB#80 true (rounding s.cw))).openC023
  | .fldz => .compute fun s => (s.load (zeroOf false)).openC023
  | .fstM32 _ => .store fun s => openAfter (s.storeReal single false)
  | .fstM64 _ => .store fun s => openAfter (s.storeReal double false)
  | .fstSt i => .compute fun s => (s.copyTo i false).openC023
  | .fstpM32 _ => .store fun s => openAfter (s.storeReal single true)
  | .fstpM64 _ => .store fun s => openAfter (s.storeReal double true)
  | .fstpM80 _ => .store fun s => openAfter s.storeExt
  | .fstpSt i => .compute fun s => (s.copyTo i true).openC023
  | .fxch i => .compute fun s => (s.swap i).openC023
  | .fnclex => .compute State.clearExceptions
  | .fdecstp => .compute fun s => s.rotate (s.sw.top - 1#3)
  | .fndisi => .compute fun s => if s.cfg.gen = .g8087 then s.setIem true else s
  | .fneni => .compute fun s => if s.cfg.gen = .g8087 then s.setIem false else s
  | .ffree i => .compute fun s => (s.setTag (s.phys i) .empty).openC0123
  | .fincstp => .compute fun s => s.rotate (s.sw.top + 1#3)
  | .fninit => .compute State.initialise
  | .fldcw _ => .load fun bs s => { s with cw := cwKeep s.cfg.gen (word16At bs 0) }.openC0123
  | .fldenv _ => .load fun bs s => s.loadEnv (effSize16 s.cfg false) bs
  | .fnop => .compute State.openC0123
  | .frstor _ => .load fun bs s => s.restore (effSize16 s.cfg false) bs
  | .fnsave _ => .store fun s => s.save (effSize16 s.cfg false)
  | .fsetpm => .compute fun s => if s.cfg.gen = .g287 then { s with pm287 := true } else s
  | .fnstcw _ => .store fun s => (s.openC0123, some (half2 (cwKeep s.cfg.gen s.cw)))
  | .fnstenv _ => .store fun s => s.storeEnv (effSize16 s.cfg false)
  | .fnstswM16 _ => .store fun s => (s.openC0123, some (half2 s.swWord))
  | .fnstswAx => .compute fun s => { s with ax := s.swWord }.openC0123
  | .fxam => .compute State.examine
  | .fwait => .compute State.openC0123
  | .fldenvO66 _ => .load fun bs s => s.loadEnv (effSize16 s.cfg true) bs
  | .fnstenvO66 _ => .store fun s => s.storeEnv (effSize16 s.cfg true)
  | .frstorO66 _ => .load fun bs s => s.restore (effSize16 s.cfg true) bs
  | .fnsaveO66 _ => .store fun s => s.save (effSize16 s.cfg true)
  | i =>
    match arithRow i, compareRow i with
    | some row, _ => withSource row.source fun src s => (s.arith row.op row.dest src row.pop).openC023
    | none, some row => withSource row.source fun src s => s.compare src row.quiet (CompareRow.target row) row.pops
    | none, none => .compute State.openC0123

/-- What an instruction does about its pointers (rule R54). -/
def pointersOf (i : Instr) (s : State) : Pointers :=
  match i with
  | .fndisi | .fneni => pointersOn .g8087 s
  | .fsetpm => pointersOn .g287 s
  | .fdecstp | .fincstp | .fnop | .ffree _ => .record
  | i => if familyOf i = .control then .keep else .record

/-- The rule with its access to memory. -/
def ruleOf (i : Instr) (s : State) : Except Fault State :=
  match shapeOf i with
  | .compute f => computing f s
  | .load f => loading (addressOf i) (widthOf s.cfg i) f s
  | .store f => storing (addressOf i) (widthOf s.cfg i) f s

/-- The state the rule leaves where its operand is there. -/
def afterOf (i : Instr) (s : State) : State :=
  match shapeOf i with
  | .compute f => f s
  | .load f => f (s.bytesAt (addressOf i) (widthOf s.cfg i)) s
  | .store f =>
    match (f s).2 with
    | none => (f s).1
    | some bs => (f s).1.store (addressOf i) bs

/-- One arm of `exec` for all: by the constructor of the instruction. -/
theorem exec_around {i : Instr} (h : i.isWaitForm = false) (s : State) :
    exec i s = around (syncOf i) (pointersOf i s) i (ruleOf i) s := by
  cases i
  case fclex | fdisi | feni | finit | fsave | fstcw | fstenv | fstswM16 | fstswAx | fstenvO66 | fsaveO66 =>
    exact Bool.noConfusion h
  all_goals rfl

theorem exec_waitForm {i w : Instr} (h : i.waitForm = some w) (s : State) :
    exec w s = waitThen execFwait (exec i) s := by
  cases i <;> cases h <;> rfl

theorem exists_of_isWaitForm {w : Instr} (h : w.isWaitForm = true) : ∃ i : Instr, i.waitForm = some w := by
  cases w
  case fclex => exact ⟨.fnclex, rfl⟩
  case fdisi => exact ⟨.fndisi, rfl⟩
  case feni => exact ⟨.fneni, rfl⟩
  case finit => exact ⟨.fninit, rfl⟩
  case fsave a => exact ⟨.fnsave a, rfl⟩
  case fstcw a => exact ⟨.fnstcw a, rfl⟩
  case fstenv a => exact ⟨.fnstenv a, rfl⟩
  case fstswM16 a => exact ⟨.fnstswM16 a, rfl⟩
  case fstswAx => exact ⟨.fnstswAx, rfl⟩
  case fstenvO66 a => exact ⟨.fnstenvO66 a, rfl⟩
  case fsaveO66 a => exact ⟨.fnsaveO66 a, rfl⟩
  all_goals exact Bool.noConfusion h

theorem isWaitForm_of_waitForm {i w : Instr} (h : i.waitForm = some w) : i.isWaitForm = false ∧ w.isWaitForm = true := by
  cases i <;> cases h <;> exact ⟨rfl, rfl⟩

theorem exec_fwait (s : State) : exec .fwait s = execFwait s := rfl

/-- A rule that is no computation has a memory operand. -/
theorem operand_or_compute (i : Instr) : i.operand = some (addressOf i) ∨ ∃ f, shapeOf i = .compute f := by
  cases i <;> first | exact .inl rfl | exact .inr ⟨_, rfl⟩

theorem ruleOf_there {i : Instr} {s : State} (h : OperandThere i s) : ruleOf i s = .ok (afterOf i s) := by
  rcases operand_or_compute i with ho | ⟨f, hf⟩
  · have hb : hasBytes s.cfg (addressOf i).toNat (widthOf s.cfg i) = true := by simpa [OperandThere, ho] using h
    unfold ruleOf afterOf
    cases shapeOf i with
    | compute f => rfl
    | load f => exact loading_there hb
    | store f => exact storing_there hb
  · simp only [ruleOf, afterOf, hf]
    rfl

/-- An instruction that is ready and whose operand is there answers the state of its rule, retired. -/
theorem exec_runs {i : Instr} {s : State} (hw : i.isWaitForm = false) (h : Ready i s) (ho : OperandThere i s) :
    exec i s = .next ((afterOf i s).retire (pointersOf i s) i) :=
  (exec_around hw s).trans (Ready.runs h rfl (ruleOf_there ho))

theorem not_waitForm_of_family {i : Instr} (h : familyOf i ≠ .control) : i.isWaitForm = false := by
  cases hi : i.isWaitForm
  · rfl
  · obtain ⟨n, hn⟩ := exists_of_isWaitForm hi
    cases n <;> cases hn <;> exact absurd rfl h

theorem pointersOf_of_family {i : Instr} (h : familyOf i ≠ .control) (s : State) : pointersOf i s = .record := by
  cases i <;> first | rfl | exact absurd rfl h

/-- The same of an instruction that is no control instruction: it records its pointers. -/
theorem exec_computes {i : Instr} {s : State} (hf : familyOf i ≠ .control) (h : Ready i s) (ho : OperandThere i s) :
    exec i s = .next ((afterOf i s).retire .record i) := by
  rw [exec_runs (not_waitForm_of_family hf) h ho, pointersOf_of_family hf]

/-- The source of an arithmetic or compare instruction, read in the state. -/
def sourceIn (k : SourceKind) (a : Addr) (s : State) : Source :=
  match k with
  | .reg j => .reg j
  | .real f => .mem (f.toExt (leNat (s.bytesAt a f.bytes)))
  | .int w => .mem (intOperand w (s.bytesAt a (w / 8)))
  | .zero => .mem ⟨zeroOf false, false⟩

/-- The rule of an arithmetic instruction from its row (rule R230). -/
theorem afterOf_arith {i : Instr} {row : ArithRow} (h : arithRow i = some row) (s : State) :
    afterOf i s = (s.arith row.op row.dest (sourceIn row.source (addressOf i) s) row.pop).openC023 := by
  cases i <;> cases h <;> rfl

/-- The rule of a compare instruction from its row (rule R470). -/
theorem afterOf_compare {i : Instr} {row : CompareRow} (h : compareRow i = some row) (s : State) :
    afterOf i s =
      s.compare (sourceIn row.source (addressOf i) s) row.quiet (CompareRow.target row) row.pops := by
  cases i <;> cases h <;> rfl

theorem family_of_arithRow {i : Instr} {row : ArithRow} (h : arithRow i = some row) : familyOf i = .arith := by
  cases i <;> cases h <;> rfl

theorem family_of_compareRow {i : Instr} {row : CompareRow} (h : compareRow i = some row) : familyOf i = .compare := by
  cases i <;> cases h <;> rfl

end Sys2Proof.Laws.Shapes
end

section
/-! The encoder and the decoder (30_encoding.md). First the escape part, byte by byte, in both directions; then the
instructions without 9BH, then the wait forms, which are a 9BH byte before them. -/

namespace Sys2Proof.Laws.Coding

open Sys2Proof.Machine Sys2Proof.Laws.Shapes

/-! ### The escape part -/

/-- The row an escape part stands for, by the decoding tables. -/
def rowOf : Core → Option Instr
  | .reg ooo g r => decodeReg ooo g r
  | .mem ooo d a => decodeMem ooo d a

/-- The displacement of a memory form fits the width of addresses. -/
def Fits (p : Params) : Core → Prop
  | .reg _ _ _ => True
  | .mem _ _ a => a.toNat < p.addrLimit

/-- No two rows share an escape part: the row that a table gives has that escape part, without 9BH and 66H. -/
theorem form_of_decodeReg : ∀ ooo g r : BitVec 3,
    (decodeReg ooo g r).all (fun i => decide (i.form = Form.ofReg ooo g r)) = true := by decide +kernel

theorem bitVec3_cases : ∀ x : BitVec 3,
    x = 0#3 ∨ x = 1#3 ∨ x = 2#3 ∨ x = 3#3 ∨ x = 4#3 ∨ x = 5#3 ∨ x = 6#3 ∨ x = 7#3 := by decide

theorem form_of_decodeMem {ooo d : BitVec 3} {a : Addr} {i : Instr} (h : decodeMem ooo d a = some i) :
    i.form = Form.ofMem ooo d a := by
  obtain rfl | rfl | rfl | rfl | rfl | rfl | rfl | rfl := bitVec3_cases ooo <;>
    obtain rfl | rfl | rfl | rfl | rfl | rfl | rfl | rfl := bitVec3_cases d <;> cases h <;> rfl

theorem form_of_rowOf {c : Core} {i : Instr} (h : rowOf c = some i) : i.form = ⟨false, false, some c⟩ := by
  cases c with
  | reg ooo g r =>
    have hall := form_of_decodeReg ooo g r
    rw [show decodeReg ooo g r = some i from h] at hall
    exact of_decide_eq_true hall
  | mem ooo d a => exact form_of_decodeMem h

/-- The tables answer the row whose escape part they are given. -/
theorem rowOf_of_form {c : Core} {i : Instr} (h : i.form = ⟨false, false, some c⟩) : rowOf c = some i := by
  cases i <;> cases h <;> rfl

theorem isEscape_escapeByte : ∀ o : BitVec 3, isEscape (escapeByte o) = true := by decide

theorem escapeByte_ooo : ∀ o : BitVec 3, (escapeByte o).extractLsb' 0 3 = o := by decide

theorem escapeByte_of_isEscape : ∀ b : Byte, isEscape b = true → escapeByte (b.extractLsb' 0 3) = b := by decide +kernel

theorem regByte_fields : ∀ g r : BitVec 3, (regByte g r).extractLsb' 6 2 = 0b11#2 ∧
    (regByte g r).extractLsb' 3 3 = g ∧ (regByte g r).extractLsb' 0 3 = r := by decide

theorem regByte_of_fields : ∀ b : Byte, b.extractLsb' 6 2 = 0b11#2 →
    regByte (b.extractLsb' 3 3) (b.extractLsb' 0 3) = b := by decide +kernel

theorem memByte_fields (p : Params) (d : BitVec 3) : (memByte p d).extractLsb' 6 2 ≠ 0b11#2 ∧
    (memByte p d).extractLsb' 3 3 = d := by
  unfold memByte
  generalize p.addr16 = small
  revert d small
  decide

theorem addrLimit_eq (p : Params) : p.addrLimit = 256 ^ p.dispBytes := by
  unfold Params.addrLimit Params.dispBytes; split <;> rfl

theorem addrLimit_le (p : Params) : p.addrLimit ≤ 4294967296 := by
  unfold Params.addrLimit; split <;> omega

/-- A displacement that fits is read back from its bytes. -/
theorem displacement_leBytes {p : Params} {a : Addr} (h : a.toNat < p.addrLimit) :
    BitVec.ofNat 32 (leNat (leBytes p.dispBytes a.toNat)) = a := by
  rw [leNat_leBytes, ← addrLimit_eq, Nat.mod_eq_of_lt h]
  exact BitVec.eq_of_toNat_eq (by simp)

/-- The bytes of a displacement are those of the address they give, which fits. -/
theorem displacement_leNat {p : Params} {bs : List Byte} (h : bs.length = p.dispBytes) :
    (BitVec.ofNat 32 (leNat bs)).toNat < p.addrLimit ∧
      leBytes p.dispBytes (BitVec.ofNat 32 (leNat bs)).toNat = bs := by
  have hlt := leNat_lt bs
  rw [h, ← addrLimit_eq] at hlt
  have hle := addrLimit_le p
  have hval : (BitVec.ofNat 32 (leNat bs)).toNat = leNat bs := by
    rw [BitVec.toNat_ofNat, Nat.mod_eq_of_lt (by omega)]
  rw [hval, ← h]
  exact ⟨hlt, leBytes_leNat bs⟩

/-- Decoding from the escape byte on finds the row of the escape part (rule R135). -/
theorem decodeEscape_bytes {p : Params} {c : Core} (h : Fits p c) (o66 : Bool) (pre : Nat) (rest : List Byte) :
    decodeEscape p o66 pre (escapeByte c.ooo) ((c.bytes p).tail ++ rest) =
      admitRow p o66 (pre + c.length p) (rowOf c) := by
  cases c with
  | reg ooo g r =>
    obtain ⟨h1, h2, h3⟩ := regByte_fields g r
    simp only [Core.bytes, Core.ooo, Core.second, List.tail_cons, List.cons_append, decodeEscape, h1, h2, h3,
      escapeByte_ooo, if_true, Core.length, rowOf]
  | mem ooo d a =>
    obtain ⟨h1, h2⟩ := memByte_fields p d
    have htake : (leBytes p.dispBytes a.toNat ++ rest).take p.dispBytes = leBytes p.dispBytes a.toNat := by
      rw [List.take_append_of_le_length (by simp), List.take_of_length_le (by simp)]
    simp only [Core.bytes, Core.ooo, Core.second, List.tail_cons, List.cons_append, decodeEscape, h1, h2,
      escapeByte_ooo, if_false, if_true, htake, displacement_leBytes (show a.toNat < p.addrLimit from h), Core.length,
      rowOf]
    rw [if_neg (by simp), Nat.add_assoc]

theorem admitRow_ok {p : Params} {o66 : Bool} {n : Nat} {row : Option Instr} {i : Instr} {m : Nat}
    (h : admitRow p o66 n row = .ok (i, m)) :
    m = n ∧ ∃ b, row = some b ∧ b.available p = true ∧ if o66 then b.sizedForm = some i else b = i := by
  unfold admitRow at h
  cases row with
  | none => simp at h
  | some b =>
    dsimp only at h
    split at h
    · simp at h
    · next hav =>
      have hb : b.available p = true := by simpa using hav
      cases o66 with
      | false =>
        simp only [Bool.false_eq_true, if_false, Except.ok.injEq, Prod.mk.injEq] at h
        exact ⟨h.2.symm, b, rfl, hb, by simpa using h.1⟩
      | true =>
        simp only [if_true] at h
        cases hs : b.sizedForm with
        | none => simp [hs] at h
        | some j =>
          simp only [hs, Except.ok.injEq, Prod.mk.injEq] at h
          exact ⟨h.2.symm, b, rfl, hb, by simpa [hs] using h.1⟩

/-- What decoding from the escape byte on answers is a row whose escape part stands at the head of the bytes. -/
theorem decodeEscape_ok {p : Params} {o66 : Bool} {pre : Nat} {b : Byte} {rest : List Byte} {i : Instr} {n : Nat}
    (hb : isEscape b = true) (h : decodeEscape p o66 pre b rest = .ok (i, n)) :
    ∃ c base, rowOf c = some base ∧ Fits p c ∧ base.available p = true ∧ n = pre + c.length p ∧
      (b :: rest).take (c.length p) = c.bytes p ∧ if o66 then base.sizedForm = some i else base = i := by
  have hesc := escapeByte_of_isEscape b hb
  cases rest with
  | nil => simp [decodeEscape] at h
  | cons b1 tail =>
    simp only [decodeEscape] at h
    split at h
    · next hreg =>
      obtain ⟨hn, base, hrow, hav, hi⟩ := admitRow_ok h
      refine ⟨.reg (b.extractLsb' 0 3) (b1.extractLsb' 3 3) (b1.extractLsb' 0 3), base, hrow, trivial, hav, hn, ?_, hi⟩
      simp [Core.length, Core.bytes, Core.ooo, Core.second, hesc, regByte_of_fields b1 hreg]
    · split at h
      · next hmem =>
        split at h
        · simp at h
        · next hlen =>
          obtain ⟨hn, base, hrow, hav, hi⟩ := admitRow_ok h
          obtain ⟨hfit, hbytes⟩ := displacement_leNat (p := p) (bs := tail.take p.dispBytes) (by simp; omega)
          refine ⟨.mem (b.extractLsb' 0 3) (b1.extractLsb' 3 3) _, base, hrow, hfit, hav, by rw [hn, Nat.add_assoc]; rfl, ?_, hi⟩
          simp only [Core.length, Core.bytes, Core.ooo, Core.second, hesc, ← hmem, hbytes]
          rw [show 2 + p.dispBytes = p.dispBytes + 1 + 1 by omega, List.take_succ_cons, List.take_succ_cons]
      · simp at h

/-! ### Instructions without 9BH -/

/-- An instruction without 9BH is the row of its escape part, or that row with the 66H byte (rule R146). -/
theorem plain_or_sized {i : Instr} (h : i.form.wait = false) :
    ∃ c base, base.form = ⟨false, false, some c⟩ ∧
      ((base = i ∧ i.form.o66 = false) ∨ base.sizedForm = some i) := by
  cases i <;> first
    | exact ⟨_, _, rfl, .inl ⟨rfl, rfl⟩⟩
    | exact Bool.noConfusion h
    | exact ⟨_, .fldenv _, rfl, .inr rfl⟩
    | exact ⟨_, .fnstenv _, rfl, .inr rfl⟩
    | exact ⟨_, .frstor _, rfl, .inr rfl⟩
    | exact ⟨_, .fnsave _, rfl, .inr rfl⟩

/-- What the 66H byte changes in an instruction: its first byte, its length and its least generation, the 387. -/
theorem sizedForm_spec {base i : Instr} {c : Core} (h : base.sizedForm = some i)
    (hf : base.form = ⟨false, false, some c⟩) :
    i.form = ⟨false, true, some c⟩ ∧ i.minGen = .g387 ∧ base.minGen.rank ≤ Gen.g387.rank ∧ i.isWaitForm = false := by
  cases base <;> cases h <;> cases hf <;> exact ⟨rfl, rfl, Nat.zero_le _, rfl⟩

theorem addressFits_of_form {p : Params} {i : Instr} {w o : Bool} {c : Core} (h : i.form = ⟨w, o, some c⟩) :
    i.addressFits p = true ↔ Fits p c := by
  unfold Instr.addressFits Instr.operand
  rw [h]
  cases c <;> simp [Fits]

theorem encode_plain {p : Params} {i : Instr} {c : Core} (h : i.form = ⟨false, false, some c⟩) :
    encode p i = c.bytes p ∧ i.length p = c.length p := by
  simp [encode, Instr.length, h]

theorem encode_sized {p : Params} {i : Instr} {c : Core} (h : i.form = ⟨false, true, some c⟩) :
    encode p i = 0x66#8 :: c.bytes p ∧ i.length p = 1 + c.length p := by
  simp [encode, Instr.length, h]

theorem bytes_cons (p : Params) (c : Core) : c.bytes p = escapeByte c.ooo :: (c.bytes p).tail := rfl

theorem decodeNoWait_escape {p : Params} {b : Byte} {rest : List Byte} (h : isEscape b = true) :
    decodeNoWait p (b :: rest) = decodeEscape p false 0 b rest := by
  simp [decodeNoWait, h]

/-- Decoding undoes encoding for the instructions without 9BH. -/
theorem decodeNoWait_encode {p : Params} {i : Instr} (hw : i.form.wait = false) (hav : i.available p = true)
    (hfit : i.addressFits p = true) (rest : List Byte) :
    decodeNoWait p (encode p i ++ rest) = .ok (i, i.length p) := by
  obtain ⟨c, base, hform, ⟨rfl, -⟩ | hsized⟩ := plain_or_sized hw
  · obtain ⟨henc, hlen⟩ := encode_plain (p := p) hform
    rw [henc, hlen, bytes_cons, List.cons_append, decodeNoWait_escape (isEscape_escapeByte _),
      decodeEscape_bytes ((addressFits_of_form hform).1 hfit), rowOf_of_form hform]
    simp [admitRow, hav]
  · obtain ⟨hform', hgen, hbase, -⟩ := sizedForm_spec hsized hform
    obtain ⟨henc, hlen⟩ := encode_sized (p := p) hform'
    have hrank : Gen.g387.rank ≤ p.gen.rank := by simpa [Instr.available, hgen] using hav
    have hav' : base.available p = true := decide_eq_true (hbase.trans hrank)
    rw [henc, hlen, bytes_cons, List.cons_append]
    simp only [decodeNoWait, show isEscape 0x66#8 = false from by decide, Bool.false_eq_true, if_false, if_true,
      List.cons_append, isEscape_escapeByte]
    rw [if_neg (by omega), decodeEscape_bytes ((addressFits_of_form hform').1 hfit), rowOf_of_form hform]
    simp [admitRow, hav', hsized]

/-- What decoding without 9BH answers is an instruction of the run, and its bytes stand at the head. -/
theorem decodeNoWait_ok {p : Params} {bs : List Byte} {i : Instr} {n : Nat} (h : decodeNoWait p bs = .ok (i, n)) :
    i.available p = true ∧ i.addressFits p = true ∧ i.isWaitForm = false ∧ n = i.length p ∧ bs.take n = encode p i := by
  cases bs with
  | nil => simp [decodeNoWait] at h
  | cons b rest =>
    by_cases hesc : isEscape b = true
    · rw [decodeNoWait_escape hesc] at h
      obtain ⟨c, base, hrow, hfit, hav, hn, htake, hi⟩ := decodeEscape_ok hesc h
      obtain rfl : base = i := by simpa using hi
      have hform := form_of_rowOf hrow
      obtain ⟨henc, hlen⟩ := encode_plain (p := p) hform
      refine ⟨hav, (addressFits_of_form hform).2 hfit, by simp [Instr.isWaitForm, hform], by omega, ?_⟩
      rw [henc, ← htake, hn, Nat.zero_add]
    · by_cases h66 : b = 0x66#8
      · subst h66
        simp only [decodeNoWait, show isEscape 0x66#8 = false from by decide, Bool.false_eq_true, if_false, if_true] at h
        split at h
        · simp at h
        · next hrank =>
          cases rest with
          | nil => simp at h
          | cons b0 tail =>
            dsimp only at h
            split at h
            · next hesc0 =>
              obtain ⟨c, base, hrow, hfit, -, hn, htake, hi⟩ := decodeEscape_ok hesc0 h
              obtain ⟨hform, hgen, -, hnw⟩ := sizedForm_spec (show base.sizedForm = some i by simpa using hi)
                (form_of_rowOf hrow)
              obtain ⟨henc, hlen⟩ := encode_sized (p := p) hform
              refine ⟨?_, (addressFits_of_form hform).2 hfit, hnw, by omega, ?_⟩
              · simpa [Instr.available, hgen] using hrank
              · rw [henc, ← htake, hn, Nat.add_comm 1, List.take_succ_cons]
            · split at h <;> simp at h
      · simp only [decodeNoWait, hesc, h66, if_false, Bool.false_eq_true] at h
        split at h <;> exact absurd h (by simp)

/-! ### Wait forms -/

/-- A wait form is 9BH before its no-wait form (rule R145). -/
theorem waitForm_spec {i w : Instr} (h : i.waitForm = some w) (p : Params) :
    i.form.wait = false ∧ encode p w = 0x9B#8 :: encode p i ∧ w.length p = i.length p + 1 ∧
      w.available p = i.available p ∧ w.addressFits p = i.addressFits p := by
  obtain ⟨hw, hform, henc⟩ : i.form.wait = false ∧ w.form = i.form.waiting ∧ encode p w = 0x9B#8 :: encode p i := by
    cases i <;> cases h <;> exact ⟨rfl, rfl, rfl⟩
  refine ⟨hw, henc, ?_, ?_, ?_⟩
  · simp only [Instr.length, hform, Form.waiting, hw, Bool.false_eq_true, if_true, if_false]
    omega
  · cases i <;> cases h <;> rfl
  · cases i <;> cases h <;> rfl

/-- An instruction without 9BH does not begin with 9BH. -/
theorem decode_encode_plain {p : Params} {i : Instr} (h : i.form.wait = false) (rest : List Byte) :
    decode p (encode p i ++ rest) = decodeNoWait p (encode p i ++ rest) := by
  have hne : ∀ o : BitVec 3, escapeByte o ≠ 0x9B#8 := by decide
  obtain ⟨c, base, hform, ⟨rfl, -⟩ | hsized⟩ := plain_or_sized h
  · rw [(encode_plain hform).1, bytes_cons, List.cons_append]
    simp [decode, hne]
  · rw [(encode_sized (sizedForm_spec hsized hform).1).1]
    simp [decode]

theorem fwait_or_wait_or_plain (i : Instr) : i = .fwait ∨ i.isWaitForm = true ∨ i.form.wait = false := by
  cases i <;> first | exact .inr (.inr rfl) | exact .inl rfl | exact .inr (.inl rfl)

/-- Settles O1: 9BH alone is FWAIT, a wait form is 9BH before the encoding of its no-wait form, and the others are
escape parts, with 66H before them or not (`decodeNoWait_encode`). -/
theorem decodeOfEncode : Obligations.DecodeOfEncode := by
  unfold Obligations.DecodeOfEncode
  intro p i rest hwf hfwait
  simp only [Instr.wellFormed, Bool.and_eq_true, Bool.or_eq_true] at hwf
  obtain ⟨⟨hav, hfit⟩, hfused⟩ := hwf
  obtain rfl | hwait | hplain := fwait_or_wait_or_plain i
  · show decode p (0x9B#8 :: rest) = _
    cases hf : p.fusedWait with
    | false => exact decode_fwait hf rest
    | true =>
      rw [hfwait rfl hf]
      simp [decode, hf, decodeWaitForm, decodeNoWait]
      rfl
  · obtain ⟨n, hn⟩ := exists_of_isWaitForm hwait
    obtain ⟨hnw, henc, hlen, hav', hfit'⟩ := waitForm_spec hn p
    have hf : p.fusedWait = true := by simpa [hwait] using hfused
    rw [henc, List.cons_append, hlen]
    simp [decode, hf, decodeWaitForm, decodeNoWait_encode hnw (hav' ▸ hav) (hfit' ▸ hfit), hn]
  · rw [decode_encode_plain hplain]
    exact decodeNoWait_encode hplain hav hfit rest

/-- Settles O2: by the branches of `decode`, FWAIT alone, a wait form, or an instruction without 9BH
(`decodeNoWait_ok`). -/
theorem encodeOfDecode : Obligations.EncodeOfDecode := by
  unfold Obligations.EncodeOfDecode
  intro p bs i n h
  have hfwait : Instr.fwait.wellFormed p = true ∧ 1 = Instr.fwait.length p ∧ encode p .fwait = [0x9B#8] := by
    refine ⟨?_, rfl, rfl⟩
    simp [Instr.wellFormed, Instr.available, Instr.addressFits, Instr.operand, Instr.isWaitForm, Instr.form,
      Instr.minGen, Gen.rank]
  cases bs with
  | nil => simp [decode] at h
  | cons b rest =>
    by_cases hb : b = 0x9B#8
    · subst hb
      cases hf : p.fusedWait with
      | false =>
        obtain ⟨rfl, rfl⟩ : Instr.fwait = i ∧ 1 = n := by simpa [decode, hf] using h
        exact ⟨hfwait.1, hfwait.2.1, hfwait.2.2 ▸ rfl⟩
      | true =>
        simp only [decode, hf, if_true, Except.ok.injEq, decodeWaitForm] at h
        cases hd : decodeNoWait p rest with
        | error e =>
          obtain ⟨rfl, rfl⟩ : Instr.fwait = i ∧ 1 = n := by simpa [hd] using h
          exact ⟨hfwait.1, hfwait.2.1, hfwait.2.2 ▸ rfl⟩
        | ok r =>
          obtain ⟨m, k⟩ := r
          cases hm : m.waitForm with
          | none =>
            obtain ⟨rfl, rfl⟩ : Instr.fwait = i ∧ 1 = n := by simpa [hd, hm] using h
            exact ⟨hfwait.1, hfwait.2.1, hfwait.2.2 ▸ rfl⟩
          | some w =>
            obtain ⟨rfl, rfl⟩ : w = i ∧ k + 1 = n := by simpa [hd, hm] using h
            obtain ⟨hav, hfit, -, hk, htake⟩ := decodeNoWait_ok hd
            obtain ⟨-, henc, hlen, hav', hfit'⟩ := waitForm_spec hm p
            refine ⟨?_, by omega, by rw [List.take_succ_cons, htake, henc]⟩
            simp [Instr.wellFormed, hav, hfit, hav', hfit', hf]
    · obtain ⟨hav, hfit, hw, hn, htake⟩ := decodeNoWait_ok (show decodeNoWait p (b :: rest) = .ok (i, n) by
        simpa [decode, hb] using h)
      exact ⟨by simp [Instr.wellFormed, hav, hfit, hw], hn, htake⟩

/-- Settles O3: each word is evaluated. -/
theorem decodeSpecWords : Obligations.DecodeSpecWords := by
  unfold Obligations.DecodeSpecWords
  exact ⟨rfl, rfl, rfl, rfl, rfl, rfl, rfl⟩

end Sys2Proof.Laws.Coding
end

section
/-! The frame of every instruction that is no control instruction: its rule keeps the relation `Calc` with the TOP moves,
the registers and the flags of its lists, whatever shape the rule has. -/

namespace Sys2Proof.Laws.Frame

open Sys2Proof.Machine Sys2Proof.Laws.Shapes

/-! ### The relation for the shapes -/

/-- The relation holds between a state and the state the rule leaves there, stores to memory apart. -/
def Holds (R : State → State → Prop) : Shape → Prop
  | .compute f => ∀ s, R s (f s)
  | .load f => ∀ bs s, R s (f bs s)
  | .store f => ∀ s, R s (f s).1

theorem Holds.mono {R Q : State → State → Prop} (h : ∀ s t, R s t → Q s t) {sh : Shape} (hs : Holds R sh) :
    Holds Q sh := by
  cases sh with
  | compute f => exact fun s => h _ _ (hs s)
  | load f => exact fun bs s => h _ _ (hs bs s)
  | store f => exact fun s => h _ _ (hs s)

theorem holds_withSource {R : State → State → Prop} {k : SourceKind} {f : Source → State → State}
    (h : ∀ src s, R s (f src s)) : Holds R (withSource k f) := by
  cases k with
  | reg j => exact fun s => h _ s
  | zero => exact fun s => h _ s
  | real f => exact fun bs s => h _ s
  | int w => exact fun bs s => h _ s

/-- What the rule answers, by its shape: the relation, and where it stores, the bytes it stores. -/
theorem ruleOf_cases {R : State → State → Prop} {i : Instr} (h : Holds R (shapeOf i)) {s t : State}
    (ht : ruleOf i s = .ok t) :
    R s t ∨ ∃ u bs, R s u ∧ t = u.store (addressOf i) bs ∧
      hasBytes s.cfg (addressOf i).toNat (widthOf s.cfg i) = true ∧ ∃ f, shapeOf i = .store f ∧ (f s).2 = some bs := by
  unfold ruleOf at ht
  cases hs : shapeOf i with
  | compute f =>
    rw [hs] at h ht
    exact .inl ((Except.ok.inj ht) ▸ h s)
  | load f =>
    rw [hs] at h ht
    obtain ⟨-, rfl⟩ := loading_cases ht
    exact .inl (h _ s)
  | store f =>
    rw [hs] at h ht
    obtain ⟨-, rfl⟩ | ⟨bs, hbs, hb, rfl⟩ := storing_cases ht
    · exact .inl (h s)
    · exact .inr ⟨_, bs, h s, rfl, hb, f, rfl, hbs⟩

/-! ### Basic arithmetic and comparison, by their rows -/

theorem shapeOf_arith {i : Instr} {row : ArithRow} (h : arithRow i = some row) :
    shapeOf i = withSource row.source fun src s => (s.arith row.op row.dest src row.pop).openC023 := by
  cases i <;> cases h <;> rfl

theorem shapeOf_compare {i : Instr} {row : CompareRow} (h : compareRow i = some row) :
    shapeOf i =
      withSource row.source fun src s => s.compare src row.quiet (CompareRow.target row) row.pops := by
  cases i <;> cases h <;> rfl

/-- The lists of an arithmetic instruction, from its row. -/
theorem arithRow_lists {i : Instr} {row : ArithRow} (h : arithRow i = some row) :
    0#3 ∈ topMoves i ∧ (row.pop = true → 1#3 ∈ topMoves i) ∧ row.dest ∈ touched i ∧
      (row.pop = true → 0#3 ∈ touched i) ∧ (∀ f, f ≠ .ze → f ∈ mayRaise i) ∧
      (row.op = .div ∨ row.op = .divr → .ze ∈ mayRaise i) := by
  have hall : ∀ f, f ≠ Flag.ze → f ∈ [Flag.ie, .de, .oe, .ue, .pe, .sf] := by
    intro f; cases f <;> simp
  have hall' : ∀ f, f ≠ Flag.ze → f ∈ [Flag.ie, .de, .ze, .oe, .ue, .pe, .sf] := by
    intro f; cases f <;> simp
  cases i <;> cases h <;> first
    | exact ⟨by simp [topMoves], by simp [topMoves], by simp [touched], by simp [touched], hall, by simp⟩
    | exact ⟨by simp [topMoves], by simp [topMoves], by simp [touched], by simp [touched], hall', by simp [mayRaise]⟩

/-- The lists of a compare instruction, from its row. -/
theorem compareRow_lists {i : Instr} {row : CompareRow} (h : compareRow i = some row) :
    row.pops ≤ 2 ∧ 0#3 ∈ topMoves i ∧ BitVec.ofNat 3 row.pops ∈ topMoves i ∧ (1 ≤ row.pops → 0#3 ∈ touched i) ∧
      (2 ≤ row.pops → 1#3 ∈ touched i) ∧ mayRaise i = [.ie, .de, .sf] := by
  cases i <;> cases h <;>
    exact ⟨by simp, by simp [topMoves], by simp [topMoves], by simp [touched], by simp [touched], rfl⟩

theorem holds_arith {i : Instr} {row : ArithRow} (h : arithRow i = some row) :
    Holds (Calc (topMoves i) (touched i) (mayRaise i)) (shapeOf i) := by
  obtain ⟨h0, h1, hd, hp, hf, hz⟩ := arithRow_lists h
  rw [shapeOf_arith h]
  exact holds_withSource fun src s =>
    (calc_arith h0 h1 hd hp (hf _ nofun) (hf _ nofun) (hf _ nofun) hz (hf _ nofun) (hf _ nofun)
      (hf _ nofun) s).thenFlags (calc_openC023 _)

theorem holds_compare {i : Instr} {row : CompareRow} (h : compareRow i = some row) :
    Holds (CalcHost (topMoves i) (touched i) (mayRaise i)) (shapeOf i) := by
  obtain ⟨hn, h0, hD, hK0, hK1, hf⟩ := compareRow_lists h
  rw [shapeOf_compare h, hf]
  exact holds_withSource fun src s => calcHost_compare hn h0 hD hK0 hK1 (by simp) (by simp) (by simp) s

/-! ### Every family -/

theorem openC023_after {D K : List (BitVec 3)} {F : List Flag} {s t : State} (h : Calc D K F s t) :
    Calc D K F s t.openC023 := h.thenFlags (calc_openC023 _)

theorem openC03_after {D K : List (BitVec 3)} {F : List Flag} {s t : State} (h : Calc D K F s t) :
    Calc D K F s t.openC03 := h.thenFlags (calc_openC03 _)

theorem exists_arithRow {i : Instr} (h : familyOf i = .arith) : ∃ row, arithRow i = some row := by
  cases i <;> first | exact ⟨_, rfl⟩ | exact nomatch h

/-- The rule of each instruction that is neither a control nor a compare instruction keeps its frame. -/
theorem holds_calc {i : Instr} (h : familyOf i ≠ .control) (hc : familyOf i ≠ .compare) :
    Holds (Calc (topMoves i) (touched i) (mayRaise i)) (shapeOf i) := by
  by_cases ha : familyOf i = .arith
  · obtain ⟨row, hr⟩ := exists_arithRow ha
    exact holds_arith hr
  cases i <;> first
    | exact absurd rfl h
    | exact absurd rfl hc
    | exact absurd rfl ha
    | skip
  -- transcendental instructions
  case f2xm1 =>
    exact fun s => openC023_after (calc_f2xm1 (by decide) (by decide) (by decide) (by decide) (by decide) (by decide) s)
  case fcos =>
    exact fun s => openC03_after (calc_trig (by decide) (by decide) (by decide) (by decide) (by decide)
      (calc_raiseInvalid (by decide) (by decide) fun t => calc_setSt (by decide) _ t)
      (fun t => calc_setSt (by decide) _ t) (fun x rc => by have := transCos_exp x rc; omega)
      (fun x rc e => by have := transCos_exp x rc; omega) s)
  case fsin =>
    exact fun s => openC03_after (calc_trig (by decide) (by decide) (by decide) (by decide) (by decide)
      (calc_trigInvalid (by decide) (by decide) fun t => calc_setSt (by decide) _ t)
      (Calc.refl (by decide) _ _) (fun x rc => by have := transSin_exp x rc; omega) (fun _ _ _ => by decide) s)
  case fptan =>
    exact fun s => openC03_after (calc_trigPair (by decide) (by decide) (by decide) (by decide) (by decide) (by decide)
      (by decide) (by decide) (by decide)
      (fun x t => calc_tangent (by decide) (by decide) (by decide) (by decide) (by decide) x t) s)
  case fsincos =>
    exact fun s => openC03_after (calc_trigPair (by decide) (by decide) (by decide) (by decide) (by decide) (by decide)
      (by decide) (by decide) (by decide)
      (fun x t => calc_sineCosine (by decide) (by decide) (by decide) (by decide) (by decide) x t) s)
  case fpatan =>
    exact fun s => openC023_after (calc_pairFront (by decide) (by decide) (by decide) (by decide) (by decide)
      (by decide) (fun y x t => calc_arctan (by decide) (by decide) (by decide) (by decide) (by decide) (by decide)
        (by decide) y x t) s)
  case fyl2x =>
    exact fun s => openC023_after (calc_pairFront (by decide) (by decide) (by decide) (by decide) (by decide)
      (by decide) (fun y x t => calc_yl2x (by decide) (by decide) (by decide) (by decide) (by decide) (by decide)
        (by decide) (by decide) (by decide) (by decide) y x t) s)
  case fyl2xp1 =>
    exact fun s => openC023_after (calc_pairFront (by decide) (by decide) (by decide) (by decide) (by decide)
      (by decide) (fun y x t => calc_yl2xp1 (by decide) (by decide) (by decide) (by decide) (by decide) (by decide)
        (by decide) (by decide) (by decide) (by decide) y x t) s)
  -- other arithmetic
  case fabs | fchs => exact fun s => openC023_after (calc_onSign (by decide) (by decide) (by decide) _ s)
  case fprem | fprem1 =>
    exact fun s => calc_prem _ (by decide) (by decide) (by decide) (by decide) (by decide) s
  case frndint =>
    exact fun s => openC023_after (calc_unary (by decide) (by decide) (by decide) (by decide) s
      fun t _ _ _ => calc_roundInt (by decide) (by decide) _ t)
  case fsqrt =>
    exact fun s => openC023_after (calc_unary (by decide) (by decide) (by decide) (by decide) s
      fun t h1 h2 _ => calc_squareRoot (by decide) (by decide) h1 h2 t)
  case fscale =>
    exact fun s => openC023_after (calc_scale (by decide) (by decide) (by decide) (by decide) (by decide) (by decide)
      (by decide) s)
  case fxtract =>
    exact fun s => openC023_after (calc_xtract (by decide) (by decide) (by decide) (by decide) (by decide) (by decide)
      (by decide) (by decide) s)
  -- loads
  case fbld => exact fun bs s => openC023_after (calc_loadBcd (by simp [touched]) (by simp [topMoves])
      (by simp [topMoves]) (by simp [mayRaise]) (by simp [mayRaise]) bs s)
  case fildM16 | fildM32 | fildM64 | fldM80 =>
    exact fun bs s => openC023_after (calc_load (by simp [touched]) (by simp [topMoves]) (by simp [topMoves])
      (by simp [mayRaise]) (by simp [mayRaise]) _ s)
  case fldM32 | fldM64 =>
    exact fun bs s => openC023_after (calc_loadReal (by simp [touched]) (by simp [topMoves]) (by simp [topMoves])
      (by simp [mayRaise]) (by simp [mayRaise]) (by simp [mayRaise]) _ s)
  case fldSt =>
    exact fun s => openC023_after (calc_loadSt (by simp [touched]) (by simp [topMoves]) (by simp [topMoves])
      (by simp [mayRaise]) (by simp [mayRaise]) _ s)
  case fld1 | fldl2t | fldl2e | fldpi | fldlg2 | fldln2 | fldz =>
    exact fun s => openC023_after (calc_load (by decide) (by decide) (by decide) (by decide) (by decide) _ s)
  -- stores
  case fbstp =>
    exact fun s => calc_openAfter (calc_storeBcd (by simp [topMoves]) (by simp [topMoves]) (by simp [touched])
      (by simp [mayRaise]) (by simp [mayRaise]) (by simp [mayRaise]) s)
  case fistM16 | fistM32 | fistpM16 | fistpM32 | fistpM64 =>
    exact fun s => calc_openAfter (calc_storeInt (by simp [topMoves]) (by simp [topMoves]) (by simp [touched])
      (by simp [mayRaise]) (by simp [mayRaise]) (by simp [mayRaise]) s)
  case fstM32 | fstM64 | fstpM32 | fstpM64 =>
    exact fun s => calc_openAfter (calc_storeReal (by simp [topMoves]) (by simp [topMoves]) (by simp [touched])
      (by simp [mayRaise]) (by simp [mayRaise]) (by simp [mayRaise]) (by simp [mayRaise]) (by simp [mayRaise]) s)
  case fstpM80 =>
    exact fun s => calc_openAfter (calc_storeExt (by simp [topMoves]) (by simp [topMoves]) (by simp [touched])
      (by simp [mayRaise]) (by simp [mayRaise]) s)
  -- moves
  case fcmovb | fcmove | fcmovbe | fcmovu | fcmovnb | fcmovne | fcmovnbe | fcmovnu =>
    exact fun s => openC023_after (calc_moveIf (by simp [touched]) (by simp [mayRaise]) (by simp [mayRaise]) _ _ s)
  case fstSt | fstpSt =>
    exact fun s => openC023_after (calc_copyTo (by simp [touched]) (by simp [topMoves]) (by simp [topMoves])
      (by simp [touched]) (by simp [mayRaise]) (by simp [mayRaise]) s)
  case fxch =>
    exact fun s => openC023_after (calc_swap (by simp [touched]) (by simp [touched]) (by simp [mayRaise])
      (by simp [mayRaise]) s)

theorem exists_compareRow {i : Instr} (h : familyOf i = .compare) : i = .fxam ∨ ∃ row, compareRow i = some row := by
  cases i <;> first | exact .inr ⟨_, rfl⟩ | exact .inl rfl | exact nomatch h

/-- The same with the compare instructions, some of which write the host flags. -/
theorem holds_calcHost {i : Instr} (h : familyOf i ≠ .control) :
    Holds (CalcHost (topMoves i) (touched i) (mayRaise i)) (shapeOf i) := by
  by_cases hc : familyOf i = .compare
  · obtain rfl | ⟨row, hr⟩ := exists_compareRow hc
    · exact fun s => (calc_examine s).host
    · exact holds_compare hr
  · exact (holds_calc h hc).mono fun _ _ => Calc.host

/-- Only the instructions of one family of these store. -/
theorem shape_of_family {i : Instr} (h : familyOf i ≠ .control) (hs : familyOf i ≠ .store) (f) :
    shapeOf i ≠ .store f := by
  cases i <;> first | exact absurd rfl h | exact absurd rfl hs | exact nofun

theorem afterOf_calc {R : State → State → Prop} {i : Instr} (h : Holds R (shapeOf i))
    (hs : ∀ f, shapeOf i ≠ .store f) (s : State) : R s (afterOf i s) := by
  unfold afterOf
  cases hi : shapeOf i with
  | compute f => exact (hi ▸ h) s
  | load f => exact (hi ▸ h) _ s
  | store f => exact absurd hi (hs f)

/-- Settles O14, from the frame of the rules (`holds_calc`). -/
theorem computationsComplete : Obligations.ComputationsComplete := by
  unfold Obligations.ComputationsComplete
  intro i s hf hready hthere
  have hctl : familyOf i ≠ .control := by rintro e; simp [e] at hf
  have hcmp : familyOf i ≠ .compare := by rintro e; simp [e] at hf
  have hsto : familyOf i ≠ .store := by rintro e; simp [e] at hf
  have hcalc := afterOf_calc (holds_calc hctl hcmp) (shape_of_family hctl hsto) s
  exact ⟨_, exec_computes hctl hready hthere, computes_of_calc hcalc, hostKept_of_calc hcalc _ _,
    memoryKept_of_calc hcalc _ _⟩

/-! ### Stores -/

/-- What a store keeps of the host, and which bytes it changes. -/
theorem store_frame {i : Instr} {D K : List (BitVec 3)} {F : List Flag} {s t : State} (h : Calc D K F s t)
    (hm : Memory.wf s.mem) (a : Addr) (bs : List Byte) :
    HostKept s ((t.store a bs).retire .record i) ∧ MemoryKeptOutside a bs.length s ((t.store a bs).retire .record i) := by
  refine ⟨⟨?_, ?_, ?_, ?_⟩, fun b hb => ?_⟩
  · simpa [State.store] using h.ax
  · simpa [State.store] using h.zf
  · simpa [State.store] using h.pf
  · simpa [State.store] using h.cf
  · rw [retire_byteAt, byteAt_store (by rw [h.mem]; exact hm), if_neg (by omega), State.byteAt, State.byteAt, h.mem]

@[simp] theorem openAfter_snd (x : State × Option (List Byte)) : (openAfter x).2 = x.2 := rfl

theorem length_bcdDigits (k n : Nat) : (bcdDigits k n).length = k := by
  induction k generalizing n with
  | zero => rfl
  | succ k ih => simp [bcdDigits, ih]

/-- A store whose masked and unmasked responses and whose result all have `n` bytes stores `n` bytes or none. -/
theorem storeRounded_length {fits : Nat → Bool} {image : Nat → List Byte} {bad bs : List Byte} {pop : Bool} {n : Nat}
    {s : State} (hi : ∀ k, (image k).length = n) (hb : bad.length = n)
    (h : (s.storeRounded fits image bad pop).2 = some bs) : bs.length = n := by
  unfold State.storeRounded State.storeStack State.storeInvalid at h
  dsimp only at h
  split_ifs at h <;> cases h <;> first | exact hb | exact hi _

theorem storeReal_length {f : RealFmt} {pop : Bool} {bs : List Byte} {s : State}
    (h : (s.storeReal f pop).2 = some bs) : bs.length = f.bytes := by
  unfold State.storeReal State.storeStack State.storeInvalid State.storeFinite at h
  dsimp only at h
  split_ifs at h <;> cases h <;> exact length_leBytes _ _

theorem storeExt_length {bs : List Byte} {s : State} (h : s.storeExt.2 = some bs) : bs.length = 10 := by
  unfold State.storeExt State.storeStack at h
  split_ifs at h <;> cases h <;> exact length_leBytes _ _

theorem storeInt_length {w : Nat} {pop : Bool} {bs : List Byte} {s : State} (h : (s.storeInt w pop).2 = some bs) :
    bs.length = w / 8 := by
  unfold State.storeInt at h
  exact storeRounded_length (fun k => length_leBytes _ _) (length_leBytes _ _) h

theorem storeBcd_length {bs : List Byte} {s : State} (h : s.storeBcd.2 = some bs) : bs.length = 10 := by
  unfold State.storeBcd at h
  exact storeRounded_length (fun k => by simp [bcdBytes, length_bcdDigits]) rfl h

/-- An arithmetic store writes as many bytes as its operand has. -/
theorem store_length {i : Instr} (h : familyOf i = .store) {f} (hf : shapeOf i = .store f) {s : State} {bs : List Byte}
    (hb : (f s).2 = some bs) : bs.length = widthOf s.cfg i := by
  cases i <;> cases h
  case fbstp =>
    cases hf
    rw [openAfter_snd] at hb
    exact storeBcd_length hb
  case fistM16 | fistM32 | fistpM16 | fistpM32 | fistpM64 =>
    cases hf
    rw [openAfter_snd] at hb
    exact storeInt_length hb
  case fstM32 | fstM64 | fstpM32 | fstpM64 =>
    cases hf
    rw [openAfter_snd] at hb
    exact storeReal_length hb
  case fstpM80 =>
    cases hf
    rw [openAfter_snd] at hb
    exact storeExt_length hb

/-- Settles O40: the frame of the rules (`holds_calc`), whether a value is stored or suppressed. -/
theorem storeCompletes : Obligations.StoreCompletes := by
  unfold Obligations.StoreCompletes
  intro i s hf hready hthere hmem
  have hctl : familyOf i ≠ .control := by rw [hf]; nofun
  have hcmp : familyOf i ≠ .compare := by rw [hf]; nofun
  refine ⟨_, exec_computes hctl hready hthere, ?_⟩
  have hcalc := holds_calc hctl hcmp
  have hkept : ∀ {t}, Calc (topMoves i) (touched i) (mayRaise i) s t →
      Computes i s (t.retire .record i) ∧ HostKept s (t.retire .record i) ∧
        MemoryKeptOutside (addressOf i) (widthOf s.cfg i) s (t.retire .record i) := fun h =>
    ⟨computes_of_calc h, hostKept_of_calc h _ _, fun b _ => memoryKept_of_calc h _ _ b⟩
  unfold afterOf
  cases hs : shapeOf i with
  | compute f => exact hkept ((hs ▸ hcalc) s)
  | load f => exact hkept ((hs ▸ hcalc) _ s)
  | store f =>
    have hfs : Calc (topMoves i) (touched i) (mayRaise i) s (f s).1 := (hs ▸ hcalc) s
    dsimp only
    cases hb : (f s).2 with
    | none => exact hkept hfs
    | some bs =>
      have hframe := store_frame (i := i) hfs hmem (addressOf i) bs
      rw [store_length hf hs hb] at hframe
      exact ⟨computes_store hfs _ _, hframe⟩

/-! ### Comparison -/

theorem calcHost_ax {D K : List (BitVec 3)} {F : List Flag} {s t : State} (h : CalcHost D K F s t) : t.ax = s.ax :=
  Calc.ax (s := withHost t.zf t.pf t.cf s) h

theorem setResult_regs (dst : ResultTo) (rel : Relation) (s : State) : (s.setResult dst rel).regs = s.regs := by
  cases dst <;> simp [State.setResult]

theorem pops_regs (n : Nat) (s : State) : (State.pops n s).regs = s.regs := by
  induction n generalizing s with
  | zero => rfl
  | succ n ih => exact (ih s.pop).trans (pop_regs s)

theorem pops_codes (n : Nat) (s : State) : (State.pops n s).sw.c0 = s.sw.c0 ∧ (State.pops n s).sw.c2 = s.sw.c2 ∧
    (State.pops n s).sw.c3 = s.sw.c3 := by
  induction n generalizing s with
  | zero => exact ⟨rfl, rfl, rfl⟩
  | succ n ih => exact ih s.pop

/-- A compare writes no register (rule R470). -/
theorem compare_regs (src : Source) (q : Bool) (dst : ResultTo) (n : Nat) (s : State) :
    (s.compare src q dst n).regs = s.regs := by
  have answer : ∀ rel t, (State.pops n (State.setResult dst rel t)).regs = t.regs := fun rel t => by
    rw [pops_regs, setResult_regs]
  unfold State.compare State.raiseStack State.raiseInvalid State.raiseDenormal
  dsimp only
  split_ifs <;> first | exact answer _ _ | rfl | (cases dst <;> rfl)

/-- A compare with its result in the host flags leaves C0, C2 and C3 (rule R470). -/
theorem compare_codes (src : Source) (q : Bool) (n : Nat) (s : State) :
    (s.compare src q .eflags n).sw.c0 = s.sw.c0 ∧ (s.compare src q .eflags n).sw.c2 = s.sw.c2 ∧
      (s.compare src q .eflags n).sw.c3 = s.sw.c3 := by
  have answer : ∀ rel t, (State.pops n (State.setResult .eflags rel t)).sw.c0 = t.sw.c0 ∧
      (State.pops n (State.setResult .eflags rel t)).sw.c2 = t.sw.c2 ∧
      (State.pops n (State.setResult .eflags rel t)).sw.c3 = t.sw.c3 := fun rel t => pops_codes n _
  unfold State.compare State.raiseStack State.raiseInvalid State.raiseDenormal
  dsimp only
  split_ifs <;> first | exact answer _ _ | exact ⟨rfl, rfl, rfl⟩

/-- The instructions whose compare goes to the host flags. -/
theorem compareRow_host {i : Instr} {row : CompareRow} (h : compareRow i = some row) :
    if row.host then ∃ k, i ∈ [Instr.fcomi k, .fcomip k, .fucomi k, .fucomip k]
    else ∀ k, i ∉ [Instr.fcomi k, .fcomip k, .fucomi k, .fucomip k] := by
  cases i <;> cases h <;> simp

/-- The frame of a compare with its result in the condition codes, the host flags included. -/
theorem compare_hostKept {i : Instr} {row : CompareRow} (h : compareRow i = some row) (hh : row.host = false)
    (s : State) : HostKept s ((afterOf i s).retire .record i) := by
  obtain ⟨hn, h0, hD, hK0, hK1, -⟩ := compareRow_lists h
  rw [afterOf_compare h, show CompareRow.target row = .codes by simp [CompareRow.target, hh]]
  exact hostKept_of_calc (calc_compareCodes (F := [.ie, .de, .sf]) hn h0 hD hK0 hK1 (by simp) (by simp) (by simp) s) _ _

/-- Settles O46: the frame of the rules (`holds_calcHost`), and by the row whether the host flags or the condition codes
take the result. -/
theorem compareCompletes : Obligations.CompareCompletes := by
  unfold Obligations.CompareCompletes
  intro i s hf hready hthere
  have hctl : familyOf i ≠ .control := by rw [hf]; nofun
  have hsto : familyOf i ≠ .store := by rw [hf]; nofun
  have hcalc := afterOf_calc (holds_calcHost hctl) (shape_of_family hctl hsto) s
  have hax : (afterOf i s).ax = s.ax := calcHost_ax hcalc
  refine ⟨_, exec_computes hctl hready hthere, computes_of_host hcalc, memoryKept_of_host hcalc _ _, ?_⟩
  obtain rfl | ⟨row, hr⟩ := exists_compareRow hf
  · have hex := calc_examine (K := []) (F := []) s
    refine ⟨(retire_regs _ _ _).trans (Examine.examine_regs s), by simpa using hax, fun _ => hostKept_of_calc hex _ _,
      fun k hk => by simp at hk⟩
  · have hhost := compareRow_host hr
    rw [retire_regs, retire_ax, retire_sw]
    refine ⟨by rw [afterOf_compare hr]; exact compare_regs _ _ _ _ s, hax, fun hno => ?_, fun k hk => ?_⟩
    · cases hh : row.host with
      | false => exact compare_hostKept hr hh s
      | true =>
        rw [hh, if_pos rfl] at hhost
        obtain ⟨k, hk⟩ := hhost
        exact absurd hk (hno k)
    · cases hh : row.host with
      | false =>
        rw [hh, if_neg (by simp)] at hhost
        exact absurd hk (hhost k)
      | true =>
        rw [afterOf_compare hr, show CompareRow.target row = .eflags by simp [CompareRow.target, hh]]
        exact compare_codes _ _ _ s

end Sys2Proof.Laws.Frame
end

section
/-! What every step keeps, and the words read from the state. The rule of every instruction, the control instructions
included, keeps the invariant but for the bounds of pc, and the end of an instruction keeps those. -/

namespace Sys2Proof.Laws.Invariant

open Sys2Proof.Machine Sys2Proof.Laws.Shapes Sys2Proof.Laws.Frame

/-! ### The control word -/

/-- The bits of CW that can be loaded, and what the others read (rule R47). -/
theorem cwKeep_bit (g : Gen) (v : Word16) {k : Nat} (hk : k < 16) :
    (cwKeep g v).getLsbD k =
      (if k = 6 then true else if 13 ≤ k then false else if k = 7 ∧ g ≠ .g8087 then false else v.getLsbD k) := by
  unfold cwKeep
  rw [BitVec.getLsbD_or, BitVec.getLsbD_and]
  by_cases hg : g = .g8087
  · rw [if_pos hg]
    interval_cases k <;> simp [hg]
  · rw [if_neg hg]
    interval_cases k <;> simp [hg]

theorem cwKeep_cwKeep (g : Gen) (v : Word16) : cwKeep g (cwKeep g v) = cwKeep g v := by
  refine BitVec.eq_of_getLsbD_eq fun k hk => ?_
  rw [cwKeep_bit g _ hk, cwKeep_bit g v hk]
  split_ifs <;> rfl

/-- The reserved bits of CW read as they do also after the update of another bit. -/
theorem cwKeep_of_bits {g : Gen} {v w : Word16} (h : cwKeep g v = v)
    (hw : ∀ k, k < 16 → k = 6 ∨ 13 ≤ k ∨ (k = 7 ∧ g ≠ .g8087) → w.getLsbD k = v.getLsbD k) : cwKeep g w = w := by
  refine BitVec.eq_of_getLsbD_eq fun k hk => ?_
  have hv := cwKeep_bit g v hk
  rw [h] at hv
  rw [cwKeep_bit g w hk]
  split_ifs at hv ⊢ with h6 h13 h7
  · rw [hw k hk (.inl h6), hv]
  · rw [hw k hk (.inr (.inl h13)), hv]
  · rw [hw k hk (.inr (.inr h7)), hv]
  · rfl

theorem cwKeep_masked {g : Gen} {v : Word16} (h : cwKeep g v = v) : cwKeep g (v ||| 0x003F#16) = v ||| 0x003F#16 :=
  cwKeep_of_bits h fun k hk hr => by
    rw [BitVec.getLsbD_or]
    have : k ∈ [6, 7, 13, 14, 15] := by simp; omega
    fin_cases this <;> simp

theorem cwKeep_setIem {g : Gen} {v : Word16} (h : cwKeep g v = v) (hg : g = .g8087) (b : Bool) :
    cwKeep g (if b then v ||| 0x0080#16 else v &&& 0xFF7F#16) = if b then v ||| 0x0080#16 else v &&& 0xFF7F#16 :=
  cwKeep_of_bits h fun k hk hr => by
    have : k ∈ [6, 13, 14, 15] := by simp only [hg, ne_eq, not_true, and_false, or_false] at hr; simp; omega
    cases b <;> fin_cases this <;> simp

theorem cwKeep_default (g : Gen) : cwKeep g 0x037F#16 = 0x037F#16 := by cases g <;> decide

/-! ### What a rule keeps -/

/-- The invariant of the state but for the bounds of pc. -/
structure Sound (s : State) : Prop where
  mem     : Memory.wf s.mem
  range   : ∀ c ∈ s.mem, c.1 < s.cfg.addrLimit
  written : s.written.Pairwise (· < ·)
  tags    : TagsMatch s
  cw      : cwKeep s.cfg.gen s.cw = s.cw

theorem wf_iff (s : State) : s.wf ↔ Sound s ∧
    (if s.pcOver then s.pc = BitVec.ofNat 32 s.cfg.addrLimit else s.pc.toNat < s.cfg.addrLimit) :=
  ⟨fun ⟨hm, hr, hw, ht, hc, hp⟩ => ⟨⟨hm, hr, hw, ht, hc⟩, hp⟩,
    fun ⟨⟨hm, hr, hw, ht, hc⟩, hp⟩ => ⟨hm, hr, hw, ht, hc, hp⟩⟩

/-- The invariant is kept, the parameters and pc are as they were. -/
structure Keeps (s t : State) : Prop where
  sound  : Sound s → Sound t
  cfg    : t.cfg = s.cfg
  pc     : t.pc = s.pc
  pcOver : t.pcOver = s.pcOver

theorem Keeps.trans {s t u : State} (h : Keeps s t) (g : Keeps t u) : Keeps s u :=
  ⟨fun x => g.sound (h.sound x), g.cfg.trans h.cfg, g.pc.trans h.pc, g.pcOver.trans h.pcOver⟩

/-- A change outside memory, CW and the parameters keeps the invariant where it keeps the tags in step. -/
theorem keeps_of_eq {s t : State} (hmem : t.mem = s.mem) (hwr : t.written = s.written) (hcfg : t.cfg = s.cfg)
    (hcw : cwKeep s.cfg.gen s.cw = s.cw → cwKeep s.cfg.gen t.cw = t.cw) (hpc : t.pc = s.pc)
    (ho : t.pcOver = s.pcOver) (ht : TagsMatch s → TagsMatch t) : Keeps s t where
  sound h := ⟨hmem ▸ h.mem, by rw [hmem, hcfg]; exact h.range, hwr ▸ h.written, ht h.tags, by rw [hcfg]; exact hcw h.cw⟩
  cfg := hcfg
  pc := hpc
  pcOver := ho

theorem keeps_of_host {D K : List (BitVec 3)} {F : List Flag} {s t : State} (h : CalcHost D K F s t) : Keeps s t := by
  have hc : Calc D K F (withHost t.zf t.pf t.cf s) t := h
  exact keeps_of_eq hc.mem hc.written hc.cfg
    (fun h => by rw [show t.cw = s.cw from hc.cw]; exact h) hc.pc hc.pcOver hc.tags

theorem keeps_of_calc {D K : List (BitVec 3)} {F : List Flag} {s t : State} (h : Calc D K F s t) : Keeps s t :=
  keeps_of_host h.host

theorem keeps_openC0123 (s : State) : Keeps s s.openC0123 := keeps_of_calc (calc_openC0123 (K := []) (F := []) s)

/-- A change of CW that keeps its reserved bits. -/
theorem keeps_cw {s : State} {w : Word16} (h : cwKeep s.cfg.gen s.cw = s.cw → cwKeep s.cfg.gen w = w) :
    Keeps s { s with cw := w } :=
  keeps_of_eq rfl rfl rfl h rfl rfl id

theorem keeps_ite {c : Prop} [Decidable c] {s t u : State} (h : c → Keeps s t) (g : ¬c → Keeps s u) :
    Keeps s (if c then t else u) := by
  split
  · exact h ‹_›
  · exact g ‹_›

theorem keeps_setIem {s : State} (b : Bool) (hg : s.cfg.gen = .g8087) : Keeps s (s.setIem b) :=
  keeps_cw fun h => cwKeep_setIem h hg b

theorem keeps_self (s : State) : Keeps s s := ⟨id, rfl, rfl, rfl⟩

theorem tagsMatch_of_allEmpty {s : State} (h : s.tags = Vector.replicate 8 .empty) : TagsMatch s := fun k hk =>
  absurd (show s.tag k = .empty by simp [State.tag, h]) hk

theorem keeps_rotate (d : BitVec 3) (s : State) : Keeps s (s.rotate d) :=
  have hset : Keeps s ((s.setTop d).withC1 false) := keeps_of_eq rfl rfl rfl id rfl rfl id
  hset.trans (keeps_of_calc (calc_openC023 (K := []) (F := []) _))

theorem keeps_initialise (s : State) : Keeps s s.initialise := by
  obtain ⟨hcw, -, htags, -⟩ := InitClear.initialise_defaults s
  have hout := InitClear.initialise_outside s
  have hwr : s.initialise.written = s.written := by
    unfold State.initialise State.clearPointers
    split <;> rfl
  exact keeps_of_eq hout.mem hwr hout.cfg (fun _ => by rw [hcw]; exact cwKeep_default _) hout.pc hout.pcOver
    fun _ => tagsMatch_of_allEmpty htags

theorem tag_loadedTags (tw : Word16) (regs : Vector Ext 8) (k : BitVec 3) :
    (loadedTags tw regs)[k.toNat]'k.isLt =
      if tw.extractLsb' (2 * k.toNat) 2 = 0b11#2 then .empty else tagOf (regs[k.toNat]'k.isLt) := by
  simp [loadedTags]

/-- What a load of the environment leaves of the fields outside the pointers (rule R413). -/
theorem loadPointers_rest (small : Bool) (bs : List Byte) (s : State) :
    (s.loadPointers small bs).cfg = s.cfg ∧ (s.loadPointers small bs).regs = s.regs ∧
    (s.loadPointers small bs).tags = s.tags ∧ (s.loadPointers small bs).sw = s.sw ∧
    (s.loadPointers small bs).cw = s.cw ∧ (s.loadPointers small bs).pm287 = s.pm287 ∧
    HostKept s (s.loadPointers small bs) ∧ (s.loadPointers small bs).mem = s.mem ∧
    (s.loadPointers small bs).written = s.written ∧ (s.loadPointers small bs).pc = s.pc ∧
    (s.loadPointers small bs).pcOver = s.pcOver := by
  unfold State.loadPointers
  split_ifs <;> exact ⟨rfl, rfl, rfl, rfl, rfl, rfl, ⟨rfl, rfl, rfl, rfl⟩, rfl, rfl, rfl, rfl⟩

/-- The state with CW, SW and the tags of an image (rule R413). -/
def envLoaded (small : Bool) (bs : List Byte) (s : State) : State :=
  { s with
    cw := cwKeep s.cfg.gen (word16At bs 0)
    sw := Status.ofWord (word16At bs (if small then 2 else 4))
    tags := loadedTags (word16At bs (2 * (if small then 2 else 4))) s.regs }

theorem loadEnv_eq (small : Bool) (bs : List Byte) (s : State) :
    s.loadEnv small bs = (envLoaded small bs s).loadPointers small bs := rfl

theorem tagsMatch_of_loaded {s : State} (tw : Word16) (h : s.tags = loadedTags tw s.regs) : TagsMatch s := by
  intro k hk
  simp only [State.tag, State.reg, h, tag_loadedTags] at hk ⊢
  split at hk
  · exact absurd rfl hk
  · next hne => rw [if_neg hne]

theorem loadEnv_sound {small : Bool} {bs : List Byte} {s : State} (hm : Memory.wf s.mem)
    (hr : ∀ c ∈ s.mem, c.1 < s.cfg.addrLimit) (hw : s.written.Pairwise (· < ·)) : Sound (s.loadEnv small bs) := by
  obtain ⟨hcfg, hregs, htags, -, hcw, -, -, hmem, hwr, -, -⟩ := loadPointers_rest small bs (envLoaded small bs s)
  rw [loadEnv_eq]
  refine ⟨by rw [hmem]; exact hm, by rw [hmem, hcfg]; exact hr, by rw [hwr]; exact hw,
    tagsMatch_of_loaded (word16At bs (2 * (if small then 2 else 4))) ?_, ?_⟩
  · rw [htags, hregs]
    rfl
  · rw [hcw, hcfg]
    exact cwKeep_cwKeep _ _

theorem keeps_loadEnv (small : Bool) (bs : List Byte) (s : State) : Keeps s (s.loadEnv small bs) := by
  obtain ⟨hcfg, -, -, -, -, -, -, -, -, hpc, ho⟩ := loadPointers_rest small bs (envLoaded small bs s)
  exact ⟨fun h => loadEnv_sound h.mem h.range h.written, hcfg, hpc, ho⟩

theorem keeps_restore (small : Bool) (bs : List Byte) (s : State) : Keeps s (s.restore small bs) :=
  have h := keeps_loadEnv small bs
    { s with regs := loadedRegs (envSize small) (Status.ofWord (word16At bs (if small then 2 else 4))).top.toNat bs }
  ⟨fun x => loadEnv_sound x.mem x.range x.written, h.cfg, h.pc, h.pcOver⟩

theorem keeps_imageDrawn (small : Bool) (s : State) : Keeps s (s.imageDrawn small) := by
  unfold State.imageDrawn
  exact keeps_ite (fun _ => keeps_self s) fun _ => keeps_of_eq rfl rfl rfl id rfl rfl id

theorem keeps_storeEnv (small : Bool) (s : State) : Keeps s (s.storeEnv small).1 := by
  have hd := keeps_imageDrawn small s
  have hcw : (s.imageDrawn small).cw = s.cw := by unfold State.imageDrawn; split <;> rfl
  refine hd.trans (Keeps.trans (keeps_cw (w := s.cw ||| 0x003F#16) fun h => ?_) (keeps_openC0123 _))
  rw [hcw] at h
  exact cwKeep_masked h

theorem holds_keeps_control {i : Instr} (h : familyOf i = .control) : Holds Keeps (shapeOf i) := by
  cases i <;> cases h
  case fnclex =>
    exact fun s => Keeps.trans (s := s) (keeps_of_eq (t := InitClear.flagsCleared s) rfl rfl rfl id rfl rfl id)
      (keeps_of_calc (InitClear.calc_clearExceptions s))
  case fdecstp | fincstp =>
    exact fun s => keeps_rotate _ s
  case fndisi | fneni => exact fun s => keeps_ite (keeps_setIem _) fun _ => keeps_self s
  case ffree k =>
    exact fun s => keeps_of_calc ((calc_setTag (K := [k]) (F := []) (by simp) s).trans (calc_openC0123 _))
  case fninit => exact keeps_initialise
  case fldcw => exact fun bs s => (keeps_cw fun _ => cwKeep_cwKeep _ _).trans (keeps_openC0123 _)
  case fldenv | fldenvO66 => exact fun bs s => keeps_loadEnv _ bs s
  case frstor | frstorO66 => exact fun bs s => keeps_restore _ bs s
  case fnsave | fnsaveO66 => exact fun s => (keeps_imageDrawn _ s).trans (keeps_initialise _)
  case fsetpm =>
    exact fun s => keeps_ite (fun _ => keeps_of_eq rfl rfl rfl id rfl rfl id) fun _ => keeps_self s
  case fnstenv | fnstenvO66 => exact fun s => keeps_storeEnv _ s
  case fnstswAx =>
    exact fun s => (keeps_of_eq rfl rfl rfl id rfl rfl id : Keeps s { s with ax := s.swWord }).trans (keeps_openC0123 _)
  all_goals exact fun s => keeps_openC0123 s

/-- The rule of every instruction keeps the invariant; of one that stores, before the store. -/
theorem holds_keeps (i : Instr) : Holds Keeps (shapeOf i) := by
  by_cases h : familyOf i = .control
  · exact holds_keeps_control h
  · exact (holds_calcHost h).mono fun _ _ => keeps_of_host

/-! ### Stores -/

theorem length_half2 (w : Word16) : (half2 w).length = 2 := length_leBytes _ _
theorem length_full4 (w : BitVec 32) : (full4 w).length = 4 := length_leBytes _ _

theorem length_envImage (small : Bool) (s : State) : (s.envImage small).length = envSize small := by
  unfold State.envImage envSize State.reserved
  dsimp only
  split_ifs <;> simp [length_half2, length_full4]

theorem length_regImage (s : State) : s.regImage.length = 80 := by
  simp [State.regImage]

theorem control_store_length {i : Instr} (h : familyOf i = .control) {f} (hf : shapeOf i = .store f) {s : State}
    {bs : List Byte} (hb : (f s).2 = some bs) : bs.length = widthOf s.cfg i := by
  cases i <;> cases h <;> cases hf <;> cases hb
  case fnstcw | fnstswM16 => exact length_half2 _
  case fnstenv | fnstenvO66 => exact length_envImage _ s
  case fnsave | fnsaveO66 => exact (List.length_append ..).trans (by rw [length_envImage, length_regImage]; rfl)

/-- Every store writes as many bytes as the operand has. -/
theorem shape_store_length {i : Instr} {f} (hf : shapeOf i = .store f) {s : State} {bs : List Byte}
    (hb : (f s).2 = some bs) : bs.length = widthOf s.cfg i := by
  by_cases hctl : familyOf i = .control
  · exact control_store_length hctl hf hb
  · by_cases hs : familyOf i = .store
    · exact store_length hs hf hb
    · exact absurd hf (shape_of_family hctl hs f)

theorem keeps_store {s : State} {a : Addr} {bs : List Byte} {n : Nat} (hn : bs.length = n)
    (hb : hasBytes s.cfg a.toNat n = true) : Keeps s (s.store a bs) where
  sound h :=
    { mem := wf_writeBytes h.mem _ _
      range := fun c hc => by
        obtain hc | hc := mem_writeBytes hc
        · exact h.range c hc
        · exact hasBytes_limit hb (hn ▸ hc)
      written := sorted_addAddrs h.written _ _
      tags := h.tags
      cw := h.cw }
  cfg := rfl
  pc := rfl
  pcOver := rfl

/-- What the rule answers keeps the invariant. -/
theorem ruleOf_keeps {i : Instr} {s t : State} (h : ruleOf i s = .ok t) : Keeps s t := by
  obtain hk | ⟨u, bs, hu, rfl, hb, f, hf, hbs⟩ := ruleOf_cases (holds_keeps i) h
  · exact hk
  · exact hu.trans (keeps_store (shape_store_length hf hbs) (by rw [hu.cfg]; exact hb))

/-! ### The end of an instruction -/

/-- pc is its address, one past the last one included. -/
theorem pc_eq_pcNat {s : State} (h : s.wf) : s.pc = BitVec.ofNat 32 s.pcNat := by
  have hpc := ((wf_iff s).1 h).2
  unfold State.pcNat
  cases ho : s.pcOver <;> simp_all

theorem wf_retire {i : Instr} {ptr : Pointers} {s t : State} (h : s.wf) (hk : Keeps s t)
    (hp : s.passesTop (i.length s.cfg) = false) : (t.retire ptr i).wf := by
  have hs := hk.sound ((wf_iff s).1 h).1
  have hle : s.pcNat + i.length s.cfg ≤ s.cfg.addrLimit := by simpa [State.passesTop] using hp
  have hnat : t.pcNat = s.pcNat := by simp only [State.pcNat, hk.pcOver, hk.cfg, hk.pc]
  have hpc : t.pc + BitVec.ofNat 32 (i.length t.cfg) = BitVec.ofNat 32 (s.pcNat + i.length s.cfg) := by
    rw [hk.pc, hk.cfg, pc_eq_pcNat h, ← BitVec.ofNat_add]
  refine (wf_iff _).2 ⟨⟨?_, ?_, ?_, ?_, ?_⟩, ?_⟩
  · simpa using hs.mem
  · simpa using hs.range
  · simpa using hs.written
  · exact fun k hk => by simpa using hs.tags k (by simpa using hk)
  · simpa using hs.cw
  · rw [retire_pc, retire_pcOver, retire_cfg, hpc, hnat, hk.cfg]
    by_cases hlim : s.cfg.addrLimit ≤ s.pcNat + i.length s.cfg
    · rw [if_pos (by simpa using hlim), show s.pcNat + i.length s.cfg = s.cfg.addrLimit by omega]
    · have hbound := Coding.addrLimit_le s.cfg
      rw [if_neg (by simpa using hlim), BitVec.toNat_ofNat, Nat.mod_eq_of_lt (by omega)]
      omega

theorem wf_handled {s : State} (h : s.wf) : s.handled.wf := by
  unfold State.handled
  split
  · next hw => exact hw.1
  · exact h

theorem keeps_entering (sync : Sync) (s : State) : Keeps s (s.entering sync) := by
  cases sync
  · exact keeps_self s
  · exact keeps_ite (fun _ => keeps_of_calc (calc_drawn (K := []) (F := []) s)) fun _ => keeps_self s

/-- An instruction that is no wait form answers a state that meets the invariant. -/
theorem exec_plain_wf {i : Instr} {s t : State} (hw : i.isWaitForm = false) (h : s.wf) (ht : exec i s = .next t) :
    t.wf := by
  rw [exec_around hw] at ht
  obtain ⟨-, -, rfl⟩ | ⟨-, hp, -, u, hu, rfl⟩ := around_cases ht
  · exact wf_handled h
  · exact wf_retire h ((keeps_entering _ s).trans (ruleOf_keeps hu)) hp

/-- So does a wait form: its two steps do. -/
theorem exec_wf {i : Instr} {s t : State} (h : s.wf) (ht : exec i s = .next t) : t.wf := by
  cases hw : i.isWaitForm with
  | false => exact exec_plain_wf hw h ht
  | true =>
    obtain ⟨n, hn⟩ := exists_of_isWaitForm hw
    rw [exec_waitForm hn] at ht
    have hfwait : ∀ {u}, execFwait s = .next u → u.wf := exec_plain_wf (i := .fwait) rfl h
    obtain he | ⟨u, v, -, hu, hv, he⟩ := waitThen_cases execFwait (exec n) s
    · exact hfwait (he ▸ ht)
    · obtain rfl : v = t := by simpa [he] using ht
      exact exec_plain_wf (isWaitForm_of_waitForm hn).1 (hfwait hu) hv

/-- Settles O6, from what the rule of each instruction keeps (`holds_keeps`) and the end of an instruction
(`wf_retire`). -/
theorem stepKeepsInvariant : Obligations.StepKeepsInvariant := by
  unfold Obligations.StepKeepsInvariant
  intro s t h ht
  unfold step at ht
  split at ht
  · exact exec_wf h ht
  · exact absurd ht (by simp)
  · exact absurd ht (by simp)

/-! ### Steps, and the words that are read -/

/-- Settles O4, from `fetched_decoded`. -/
theorem stepRunsDecodedInstruction : Obligations.StepRunsDecodedInstruction := by
  unfold Obligations.StepRunsDecodedInstruction
  intro s i n hd hw
  unfold step
  rw [fetched_decoded hd hw]

/-- Settles O5: FNINIT's values are those of the state without arguments. -/
theorem resetState : Obligations.ResetState := by
  unfold Obligations.ResetState
  refine ⟨rfl, InitClear.swWord_of_default rfl, InitClear.tagWord_of_allEmpty rfl, rfl, rfl, rfl, rfl, rfl, ?_⟩
  refine (wf_iff _).2 ⟨⟨by decide, by decide, by decide, tagsMatch_of_allEmpty rfl, by decide⟩, by decide⟩

/-- The bits of a word made of the fields of SW (rule R36). -/
theorem statusFields_bit (b c3 : Bool) (top : BitVec 3) (c2 c1 c0 es sf pe ue oe ze de ie : Bool) {k : Nat}
    (hk : k < 16) :
    (BitVec.ofBool b ++ BitVec.ofBool c3 ++ top ++ BitVec.ofBool c2 ++ BitVec.ofBool c1 ++ BitVec.ofBool c0 ++
      BitVec.ofBool es ++ BitVec.ofBool sf ++ BitVec.ofBool pe ++ BitVec.ofBool ue ++ BitVec.ofBool oe ++
      BitVec.ofBool ze ++ BitVec.ofBool de ++ BitVec.ofBool ie).getLsbD k =
    [ie, de, ze, oe, ue, pe, sf, es, c0, c1, c2, top.getLsbD 0, top.getLsbD 1, top.getLsbD 2, c3, b].getD k false := by
  simp only [BitVec.getLsbD_append]
  interval_cases k <;> simp

theorem swWord_bit (s : State) {k : Nat} (hk : k < 16) : s.swWord.getLsbD k =
    [s.sw.ie, s.sw.de, s.sw.ze, s.sw.oe, s.sw.ue, s.sw.pe, s.sw.sf, s.es, s.sw.c0, s.sw.c1, s.sw.c2,
      s.sw.top.getLsbD 0, s.sw.top.getLsbD 1, s.sw.top.getLsbD 2, s.sw.c3, s.es].getD k false :=
  statusFields_bit _ _ _ _ _ _ _ _ _ _ _ _ _ _ hk

/-- ES is bit 7 of SW as read, and B its copy (rules R39, R40). -/
theorem swWord_summary (s : State) : s.swWord.getLsbD 7 = s.es ∧ s.swWord.getLsbD 15 = s.es :=
  ⟨swWord_bit s (by omega), swWord_bit s (by omega)⟩

/-- The flags of SW as read are its low bits. -/
theorem swWord_flags (s : State) : s.swWord.extractLsb' 0 6 =
    BitVec.ofBool s.sw.pe ++ BitVec.ofBool s.sw.ue ++ BitVec.ofBool s.sw.oe ++ BitVec.ofBool s.sw.ze ++
      BitVec.ofBool s.sw.de ++ BitVec.ofBool s.sw.ie := by
  refine BitVec.eq_of_getLsbD_eq fun k hk => ?_
  simp only [BitVec.getLsbD_extractLsb', BitVec.getLsbD_append, Nat.zero_add, swWord_bit s (show k < 16 by omega)]
  interval_cases k <;> simp

/-- Settles O8: bit by bit, a flag counts where its mask is clear. -/
theorem summaryBits : Obligations.SummaryBits := by
  unfold Obligations.SummaryBits
  intro s
  obtain ⟨h7, h15⟩ := swWord_summary s
  refine ⟨?_, h15.trans h7.symm⟩
  rw [h7, swWord_flags]
  have key : ∀ (pe ue oe ze de ie : Bool) (m : BitVec 6),
      ((ie && !m.getLsbD 0) || (de && !m.getLsbD 1) || (ze && !m.getLsbD 2) || (oe && !m.getLsbD 3) ||
        (ue && !m.getLsbD 4) || (pe && !m.getLsbD 5)) = true ↔
      (BitVec.ofBool pe ++ BitVec.ofBool ue ++ BitVec.ofBool oe ++ BitVec.ofBool ze ++ BitVec.ofBool de ++
        BitVec.ofBool ie) &&& ~~~m ≠ 0#6 := by decide +kernel
  have h := key s.sw.pe s.sw.ue s.sw.oe s.sw.ze s.sw.de s.sw.ie (s.cw.extractLsb' 0 6)
  simpa [State.es, BitVec.getLsbD_extractLsb'] using h

end Sys2Proof.Laws.Invariant
end

section
/-! Stops, traps and the wait forms: what an instruction can answer that is no state, what a pending exception does, and
the two steps of a wait form. -/

namespace Sys2Proof.Laws.Stops

open Sys2Proof.Machine Sys2Proof.Laws.Shapes Sys2Proof.Laws.Frame Sys2Proof.Laws.Invariant

/-! ### The step around an instruction -/

theorem entering_cfg (sync : Sync) (s : State) : (s.entering sync).cfg = s.cfg := (keeps_entering sync s).cfg

theorem es_of_trapsBefore {sync : Sync} {s : State} (h : s.trapsBefore sync = true) : s.es = true := by
  cases sync <;> simp [State.trapsBefore, State.pending, State.windowOpen] at h <;> simp [h]

section
variable {sync : Sync} {ptr : Pointers} {i : Instr} {body : State → Except Fault State} {s : State}

theorem around_unavailable (h : i.available s.cfg = false) : around sync ptr i body s = .fault .illegalInstruction := by
  simp [around, h]

theorem around_pastTop (h : i.available s.cfg = true) (hp : s.cfg.addrLimit < s.pcNat + i.length s.cfg) :
    around sync ptr i body s = .refused (.pastTop (s.pcNat + i.length s.cfg)) := by
  simp [around, h, State.passesTop, hp]

theorem around_traps (h : i.available s.cfg = true) (hp : s.pcNat + i.length s.cfg ≤ s.cfg.addrLimit)
    (ht : s.trapsBefore sync = true) : around sync ptr i body s = s.takeTrap := by
  simp [around, h, State.passesTop, hp, ht]

/-- The faults of an instruction, from those of its rule. -/
theorem around_fault {f : Fault} (h : around sync ptr i body s = .fault f) :
    (f = .illegalInstruction ∧ i.available s.cfg = false) ∨
      (f = .floatingPointTrap s.report ∧ s.es = true ∧ s.cfg.fpTrap = .stop) ∨
      body (s.entering sync) = .error f := by
  unfold around at h
  split_ifs at h with ha hp ht
  · exact .inl ⟨by simpa using h.symm, by simpa using ha⟩
  · unfold State.takeTrap at h
    split at h
    · next hs => exact .inr (.inl ⟨by simpa using h.symm, es_of_trapsBefore ht, hs⟩)
    · exact absurd h (by simp)
  · split at h
    · next hb => exact .inr (.inr (by simpa [← (by simpa using h : _ = f)] using hb))
    · exact absurd h (by simp)

/-- The only refusal is that of a byte past the top (rule R55). -/
theorem around_refused {r : Refusal} (h : around sync ptr i body s = .refused r) :
    ∃ n, r = .pastTop n ∧ s.cfg.addrLimit < s.pcNat + i.length s.cfg := by
  unfold around at h
  split_ifs at h with ha hp ht
  · exact ⟨_, by simpa using h.symm, by simpa [State.passesTop] using hp⟩
  · unfold State.takeTrap at h
    split at h <;> exact absurd h (by simp)
  · split at h <;> exact absurd h (by simp)

end

/-- The one fault of a rule is a memory operand that is not provided (rule R90). -/
theorem ruleOf_error {i : Instr} {s : State} {f : Fault} (h : ruleOf i s = .error f) :
    i.operand = some (addressOf i) ∧ f = .memFault (addressOf i).toNat ∧
      hasBytes s.cfg (addressOf i).toNat (widthOf s.cfg i) = false := by
  obtain ho | ⟨g, hg⟩ := operand_or_compute i
  · refine ⟨ho, ?_⟩
    unfold ruleOf computing loading storing at h
    split at h
    · exact absurd h (by simp)
    · split_ifs at h with hb
      exact ⟨by simpa using h.symm, by simpa using hb⟩
    · split at h
      · exact absurd h (by simp)
      · split_ifs at h with hb
        exact ⟨by simpa using h.symm, by simpa using hb⟩
  · simp [ruleOf, hg, computing] at h

/-! ### FWAIT -/

theorem fwait_available (p : Params) : Instr.fwait.available p = true := decide_eq_true (Nat.zero_le _)

theorem fwait_length (p : Params) : Instr.fwait.length p = 1 := rfl

theorem execFwait_around (s : State) : execFwait s = around .waiting .keep .fwait (ruleOf .fwait) s :=
  exec_around (i := .fwait) rfl s

theorem fwait_error (s : State) (f : Fault) : ruleOf .fwait s ≠ .error f := by
  intro h
  exact absurd (ruleOf_error h).1 (by simp [Instr.operand, Instr.form])

/-- A wait form stops only where FWAIT does. -/
theorem waitThen_fault {next : State → Host.Outcome State Fault Refusal} {s : State} {f : Fault}
    (h : waitThen execFwait next s = .fault f) :
    f = .floatingPointTrap s.report ∧ s.es = true ∧ s.cfg.fpTrap = .stop := by
  obtain he | ⟨t, u, -, -, -, he⟩ := waitThen_cases execFwait next s
  · rw [he, execFwait_around] at h
    obtain ⟨-, ha⟩ | hf | hb := around_fault h
    · rw [fwait_available] at ha
      exact absurd ha (by simp)
    · exact hf
    · exact absurd hb (fwait_error _ _)
  · rw [he] at h
    exact absurd h (by simp)

theorem waitThen_refused {next : State → Host.Outcome State Fault Refusal} {s : State} {r : Refusal}
    (h : waitThen execFwait next s = .refused r) : ∃ n, r = .pastTop n ∧ s.cfg.addrLimit < s.pcNat + 1 := by
  obtain he | ⟨t, u, -, -, -, he⟩ := waitThen_cases execFwait next s
  · rw [he, execFwait_around] at h
    exact around_refused h
  · rw [he] at h
    exact absurd h (by simp)

/-- Settles O7, from what the step around an instruction can answer (`around_fault`, `around_refused`) and, for a wait
form, what FWAIT can (`waitThen_fault`, `waitThen_refused`). -/
theorem stopsAndTheirReasons : Obligations.StopsAndTheirReasons := by
  unfold Obligations.StopsAndTheirReasons
  intro i s
  cases hw : i.isWaitForm with
  | false =>
    rw [exec_around hw]
    refine ⟨fun _ => around_unavailable, fun _ => around_pastTop, fun f hf => ?_, fun r hr => around_refused hr⟩
    obtain h | ⟨rfl, hes, hstop⟩ | h := around_fault hf
    · exact .inl h
    · exact .inr (.inr ⟨_, rfl, hes, hstop⟩)
    · obtain ⟨ho, rfl, hb⟩ := ruleOf_error h
      rw [entering_cfg] at hb
      exact .inr (.inl ⟨_, ho, rfl, hb⟩)
  | true =>
    obtain ⟨n, hn⟩ := exists_of_isWaitForm hw
    obtain ⟨-, -, hlen, -, -⟩ := Coding.waitForm_spec hn s.cfg
    rw [exec_waitForm hn]
    refine ⟨by simp, by simp, fun f hf => ?_, fun r hr => ?_⟩
    · obtain ⟨rfl, hes, hstop⟩ := waitThen_fault hf
      exact .inr (.inr ⟨_, rfl, hes, hstop⟩)
    · obtain ⟨k, rfl, hk⟩ := waitThen_refused hr
      exact ⟨k, rfl, by omega⟩

/-! ### The pending trap -/

/-- Settles O9: the trap is taken by the instruction, or by the FWAIT a wait form begins with. -/
theorem pendingTrapTaken : Obligations.PendingTrapTaken := by
  unfold Obligations.PendingTrapTaken
  intro i s hsync hav hroom hes hiem
  rw [(swWord_summary s).1] at hes
  have hpend : s.pending = true := by
    simp only [not_and, Bool.not_eq_true] at hiem
    by_cases hg : s.cfg.gen = .g8087
    · simp only [State.pending, hes, hiem hg, Bool.and_false, Bool.not_false, Bool.and_self]
    · simp [State.pending, hes, hg]
  have htrap : exec i s = s.takeTrap := by
    cases hw : i.isWaitForm with
    | false =>
      rw [exec_around hw, hsync]
      exact around_traps hav hroom hpend
    | true =>
      obtain ⟨n, hn⟩ := exists_of_isWaitForm hw
      obtain ⟨-, -, hlen, -, -⟩ := Coding.waitForm_spec hn s.cfg
      rw [exec_waitForm hn, waitThen, if_pos hpend, execFwait_around]
      exact around_traps (fwait_available _) (by rw [fwait_length]; omega) hpend
  rw [htrap]
  refine ⟨fun h => ?_, fun h => ?_⟩
  · simp only [State.takeTrap, h]
    rfl
  · simp only [State.takeTrap, h]

/-! ### A missing operand -/

/-- The state a suppressed store leaves has an unmasked exception. -/
theorem raised_es {s : State} (hb : s.cw.getLsbD 0 = false) (masked : State → State) (o : Bool) :
    (s.raiseStack o masked).es = true ∧ (s.raiseInvalid masked).es = true := by
  simp only [State.raiseStack, State.raiseInvalid, hb, Bool.false_eq_true, if_false, State.es, Bool.not_false,
    Bool.and_self, Bool.true_or, and_self]

theorem storeStack_none {bs : List Byte} {pop : Bool} {s : State} (h : (s.storeStack bs pop).2 = none) :
    (s.storeStack bs pop).1.es = true := by
  have hb : s.cw.getLsbD 0 = false := by simpa [State.storeStack] using h
  exact (raised_es hb _ _).1

theorem storeInvalid_none {bs : List Byte} {pop : Bool} {s : State} (h : (s.storeInvalid bs pop).2 = none) :
    (s.storeInvalid bs pop).1.es = true := by
  have hb : s.cw.getLsbD 0 = false := by simpa [State.storeInvalid] using h
  exact (raised_es hb _ false).2

theorem storeRounded_none {fits : Nat → Bool} {image : Nat → List Byte} {bad : List Byte} {pop : Bool} {s : State}
    (h : (s.storeRounded fits image bad pop).2 = none) : (s.storeRounded fits image bad pop).1.es = true := by
  unfold State.storeRounded at h ⊢
  dsimp only at h ⊢
  split_ifs at h ⊢
  · exact storeStack_none h
  · exact storeInvalid_none h
  · exact storeInvalid_none h

theorem storeInt_none {w : Nat} {pop : Bool} {s : State} (h : (s.storeInt w pop).2 = none) :
    (s.storeInt w pop).1.es = true := storeRounded_none h

theorem storeBcd_none {s : State} (h : s.storeBcd.2 = none) : s.storeBcd.1.es = true := storeRounded_none h

theorem storeFinite_none {f : RealFmt} {pop : Bool} {a : Ext} {s : State} (h : (s.storeFinite f pop a).2 = none) :
    (s.storeFinite f pop a).1.es = true := by
  unfold State.storeFinite at h ⊢
  dsimp only at h ⊢
  split_ifs at h ⊢ with _ ho _ hu
  · simp only [State.es, withC1_sw, withC1_cw, flagOverflow_sw, flagOverflow_cw, ho, Bool.not_false, Bool.and_self,
      Bool.or_true, Bool.true_or]
  · simp only [State.es, withC1_sw, withC1_cw, flagUnderflow_sw, flagUnderflow_cw, hu, Bool.not_false, Bool.and_self,
      Bool.or_true, Bool.true_or]

theorem storeReal_none {f : RealFmt} {pop : Bool} {s : State} (h : (s.storeReal f pop).2 = none) :
    (s.storeReal f pop).1.es = true := by
  unfold State.storeReal at h ⊢
  dsimp only at h ⊢
  split_ifs at h ⊢
  · exact storeStack_none h
  · exact storeInvalid_none h
  · exact storeInvalid_none h
  · exact storeFinite_none h

theorem storeExt_none {s : State} (h : s.storeExt.2 = none) : s.storeExt.1.es = true := by
  unfold State.storeExt at h ⊢
  split_ifs at h ⊢
  exact storeStack_none h

theorem es_congr {s t : State} (hf : ∀ f, t.sw.flag f = s.sw.flag f) (hc : t.cw = s.cw) : t.es = s.es := by
  simp only [State.es, hc, show t.sw.ie = s.sw.ie from hf .ie, show t.sw.de = s.sw.de from hf .de,
    show t.sw.ze = s.sw.ze from hf .ze, show t.sw.oe = s.sw.oe from hf .oe, show t.sw.ue = s.sw.ue from hf .ue,
    show t.sw.pe = s.sw.pe from hf .pe]

theorem openC023_es (s : State) : s.openC023.es = s.es := es_congr (fun f => SignBit.openC023_flag s f) rfl

/-- Only an arithmetic store can be suppressed, and an unmasked exception is then flagged. -/
theorem suppressed_es {i : Instr} {f} (hf : shapeOf i = .store f) {s : State} (h : (f s).2 = none) :
    familyOf i = .store ∧ (f s).1.es = true := by
  have hfam : familyOf i = .store := by
    by_cases hctl : familyOf i = .control
    · cases i <;> cases hctl <;> cases hf <;> cases h
    · by_contra hs
      exact shape_of_family hctl hs f hf
  refine ⟨hfam, ?_⟩
  cases i <;> cases hfam <;> cases hf
  all_goals rw [openAfter_snd] at h
  case fbstp => exact (openC023_es _).trans (storeBcd_none h)
  case fistM16 | fistM32 | fistpM16 | fistpM32 | fistpM64 => exact (openC023_es _).trans (storeInt_none h)
  case fstM32 | fstM64 | fstpM32 | fstpM64 => exact (openC023_es _).trans (storeReal_none h)
  case fstpM80 => exact (openC023_es _).trans (storeExt_none h)

/-- With a byte of the operand missing the rule faults, or its store has been suppressed. -/
theorem ruleOf_missing {i : Instr} {s : State} {a : Addr} (ho : i.operand = some a) (hw : i.isWaitForm = false)
    (h : hasBytes s.cfg a.toNat (widthOf s.cfg i) = false) :
    ruleOf i s = .error (.memFault a.toNat) ∨
      ∃ f, shapeOf i = .store f ∧ (f s).2 = none ∧ ruleOf i s = .ok (f s).1 := by
  have ha : addressOf i = a := by simp [addressOf, ho]
  unfold ruleOf
  rw [ha]
  cases hs : shapeOf i with
  | compute f => cases i <;> cases ho <;> first | exact Bool.noConfusion hw | exact absurd hs nofun
  | load f => exact .inl (by simp [loading, h])
  | store f =>
    cases hb : (f s).2 with
    | none => exact .inr ⟨f, rfl, hb, by simp [storing, hb]⟩
    | some bs => exact .inl (by simp [storing, hb, h])

theorem es_retire (ptr : Pointers) (i : Instr) (t : State) : (t.retire ptr i).es = t.es := by
  simp only [State.es, retire_sw, retire_cw]

/-! ### Wait forms -/

/-- The state FWAIT leaves. -/
def afterFwait (s : State) : State := s.openC0123.retire .keep .fwait

theorem afterFwait_pc (s : State) : (afterFwait s).pc = s.pc + 1#32 ∧
    (afterFwait s).pcOver = decide (s.cfg.addrLimit ≤ s.pcNat + 1) := by
  have h := calc_openC0123 (K := []) (F := []) s
  rw [afterFwait, retire_pc, retire_pcOver, h.pc, h.cfg, h.pcNat]
  exact ⟨rfl, rfl⟩

/-- The undefined condition codes: nothing but them and the count of free values differs. -/
theorem openC0123_eq (s : State) : s.openC0123 =
    { s with
      draws := s.openC0123.draws,
      sw := { s.sw with
        c0 := s.openC0123.sw.c0, c1 := s.openC0123.sw.c1, c2 := s.openC0123.sw.c2, c3 := s.openC0123.sw.c3 } } := by
  have h := (calc_openC0123 (K := []) (F := []) s).rest
  rw [InitClear.openC0123_regs, InitClear.openC0123_tags] at h
  have hsw : s.openC0123.sw =
      { s.sw with
        c0 := s.openC0123.sw.c0, c1 := s.openC0123.sw.c1, c2 := s.openC0123.sw.c2, c3 := s.openC0123.sw.c3 } := by
    simp [State.openC0123, State.openC0, State.openC1, State.openC2, State.openC3]
  rwa [hsw] at h

theorem afterFwait_eq (s : State) : afterFwait s =
    { s with
      pc := (afterFwait s).pc, pcOver := (afterFwait s).pcOver, draws := (afterFwait s).draws,
      sw := { s.sw with
        c0 := (afterFwait s).sw.c0, c1 := (afterFwait s).sw.c1, c2 := (afterFwait s).sw.c2,
        c3 := (afterFwait s).sw.c3 } } := by
  have h := openC0123_eq s
  unfold afterFwait
  generalize s.openC0123 = u at h ⊢
  generalize u.draws = d, u.sw.c0 = c0, u.sw.c1 = c1, u.sw.c2 = c2, u.sw.c3 = c3 at h
  subst h
  rfl

theorem passesTop_false_iff {n : Nat} {s : State} : s.passesTop n = false ↔ s.pcNat + n ≤ s.cfg.addrLimit := by
  simp [State.passesTop]

/-- FWAIT is ready wherever a wait form is. -/
theorem fwait_ready {i w : Instr} (h : i.waitForm = some w) {s : State} (hr : Ready w s) : Ready .fwait s := by
  obtain ⟨-, -, hlen, -, -⟩ := Coding.waitForm_spec h s.cfg
  obtain ⟨-, hp, hq⟩ := hr
  refine ⟨fwait_available _, ?_, ?_⟩
  · rw [passesTop_false_iff, hlen] at hp
    rw [passesTop_false_iff, fwait_length]
    omega
  · cases i <;> cases h <;> exact hq

theorem fwait_runs {s : State} (h : Ready .fwait s) : execFwait s = .next (afterFwait s) :=
  exec_runs (i := .fwait) rfl h trivial

theorem afterFwait_cfg (s : State) : (afterFwait s).cfg = s.cfg :=
  (retire_cfg ..).trans (calc_openC0123 (K := []) (F := []) s).cfg

theorem afterFwait_es (s : State) : (afterFwait s).es = s.es :=
  have h := calc_openC0123 (K := []) (F := []) s
  (es_retire ..).trans (es_congr (fun f => (h.flags f).2 (by simp)) h.cw)

theorem not_windowOpen_of_pending {s : State} (h : s.pending = false) : s.windowOpen = false := by
  by_cases hes : s.es = true
  · have hg : s.cfg.gen = .g8087 := by
      simp only [State.pending, hes, Bool.true_and, Bool.not_eq_false', Bool.and_eq_true, decide_eq_true_eq] at h
      exact h.1
    simp [State.windowOpen, hg]
  · simp [State.windowOpen, hes]

theorem afterFwait_windowOpen {s : State} (h : s.pending = false) : (afterFwait s).windowOpen = false := by
  have hs := not_windowOpen_of_pending h
  unfold State.windowOpen at hs ⊢
  rwa [afterFwait_es, afterFwait_cfg]

theorem waitForm_operand {i w : Instr} (h : i.waitForm = some w) (p : Params) :
    w.operand = i.operand ∧ widthOf p w = widthOf p i ∧ syncOf i = .noWait ∧ syncOf w = .waiting := by
  cases i <;> cases h <;> exact ⟨rfl, rfl, rfl, rfl⟩

/-- Settles O11: the rule faults unless its store was suppressed (`ruleOf_missing`), and of a wait form the FWAIT is
done. -/
theorem missingOperandFaults : Obligations.MissingOperandFaults := by
  unfold Obligations.MissingOperandFaults
  intro i s a hr ho hb
  refine ⟨fun hw => ?_, fun hw => ?_⟩
  · obtain he | ⟨f, hf, hnone, hok⟩ := ruleOf_missing ho hw hb
    · left
      obtain ⟨hav, hp, hq⟩ := hr
      have hquiet : Quiet (syncOf i) s := by cases hh : syncOf i <;> simpa [Quiet, hh] using hq
      rw [exec_around hw]
      simp [around, hav, hp, hquiet.trapsBefore, hquiet.entering, he]
    · right
      obtain ⟨hfam, hes⟩ := suppressed_es hf hnone
      have hcalc : Calc (topMoves i) (touched i) (mayRaise i) s (f s).1 :=
        (hf ▸ holds_calc (by rw [hfam]; nofun) (by rw [hfam]; nofun)) s
      exact ⟨hfam, _, (exec_around hw s).trans (Ready.runs hr rfl hok), (es_retire ..).trans hes,
        memoryKept_of_calc hcalc _ _⟩
  · obtain ⟨n, hn⟩ := exists_of_isWaitForm hw
    obtain ⟨hop, hwid, hsn, hsw⟩ := waitForm_operand hn s.cfg
    have hfam : familyOf n = .control := by cases n <;> cases hn <;> rfl
    have hpend : s.pending = false := by simpa [Ready, hsw] using hr.2.2
    have hf := fwait_runs (fwait_ready hn hr)
    refine ⟨afterFwait s, ?_, hf⟩
    rw [exec_waitForm hn]
    refine waitThen_stops hpend hf fun u hu => ?_
    have hnw := (isWaitForm_of_waitForm hn).1
    rw [exec_around hnw, hsn] at hu
    have hquiet : Quiet .noWait (afterFwait s) := afterFwait_windowOpen hpend
    obtain ⟨ht, -⟩ | ⟨-, -, -, t, ht, -⟩ := around_cases hu
    · rw [hquiet.trapsBefore] at ht
      exact absurd ht (by simp)
    · rw [hquiet.entering] at ht
      obtain he | ⟨f, hf, hnone, -⟩ := ruleOf_missing (hop ▸ ho) hnw
        (show hasBytes (afterFwait s).cfg a.toNat (widthOf (afterFwait s).cfg n) = false by
          rw [afterFwait_cfg, ← hwid]; exact hb)
      · rw [he] at ht
        exact absurd ht (by simp)
      · rw [(suppressed_es hf hnone).1] at hfam
        exact absurd hfam (by simp)

/-- pc after FWAIT, where an instruction byte follows in range. -/
theorem afterFwait_pcNat {s : State} (h : s.pcNat + 1 < s.cfg.addrLimit) :
    s.pcOver = false ∧ (afterFwait s).pcNat = s.pcNat + 1 := by
  have hover : s.pcOver = false := by
    by_contra ho
    rw [State.pcNat, if_pos (by simpa using ho)] at h
    omega
  have hnat : s.pcNat = s.pc.toNat := by simp [State.pcNat, hover]
  have hbound := Coding.addrLimit_le s.cfg
  obtain ⟨hpc, ho⟩ := afterFwait_pc s
  refine ⟨hover, ?_⟩
  rw [State.pcNat, ho, if_neg (by simpa using h), hpc, BitVec.toNat_add, hnat,
    show (1#32).toNat = 1 from rfl, Nat.mod_eq_of_lt (by omega)]

/-- Every instruction without 9BH takes at least its two opcode bytes. -/
theorem length_pos {i : Instr} (h : i.form.wait = false) (p : Params) : 0 < i.length p := by
  have hcore : ∀ c : Core, 0 < c.length p := fun c => by cases c <;> simp [Core.length]
  obtain ⟨c, base, hform, ⟨rfl, -⟩ | hsized⟩ := Coding.plain_or_sized h
  · rw [(Coding.encode_plain hform).2]
    exact hcore c
  · rw [(Coding.encode_sized (Coding.sizedForm_spec hsized hform).1).2]
    omega

/-- The no-wait form is ready in the state FWAIT leaves. -/
theorem noWait_ready {i w : Instr} (h : i.waitForm = some w) {s : State} (hr : Ready w s) :
    s.pcNat + 1 < s.cfg.addrLimit ∧ Ready i (afterFwait s) := by
  obtain ⟨hplain, -, hlen, hav, -⟩ := Coding.waitForm_spec h s.cfg
  obtain ⟨-, -, hsn, hsw⟩ := waitForm_operand h s.cfg
  obtain ⟨ha, hp, hq⟩ := hr
  rw [hsw] at hq
  have hpos := length_pos hplain s.cfg
  have hroom : s.pcNat + (i.length s.cfg + 1) ≤ s.cfg.addrLimit := by rwa [passesTop_false_iff, hlen] at hp
  have hlt : s.pcNat + 1 < s.cfg.addrLimit := by omega
  refine ⟨hlt, ?_, ?_, ?_⟩
  · rw [afterFwait_cfg, ← hav]
    exact ha
  · rw [passesTop_false_iff, (afterFwait_pcNat hlt).2, afterFwait_cfg]
    omega
  · rw [hsn]
    exact afterFwait_windowOpen hq

theorem fetchBytes_succ (p : Params) (m : List Host.Cell) (a n : Nat) :
    fetchBytes p m a (n + 1) = if hasByte p a then Memory.read m a :: fetchBytes p m (a + 1) n else [] := rfl

/-- A longer fetch sees the same bytes first. -/
theorem fetchBytes_longer (p : Params) (m : List Host.Cell) (a n : Nat) :
    ∃ more, fetchBytes p m a (n + 1) = fetchBytes p m a n ++ more := by
  induction n generalizing a with
  | zero => exact ⟨_, rfl⟩
  | succ n ih =>
    obtain ⟨more, hmore⟩ := ih (a + 1)
    rw [fetchBytes_succ p m a (n + 1), fetchBytes_succ p m a n]
    split
    · exact ⟨more, by rw [hmore]; rfl⟩
    · exact ⟨[], rfl⟩

/-- A fetch that begins one byte later sees the bytes behind the first. -/
theorem fetchBytes_tail {p : Params} {m : List Host.Cell} {b : Byte} {rest : List Byte} {n a : Nat}
    (h : fetchBytes p m a (n + 1) = b :: rest) : ∃ more, fetchBytes p m (a + 1) (n + 1) = rest ++ more := by
  rw [fetchBytes_succ] at h
  split at h
  · obtain ⟨-, rfl⟩ := List.cons.inj h
    exact fetchBytes_longer p m (a + 1) n
  · exact absurd h (by simp)

/-- Where 9BH is a step of its own, the bytes of a wait form are run as FWAIT and the no-wait form (rule R145). -/
theorem waitForm_steps {i w : Instr} (h : i.waitForm = some w) {s : State} (hr : Ready w s)
    (hf : s.cfg.fusedWait = false) (hd : decode { s.cfg with fusedWait := true } s.code = .ok (w, w.length s.cfg))
    (hwr : ∀ k, k < w.length s.cfg → s.pcNat + k ∉ s.written) :
    step s = execFwait s ∧ step (afterFwait s) = exec i (afterFwait s) := by
  obtain ⟨hwf, -, htake⟩ := Coding.encodeOfDecode _ _ _ _ hd
  obtain ⟨hplain, henc, hlen, hav, hfit⟩ := Coding.waitForm_spec h { s.cfg with fusedWait := true }
  have hlen' : w.length s.cfg = i.length s.cfg + 1 := hlen
  have hlt := (noWait_ready h hr).1
  obtain ⟨-, hnat⟩ := afterFwait_pcNat hlt
  rw [henc, hlen'] at htake
  cases hcode : s.code with
  | nil => simp [hcode] at htake
  | cons b rest =>
    rw [hcode, List.take_succ_cons] at htake
    obtain ⟨rfl, hrest⟩ := List.cons.inj htake
    have hfetch : ∃ more, (afterFwait s).code = rest ++ more := by
      have hmem : (afterFwait s).mem = s.mem := by rw [afterFwait_eq]
      rw [State.code, hnat, hmem, afterFwait_cfg]
      exact fetchBytes_tail (n := 7) hcode
    obtain ⟨more, hmore⟩ := hfetch
    have hsplit : (afterFwait s).code = encode s.cfg i ++ (rest.drop (i.length s.cfg) ++ more) := by
      rw [hmore, show encode s.cfg i = rest.take (i.length s.cfg) from hrest.symm, ← List.append_assoc,
        List.take_append_drop]
    simp only [Instr.wellFormed, Bool.and_eq_true] at hwf
    obtain ⟨⟨hava, hfita⟩, -⟩ := hwf
    have hdi : decode (afterFwait s).cfg (afterFwait s).code = .ok (i, i.length s.cfg) := by
      rw [hsplit, afterFwait_cfg, Coding.decode_encode_plain hplain]
      exact Coding.decodeNoWait_encode hplain (hav.symm.trans hava) (hfit.symm.trans hfita) _
    have hds : decode s.cfg s.code = .ok (.fwait, 1) := by
      rw [hcode]
      exact decode_fwait hf rest
    have hkept : (afterFwait s).written = s.written := by rw [afterFwait_eq]
    refine ⟨(stepRunsDecodedInstruction s .fwait 1 hds fun k hk => hwr k (by omega)).trans (exec_fwait s),
      stepRunsDecodedInstruction _ i _ hdi fun k hk => ?_⟩
    · rw [hnat, hkept, show s.pcNat + 1 + k = s.pcNat + (k + 1) by omega]
      exact hwr (k + 1) (by omega)

/-- Settles O60: FWAIT is ready and leaves a state in which the no-wait form is (`noWait_ready`). -/
theorem waitFormsComplete : Obligations.WaitFormsComplete := by
  unfold Obligations.WaitFormsComplete
  intro i w s h hr hthere
  obtain ⟨-, -, hlen, -, -⟩ := Coding.waitForm_spec h s.cfg
  obtain ⟨hop, hwid, -, hsw⟩ := waitForm_operand h s.cfg
  obtain ⟨hlt, hri⟩ := noWait_ready h hr
  obtain ⟨hover, hnat⟩ := afterFwait_pcNat hlt
  have hpend : s.pending = false := by simpa [Ready, hsw] using hr.2.2
  have hfw := fwait_runs (fwait_ready h hr)
  have hoi : OperandThere i (afterFwait s) := by
    unfold OperandThere at hthere ⊢
    rwa [afterFwait_cfg, ← hop, ← hwid]
  have hei := exec_runs (isWaitForm_of_waitForm h).1 hri hoi
  have hkeep : Keeps (afterFwait s) (afterOf i (afterFwait s)) := ruleOf_keeps (ruleOf_there hoi)
  refine ⟨_, _, hfw, hei, (exec_waitForm h s).trans (waitThen_runs hpend hfw hei), ⟨?_, ?_⟩,
    afterFwait_eq s, fun hf hd hwr => ?_⟩
  · rw [retire_pc, hkeep.pc, hkeep.cfg, (afterFwait_pc s).1, afterFwait_cfg, hlen, BitVec.ofNat_add, BitVec.add_assoc, BitVec.add_comm 1#32]
  · have hafter : (afterOf i (afterFwait s)).pcNat = s.pcNat + 1 := by
      rw [← hnat]
      simp only [State.pcNat, hkeep.pcOver, hkeep.cfg, hkeep.pc]
    rw [retire_pcOver, hafter, hkeep.cfg, afterFwait_cfg, hlen]
    congr 1
    rw [Nat.add_assoc, Nat.add_comm 1]
  · obtain ⟨h1, h2⟩ := waitForm_steps h hr hf hd hwr
    exact ⟨h1.trans hfw, h2.trans hei⟩

end Sys2Proof.Laws.Stops
end

section
/-! The control instructions (44_control.md): the stack pointer, the words, and the images of FNSTENV and FNSAVE, whose
fields are read back by FLDENV and FRSTOR. -/

namespace Sys2Proof.Laws.Control

open Sys2Proof.Machine Sys2Proof.Laws.Shapes Sys2Proof.Laws.Frame Sys2Proof.Laws.Invariant Sys2Proof.Laws.InitClear

/-! ### The state a rule leaves, by its shape -/

theorem afterOf_compute {i : Instr} {f} (h : shapeOf i = .compute f) (s : State) : afterOf i s = f s := by
  simp only [afterOf, h]

theorem afterOf_load {i : Instr} {f} (h : shapeOf i = .load f) (s : State) :
    afterOf i s = f (s.bytesAt (addressOf i) (widthOf s.cfg i)) s := by
  simp only [afterOf, h]

theorem afterOf_store {i : Instr} {f} (h : shapeOf i = .store f) {s : State} {bs : List Byte}
    (hb : (f s).2 = some bs) : afterOf i s = (f s).1.store (addressOf i) bs := by
  simp only [afterOf, h, hb]

/-! ### What lies outside the registers and words -/

theorem outside_of_calc {D K : List (BitVec 3)} {F : List Flag} {s t : State} (h : Calc D K F s t) : OutsideKept s t :=
  ⟨h.cfg, h.pm287, ⟨h.ax, h.zf, h.pf, h.cf⟩, h.mem, h.pc, h.pcOver⟩

theorem OutsideKept.trans {s t u : State} (h : OutsideKept s t) (g : OutsideKept t u) : OutsideKept s u := by
  obtain ⟨h1, h2, h3, h4⟩ := h.host
  obtain ⟨g1, g2, g3, g4⟩ := g.host
  exact ⟨g.cfg.trans h.cfg, g.pm287.trans h.pm287, ⟨g1.trans h1, g2.trans h2, g3.trans h3, g4.trans h4⟩,
    g.mem.trans h.mem, g.pc.trans h.pc, g.pcOver.trans h.pcOver⟩

theorem PointersKept.trans {s t u : State} (h : PointersKept s t) (g : PointersKept t u) : PointersKept s u := by
  obtain ⟨h1, h2, h3, h4, h5⟩ := h
  obtain ⟨g1, g2, g3, g4, g5⟩ := g
  exact ⟨g1.trans h1, g2.trans h2, g3.trans h3, g4.trans h4, g5.trans h5⟩

theorem pointers_of_calc {D K : List (BitVec 3)} {F : List Flag} {s t : State} (h : Calc D K F s t) :
    PointersKept s t := ⟨h.fip, h.fcs, h.fdp, h.fds, h.fop⟩

/-- The same after a store of `n` bytes at `a`. -/
theorem outside_stored {s t : State} (h : OutsideKept s t) (hm : Memory.wf s.mem) (a : Addr) {bs : List Byte} {n : Nat}
    (hn : bs.length = n) (ptr : Pointers) (i : Instr) :
    ((t.store a bs).retire ptr i).pm287 = s.pm287 ∧ ((t.store a bs).retire ptr i).cfg = s.cfg ∧
      HostKept s ((t.store a bs).retire ptr i) ∧ MemoryKeptOutside a n s ((t.store a bs).retire ptr i) ∧
      Advanced i s ((t.store a bs).retire ptr i) := by
  have hnat : (t.store a bs).pcNat = s.pcNat := by
    simp only [State.pcNat, store_pcOver, store_pc, store_cfg, h.pcOver, h.cfg, h.pc]
  refine ⟨?_, ?_, ?_, fun b hb => ?_, ?_, ?_⟩
  · rw [retire_pm287, store_pm287, h.pm287]
  · rw [retire_cfg, store_cfg, h.cfg]
  · simpa [HostKept] using h.host
  · rw [retire_byteAt, byteAt_store (h.mem ▸ hm), if_neg (by omega), State.byteAt, State.byteAt, h.mem]
  · rw [retire_pc, store_pc, store_cfg, h.pc, h.cfg]
  · rw [retire_pcOver, store_cfg, h.cfg, hnat]

/-- What an instruction that records its pointers leaves in them. -/
theorem recorded_of_kept {s t : State} (h : OutsideKept s t) (hp : PointersKept s t) (i : Instr) :
    PointersRecorded i s (t.retire .record i) := by
  obtain ⟨hfip, hfop, hfcs, hdata⟩ := retire_record i t
  obtain ⟨-, kfcs, -, kfds, -⟩ := hp
  rw [h.pc] at hfip
  rw [h.cfg] at hfop hfcs hdata
  rw [kfcs] at hfcs
  rw [kfds] at hdata
  exact ⟨hfip, hfop, hfcs, hdata⟩

theorem kept_retire {s t : State} (h : PointersKept s t) (i : Instr) : PointersKept s (t.retire .keep i) :=
  PointersKept.trans h (retire_keep i t)

theorem kept_retire_store {s t : State} (h : PointersKept s t) (a : Addr) (bs : List Byte) (i : Instr) :
    PointersKept s ((t.store a bs).retire .keep i) := h

/-! ### The undefined condition codes -/

theorem openC0123_outside (s : State) : OutsideKept s s.openC0123 :=
  outside_of_calc (calc_openC0123 (K := []) (F := []) s)

theorem openC0123_pointers (s : State) : PointersKept s s.openC0123 :=
  pointers_of_calc (calc_openC0123 (K := []) (F := []) s)

@[simp] theorem openC0123_flag (s : State) (f : Flag) : s.openC0123.sw.flag f = s.sw.flag f :=
  ((calc_openC0123 (K := []) (F := []) s).flags f).2 (by simp)

@[simp] theorem openC0123_top (s : State) : s.openC0123.sw.top = s.sw.top :=
  (calc_openC0123 (K := []) (F := []) s).sameTop

@[simp] theorem openC0123_cw (s : State) : s.openC0123.cw = s.cw := (calc_openC0123 (K := []) (F := []) s).cw

/-! ### FDECSTP, FINCSTP and FFREE -/

theorem stackManagement_encodings (p : Params) (k : BitVec 3) :
    encode p .fdecstp = [0xD9#8, 0xF6#8] ∧ Instr.fdecstp.available p = true ∧
    encode p .fincstp = [0xD9#8, 0xF7#8] ∧ Instr.fincstp.available p = true ∧
    encode p (.ffree k) = [0xDD#8, 0xC0#8 + k.setWidth 8] ∧ (Instr.ffree k).available p = true := by
  refine ⟨rfl, decide_eq_true (Nat.zero_le _), rfl, decide_eq_true (Nat.zero_le _), ?_, decide_eq_true (Nat.zero_le _)⟩
  rcases Coding.bitVec3_cases k with rfl | rfl | rfl | rfl | rfl | rfl | rfl | rfl <;> rfl

/-- TOP moves, C1 is cleared, C0, C2 and C3 are left open, and nothing else changes (rules R403, R409). -/
theorem rotate_spec (d : BitVec 3) (s : State) :
    OutsideKept s (s.rotate d) ∧ PointersKept s (s.rotate d) ∧ (s.rotate d).cw = s.cw ∧ (s.rotate d).sw.top = d ∧
      (s.rotate d).sw.c1 = false ∧ (∀ f, (s.rotate d).sw.flag f = s.sw.flag f) ∧ (s.rotate d).regs = s.regs ∧
      (s.rotate d).tags = s.tags := by
  have h := calc_openC023 (K := []) (F := []) ((s.setTop d).withC1 false)
  have hset : OutsideKept s ((s.setTop d).withC1 false) := ⟨rfl, rfl, ⟨rfl, rfl, rfl, rfl⟩, rfl, rfl, rfl⟩
  have hptr : PointersKept s ((s.setTop d).withC1 false) := ⟨rfl, rfl, rfl, rfl, rfl⟩
  refine ⟨OutsideKept.trans hset (outside_of_calc h), PointersKept.trans hptr (pointers_of_calc h), h.cw, h.sameTop,
    SignBit.openC023_c1 _, fun f => (SignBit.openC023_flag _ f).trans ?_, SignBit.openC023_regs _,
    SignBit.openC023_tags _⟩
  cases f <;> rfl

theorem top_add (t : BitVec 3) : (t + 1#3).toNat = (t.toNat + 1) % 8 ∧ (t - 1#3).toNat = (t.toNat + 7) % 8 := by
  revert t
  decide

theorem rotate_runs {i : Instr} {d : State → BitVec 3}
    (hs : shapeOf i = .compute fun s => s.rotate (d s)) (hp : ∀ s, pointersOf i s = .record)
    (hw : i.isWaitForm = false) (ho : i.operand = none) {s : State} (h : Ready i s) :
    ∃ t, exec i s = .next t ∧ t.sw.top = d s ∧ t.sw.c1 = false ∧ (∀ f, t.sw.flag f = s.sw.flag f) ∧
      t.regs = s.regs ∧ t.tags = s.tags ∧ ControlKept s t ∧ HostKept s t ∧ MemoryKept s t ∧
      PointersRecorded i s t ∧ Advanced i s t := by
  have hrun := exec_runs hw h (by simp [OperandThere, ho])
  rw [afterOf_compute hs, hp] at hrun
  obtain ⟨hout, hptr, hcw, htop, hc1, hflag, hregs, htags⟩ := rotate_spec (d s) s
  obtain ⟨hpm, hcfg, hhost, hmem, hadv⟩ := hout.retired .record i
  exact ⟨_, hrun, by rw [retire_sw, htop], by rw [retire_sw, hc1], fun f => by rw [retire_sw, hflag],
    (retire_regs ..).trans hregs, (retire_tags ..).trans htags, ⟨hcfg, (retire_cw ..).trans hcw, hpm⟩, hhost, hmem,
    recorded_of_kept hout hptr i, hadv⟩

/-- The tag of ST(i) alone changes (rule R408). -/
theorem free_spec (k : BitVec 3) (s : State) :
    Calc [0#3] [k] [] s (s.setTag (s.phys k) .empty).openC0123 :=
  (calc_setTag (K := [k]) (F := []) (by simp) s).trans (calc_openC0123 _)

/-- Settles O51. -/
theorem stackManagement : Obligations.StackManagement := by
  unfold Obligations.StackManagement
  refine ⟨stackManagement_encodings, fun i s hi hr => ?_, fun k s hr => ?_⟩
  · obtain ⟨hinc, hdec⟩ := top_add s.sw.top
    obtain rfl | rfl : i = .fdecstp ∨ i = .fincstp := by simpa using hi
    · obtain ⟨t, he, htop, hrest⟩ := rotate_runs (i := .fdecstp) (d := fun s => s.sw.top - 1#3) rfl (fun _ => rfl)
        rfl rfl hr
      exact ⟨t, he, by rw [htop, hdec, if_neg (by simp)], hrest⟩
    · obtain ⟨t, he, htop, hrest⟩ := rotate_runs (i := .fincstp) (d := fun s => s.sw.top + 1#3) rfl (fun _ => rfl)
        rfl rfl hr
      exact ⟨t, he, by rw [htop, hinc, if_pos rfl], hrest⟩
  · have hrun := exec_runs (i := .ffree k) rfl hr trivial
    rw [afterOf_compute rfl] at hrun
    have hcalc := free_spec k s
    have htag : ∀ j, ((s.setTag (s.phys k) .empty).openC0123).tag j = if j = s.sw.top + k then .empty else s.tag j :=
      fun j => (tag_congr (openC0123_tags _) j).trans (tag_setTag ..)
    obtain ⟨hpm, hcfg, hhost, hmem, hadv⟩ := (outside_of_calc hcalc).retired .record (.ffree k)
    refine ⟨_, hrun, ?_, fun j hj => ?_, (retire_regs ..).trans (openC0123_regs _), ?_, fun f => ?_,
      ⟨hcfg, (retire_cw ..).trans hcalc.cw, hpm⟩, hhost, hmem,
      recorded_of_kept (outside_of_calc hcalc) (pointers_of_calc hcalc) _, hadv⟩
    · rw [retire_tag, htag, if_pos rfl]
    · rw [retire_tag, htag, if_neg hj]
    · rw [retire_sw]
      exact hcalc.sameTop
    · rw [retire_sw]
      exact (hcalc.flags f).2 (by simp)

/-! ### FNOP, FWAIT, FNDISI, FNENI and FSETPM -/

/-- What the open condition codes leave once the instruction has ended. -/
theorem open_retired (ptr : Pointers) (i : Instr) (s : State) :
    Advanced i s (s.openC0123.retire ptr i) ∧ (s.openC0123.retire ptr i).regs = s.regs ∧
      (s.openC0123.retire ptr i).tags = s.tags ∧ (s.openC0123.retire ptr i).sw.top = s.sw.top ∧
      (∀ f, (s.openC0123.retire ptr i).sw.flag f = s.sw.flag f) ∧ ControlKept s (s.openC0123.retire ptr i) ∧
      HostKept s (s.openC0123.retire ptr i) ∧ MemoryKept s (s.openC0123.retire ptr i) := by
  obtain ⟨hpm, hcfg, hhost, hmem, hadv⟩ := (openC0123_outside s).retired ptr i
  exact ⟨hadv, (retire_regs ..).trans (openC0123_regs s), (retire_tags ..).trans (openC0123_tags s),
    by rw [retire_sw, openC0123_top], fun f => by rw [retire_sw, openC0123_flag],
    ⟨hcfg, (retire_cw ..).trans (openC0123_cw s), hpm⟩, hhost, hmem⟩

theorem setIem_bit (b : Bool) (s : State) {k : Nat} (hk : k < 16) :
    (s.setIem b).cw.getLsbD k = if k = 7 then b else s.cw.getLsbD k := by
  cases b
  · simp only [State.setIem, Bool.false_eq_true, if_false, BitVec.getLsbD_and]
    interval_cases k <;> simp
  · simp only [State.setIem, if_true, BitVec.getLsbD_or]
    interval_cases k <;> simp

/-- An instruction that acts on one generation only, on CW or PM287. -/
theorem one_generation {i : Instr} {s u : State} (hrun : exec i s = .next (u.retire (pointersOf i s) i))
    (hcfg : u.cfg = s.cfg) (hsw : u.sw = s.sw) (hregs : u.regs = s.regs) (htags : u.tags = s.tags)
    (hhost : HostKept s u) (hmem : u.mem = s.mem) (hpc : u.pc = s.pc) (ho : u.pcOver = s.pcOver) {g : Gen}
    (hkeep : s.cfg.gen ≠ g → u = s ∧ pointersOf i s = .keep) :
    ∃ t, exec i s = .next t ∧ t.cw = u.cw ∧ t.pm287 = u.pm287 ∧ Advanced i s t ∧ t.cfg = s.cfg ∧ t.sw = s.sw ∧
      t.regs = s.regs ∧ t.tags = s.tags ∧ HostKept s t ∧ MemoryKept s t ∧ (s.cfg.gen ≠ g → PointersKept s t) := by
  have hnat : u.pcNat = s.pcNat := by simp only [State.pcNat, ho, hcfg, hpc]
  refine ⟨_, hrun, retire_cw .., retire_pm287 .., ⟨by rw [retire_pc, hpc, hcfg], by rw [retire_pcOver, hcfg, hnat]⟩,
    (retire_cfg ..).trans hcfg, (retire_sw ..).trans hsw, (retire_regs ..).trans hregs, (retire_tags ..).trans htags,
    by simpa [HostKept] using hhost, fun a => by rw [retire_byteAt, State.byteAt, State.byteAt, hmem], fun hg => ?_⟩
  obtain ⟨rfl, hp⟩ := hkeep hg
  rw [hp]
  exact retire_keep i u

/-- FNDISI and FNENI: bit 7 of CW on the 8087, nothing elsewhere (rules R405, R407). -/
theorem setIem_runs {i : Instr} {b : Bool} (hi : (i, b) ∈ [(Instr.fndisi, true), (.fneni, false)]) {s : State}
    (hr : Ready i s) :
    ∃ t, exec i s = .next t ∧
      (∀ k, k < 16 → t.cw.getLsbD k = if k = 7 ∧ s.cfg.gen = .g8087 then b else s.cw.getLsbD k) ∧
      t.pm287 = s.pm287 ∧ Advanced i s t ∧ t.cfg = s.cfg ∧ t.sw = s.sw ∧ t.regs = s.regs ∧ t.tags = s.tags ∧
      HostKept s t ∧ MemoryKept s t ∧ (s.cfg.gen ≠ .g8087 → PointersKept s t) := by
  have hrun : exec i s = .next ((if s.cfg.gen = .g8087 then s.setIem b else s).retire (pointersOf i s) i) ∧
      pointersOf i s = pointersOn .g8087 s := by
    obtain ⟨rfl, rfl⟩ | ⟨rfl, rfl⟩ : (i = .fndisi ∧ b = true) ∨ (i = .fneni ∧ b = false) := by simpa using hi
    · exact ⟨exec_runs rfl hr trivial, rfl⟩
    · exact ⟨exec_runs rfl hr trivial, rfl⟩
  obtain ⟨t, he, hcw, hpm, hrest⟩ := one_generation (g := .g8087) hrun.1
    (by split <;> rfl) (by split <;> rfl) (by split <;> rfl) (by split <;> rfl)
    (by split <;> exact ⟨rfl, rfl, rfl, rfl⟩) (by split <;> rfl) (by split <;> rfl) (by split <;> rfl)
    fun hg => ⟨if_neg hg, hrun.2.trans (if_neg hg)⟩
  refine ⟨t, he, fun k hk => ?_, hpm.trans (by split <;> rfl), hrest⟩
  rw [hcw]
  by_cases hg : s.cfg.gen = .g8087
  · rw [if_pos hg, setIem_bit b s hk]
    simp [hg]
  · simp [hg]

/-- FSETPM sets PM287 on the 287 and does nothing elsewhere (rule R418). -/
theorem fsetpm_runs {s : State} (hr : Ready .fsetpm s) :
    ∃ t, exec .fsetpm s = .next t ∧ t.cw = s.cw ∧ t.pm287 = (s.pm287 || decide (s.cfg.gen = .g287)) ∧
      Advanced .fsetpm s t ∧ t.cfg = s.cfg ∧ t.sw = s.sw ∧ t.regs = s.regs ∧ t.tags = s.tags ∧ HostKept s t ∧
      MemoryKept s t ∧ (s.cfg.gen ≠ .g287 → PointersKept s t) := by
  have hrun := exec_runs (i := .fsetpm) rfl hr trivial
  rw [afterOf_compute rfl] at hrun
  obtain ⟨t, he, hcw, hpm, hrest⟩ := one_generation (g := .g287) hrun
    (by split <;> rfl) (by split <;> rfl) (by split <;> rfl) (by split <;> rfl)
    (by split <;> exact ⟨rfl, rfl, rfl, rfl⟩) (by split <;> rfl) (by split <;> rfl) (by split <;> rfl)
    fun hg => ⟨if_neg hg, if_neg hg⟩
  refine ⟨t, he, hcw.trans (by split <;> rfl), hpm.trans ?_, hrest⟩
  by_cases hg : s.cfg.gen = .g287 <;> simp [hg]

/-- Settles O52. -/
theorem noOperations : Obligations.NoOperations := by
  unfold Obligations.NoOperations
  refine ⟨fun i s hi hr => ?_, fun i s hi hr => ?_⟩
  · obtain rfl | rfl : i = .fnop ∨ i = .fwait := by simpa using hi
    · have hrun := exec_runs (i := .fnop) rfl hr trivial
      rw [afterOf_compute rfl] at hrun
      obtain ⟨hadv, hregs, htags, htop, hflag, hctl, hhost, hmem⟩ := open_retired .record .fnop s
      exact ⟨_, hrun, hadv.1, hadv, hregs, htags, htop, hflag, hctl, hhost, hmem,
        fun _ => recorded_of_kept (openC0123_outside s) (openC0123_pointers s) _, nofun⟩
    · have hrun := exec_runs (i := .fwait) rfl hr trivial
      rw [afterOf_compute rfl] at hrun
      obtain ⟨hadv, hregs, htags, htop, hflag, hctl, hhost, hmem⟩ := open_retired .keep .fwait s
      exact ⟨_, hrun, hadv.1, hadv, hregs, htags, htop, hflag, hctl, hhost, hmem, nofun,
        fun _ => kept_retire (openC0123_pointers s) _⟩
  · obtain rfl | rfl | rfl : i = .fndisi ∨ i = .fneni ∨ i = .fsetpm := by simpa using hi
    · obtain ⟨t, he, hcw, hpm, hadv, hrest⟩ := setIem_runs (b := true) (by simp) hr
      exact ⟨t, he, hadv, fun k hk => by simpa using hcw k hk, by simpa using hpm, hrest⟩
    · obtain ⟨t, he, hcw, hpm, hadv, hrest⟩ := setIem_runs (b := false) (by simp) hr
      exact ⟨t, he, hadv, fun k hk => by simpa using hcw k hk, by simpa using hpm, hrest⟩
    · obtain ⟨t, he, hcw, hpm, hadv, hrest⟩ := fsetpm_runs hr
      exact ⟨t, he, hadv, fun k hk => by simp [hcw], by simpa using hpm, hrest⟩

/-! ### FLDCW, FNSTCW and FNSTSW -/

/-- Settles O53, from the bits CW keeps (`cwKeep_bit`). -/
theorem fldcw : Obligations.Fldcw := by
  unfold Obligations.Fldcw
  intro a s hr hthere
  have hrun := exec_runs (i := .fldcw a) rfl hr hthere
  rw [afterOf_load rfl, show addressOf (.fldcw a) = a from rfl, show widthOf s.cfg (.fldcw a) = 2 from rfl] at hrun
  have hset : OutsideKept s { s with cw := cwKeep s.cfg.gen (word16At (s.bytesAt a 2) 0) } :=
    ⟨rfl, rfl, ⟨rfl, rfl, rfl, rfl⟩, rfl, rfl, rfl⟩
  have hptr : PointersKept s { s with cw := cwKeep s.cfg.gen (word16At (s.bytesAt a 2) 0) } :=
    ⟨rfl, rfl, rfl, rfl, rfl⟩
  obtain ⟨hpm, hcfg, hhost, hmem, hadv⟩ := (OutsideKept.trans hset (openC0123_outside _)).retired .keep (.fldcw a)
  have hword : word16At (s.bytesAt a 2) 0 = BitVec.ofNat 16 (leNat (s.bytesAt a 2)) := by
    rw [word16At, List.drop_zero, List.take_of_length_le (by simp)]
  refine ⟨_, hrun, fun k hk => ?_, fun f => ?_, ?_, ?_, ?_, ?_, hpm, hcfg, hhost, hmem, hadv⟩
  · rw [retire_cw, openC0123_cw, ← hword]
    exact cwKeep_bit _ _ hk
  · rw [retire_sw, openC0123_flag]
  · rw [retire_sw, openC0123_top]
  · exact (retire_regs ..).trans (openC0123_regs _)
  · exact (retire_tags ..).trans (openC0123_tags _)
  · exact kept_retire (PointersKept.trans hptr (openC0123_pointers _)) (.fldcw a)

theorem leNat_half2 (w : Word16) : leNat (half2 w) = w.toNat := by
  rw [half2, leNat_leBytes]
  exact Nat.mod_eq_of_lt w.isLt

theorem leNat_full4 (w : BitVec 32) : leNat (full4 w) = w.toNat := by
  rw [full4, leNat_leBytes]
  exact Nat.mod_eq_of_lt w.isLt

@[simp] theorem retire_bytesAt (ptr : Pointers) (i : Instr) (t : State) (a : Addr) (n : Nat) :
    (t.retire ptr i).bytesAt a n = t.bytesAt a n := by simp [State.bytesAt]

/-- A word that is stored is read back, and no other byte changes. -/
theorem word_stored {s : State} (hm : Memory.wf s.mem) (a : Addr) (w : Word16) (i : Instr) :
    leNat (((s.openC0123.store a (half2 w)).retire .keep i).bytesAt a 2) = w.toNat ∧
      MemoryKeptOutside a 2 s ((s.openC0123.store a (half2 w)).retire .keep i) ∧
      ((s.openC0123.store a (half2 w)).retire .keep i).regs = s.regs ∧
      ((s.openC0123.store a (half2 w)).retire .keep i).tags = s.tags ∧
      ((s.openC0123.store a (half2 w)).retire .keep i).sw.top = s.sw.top ∧
      (∀ f, ((s.openC0123.store a (half2 w)).retire .keep i).sw.flag f = s.sw.flag f) ∧
      ControlKept s ((s.openC0123.store a (half2 w)).retire .keep i) ∧
      PointersKept s ((s.openC0123.store a (half2 w)).retire .keep i) ∧
      HostKept s ((s.openC0123.store a (half2 w)).retire .keep i) ∧
      Advanced i s ((s.openC0123.store a (half2 w)).retire .keep i) := by
  have hout := openC0123_outside s
  have hread := bytesAt_store (s := s.openC0123) (by rw [hout.mem]; exact hm) a (half2 w)
  rw [length_half2] at hread
  obtain ⟨hpm, hcfg, hhost, hmem, hadv⟩ := outside_stored hout hm a (length_half2 w) .keep i
  refine ⟨by rw [retire_bytesAt, hread, leNat_half2], hmem, ?_, ?_, ?_, fun f => ?_, ⟨hcfg, ?_, hpm⟩,
    kept_retire_store (openC0123_pointers s) a _ i, hhost, hadv⟩
  · rw [retire_regs, store_regs, openC0123_regs]
  · rw [retire_tags, store_tags, openC0123_tags]
  · rw [retire_sw, store_sw, openC0123_top]
  · rw [retire_sw, store_sw, openC0123_flag]
  · rw [retire_cw, store_cw, openC0123_cw]

/-- Settles O54. -/
theorem storeControlAndStatus : Obligations.StoreControlAndStatus := by
  unfold Obligations.StoreControlAndStatus
  refine ⟨fun i a s hi hr hthere hm => ?_, fun s hr => ?_⟩
  · obtain rfl | rfl : i = .fnstcw a ∨ i = .fnstswM16 a := by simpa using hi
    · have hrun := exec_runs (i := .fnstcw a) rfl hr hthere
      rw [afterOf_store rfl rfl] at hrun
      obtain ⟨hw, hrest⟩ := word_stored hm a (cwKeep s.cfg.gen s.cw) (.fnstcw a)
      refine ⟨_, hrun, fun _ hg => hw.trans (by rw [cwKeep, if_neg hg]), fun _ hwf => hw.trans ?_, nofun, hrest⟩
      rw [((wf_iff s).1 hwf).1.cw]
    · have hrun := exec_runs (i := .fnstswM16 a) rfl hr hthere
      rw [afterOf_store rfl rfl] at hrun
      obtain ⟨hw, hrest⟩ := word_stored hm a s.swWord (.fnstswM16 a)
      exact ⟨_, hrun, nofun, nofun, fun _ => hw, hrest⟩
  · have hrun := exec_runs (i := .fnstswAx) rfl hr trivial
    rw [afterOf_compute rfl] at hrun
    have hcalc := calc_openC0123 (K := []) (F := []) { s with ax := s.swWord }
    obtain ⟨hadv, hregs, htags, htop, hflag, ⟨hcfg, hcw, hpm⟩, ⟨hax, hzf, hpf, hcf⟩, hmem⟩ :=
      open_retired .keep .fnstswAx { s with ax := s.swWord }
    exact ⟨_, hrun, hax, hzf, hpf, hcf, hmem, hregs, htags, htop, hflag, ⟨hcfg, hcw, hpm⟩,
      kept_retire (pointers_of_calc hcalc) _, hadv⟩

end Sys2Proof.Laws.Control
end

section
/-! The environment and state images (20_memory.md rules R106 to R110): what FNSTENV and FNSAVE store at each offset, what
FLDENV and FRSTOR load from there, and that the one undoes the other. -/

namespace Sys2Proof.Laws.Images

open Sys2Proof.Machine Sys2Proof.Laws.Shapes Sys2Proof.Laws.Frame Sys2Proof.Laws.Invariant Sys2Proof.Laws.InitClear
open Sys2Proof.Laws.Control

/-! ### Bytes at an offset -/

theorem readBytes_drop (m : List Host.Cell) (a n k : Nat) :
    (Memory.readBytes m a n).drop k = Memory.readBytes m (a + k) (n - k) := by
  induction k generalizing a n with
  | zero => rfl
  | succ k ih =>
    cases n with
    | zero => simp [Memory.readBytes]
    | succ n =>
      rw [Memory.readBytes, List.drop_succ_cons, ih, Nat.add_sub_add_right, Nat.add_assoc, Nat.add_comm 1]

theorem readBytes_take (m : List Host.Cell) (a n k : Nat) (h : k ≤ n) :
    (Memory.readBytes m a n).take k = Memory.readBytes m a k := by
  induction k generalizing a n with
  | zero => simp [Memory.readBytes]
  | succ k ih =>
    cases n with
    | zero => omega
    | succ n => rw [Memory.readBytes, List.take_succ_cons, ih _ _ (by omega), Memory.readBytes]

theorem readBytes_congr {m m' : List Host.Cell} {a n : Nat}
    (h : ∀ b, a ≤ b → b < a + n → Memory.read m b = Memory.read m' b) :
    Memory.readBytes m a n = Memory.readBytes m' a n := by
  induction n generalizing a with
  | zero => rfl
  | succ n ih =>
    rw [Memory.readBytes, Memory.readBytes, h a (by omega) (by omega), ih fun b h1 h2 => h b (by omega) (by omega)]

/-- The bytes of `img` stand at `a` in the state, the ones at each offset at the address with that offset. -/
def ImageAt (a : Addr) (img : List Byte) (t : State) : Prop :=
  ∀ k n, 0 < n → k + n ≤ img.length → t.bytesAt (a + BitVec.ofNat 32 k) n = (img.drop k).take n

theorem imageAt_of_bytesAt {a : Addr} {img : List Byte} {t : State} (h : t.bytesAt a img.length = img)
    (ha : a.toNat + img.length ≤ 4294967296) : ImageAt a img t := by
  intro k n hn hk
  have haddr : (a + BitVec.ofNat 32 k).toNat = a.toNat + k := by
    rw [BitVec.toNat_add, BitVec.toNat_ofNat]
    omega
  unfold State.bytesAt at h ⊢
  rw [haddr, ← h, readBytes_drop, readBytes_take _ _ _ _ (by omega)]

theorem ImageAt.left {a : Addr} {x y : List Byte} {t : State} (h : ImageAt a (x ++ y) t) : ImageAt a x t := by
  intro k n hn hk
  rw [h k n hn (by rw [List.length_append]; omega), List.drop_append_of_le_length (by omega),
    List.take_append_of_le_length (by rw [List.length_drop]; omega)]

theorem ImageAt.right {a : Addr} {x y : List Byte} {t : State} (h : ImageAt a (x ++ y) t) {k n : Nat} (hn : 0 < n)
    (hk : k + n ≤ y.length) : t.bytesAt (a + BitVec.ofNat 32 (x.length + k)) n = (y.drop k).take n := by
  rw [h (x.length + k) n hn (by rw [List.length_append]; omega), List.drop_append, List.drop_eq_nil_of_le (by omega),
    List.nil_append, Nat.add_sub_cancel_left]

/-- Bytes that are all provided lie below the top of the address space. -/
theorem operand_bound {p : Params} {a : Addr} {n : Nat} (h : hasBytes p a.toNat n = true) (hn : 0 < n) :
    a.toNat + n ≤ 4294967296 := by
  have := hasBytes_limit h (x := a.toNat + (n - 1)) (by omega)
  have := Coding.addrLimit_le p
  omega

theorem imageAt_stored {s : State} (hm : Memory.wf s.mem) {a : Addr} {img : List Byte}
    (hb : hasBytes s.cfg a.toNat img.length = true) (hn : 0 < img.length) (ptr : Pointers) (i : Instr) :
    ImageAt a img ((s.store a img).retire ptr i) :=
  imageAt_of_bytesAt ((retire_bytesAt ..).trans (bytesAt_store hm a img)) (operand_bound hb hn)

theorem imageAt_self {s : State} {a : Addr} {n : Nat} (hb : hasBytes s.cfg a.toNat n = true) (hn : 0 < n) :
    ImageAt a (s.bytesAt a n) s :=
  imageAt_of_bytesAt (by rw [length_bytesAt]) (by rw [length_bytesAt]; exact operand_bound hb hn)

/-- The same bytes, the same image. -/
theorem bytesAt_congr {a : Addr} {n : Nat} {t u : State}
    (h : ∀ b, a.toNat ≤ b → b < a.toNat + n → t.byteAt b = u.byteAt b) : t.bytesAt a n = u.bytesAt a n :=
  readBytes_congr h

theorem imageField_of_imageAt {a : Addr} {img : List Byte} {t : State} (h : ImageAt a img t) {k n : Nat} (hn : 0 < n)
    (hk : k + n ≤ img.length) : imageField a k n t = leNat ((img.drop k).take n) := by
  rw [imageField, h k n hn hk]

/-! ### Words made of parts -/

theorem toNat_append_add {m n : Nat} (x : BitVec m) (y : BitVec n) : (x ++ y).toNat = x.toNat * 2 ^ n + y.toNat := by
  rw [BitVec.toNat_append, ← Nat.shiftLeft_add_eq_or_of_lt y.isLt, Nat.shiftLeft_eq]

theorem toNat_extract {m : Nat} (x : BitVec m) (i n : Nat) : (x.extractLsb' i n).toNat = x.toNat / 2 ^ i % 2 ^ n := by
  rw [BitVec.extractLsb'_toNat, Nat.shiftRight_eq_div_pow]

theorem word16At_toNat (bs : List Byte) (k : Nat) : (word16At bs k).toNat = leNat ((bs.drop k).take 2) := by
  have h := leNat_lt ((bs.drop k).take 2)
  have hl : ((bs.drop k).take 2).length ≤ 2 := by simp
  have hp : 256 ^ ((bs.drop k).take 2).length ≤ 256 ^ 2 := Nat.pow_le_pow_right (by decide) hl
  rw [word16At, BitVec.toNat_ofNat, Nat.mod_eq_of_lt (by omega)]

theorem word32At_toNat (bs : List Byte) (k : Nat) : (word32At bs k).toNat = leNat ((bs.drop k).take 4) := by
  have h := leNat_lt ((bs.drop k).take 4)
  have hl : ((bs.drop k).take 4).length ≤ 4 := by simp
  have hp : 256 ^ ((bs.drop k).take 4).length ≤ 256 ^ 4 := Nat.pow_le_pow_right (by decide) hl
  rw [word32At, BitVec.toNat_ofNat, Nat.mod_eq_of_lt (by omega)]

/-! ### The fields that are stored -/

/-- How far apart the first fields of an image are. -/
def imageStep (small : Bool) : Nat := if small then 2 else 4

/-- CW, SW and TW are the first three fields (rules R107 to R109). -/
theorem envImage_words (small : Bool) (s : State) :
    (s.envImage small).take 2 = half2 (cwKeep s.cfg.gen s.cw) ∧
    ((s.envImage small).drop (imageStep small)).take 2 = half2 s.swWord ∧
    ((s.envImage small).drop (2 * imageStep small)).take 2 = half2 s.tagWord := by
  cases small <;> exact ⟨rfl, rfl, rfl⟩

theorem envImage_small_real {s : State} (h : Params.realMode s.cfg = true) :
    ((s.envImage true).drop 6).take 2 = half2 (s.fip.extractLsb' 0 16) ∧
    ((s.envImage true).drop 8).take 2 = half2 ((s.fip.extractLsb' 16 4 ++ 0#1) ++ s.fop) ∧
    ((s.envImage true).drop 10).take 2 = half2 (s.fdp.extractLsb' 0 16) ∧
    ((s.envImage true).drop 12).take 2 = half2 (s.fdp.extractLsb' 16 4 ++ 0#12) := by
  simp only [State.envImage, h, if_true]
  exact ⟨rfl, rfl, rfl, rfl⟩

theorem envImage_small_prot {s : State} (h : Params.realMode s.cfg = false) :
    ((s.envImage true).drop 6).take 2 = half2 (s.fip.extractLsb' 0 16) ∧
    ((s.envImage true).drop 8).take 2 = half2 s.fcs ∧
    ((s.envImage true).drop 10).take 2 = half2 (s.fdp.extractLsb' 0 16) ∧
    ((s.envImage true).drop 12).take 2 = half2 s.fds := by
  simp only [State.envImage, h, if_true, Bool.false_eq_true, if_false]
  exact ⟨rfl, rfl, rfl, rfl⟩

theorem envImage_large_real {s : State} (h : Params.realMode s.cfg = true) :
    ((s.envImage false).drop 12).take 2 = half2 (s.fip.extractLsb' 0 16) ∧
    ((s.envImage false).drop 16).take 4 = full4 (((0#4 ++ s.fip.extractLsb' 16 16) ++ 0#1) ++ s.fop) ∧
    ((s.envImage false).drop 20).take 2 = half2 (s.fdp.extractLsb' 0 16) ∧
    ((s.envImage false).drop 24).take 4 = full4 ((0#4 ++ s.fdp.extractLsb' 16 16) ++ 0#12) := by
  simp only [State.envImage, h, if_true, Bool.false_eq_true, if_false]
  exact ⟨rfl, rfl, rfl, rfl⟩

theorem envImage_large_prot {s : State} (h : Params.realMode s.cfg = false) :
    ((s.envImage false).drop 12).take 4 = full4 s.fip ∧ ((s.envImage false).drop 16).take 2 = half2 s.fcs ∧
    ((s.envImage false).drop 18).take 2 = half2 (0#5 ++ s.fop) ∧ ((s.envImage false).drop 20).take 4 = full4 s.fdp ∧
    ((s.envImage false).drop 24).take 2 = half2 s.fds := by
  simp only [State.envImage, h, Bool.false_eq_true, if_false]
  exact ⟨rfl, rfl, rfl, rfl, rfl⟩

/-- The pointers of the state stand in its image (rules R107 to R109). -/
theorem pointersStored {small : Bool} {a : Addr} {s t : State} (h : ImageAt a (s.envImage small) t) :
    PointersStored (imageStep small) a s t := by
  have hfop := s.fop.isLt
  have hlen := length_envImage small s
  have hfip := s.fip.isLt
  have hfdp := s.fdp.isLt
  unfold PointersStored
  cases small <;> cases hr : Params.realMode s.cfg
  · obtain ⟨h1, h2, h3, h4, h5⟩ := envImage_large_prot hr
    simp only [imageStep, Bool.false_eq_true, if_false, if_true]
    rw [imageField_of_imageAt h (by decide) (by rw [hlen]; decide), imageField_of_imageAt h (by decide) (by rw [hlen]; decide),
      imageField_of_imageAt h (by decide) (by rw [hlen]; decide), imageField_of_imageAt h (by decide) (by rw [hlen]; decide),
      imageField_of_imageAt h (by decide) (by rw [hlen]; decide), h1, h2, h3, h4, h5]
    simp only [leNat_half2, leNat_full4, toNat_append_add]
    exact ⟨trivial, trivial, by simp, trivial, trivial⟩
  · obtain ⟨h1, h2, h3, h4⟩ := envImage_large_real hr
    simp only [imageStep, Bool.false_eq_true, if_false, if_true]
    rw [imageField_of_imageAt h (by decide) (by rw [hlen]; decide), imageField_of_imageAt h (by decide) (by rw [hlen]; decide),
      imageField_of_imageAt h (by decide) (by rw [hlen]; decide), imageField_of_imageAt h (by decide) (by rw [hlen]; decide),
      h1, h2, h3, h4]
    simp only [leNat_half2, leNat_full4, toNat_append_add, toNat_extract, BitVec.toNat_ofNat]
    refine ⟨?_, ?_, ?_, ?_⟩ <;> omega
  · obtain ⟨h1, h2, h3, h4⟩ := envImage_small_prot hr
    simp only [imageStep, Bool.false_eq_true, if_false, if_true]
    rw [if_neg (by decide), imageField_of_imageAt h (by decide) (by rw [hlen]; decide),
      imageField_of_imageAt h (by decide) (by rw [hlen]; decide), imageField_of_imageAt h (by decide) (by rw [hlen]; decide),
      imageField_of_imageAt h (by decide) (by rw [hlen]; decide), h1, h2, h3, h4]
    simp only [leNat_half2, toNat_extract]
    refine ⟨?_, trivial, ?_, trivial⟩ <;> omega
  · obtain ⟨h1, h2, h3, h4⟩ := envImage_small_real hr
    simp only [imageStep, if_true]
    rw [if_neg (by decide), imageField_of_imageAt h (by decide) (by rw [hlen]; decide),
      imageField_of_imageAt h (by decide) (by rw [hlen]; decide), imageField_of_imageAt h (by decide) (by rw [hlen]; decide),
      imageField_of_imageAt h (by decide) (by rw [hlen]; decide), h1, h2, h3, h4]
    simp only [leNat_half2, toNat_append_add, toNat_extract, BitVec.toNat_ofNat]
    refine ⟨?_, ?_, ?_, ?_⟩ <;> omega

/-- The words of the environment as they stand in the image. -/
theorem wordsStored {small : Bool} {a : Addr} {s t : State} (h : ImageAt a (s.envImage small) t) :
    leNat (t.bytesAt a 2) = (cwKeep s.cfg.gen s.cw).toNat ∧
    leNat (t.bytesAt (a + BitVec.ofNat 32 (imageStep small)) 2) = s.swWord.toNat ∧
    leNat (t.bytesAt (a + BitVec.ofNat 32 (2 * imageStep small)) 2) = s.tagWord.toNat := by
  obtain ⟨h1, h2, h3⟩ := envImage_words small s
  have hlen := length_envImage small s
  have hsize : 2 * imageStep small + 2 ≤ envSize small := by cases small <;> decide
  have h0 := h 0 2 (by decide) (by omega)
  rw [BitVec.add_zero, List.drop_zero] at h0
  rw [h0, h _ 2 (by decide) (by omega), h _ 2 (by decide) (by omega), h1, h2, h3, leNat_half2, leNat_half2, leNat_half2]
  exact ⟨rfl, rfl, rfl⟩

/-- The eight registers stand in stack order behind the environment (rule R110). -/
theorem regImage_field (s : State) (k : BitVec 3) :
    (s.regImage.drop (10 * k.toNat)).take 10 = leBytes 10 (s.st k).toNat := by
  rcases Coding.bitVec3_cases k with rfl | rfl | rfl | rfl | rfl | rfl | rfl | rfl <;> rfl

theorem leNat_leBytes_ext (x : Ext) : leNat (leBytes 10 x.toNat) = x.toNat := by
  rw [leNat_leBytes]
  exact Nat.mod_eq_of_lt x.isLt

/-! ### FNSTENV and FNSAVE -/

/-- The size of an environment image is 7 of its steps. -/
theorem envSize_div (small : Bool) : envSize small / 7 = imageStep small ∧ 7 * imageStep small = envSize small := by
  cases small <;> decide

theorem imageDrawn_rest (small : Bool) (s : State) :
    OutsideKept s (s.imageDrawn small) ∧ PointersKept s (s.imageDrawn small) ∧ (s.imageDrawn small).sw = s.sw ∧
      (s.imageDrawn small).regs = s.regs ∧ (s.imageDrawn small).tags = s.tags := by
  unfold State.imageDrawn
  split <;> exact ⟨⟨rfl, rfl, ⟨rfl, rfl, rfl, rfl⟩, rfl, rfl, rfl⟩, ⟨rfl, rfl, rfl, rfl, rfl⟩, rfl, rfl, rfl⟩

/-- With all exceptions masked nothing is pending. -/
theorem es_of_masked {s : State} {v : Word16} (h : s.cw = v ||| 0x003F#16) : s.es = false := by
  have hbit : ∀ k, k < 6 → s.cw.getLsbD k = true := fun k hk => by
    rw [h, BitVec.getLsbD_or]
    interval_cases k <;> simp
  simp only [State.es, hbit 0 (by omega), hbit 1 (by omega), hbit 2 (by omega), hbit 3 (by omega), hbit 4 (by omega),
    hbit 5 (by omega), Bool.not_true, Bool.and_false, Bool.or_self]

theorem pending_of_es {s : State} (h : s.es = false) : s.pending = false := by simp [State.pending, h]

/-- The rule of FNSTENV, apart from the store. -/
theorem storeEnv_spec (small : Bool) (s : State) :
    OutsideKept s (s.storeEnv small).1 ∧ PointersKept s (s.storeEnv small).1 ∧
      (s.storeEnv small).1.cw = s.cw ||| 0x003F#16 ∧ (s.storeEnv small).1.sw.top = s.sw.top ∧
      (∀ f, (s.storeEnv small).1.sw.flag f = s.sw.flag f) ∧ (s.storeEnv small).1.regs = s.regs ∧
      (s.storeEnv small).1.tags = s.tags := by
  obtain ⟨hout, hptr, hsw, hregs, htags⟩ := imageDrawn_rest small s
  have hset : OutsideKept s { s.imageDrawn small with cw := s.cw ||| 0x003F#16 } :=
    ⟨hout.cfg, hout.pm287, hout.host, hout.mem, hout.pc, hout.pcOver⟩
  have hkept : PointersKept s { s.imageDrawn small with cw := s.cw ||| 0x003F#16 } := hptr
  refine ⟨OutsideKept.trans hset (openC0123_outside _), PointersKept.trans hkept (openC0123_pointers _),
    openC0123_cw _, (openC0123_top _).trans (by rw [hsw]), fun f => (openC0123_flag _ f).trans (by rw [hsw]),
    (openC0123_regs _).trans hregs, (openC0123_tags _).trans htags⟩

/-- FNSTENV with and without 66H differ in the size of the image only (rule R146). -/
theorem fnstenv_runs {i : Instr} {a : Addr} {s : State} (hi : i ∈ [Instr.fnstenv a, .fnstenvO66 a]) (hr : Ready i s)
    (hthere : OperandThere i s) :
    ∃ small, widthOf s.cfg i = envSize small ∧ hasBytes s.cfg a.toNat (envSize small) = true ∧
      exec i s = .next (((s.storeEnv small).1.store a (s.envImage small)).retire .keep i) := by
  obtain rfl | rfl : i = .fnstenv a ∨ i = .fnstenvO66 a := by simpa using hi
  · have hrun := exec_runs (i := .fnstenv a) rfl hr hthere
    rw [afterOf_store rfl rfl] at hrun
    exact ⟨effSize16 s.cfg false, rfl, hthere, hrun⟩
  · have hrun := exec_runs (i := .fnstenvO66 a) rfl hr hthere
    rw [afterOf_store rfl rfl] at hrun
    exact ⟨effSize16 s.cfg true, rfl, hthere, hrun⟩

theorem envImage_at {small : Bool} {a : Addr} {s : State} (hm : Memory.wf s.mem)
    (hb : hasBytes s.cfg a.toNat (envSize small) = true) (i : Instr) :
    ImageAt a (s.envImage small) (((s.storeEnv small).1.store a (s.envImage small)).retire .keep i) := by
  obtain ⟨hout, -⟩ := storeEnv_spec small s
  refine imageAt_stored (by rw [hout.mem]; exact hm) ?_ ?_ .keep i
  · rw [length_envImage, hout.cfg]
    exact hb
  · rw [length_envImage]
    cases small <;> decide

/-- Settles O55, from the fields of the image (`wordsStored`, `pointersStored`) and what lies outside of it. -/
theorem storeEnvironment : Obligations.StoreEnvironment := by
  unfold Obligations.StoreEnvironment
  intro i a s hi hr hthere hm
  obtain ⟨small, hwidth, hb, hrun⟩ := fnstenv_runs hi hr hthere
  obtain ⟨hout, hptr, hcw, htop, hflag, hregs, htags⟩ := storeEnv_spec small s
  obtain ⟨hpm, hcfg, hhost, hmem, hadv⟩ := outside_stored hout hm a (length_envImage small s) .keep i
  have himg := envImage_at hm hb i
  obtain ⟨hw1, hw2, hw3⟩ := wordsStored himg
  have hps := pointersStored himg
  rw [hwidth, (envSize_div small).1]
  generalize (s.storeEnv small).1 = u at hrun hptr hcw htop hflag hregs htags hpm hcfg hhost hmem hadv hw1 hw2 hw3 hps
  have hcw' : ((u.store a (s.envImage small)).retire .keep i).cw = s.cw ||| 0x003F#16 := by
    rw [retire_cw, store_cw, hcw]
  exact ⟨_, hrun, hcw', pending_of_es (es_of_masked hcw'), by rw [retire_sw, store_sw, htop],
    fun f => by rw [retire_sw, store_sw, hflag], by rw [retire_regs, store_regs, hregs],
    by rw [retire_tags, store_tags, htags], kept_retire_store hptr a _ i, hpm, hcfg, hhost, hmem, hadv,
    hw1, hw2, hw3, hps⟩

/-- FNSAVE likewise. -/
theorem fnsave_runs {i : Instr} {a : Addr} {s : State} (hi : i ∈ [Instr.fnsave a, .fnsaveO66 a]) (hr : Ready i s)
    (hthere : OperandThere i s) :
    ∃ small, widthOf s.cfg i = envSize small + 80 ∧ hasBytes s.cfg a.toNat (envSize small + 80) = true ∧
      exec i s = .next (((s.save small).1.store a (s.envImage small ++ s.regImage)).retire .keep i) := by
  obtain rfl | rfl : i = .fnsave a ∨ i = .fnsaveO66 a := by simpa using hi
  · have hrun := exec_runs (i := .fnsave a) rfl hr hthere
    rw [afterOf_store rfl rfl] at hrun
    exact ⟨effSize16 s.cfg false, rfl, hthere, hrun⟩
  · have hrun := exec_runs (i := .fnsaveO66 a) rfl hr hthere
    rw [afterOf_store rfl rfl] at hrun
    exact ⟨effSize16 s.cfg true, rfl, hthere, hrun⟩

/-- The rule of FNSAVE, apart from the store: that of FNINIT. -/
theorem save_spec (small : Bool) (s : State) :
    OutsideKept s (s.save small).1 ∧ (s.save small).1.cw = 0x037F#16 ∧ (s.save small).1.sw = {} ∧
      (s.save small).1.tags = Vector.replicate 8 .empty ∧ (s.save small).1.regs = s.regs ∧
      (if s.cfg.gen = .g387 then PointersKept s (s.save small).1
       else (s.save small).1.fip = 0#32 ∧ (s.save small).1.fcs = 0#16 ∧ (s.save small).1.fdp = 0#32 ∧
        (s.save small).1.fds = 0#16 ∧ (s.save small).1.fop = 0#11) := by
  obtain ⟨hout, hptr, -, hregs, -⟩ := imageDrawn_rest small s
  obtain ⟨hcw, hsw, htags, hregs'⟩ := initialise_defaults (s.imageDrawn small)
  have hpointers := initialise_pointers (s.imageDrawn small)
  refine ⟨OutsideKept.trans hout (initialise_outside _), hcw, hsw, htags, hregs'.trans hregs, ?_⟩
  rw [hout.cfg] at hpointers
  split
  · next hg => exact PointersKept.trans hptr (by rw [if_pos hg] at hpointers; exact hpointers)
  · next hg =>
    rw [if_neg hg] at hpointers
    exact hpointers

theorem length_stateImage (small : Bool) (s : State) : (s.envImage small ++ s.regImage).length = envSize small + 80 := by
  rw [List.length_append, length_envImage, length_regImage]

theorem stateImage_at {small : Bool} {a : Addr} {s : State} (hm : Memory.wf s.mem)
    (hb : hasBytes s.cfg a.toNat (envSize small + 80) = true) (i : Instr) :
    ImageAt a (s.envImage small ++ s.regImage)
      (((s.save small).1.store a (s.envImage small ++ s.regImage)).retire .keep i) := by
  obtain ⟨hout, -⟩ := save_spec small s
  refine imageAt_stored (by rw [hout.mem]; exact hm) ?_ ?_ .keep i
  · rw [length_stateImage, hout.cfg]
    exact hb
  · rw [length_stateImage]
    omega

/-- The registers as they stand behind the environment. -/
theorem registersStored {small : Bool} {a : Addr} {s t : State} (h : ImageAt a (s.envImage small ++ s.regImage) t)
    (k : BitVec 3) :
    leNat (t.bytesAt (a + BitVec.ofNat 32 (envSize small + 10 * k.toNat)) 10) = (s.st k).toNat := by
  have hk := k.isLt
  have hbytes := h.right (k := 10 * k.toNat) (n := 10) (by decide) (by rw [length_regImage]; omega)
  rw [length_envImage, regImage_field] at hbytes
  rw [hbytes, leNat_leBytes_ext]

/-- Settles O56, from the two images and the rule of FNINIT (`save_spec`). -/
theorem saveState : Obligations.SaveState := by
  unfold Obligations.SaveState
  intro i a s hi hr hthere hm
  obtain ⟨small, hwidth, hb, hrun⟩ := fnsave_runs hi hr hthere
  obtain ⟨hout, hcw, hsw, htags, hregs, hpointers⟩ := save_spec small s
  obtain ⟨hpm, hcfg, hhost, hmem, hadv⟩ := outside_stored hout hm a (length_stateImage small s) .keep i
  have himg := stateImage_at hm hb i
  obtain ⟨hw1, hw2, hw3⟩ := wordsStored himg.left
  have hps := pointersStored himg.left
  have hstored := registersStored himg
  rw [hwidth, Nat.add_sub_cancel, (envSize_div small).1]
  rw [← (envSize_div small).2] at hstored
  generalize (s.save small).1 = u at hrun hcw hsw htags hregs hpointers hpm hcfg hhost hmem hadv hw1 hw2 hw3 hps hstored
  have hsw' : ((u.store a (s.envImage small ++ s.regImage)).retire .keep i).sw = {} := by
    rw [retire_sw, store_sw, hsw]
  have htags' : ((u.store a (s.envImage small ++ s.regImage)).retire .keep i).tags = Vector.replicate 8 .empty := by
    rw [retire_tags, store_tags, htags]
  exact ⟨_, _, hrun, rfl, by rw [retire_cw, store_cw, hcw], swWord_of_default hsw', tagWord_of_allEmpty htags',
    by rw [retire_regs, store_regs, hregs], hpointers, hpm, hcfg, hhost, hmem, hadv, hw1, hw2, hw3, hps, hstored⟩

end Sys2Proof.Laws.Images
end

section
/-! What FLDENV and FRSTOR load (20_memory.md rules R107 to R110, R413, R415), and that they undo FNSTENV and FNSAVE. -/

namespace Sys2Proof.Laws.Restore

open Sys2Proof.Machine Sys2Proof.Laws.Shapes Sys2Proof.Laws.Frame Sys2Proof.Laws.Invariant Sys2Proof.Laws.InitClear
open Sys2Proof.Laws.Control Sys2Proof.Laws.Images

/-! ### The fields that are loaded -/

theorem word16_field {a : Addr} {bs : List Byte} {s : State} (h : ImageAt a bs s) {k : Nat} (hk : k + 2 ≤ bs.length) :
    (word16At bs k).toNat = imageField a k 2 s := by
  rw [word16At_toNat, imageField, h k 2 (by decide) hk]

theorem word32_field {a : Addr} {bs : List Byte} {s : State} (h : ImageAt a bs s) {k : Nat} (hk : k + 4 ≤ bs.length) :
    (word32At bs k).toNat = imageField a k 4 s := by
  rw [word32At_toNat, imageField, h k 4 (by decide) hk]

theorem word16_bytes {a : Addr} {bs : List Byte} {s : State} (h : ImageAt a bs s) {k : Nat} (hk : k + 2 ≤ bs.length) :
    word16At bs k = BitVec.ofNat 16 (leNat (s.bytesAt (a + BitVec.ofNat 32 k) 2)) := by
  rw [word16At, h k 2 (by decide) hk]

theorem imageField_lt (a : Addr) (k n : Nat) (s : State) : imageField a k n s < 256 ^ n := by
  have h := leNat_lt (s.bytesAt (a + BitVec.ofNat 32 k) n)
  rwa [length_bytesAt] at h

/-- The pointers of the image are loaded, whatever CW, SW, the tags and the registers have become (rules R107 to R109). -/
theorem pointersLoaded {small : Bool} {a : Addr} {bs : List Byte} {s u : State} (h : ImageAt a bs s)
    (hn : envSize small ≤ bs.length) (hp : PointersKept s u) (hcfg : u.cfg = s.cfg) :
    PointersLoaded (imageStep small) a s (u.loadPointers small bs) := by
  obtain ⟨hfip, hfcs, hfdp, hfds, hfop⟩ := hp
  have b2 := fun k => imageField_lt a k 2 s
  have b4 := fun k => imageField_lt a k 4 s
  unfold PointersLoaded
  cases small <;> cases hr : Params.realMode s.cfg <;>
    simp only [imageStep, State.loadPointers, hcfg, hr, Bool.false_eq_true, if_false, if_true]
  · simp only [toNat_extract]
    rw [word32_field h (by simp [envSize] at hn; omega), word16_field h (by simp [envSize] at hn; omega),
      word16_field h (by simp [envSize] at hn; omega), word32_field h (by simp [envSize] at hn; omega),
      word16_field h (by simp [envSize] at hn; omega)]
    refine ⟨rfl, rfl, ?_, rfl, rfl⟩
    omega
  · simp only [toNat_extract, toNat_append_add]
    rw [word32_field h (by simp [envSize] at hn; omega), word16_field h (by simp [envSize] at hn; omega),
      word32_field h (by simp [envSize] at hn; omega), word16_field h (by simp [envSize] at hn; omega)]
    refine ⟨?_, ?_, ?_, hfcs, hfds⟩ <;> omega
  · rw [if_neg (by decide)]
    simp only [toNat_extract, toNat_append_add]
    rw [word16_field h (by simp [envSize] at hn; omega), word16_field h (by simp [envSize] at hn; omega),
      word16_field h (by simp [envSize] at hn; omega), word16_field h (by simp [envSize] at hn; omega)]
    have := b2 6
    have := b2 10
    refine ⟨?_, rfl, ?_, rfl, hfop⟩ <;> omega
  · rw [if_neg (by decide)]
    simp only [toNat_extract, toNat_append_add]
    rw [word16_field h (by simp [envSize] at hn; omega), word16_field h (by simp [envSize] at hn; omega),
      word16_field h (by simp [envSize] at hn; omega), word16_field h (by simp [envSize] at hn; omega)]
    have := b2 6
    have := b2 8
    have := b2 10
    have := b2 12
    refine ⟨?_, ?_, ?_, hfcs, hfds⟩ <;> omega

theorem pointersLoaded_kept {n : Nat} {a : Addr} {s t u : State} (h : PointersLoaded n a s t) (hp : PointersKept t u) :
    PointersLoaded n a s u := by
  obtain ⟨hfip, hfcs, hfdp, hfds, hfop⟩ := hp
  unfold PointersLoaded at h ⊢
  rwa [hfip, hfcs, hfdp, hfds, hfop]

/-! ### What the two loads leave -/

/-- What `loadEnv` leaves, `bs` being the image. -/
structure EnvLoaded (small : Bool) (bs : List Byte) (s t : State) : Prop where
  outside : OutsideKept s t
  cw      : t.cw = cwKeep s.cfg.gen (word16At bs 0)
  sw      : t.sw = Status.ofWord (word16At bs (imageStep small))
  tags    : t.tags = loadedTags (word16At bs (2 * imageStep small)) t.regs

theorem envLoaded_loadEnv (small : Bool) (bs : List Byte) (s : State) : EnvLoaded small bs s (s.loadEnv small bs) := by
  obtain ⟨hcfg, hregs, htags, hsw, hcw, hpm, hhost, hmem, -, hpc, hover⟩ :=
    loadPointers_rest small bs (envLoaded small bs s)
  rw [loadEnv_eq]
  refine ⟨⟨hcfg, hpm, hhost, hmem, hpc, hover⟩, hcw, hsw.trans ?_, htags.trans ?_⟩
  · cases small <;> rfl
  · rw [hregs]
    cases small <;> rfl

theorem loadEnv_regs (small : Bool) (bs : List Byte) (s : State) : (s.loadEnv small bs).regs = s.regs := by
  obtain ⟨-, hregs, -⟩ := loadPointers_rest small bs (envLoaded small bs s)
  rw [loadEnv_eq, hregs]
  rfl

theorem loadEnv_pointers {small : Bool} {a : Addr} {bs : List Byte} {s u : State} (h : ImageAt a bs s)
    (hn : envSize small ≤ bs.length) (hp : PointersKept s u) (hcfg : u.cfg = s.cfg) :
    PointersLoaded (imageStep small) a s (u.loadEnv small bs) :=
  pointersLoaded h hn hp hcfg

/-- The registers of a state image. -/
def imageRegs (small : Bool) (bs : List Byte) : Vector Ext 8 :=
  loadedRegs (envSize small) (Status.ofWord (word16At bs (imageStep small))).top.toNat bs

theorem restore_eq (small : Bool) (bs : List Byte) (s : State) :
    s.restore small bs = { s with regs := imageRegs small bs }.loadEnv small bs := by cases small <;> rfl

theorem envLoaded_restore (small : Bool) (bs : List Byte) (s : State) : EnvLoaded small bs s (s.restore small bs) := by
  obtain ⟨hout, hcw, hsw, htags⟩ := envLoaded_loadEnv small bs { s with regs := imageRegs small bs }
  rw [restore_eq]
  exact ⟨⟨hout.cfg, hout.pm287, hout.host, hout.mem, hout.pc, hout.pcOver⟩, hcw, hsw, htags⟩

/-- The image has the registers in stack order, counted from its own TOP (rule R110). -/
theorem stackOrder (top k : BitVec 3) : ((top + k).toNat + 8 - top.toNat) % 8 = k.toNat := by
  have := top.isLt
  have := k.isLt
  rw [BitVec.toNat_add]
  omega

theorem restore_st {small : Bool} {a : Addr} {bs : List Byte} {s : State} (h : ImageAt a bs s)
    (hn : envSize small + 80 ≤ bs.length) (k : BitVec 3) :
    ((s.restore small bs).st k).toNat = leNat (s.bytesAt (a + BitVec.ofNat 32 (envSize small + 10 * k.toNat)) 10) := by
  have hk := k.isLt
  have hregs : (s.restore small bs).regs = imageRegs small bs := by rw [restore_eq, loadEnv_regs]
  have hbytes := h (envSize small + 10 * k.toNat) 10 (by decide) (by omega)
  have hlt := leNat_lt (s.bytesAt (a + BitVec.ofNat 32 (envSize small + 10 * k.toNat)) 10)
  rw [length_bytesAt] at hlt
  simp only [State.st, State.reg, hregs, imageRegs, loadedRegs, Vector.getElem_ofFn, State.phys,
    (envLoaded_restore small bs s).sw, stackOrder, ← hbytes]
  rw [BitVec.toNat_ofNat, Nat.mod_eq_of_lt (by omega)]

/-! ### FLDENV and FRSTOR -/

theorem fldenv_runs {i : Instr} {a : Addr} {s : State} (hi : i ∈ [Instr.fldenv a, .fldenvO66 a]) (hr : Ready i s)
    (hthere : OperandThere i s) :
    ∃ small, widthOf s.cfg i = envSize small ∧ hasBytes s.cfg a.toNat (envSize small) = true ∧
      exec i s = .next ((s.loadEnv small (s.bytesAt a (envSize small))).retire .keep i) := by
  obtain rfl | rfl : i = .fldenv a ∨ i = .fldenvO66 a := by simpa using hi
  · have hrun := exec_runs (i := .fldenv a) rfl hr hthere
    rw [afterOf_load rfl] at hrun
    exact ⟨effSize16 s.cfg false, rfl, hthere, hrun⟩
  · have hrun := exec_runs (i := .fldenvO66 a) rfl hr hthere
    rw [afterOf_load rfl] at hrun
    exact ⟨effSize16 s.cfg true, rfl, hthere, hrun⟩

theorem frstor_runs {i : Instr} {a : Addr} {s : State} (hi : i ∈ [Instr.frstor a, .frstorO66 a]) (hr : Ready i s)
    (hthere : OperandThere i s) :
    ∃ small, widthOf s.cfg i = envSize small + 80 ∧ hasBytes s.cfg a.toNat (envSize small + 80) = true ∧
      exec i s = .next ((s.restore small (s.bytesAt a (envSize small + 80))).retire .keep i) := by
  obtain rfl | rfl : i = .frstor a ∨ i = .frstorO66 a := by simpa using hi
  · have hrun := exec_runs (i := .frstor a) rfl hr hthere
    rw [afterOf_load rfl] at hrun
    exact ⟨effSize16 s.cfg false, rfl, hthere, hrun⟩
  · have hrun := exec_runs (i := .frstorO66 a) rfl hr hthere
    rw [afterOf_load rfl] at hrun
    exact ⟨effSize16 s.cfg true, rfl, hthere, hrun⟩

/-- SW as read has the bits it was loaded with but for ES and B (rule R413). -/
theorem swWord_loaded {t : State} {w : Word16} (h : t.sw = Status.ofWord w) :
    t.swWord &&& 0x7F7F#16 = w &&& 0x7F7F#16 := by
  refine BitVec.eq_of_getLsbD_eq fun k hk => ?_
  rw [BitVec.getLsbD_and, BitVec.getLsbD_and, swWord_bit t hk, h]
  simp only [Status.ofWord, BitVec.getLsbD_extractLsb']
  interval_cases k <;> simp

/-- The clauses of the load that are read off the state it leaves. -/
theorem loaded_clauses {small : Bool} {a : Addr} {bs : List Byte} {s t : State} (h : ImageAt a bs s)
    (hn : envSize small ≤ bs.length) (hl : EnvLoaded small bs s t) (i : Instr) :
    (t.retire .keep i).cw = cwKeep s.cfg.gen (BitVec.ofNat 16 (leNat (s.bytesAt a 2))) ∧
    (t.retire .keep i).swWord &&& 0x7F7F#16 =
      BitVec.ofNat 16 (leNat (s.bytesAt (a + BitVec.ofNat 32 (imageStep small)) 2)) &&& 0x7F7F#16 ∧
    (∀ k : Fin 8, (t.retire .keep i).tags[k] =
      (if (BitVec.ofNat 16 (leNat (s.bytesAt (a + BitVec.ofNat 32 (2 * imageStep small)) 2))).extractLsb'
        (2 * k.val) 2 = 0b11#2 then .empty else tagOf (t.retire .keep i).regs[k])) := by
  have hsize : 2 * imageStep small + 2 ≤ bs.length := le_trans (by cases small <;> decide) hn
  have h0 := word16_bytes h (k := 0) (by omega)
  rw [BitVec.add_zero] at h0
  refine ⟨?_, ?_, fun k => ?_⟩
  · rw [retire_cw, hl.cw, h0]
  · rw [← word16_bytes h (by omega)]
    exact swWord_loaded ((retire_sw ..).trans hl.sw)
  · rw [← word16_bytes h hsize]
    have htags : (t.retire .keep i).tags =
        loadedTags (word16At bs (2 * imageStep small)) (t.retire .keep i).regs := by
      rw [retire_tags, retire_regs, hl.tags]
    simp only [htags]
    exact tag_loadedTags _ _ (BitVec.ofFin k)

/-- Settles O57. -/
theorem loadState : Obligations.LoadState := by
  unfold Obligations.LoadState
  intro i a s hi hr hthere
  by_cases hienv : i ∈ [Instr.fldenv a, .fldenvO66 a]
  · obtain ⟨small, hwidth, hb, hrun⟩ := fldenv_runs hienv hr hthere
    have himg := imageAt_self hb (by cases small <;> decide)
    have hl := envLoaded_loadEnv small (s.bytesAt a (envSize small)) s
    have hlen : envSize small ≤ (s.bytesAt a (envSize small)).length := by rw [length_bytesAt]
    have hp := loadEnv_pointers himg hlen (show PointersKept s s from ⟨rfl, rfl, rfl, rfl, rfl⟩) rfl
    obtain ⟨hcw, hsw, htags⟩ := loaded_clauses himg hlen hl i
    obtain ⟨hpm, hcfg, hhost, hmem, hadv⟩ := hl.outside.retired .keep i
    refine ⟨_, imageStep small, hrun, ?_, hcw, hsw, htags, pointersLoaded_kept hp (retire_keep i _), ?_, hpm, hcfg,
      hhost, hmem, hadv⟩
    · rw [if_pos hienv, hwidth, (envSize_div small).1]
    · rw [if_pos hienv, retire_regs, loadEnv_regs]
  · have hirst : i ∈ [Instr.frstor a, .frstorO66 a] := by
      simp only [List.mem_cons, List.not_mem_nil, or_false] at hi hienv ⊢
      tauto
    obtain ⟨small, hwidth, hb, hrun⟩ := frstor_runs hirst hr hthere
    have himg := imageAt_self hb (by omega)
    have hl := envLoaded_restore small (s.bytesAt a (envSize small + 80)) s
    have hlen : envSize small + 80 ≤ (s.bytesAt a (envSize small + 80)).length := by rw [length_bytesAt]
    have hp : PointersLoaded (imageStep small) a s (s.restore small (s.bytesAt a (envSize small + 80))) := by
      rw [restore_eq]
      exact loadEnv_pointers himg (by omega) ⟨rfl, rfl, rfl, rfl, rfl⟩ rfl
    obtain ⟨hcw, hsw, htags⟩ := loaded_clauses himg (by omega) hl i
    obtain ⟨hpm, hcfg, hhost, hmem, hadv⟩ := hl.outside.retired .keep i
    refine ⟨_, imageStep small, hrun, ?_, hcw, hsw, htags, pointersLoaded_kept hp (retire_keep i _), ?_, hpm, hcfg,
      hhost, hmem, hadv⟩
    · rw [if_neg hienv, hwidth, Nat.add_sub_cancel, (envSize_div small).1]
    · rw [if_neg hienv]
      intro k
      rw [(envSize_div small).2, ← restore_st himg hlen k]
      simp only [State.st, State.reg, State.phys, retire_sw, retire_regs]

/-! ### The round trips -/

/-- An image stays where its bytes are as they were. -/
theorem ImageAt.congr {a : Addr} {img : List Byte} {u w : State} (h : ImageAt a img u) (hn : 0 < img.length)
    (ha : a.toNat + img.length ≤ 4294967296)
    (hb : ∀ b, a.toNat ≤ b → b < a.toNat + img.length → w.byteAt b = u.byteAt b) :
    ImageAt a img w ∧ w.bytesAt a img.length = img := by
  have h0 := h 0 img.length hn (by omega)
  rw [BitVec.add_zero, List.drop_zero, List.take_of_length_le (by omega)] at h0
  have hw : w.bytesAt a img.length = img := (bytesAt_congr hb).trans h0
  exact ⟨imageAt_of_bytesAt hw ha, hw⟩

theorem status_roundTrip (s : State) : Status.ofWord s.swWord = s.sw := by
  have htop : s.swWord.extractLsb' 11 3 = s.sw.top := BitVec.eq_of_getLsbD_eq fun k hk => by
    rw [BitVec.getLsbD_extractLsb', swWord_bit s (by omega)]
    interval_cases k <;> simp
  rw [Status.ofWord, htop]
  simp only [swWord_bit s (show 0 < 16 by decide), swWord_bit s (show 1 < 16 by decide),
    swWord_bit s (show 2 < 16 by decide), swWord_bit s (show 3 < 16 by decide), swWord_bit s (show 4 < 16 by decide),
    swWord_bit s (show 5 < 16 by decide), swWord_bit s (show 6 < 16 by decide), swWord_bit s (show 8 < 16 by decide),
    swWord_bit s (show 9 < 16 by decide), swWord_bit s (show 10 < 16 by decide), swWord_bit s (show 14 < 16 by decide)]
  rfl

theorem swWord_congr {s t : State} (hsw : t.sw = s.sw) (hcw : t.cw = s.cw) : t.swWord = s.swWord := by
  simp only [State.swWord, State.es, hsw, hcw]

/-- The field of a register in the tag word (rule R48). -/
theorem tagWord_field (s : State) (k : BitVec 3) : s.tagWord.extractLsb' (2 * k.toNat) 2 = Tag.code (s.tag k) := by
  refine BitVec.eq_of_getLsbD_eq fun j hj => ?_
  rw [BitVec.getLsbD_extractLsb', State.tagWord]
  simp only [BitVec.getLsbD_append]
  rcases Coding.bitVec3_cases k with rfl | rfl | rfl | rfl | rfl | rfl | rfl | rfl <;> interval_cases j <;> simp

theorem code_eq_empty (t : Tag) : Tag.code t = 0b11#2 ↔ t = .empty := by cases t <;> decide

theorem tags_roundTrip {s t : State} (h : t.tags = loadedTags s.tagWord t.regs) (k : BitVec 3) :
    t.tag k = if s.tag k = .empty then .empty else tagOf (t.reg k) := by
  have hk := tag_loadedTags s.tagWord t.regs k
  rw [tagWord_field] at hk
  simp only [code_eq_empty] at hk
  rw [State.tag, State.reg]
  simp only [h]
  exact hk

/-- CW, SW and the tag word of an image that was stored, as they are loaded (rules R413, R422). -/
theorem words_restored {small : Bool} {a : Addr} {img : List Byte} {s w t : State} (hcw : cwKeep s.cfg.gen s.cw = s.cw)
    (hcfg : w.cfg = s.cfg) (himg : ImageAt a img w) (hlen : envSize small ≤ img.length)
    (hpart : ImageAt a (s.envImage small) w) (hl : EnvLoaded small img w t) :
    t.cw = s.cw ∧ t.sw = s.sw ∧ ∀ k, t.tag k = if s.tag k = .empty then .empty else tagOf (t.reg k) := by
  obtain ⟨h1, h2, h3⟩ := wordsStored hpart
  have hsize : 2 * imageStep small + 2 ≤ img.length := le_trans (by cases small <;> decide) hlen
  have hw1 : word16At img 0 = s.cw := by
    rw [word16_bytes himg (by omega), BitVec.add_zero, h1, hcw, BitVec.ofNat_toNat, BitVec.setWidth_eq]
  have hw2 : word16At img (imageStep small) = s.swWord := by
    rw [word16_bytes himg (by omega), h2, BitVec.ofNat_toNat, BitVec.setWidth_eq]
  have hw3 : word16At img (2 * imageStep small) = s.tagWord := by
    rw [word16_bytes himg hsize, h3, BitVec.ofNat_toNat, BitVec.setWidth_eq]
  refine ⟨by rw [hl.cw, hw1, hcfg, hcw], by rw [hl.sw, hw2, status_roundTrip], tags_roundTrip ?_⟩
  rw [hl.tags, hw3]

/-- The pointers come back as far as the layout holds them. -/
theorem pointers_restored {small : Bool} {a : Addr} {s w t : State} (hcfg : w.cfg = s.cfg)
    (hs : PointersStored (imageStep small) a s w) (hl : PointersLoaded (imageStep small) a w t) :
    (small = false → t.fip = s.fip ∧ t.fdp = s.fdp ∧ t.fop = s.fop) ∧
    (small = true → t.fip.extractLsb' 0 16 = s.fip.extractLsb' 0 16 ∧
      t.fdp.extractLsb' 0 16 = s.fdp.extractLsb' 0 16) ∧
    (Params.realMode s.cfg = false → t.fcs = s.fcs ∧ t.fds = s.fds) ∧
    (Params.realMode s.cfg = true → t.fip.extractLsb' 0 20 = s.fip.extractLsb' 0 20 ∧
      t.fdp.extractLsb' 0 20 = s.fdp.extractLsb' 0 20 ∧ t.fop = s.fop) := by
  have hfip := s.fip.isLt
  have hfdp := s.fdp.isLt
  have hfop := s.fop.isLt
  unfold PointersStored at hs
  unfold PointersLoaded at hl
  rw [hcfg] at hl
  simp only [← BitVec.toNat_inj, toNat_extract]
  cases small <;> cases hr : Params.realMode s.cfg <;>
    simp only [hr, imageStep, Bool.false_eq_true, if_false, if_true, reduceCtorEq, false_implies, true_implies,
      and_true, true_and] at hs hl ⊢
  · obtain ⟨p1, p2, p3, p4, p5⟩ := hs
    obtain ⟨q1, q2, q3, q4, q5⟩ := hl
    omega
  · obtain ⟨p1, p2, p3, p4⟩ := hs
    obtain ⟨q1, q2, q3, -, -⟩ := hl
    omega
  · rw [if_neg (by decide)] at hs hl
    obtain ⟨p1, p2, p3, p4⟩ := hs
    obtain ⟨q1, q2, q3, q4, -⟩ := hl
    omega
  · rw [if_neg (by decide)] at hs hl
    obtain ⟨p1, p2, p3, p4⟩ := hs
    obtain ⟨q1, q2, q3, -, -⟩ := hl
    omega

/-- Settles O58: the image that FNSTENV stores is the one that FLDENV loads. -/
theorem environmentRoundTrip : Obligations.EnvironmentRoundTrip := by
  unfold Obligations.EnvironmentRoundTrip
  intro st ld small a s hpair hwf hr hthere hsmall
  have hsound := ((wf_iff s).1 hwf).1
  have hst : st a ∈ [Instr.fnstenv a, .fnstenvO66 a] := by
    simp only [List.mem_cons, Prod.mk.injEq, List.not_mem_nil, or_false] at hpair ⊢
    rcases hpair with ⟨rfl, -⟩ | ⟨rfl, -⟩ <;> simp
  have hld : ld a ∈ [Instr.fldenv a, .fldenvO66 a] := by
    simp only [List.mem_cons, Prod.mk.injEq, List.not_mem_nil, or_false] at hpair ⊢
    rcases hpair with ⟨-, rfl⟩ | ⟨-, rfl⟩ <;> simp
  have hsame : ∀ p, widthOf p (ld a) = widthOf p (st a) ∧ (ld a).operand = some a := fun p => by
    simp only [List.mem_cons, Prod.mk.injEq, List.not_mem_nil, or_false] at hpair
    rcases hpair with ⟨rfl, rfl⟩ | ⟨rfl, rfl⟩ <;> exact ⟨rfl, rfl⟩
  obtain ⟨small', hwidth, hb, hrun⟩ := fnstenv_runs hst hr hthere
  obtain rfl : small = small' := by
    rw [hsmall, hwidth]
    cases small' <;> rfl
  refine ⟨_, hrun, fun w hcfg hrw hbytes => ?_⟩
  have hpos : 0 < envSize small := by cases small <;> decide
  have hthere' : OperandThere (ld a) w := by
    rw [OperandThere, (hsame s.cfg).2]
    simp only [hcfg, (hsame s.cfg).1, hwidth]
    exact hb
  obtain ⟨small', hwidth', -, hrun'⟩ := fldenv_runs hld hrw hthere'
  obtain rfl : small = small' := by
    rw [hcfg, (hsame s.cfg).1, hwidth] at hwidth'
    revert hwidth'
    cases small <;> cases small' <;> decide
  have hbound := operand_bound hb hpos
  rw [hwidth, ← length_envImage small s] at hbytes
  rw [← length_envImage small s] at hbound hpos
  obtain ⟨himg, hread⟩ := ImageAt.congr (envImage_at hsound.mem hb (st a)) hpos hbound hbytes
  rw [length_envImage] at hread
  rw [hread] at hrun'
  have hlen : envSize small ≤ (s.envImage small).length := (length_envImage small s).ge
  obtain ⟨hcw, hsw, htags⟩ := words_restored hsound.cw hcfg himg hlen himg (envLoaded_loadEnv small (s.envImage small) w)
  have hloaded := loadEnv_pointers himg hlen (show PointersKept w w from ⟨rfl, rfl, rfl, rfl, rfl⟩) rfl
  have hregs := loadEnv_regs small (s.envImage small) w
  refine ⟨_, hrun', (retire_cw ..).trans hcw,
    swWord_congr ((retire_sw ..).trans hsw) ((retire_cw ..).trans hcw), fun k => ?_, (retire_regs ..).trans hregs,
    pointers_restored hcfg (pointersStored himg) (pointersLoaded_kept hloaded (retire_keep _ _))⟩
  have hk := htags k
  simp only [State.tag, State.reg, hregs] at hk
  simp only [State.tag, State.reg, retire_tags]
  exact hk

/-- With TOP the same, the registers are compared in stack order. -/
theorem regs_of_stack {s t : State} (htop : t.sw.top = s.sw.top) (h : ∀ k, t.st k = s.st k) : t.regs = s.regs := by
  refine Vector.ext fun j hj => ?_
  have hk := h (BitVec.ofNat 3 j - s.sw.top)
  simp only [State.st, State.reg, State.phys, htop] at hk
  have hidx : (s.sw.top + (BitVec.ofNat 3 j - s.sw.top)).toNat = j := by
    rw [add_sub_cancel, BitVec.toNat_ofNat]
    omega
  simpa only [hidx] using hk

theorem tags_of_matching {s t : State} (hs : TagsMatch s) (hregs : t.regs = s.regs)
    (h : ∀ k, t.tag k = if s.tag k = .empty then .empty else tagOf (t.reg k)) : t.tags = s.tags := by
  refine Vector.ext fun j hj => ?_
  have hk := h (BitVec.ofFin ⟨j, hj⟩)
  have hreg : t.reg (BitVec.ofFin ⟨j, hj⟩) = s.reg (BitVec.ofFin ⟨j, hj⟩) := by simp only [State.reg, hregs]
  change t.tag (BitVec.ofFin ⟨j, hj⟩) = s.tag (BitVec.ofFin ⟨j, hj⟩)
  rw [hk, hreg]
  split
  · next he => exact he.symm
  · next hne => exact (hs _ hne).symm

/-- Settles O59: likewise for FNSAVE and FRSTOR, with the registers in stack order. -/
theorem saveRestoreRoundTrip : Obligations.SaveRestoreRoundTrip := by
  unfold Obligations.SaveRestoreRoundTrip
  intro st ld small a s hpair hwf hr hthere hsmall
  have hsound := ((wf_iff s).1 hwf).1
  have hst : st a ∈ [Instr.fnsave a, .fnsaveO66 a] := by
    simp only [List.mem_cons, Prod.mk.injEq, List.not_mem_nil, or_false] at hpair ⊢
    rcases hpair with ⟨rfl, -⟩ | ⟨rfl, -⟩ <;> simp
  have hld : ld a ∈ [Instr.frstor a, .frstorO66 a] := by
    simp only [List.mem_cons, Prod.mk.injEq, List.not_mem_nil, or_false] at hpair ⊢
    rcases hpair with ⟨-, rfl⟩ | ⟨-, rfl⟩ <;> simp
  have hsame : ∀ p, widthOf p (ld a) = widthOf p (st a) ∧ (ld a).operand = some a := fun p => by
    simp only [List.mem_cons, Prod.mk.injEq, List.not_mem_nil, or_false] at hpair
    rcases hpair with ⟨rfl, rfl⟩ | ⟨rfl, rfl⟩ <;> exact ⟨rfl, rfl⟩
  obtain ⟨small', hwidth, hb, hrun⟩ := fnsave_runs hst hr hthere
  obtain rfl : small = small' := by
    rw [hsmall, hwidth]
    cases small' <;> rfl
  refine ⟨_, hrun, fun w hcfg hrw hbytes => ?_⟩
  have hthere' : OperandThere (ld a) w := by
    rw [OperandThere, (hsame s.cfg).2]
    simp only [hcfg, (hsame s.cfg).1, hwidth]
    exact hb
  obtain ⟨small', hwidth', -, hrun'⟩ := frstor_runs hld hrw hthere'
  obtain rfl : small = small' := by
    rw [hcfg, (hsame s.cfg).1, hwidth] at hwidth'
    revert hwidth'
    cases small <;> cases small' <;> decide
  have hbound := operand_bound hb (by omega)
  rw [hwidth, ← length_stateImage small s] at hbytes
  rw [← length_stateImage small s] at hbound
  obtain ⟨himg, hread⟩ := ImageAt.congr (stateImage_at hsound.mem hb (st a)) (by rw [length_stateImage]; omega) hbound
    hbytes
  rw [length_stateImage] at hread
  rw [hread] at hrun'
  have hlen := (length_stateImage small s).ge
  have hl := envLoaded_restore small (s.envImage small ++ s.regImage) w
  obtain ⟨hcw, hsw, htags⟩ := words_restored hsound.cw hcfg himg (by omega) himg.left hl
  have hloaded : PointersLoaded (imageStep small) a w (w.restore small (s.envImage small ++ s.regImage)) := by
    rw [restore_eq]
    exact loadEnv_pointers himg (by omega) ⟨rfl, rfl, rfl, rfl, rfl⟩ rfl
  have hregs : (w.restore small (s.envImage small ++ s.regImage)).regs = s.regs :=
    regs_of_stack (by rw [hsw]) fun k => BitVec.eq_of_toNat_eq ((restore_st himg hlen k).trans (registersStored himg k))
  exact ⟨_, hrun', (retire_cw ..).trans hcw,
    swWord_congr ((retire_sw ..).trans hsw) ((retire_cw ..).trans hcw), (retire_regs ..).trans hregs,
    (retire_tags ..).trans (tags_of_matching hsound.tags hregs htags),
    pointers_restored hcfg (pointersStored himg.left) (pointersLoaded_kept hloaded (retire_keep _ _))⟩

end Sys2Proof.Laws.Restore
end

section
/-! Answers of instructions as they show: registers, tags, TOP, flags, C1 and memory of the state that is left, and the
masked and unmasked responses to stack faults and invalid operations (rules R521, R522). -/

namespace Sys2Proof.Laws.Answers

open Sys2Proof.Machine Sys2Proof.Laws.Shapes Sys2Proof.Laws.Frame Sys2Proof.Laws.SignBit Sys2Proof.Laws.InitClear

/-! ### What shows of a state -/

/-- `t` has the registers, tags, TOP, flags, C1 and memory of `u`. -/
structure Shows (u t : State) : Prop where
  regs : t.regs = u.regs
  tags : t.tags = u.tags
  top  : t.sw.top = u.sw.top
  flag : ∀ f, t.sw.flag f = u.sw.flag f
  c1   : t.sw.c1 = u.sw.c1
  mem  : t.mem = u.mem

namespace Shows

theorem refl (u : State) : Shows u u := ⟨rfl, rfl, rfl, fun _ => rfl, rfl, rfl⟩

theorem trans {u v w : State} (h : Shows u v) (g : Shows v w) : Shows u w :=
  ⟨g.regs.trans h.regs, g.tags.trans h.tags, g.top.trans h.top, fun f => (g.flag f).trans (h.flag f),
    g.c1.trans h.c1, g.mem.trans h.mem⟩

variable {u t : State}

theorem reg (h : Shows u t) (k : BitVec 3) : t.reg k = u.reg k := reg_congr h.regs k
theorem tag (h : Shows u t) (k : BitVec 3) : t.tag k = u.tag k := tag_congr h.tags k
theorem st (h : Shows u t) (k : BitVec 3) : t.st k = u.st k := by
  simp only [State.st, State.phys, h.top, h.reg]
theorem ie (h : Shows u t) : t.sw.ie = u.sw.ie := h.flag .ie
theorem de (h : Shows u t) : t.sw.de = u.sw.de := h.flag .de
theorem ze (h : Shows u t) : t.sw.ze = u.sw.ze := h.flag .ze
theorem oe (h : Shows u t) : t.sw.oe = u.sw.oe := h.flag .oe
theorem ue (h : Shows u t) : t.sw.ue = u.sw.ue := h.flag .ue
theorem pe (h : Shows u t) : t.sw.pe = u.sw.pe := h.flag .pe
theorem sf (h : Shows u t) : t.sw.sf = u.sw.sf := h.flag .sf

theorem bytesAt (h : Shows u t) (a : Addr) (n : Nat) : t.bytesAt a n = u.bytesAt a n := by
  rw [State.bytesAt, State.bytesAt, h.mem]

theorem byteAt (h : Shows u t) (a : Nat) : t.byteAt a = u.byteAt a := by rw [State.byteAt, State.byteAt, h.mem]

theorem untouched {s : State} (h : Shows u t) (g : Untouched s u) : Untouched s t := by
  obtain ⟨hregs, htags, htop, hmem⟩ := g
  exact ⟨h.regs.trans hregs, h.tags.trans htags, h.top.trans htop, fun a => (h.byteAt a).trans (hmem a)⟩

theorem stackFault {s : State} {o : Bool} (h : Shows u t) (g : StackFaultFlags o s u) : StackFaultFlags o s t := by
  obtain ⟨hie, hsf, hc1, hrest⟩ := g
  exact ⟨h.ie.trans hie, h.sf.trans hsf, h.c1.trans hc1, fun f h1 h2 => (h.flag f).trans (hrest f h1 h2)⟩

theorem invalid {s : State} (h : Shows u t) (g : InvalidFlags s u) : InvalidFlags s t := by
  obtain ⟨hie, hc1, hrest⟩ := g
  exact ⟨h.ie.trans hie, h.c1.trans hc1, fun f h1 => (h.flag f).trans (hrest f h1)⟩

end Shows

theorem shows_openC023 (u : State) : Shows u u.openC023 :=
  ⟨openC023_regs u, openC023_tags u, openC023_top u, openC023_flag u, openC023_c1 u,
    (calc_openC023 (K := []) (F := []) u).mem⟩

theorem shows_openC03 (u : State) : Shows u u.openC03 ∧ u.openC03.sw.c2 = u.sw.c2 := by
  refine ⟨⟨rfl, rfl, rfl, fun f => ?_, rfl, rfl⟩, rfl⟩
  cases f <;> rfl

theorem shows_retire (ptr : Pointers) (i : Instr) (u : State) : Shows u (u.retire ptr i) :=
  ⟨retire_regs .., retire_tags .., by rw [retire_sw], fun f => by rw [retire_sw], by rw [retire_sw], retire_mem ..⟩

theorem Shows.store {u t : State} (h : Shows u t) (a : Addr) (bs : List Byte) : Shows (u.store a bs) (t.store a bs) :=
  ⟨h.regs, h.tags, h.top, h.flag, h.c1, by rw [store_mem, store_mem, h.mem]⟩

/-- An instruction that is no control instruction, ready and with its operand there, answers what its rule shows. -/
theorem runs_shows {i : Instr} {s u : State} (hf : familyOf i ≠ .control) (hr : Ready i s) (ho : OperandThere i s)
    (h : Shows u (afterOf i s)) : ∃ t, exec i s = .next t ∧ Shows u t :=
  ⟨_, exec_computes hf hr ho, h.trans (shows_retire ..)⟩

/-- The same where the rule ends with the line "C0, C2, C3 Undefined." -/
theorem runs_open {i : Instr} {s u : State} (hf : familyOf i ≠ .control) (hr : Ready i s) (ho : OperandThere i s)
    (h : afterOf i s = u.openC023) : ∃ t, exec i s = .next t ∧ Shows u t :=
  runs_shows hf hr ho (h ▸ shows_openC023 u)

/-- The state after a rule that may store. -/
def storedAt (a : Addr) (x : State × Option (List Byte)) : State :=
  match x.2 with
  | none => x.1
  | some bs => x.1.store a bs

theorem storedAt_openAfter (a : Addr) (x : State × Option (List Byte)) :
    Shows (storedAt a x) (storedAt a (openAfter x)) := by
  obtain ⟨u, o⟩ := x
  cases o with
  | none => exact shows_openC023 u
  | some bs => exact (shows_openC023 u).store a bs

theorem afterOf_stored {i : Instr} {f} (h : shapeOf i = .store f) (s : State) :
    afterOf i s = storedAt (addressOf i) (f s) := by
  simp only [afterOf, h]
  rfl

theorem runs_store {i : Instr} {f : State → State × Option (List Byte)} {s : State} (hf : familyOf i ≠ .control)
    (hr : Ready i s) (ho : OperandThere i s) (h : shapeOf i = .store fun s => openAfter (f s)) :
    ∃ t, exec i s = .next t ∧ Shows (storedAt (addressOf i) (f s)) t := by
  refine runs_shows hf hr ho ?_
  rw [afterOf_stored h]
  exact storedAt_openAfter _ _

/-! ### Answers that only write registers -/

/-- The step writes registers and tags and moves TOP. -/
structure Answering (f : State → State) : Prop where
  sw  : ∀ t, (f t).sw = { t.sw with top := (f t).sw.top }
  mem : ∀ t, (f t).mem = t.mem

theorem answering_id : Answering id := ⟨fun _ => rfl, fun _ => rfl⟩
theorem answering_setSt (i : BitVec 3) (v : Ext) : Answering fun t => t.setSt i v := ⟨fun _ => rfl, fun _ => rfl⟩
theorem answering_push (v : Ext) : Answering fun t => t.push v := ⟨fun _ => rfl, fun _ => rfl⟩
theorem answering_pop : Answering State.pop := ⟨fun _ => rfl, fun _ => rfl⟩

theorem Answering.comp {f g : State → State} (hf : Answering f) (hg : Answering g) : Answering fun t => g (f t) :=
  ⟨fun t => by rw [hg.sw, hf.sw], fun t => (hg.mem _).trans (hf.mem t)⟩

theorem answering_popIf (b : Bool) : Answering (State.popIf b) := by
  cases b
  · exact answering_id
  · exact answering_pop

theorem answering_bothResults (v : Ext) : Answering (State.bothResults v) :=
  (answering_setSt 0#3 v).comp (answering_push v)

theorem Answering.flag {f : State → State} (h : Answering f) (t : State) (g : Flag) :
    (f t).sw.flag g = t.sw.flag g := by
  rw [h.sw]
  cases g <;> rfl

theorem Answering.c1 {f : State → State} (h : Answering f) (t : State) : (f t).sw.c1 = t.sw.c1 := by rw [h.sw]

theorem Answering.c2 {f : State → State} (h : Answering f) (t : State) : (f t).sw.c2 = t.sw.c2 := by rw [h.sw]

/-! ### The fault responses -/

/-- The state in which a stack fault is flagged (rule R521). -/
def stackFlagged (o : Bool) (s : State) : State := { s with sw := { s.sw with ie := true, sf := true, c1 := o } }

/-- The state in which an invalid operation is flagged (rule R522). -/
def invalidFlagged (s : State) : State := { s with sw := { s.sw with ie := true, c1 := false } }

theorem raiseStack_eq (o : Bool) (f : State → State) (s : State) :
    s.raiseStack o f = if s.cw.getLsbD 0 then f (stackFlagged o s) else stackFlagged o s := rfl

theorem raiseInvalid_eq (f : State → State) (s : State) :
    s.raiseInvalid f = if s.cw.getLsbD 0 then f (invalidFlagged s) else invalidFlagged s := rfl

/-- `u` has the registers, tags, TOP and memory of `s`. -/
theorem untouched_of_eq {s u : State} (hr : u.regs = s.regs) (ht : u.tags = s.tags) (hp : u.sw.top = s.sw.top)
    (hm : u.mem = s.mem) : Untouched s u :=
  ⟨hr, ht, hp, fun a => by rw [State.byteAt, State.byteAt, hm]⟩

theorem stackFlagged_flags (o : Bool) (s : State) : StackFaultFlags o s (stackFlagged o s) := by
  refine ⟨rfl, rfl, rfl, fun f h1 h2 => ?_⟩
  cases f <;> first | rfl | contradiction

theorem invalidFlagged_flags (s : State) : InvalidFlags s (invalidFlagged s) := by
  refine ⟨rfl, rfl, fun f h1 => ?_⟩
  cases f <;> first | rfl | contradiction

theorem StackFaultFlags.answered {o : Bool} {s u : State} {f : State → State} (h : StackFaultFlags o s u)
    (hf : Answering f) : StackFaultFlags o s (f u) := by
  obtain ⟨hie, hsf, hc1, hrest⟩ := h
  exact ⟨(hf.flag u .ie).trans hie, (hf.flag u .sf).trans hsf, (hf.c1 u).trans hc1,
    fun g h1 h2 => (hf.flag u g).trans (hrest g h1 h2)⟩

theorem InvalidFlags.answered {s u : State} {f : State → State} (h : InvalidFlags s u) (hf : Answering f) :
    InvalidFlags s (f u) := by
  obtain ⟨hie, hc1, hrest⟩ := h
  exact ⟨(hf.flag u .ie).trans hie, (hf.c1 u).trans hc1, fun g h1 => (hf.flag u g).trans (hrest g h1)⟩

theorem raiseStack_flags {f : State → State} (hf : Answering f) (o : Bool) (s : State) :
    StackFaultFlags o s (s.raiseStack o f) := by
  rw [raiseStack_eq]
  split
  · exact StackFaultFlags.answered (stackFlagged_flags o s) hf
  · exact stackFlagged_flags o s

theorem raiseInvalid_flags {f : State → State} (hf : Answering f) (s : State) : InvalidFlags s (s.raiseInvalid f) := by
  rw [raiseInvalid_eq]
  split
  · exact InvalidFlags.answered (invalidFlagged_flags s) hf
  · exact invalidFlagged_flags s

/-- The masked response `P`, or with the exception unmasked nothing. -/
def Response (P : State → Prop) (s u : State) : Prop := if s.cw.getLsbD 0 then P u else Untouched s u

theorem Response.mono {P Q : State → Prop} {s u : State} (h : Response P s u) (hpq : P u → Q u) : Response Q s u := by
  unfold Response at h ⊢
  split at h
  · next hm => exact (if_pos hm).mpr (hpq h)
  · next hm => exact (if_neg hm).mpr h

theorem Response.shows {P : State → Prop} {s u t : State} (h : Response P s u) (ht : Shows u t) (hp : P u → P t) :
    Response P s t := by
  unfold Response at h ⊢
  split at h
  · next hm => exact (if_pos hm).mpr (hp h)
  · next hm => exact (if_neg hm).mpr (ht.untouched h)

theorem raiseStack_response {P : State → Prop} {f : State → State} {o : Bool} {s : State}
    (h : P (f (stackFlagged o s))) : Response P s (s.raiseStack o f) := by
  rw [Response, raiseStack_eq]
  split
  · exact h
  · exact untouched_of_eq rfl rfl rfl rfl

theorem raiseInvalid_response {P : State → Prop} {f : State → State} {s : State} (h : P (f (invalidFlagged s))) :
    Response P s (s.raiseInvalid f) := by
  rw [Response, raiseInvalid_eq]
  split
  · exact h
  · exact untouched_of_eq rfl rfl rfl rfl

@[simp] theorem stackFlagged_reg (o : Bool) (s : State) (k : BitVec 3) : (stackFlagged o s).reg k = s.reg k := rfl
@[simp] theorem stackFlagged_tag (o : Bool) (s : State) (k : BitVec 3) : (stackFlagged o s).tag k = s.tag k := rfl
@[simp] theorem stackFlagged_top (o : Bool) (s : State) : (stackFlagged o s).sw.top = s.sw.top := rfl
@[simp] theorem stackFlagged_phys (o : Bool) (s : State) (k : BitVec 3) : (stackFlagged o s).phys k = s.phys k := rfl
@[simp] theorem stackFlagged_st (o : Bool) (s : State) (k : BitVec 3) : (stackFlagged o s).st k = s.st k := rfl
@[simp] theorem stackFlagged_isEmpty (o : Bool) (s : State) (k : BitVec 3) :
    (stackFlagged o s).isEmpty k = s.isEmpty k := rfl
@[simp] theorem stackFlagged_mem (o : Bool) (s : State) : (stackFlagged o s).mem = s.mem := rfl
@[simp] theorem invalidFlagged_reg (s : State) (k : BitVec 3) : (invalidFlagged s).reg k = s.reg k := rfl
@[simp] theorem invalidFlagged_tag (s : State) (k : BitVec 3) : (invalidFlagged s).tag k = s.tag k := rfl
@[simp] theorem invalidFlagged_top (s : State) : (invalidFlagged s).sw.top = s.sw.top := rfl
@[simp] theorem invalidFlagged_phys (s : State) (k : BitVec 3) : (invalidFlagged s).phys k = s.phys k := rfl
@[simp] theorem invalidFlagged_mem (s : State) : (invalidFlagged s).mem = s.mem := rfl

/-- The indefinite is in the registers at the positions `L` of `s`, and TOP moved by `m`: the masked response. -/
def IndefAt (L : List (BitVec 3)) (m : BitVec 3) (s u : State) : Prop :=
  u.sw.top = s.sw.top + m ∧ ∀ k ∈ L, u.reg (s.phys k) = 0xFFFFC000000000000000#80

theorem IndefAt.shows {L : List (BitVec 3)} {m : BitVec 3} {s u t : State} (h : IndefAt L m s u) (ht : Shows u t) :
    IndefAt L m s t := by
  obtain ⟨htop, hreg⟩ := h
  exact ⟨ht.top.trans htop, fun k hk => (ht.reg _).trans (hreg k hk)⟩

/-- Answers that write the registers at `L` and move TOP by `m`, from any state whose TOP is that of `s`. -/
def Writes (v : Ext) (L : List (BitVec 3)) (m : BitVec 3) (f : State → State) : Prop :=
  Answering f ∧ ∀ s u : State, u.sw.top = s.sw.top → (f u).sw.top = s.sw.top + m ∧ ∀ k ∈ L, (f u).reg (s.phys k) = v

theorem phys_of_top {s u : State} (h : u.sw.top = s.sw.top) (k : BitVec 3) : u.phys k = s.phys k := by
  simp only [State.phys, h]

theorem writes_setSt (i : BitVec 3) (v : Ext) : Writes v [i] 0#3 fun t => t.setSt i v := by
  refine ⟨answering_setSt i v, fun s u h => ⟨h.trans (by simp), fun k hk => ?_⟩⟩
  obtain rfl := List.mem_singleton.1 hk
  simp [phys_of_top h]

theorem writes_push (v : Ext) : Writes v [7#3] 7#3 fun t => t.push v := by
  refine ⟨answering_push v, fun s u h => ⟨?_, fun k hk => ?_⟩⟩
  · rw [top_sub_one, ← h]
    rfl
  · obtain rfl := List.mem_singleton.1 hk
    rw [reg_push, State.phys, top_sub_one, h, if_pos rfl]

theorem writes_bothResults (v : Ext) : Writes v [0#3, 7#3] 7#3 (State.bothResults v) := by
  refine ⟨answering_bothResults v, fun s u h => ⟨?_, fun k hk => ?_⟩⟩
  · rw [top_sub_one, ← h]
    rfl
  · simp only [List.mem_cons, List.not_mem_nil, or_false] at hk
    rcases hk with rfl | rfl
    · simp [State.bothResults, phys_of_top h]
    · have hp : s.phys 7#3 = s.sw.top - 1#3 := top_sub_one _
      simp [State.bothResults, hp, h, State.setSt]

theorem writes_setSt_popIf (i : BitVec 3) (v : Ext) (pop : Bool) :
    Writes v [i] (if pop then 1#3 else 0#3) fun t => State.popIf pop (t.setSt i v) := by
  refine ⟨(answering_setSt i v).comp (answering_popIf pop), fun s u h => ?_⟩
  obtain ⟨htop, hreg⟩ := (writes_setSt i v).2 s u h
  cases pop
  · exact ⟨htop, hreg⟩
  · refine ⟨?_, hreg⟩
    rw [← h]
    rfl

theorem writes_popIf (v : Ext) (pop : Bool) : Writes v [] (if pop then 1#3 else 0#3) (State.popIf pop) := by
  refine ⟨answering_popIf pop, fun s u h => ⟨?_, fun k hk => absurd hk (List.not_mem_nil)⟩⟩
  rw [← h]
  cases pop
  · exact (BitVec.add_zero _).symm
  · rfl

theorem writes_pops (v : Ext) (n : Nat) : Writes v [] (BitVec.ofNat 3 n) (State.pops n) := by
  induction n with
  | zero => exact ⟨answering_id, fun s u h => ⟨h.trans (by simp), fun k hk => absurd hk (List.not_mem_nil)⟩⟩
  | succ n ih =>
    refine ⟨answering_pop.comp ih.1, fun s u h => ⟨?_, fun k hk => absurd hk (List.not_mem_nil)⟩⟩
    have htop : u.pop.sw.top = s.sw.top + 1#3 := by
      rw [← h]
      rfl
    have hn := (ih.2 u.pop u.pop rfl).1
    rw [State.pops, hn, htop, BitVec.add_assoc, BitVec.add_comm 1#3, ← BitVec.ofNat_add]

/-- A stack fault: the flags of rule R521 and the response. -/
def Faulted (o : Bool) (L : List (BitVec 3)) (m : BitVec 3) (s u : State) : Prop :=
  StackFaultFlags o s u ∧ Response (IndefAt L m s) s u

theorem Faulted.shows {o : Bool} {L : List (BitVec 3)} {m : BitVec 3} {s u t : State} (h : Faulted o L m s u)
    (ht : Shows u t) : Faulted o L m s t :=
  ⟨ht.stackFault h.1, h.2.shows ht fun h => h.shows ht⟩

theorem raiseStack_faulted {L : List (BitVec 3)} {m : BitVec 3} {f : State → State} (h : Writes indef L m f) (o : Bool)
    (s : State) : Faulted o L m s (s.raiseStack o f) :=
  ⟨raiseStack_flags h.1 o s, raiseStack_response (h.2 s _ rfl)⟩

/-- An invalid operation: the flags of rule R522 and the response. -/
def Invalidated (L : List (BitVec 3)) (m : BitVec 3) (s u : State) : Prop :=
  InvalidFlags s u ∧ Response (IndefAt L m s) s u

theorem Invalidated.shows {L : List (BitVec 3)} {m : BitVec 3} {s u t : State} (h : Invalidated L m s u)
    (ht : Shows u t) : Invalidated L m s t :=
  ⟨ht.invalid h.1, h.2.shows ht fun h => h.shows ht⟩

theorem raiseInvalid_invalidated {L : List (BitVec 3)} {m : BitVec 3} {f : State → State} (h : Writes indef L m f)
    (s : State) : Invalidated L m s (s.raiseInvalid f) :=
  ⟨raiseInvalid_flags h.1 s, raiseInvalid_response (h.2 s _ rfl)⟩

/-! ### Stack faults, instruction by instruction (rule R521) -/

theorem setResult_shows (dst : ResultTo) (rel : Relation) (s : State) :
    Shows (s.withC1 false) (s.setResult dst rel) := by
  cases dst <;> exact ⟨rfl, rfl, rfl, fun f => by cases f <;> rfl, rfl, rfl⟩

/-- The answer of a compare: the result, then the pops. -/
def resultPops (dst : ResultTo) (rel : Relation) (n : Nat) (t : State) : State := State.pops n (t.setResult dst rel)

theorem resultPops_flags (dst : ResultTo) (rel : Relation) (n : Nat) (t : State) :
    (∀ f, (resultPops dst rel n t).sw.flag f = t.sw.flag f) ∧ (resultPops dst rel n t).sw.c1 = false ∧
      (resultPops dst rel n t).sw.top = t.sw.top + BitVec.ofNat 3 n := by
  have hs := setResult_shows dst rel t
  obtain ⟨hans, hpops⟩ := writes_pops 0#80 n
  refine ⟨fun f => ?_, ?_, ?_⟩
  · rw [resultPops, hans.flag, hs.flag]
    cases f <;> rfl
  · rw [resultPops, hans.c1, hs.c1]
    rfl
  · rw [resultPops, (hpops t _ hs.top).1]

theorem compare_faulted {src : Source} {s : State} (h : (s.isEmpty 0#3 || src.isEmpty s) = true) (q : Bool)
    (dst : ResultTo) (n : Nat) : Faulted false [] (BitVec.ofNat 3 n) s (s.compare src q dst n) := by
  have heq : s.compare src q dst n = s.raiseStack false (resultPops dst .unordered n) := by
    rw [State.compare, if_pos h]
    rfl
  obtain ⟨hflag, hc1, htop⟩ := resultPops_flags dst .unordered n (stackFlagged false s)
  obtain ⟨hie, hsf, -, hrest⟩ := stackFlagged_flags false s
  rw [heq]
  refine ⟨?_, raiseStack_response ⟨htop, fun k hk => absurd hk List.not_mem_nil⟩⟩
  rw [raiseStack_eq]
  split
  · exact ⟨(hflag .ie).trans hie, (hflag .sf).trans hsf, hc1, fun f h1 h2 => (hflag f).trans (hrest f h1 h2)⟩
  · exact stackFlagged_flags false s

theorem arith_faulted {op : ArithOp} {d : BitVec 3} {src : Source} {s : State}
    (h : (s.isEmpty d || src.isEmpty s) = true) (pop : Bool) :
    Faulted false [d] (if pop then 1#3 else 0#3) s (s.arith op d src pop) := by
  rw [State.arith, if_pos h]
  exact raiseStack_faulted (writes_setSt_popIf d indef pop) false s

theorem unary_faulted {s : State} (h : s.isEmpty 0#3 = true) (invalid : Ext → Bool) (f : Ext → State → State) :
    Faulted false [0#3] 0#3 s (s.unary invalid f) := by
  rw [State.unary, if_pos h]
  exact raiseStack_faulted (writes_setSt 0#3 indef) false s

theorem onSign_faulted {s : State} (h : s.isEmpty 0#3 = true) (f : Ext → Ext) :
    Faulted false [0#3] 0#3 s (s.onSign f) := by
  rw [State.onSign, if_pos h]
  exact raiseStack_faulted (writes_setSt 0#3 indef) false s

theorem prem_faulted {s : State} (h : (s.isEmpty 0#3 || s.isEmpty 1#3) = true) (nearest : Bool) :
    Faulted false [0#3] 0#3 s (s.prem nearest) := by
  rw [State.prem, if_pos h]
  exact raiseStack_faulted (writes_setSt 0#3 indef) false s

theorem scale_faulted {s : State} (h : (s.isEmpty 0#3 || s.isEmpty 1#3) = true) :
    Faulted false [0#3] 0#3 s s.scale := by
  rw [State.scale, if_pos h]
  exact raiseStack_faulted (writes_setSt 0#3 indef) false s

theorem f2xm1_faulted {s : State} (h : s.isEmpty 0#3 = true) : Faulted false [0#3] 0#3 s s.f2xm1 := by
  rw [State.f2xm1, if_pos h]
  exact raiseStack_faulted (writes_setSt 0#3 indef) false s

theorem trig_faulted {s : State} (h : s.isEmpty 0#3 = true) (bad zero : State → State) (f : Ext → Rounding → Trans) :
    Faulted false [0#3] 0#3 s (s.trig bad zero f) := by
  rw [State.trig, if_pos h]
  exact raiseStack_faulted (writes_setSt 0#3 indef) false s

theorem pairFront_faulted {s : State} (h : (s.isEmpty 0#3 || s.isEmpty 1#3) = true) (f : Ext → Ext → State → State) :
    Faulted false [1#3] 1#3 s (s.pairFront f) := by
  rw [State.pairFront, if_pos h]
  exact raiseStack_faulted (writes_setSt_popIf 1#3 indef true) false s

/-- The stack fault of an instruction that reads ST(0) and pushes: underflow where ST(0) is empty, else overflow. -/
theorem xtract_faulted {s : State} {u : Bool} (hu : u = s.isEmpty 0#3) (h : u = true ∨ s.isEmpty 7#3 = false) :
    Faulted (!u) [0#3, 7#3] 7#3 s s.xtract := by
  subst hu
  rw [State.xtract]
  cases h0 : s.isEmpty 0#3
  · rw [if_neg (by decide), if_pos (by simpa [h0] using h)]
    exact raiseStack_faulted (writes_bothResults indef) true s
  · rw [if_pos rfl]
    exact raiseStack_faulted (writes_bothResults indef) false s

theorem trigPair_faulted {s : State} {u : Bool} (hu : u = s.isEmpty 0#3) (h : u = true ∨ s.isEmpty 7#3 = false)
    (takes : Ext → State → Bool) (f : Ext → State → State) :
    Faulted (!u) [0#3, 7#3] 7#3 s (s.trigPair takes f) := by
  subst hu
  rw [State.trigPair]
  cases h0 : s.isEmpty 0#3
  · rw [if_neg (by decide), if_pos (by simpa [h0] using h)]
    exact raiseStack_faulted (writes_bothResults indef) true s
  · rw [if_pos rfl]
    exact raiseStack_faulted (writes_bothResults indef) false s

theorem load_faulted {s : State} (h : s.isEmpty 7#3 = false) (v : Ext) : Faulted true [7#3] 7#3 s (s.load v) := by
  rw [State.load, if_pos (by rw [h]; rfl)]
  exact raiseStack_faulted (writes_push indef) true s

theorem loadBcd_faulted {s : State} (h : s.isEmpty 7#3 = false) (bs : List Byte) :
    Faulted true [7#3] 7#3 s (s.loadBcd bs) := by
  rw [State.loadBcd]
  split
  · exact load_faulted h _
  · rw [if_pos (by rw [h]; rfl)]
    exact load_faulted h _

theorem loadReal_faulted {s : State} (h : s.isEmpty 7#3 = false) (b : Operand) :
    Faulted true [7#3] 7#3 s (s.loadReal b) := by
  rw [State.loadReal, if_pos (by rw [h]; rfl)]
  exact raiseStack_faulted (writes_push indef) true s

theorem loadSt_faulted {s : State} {u : Bool} {i : BitVec 3} (hu : u = s.isEmpty i)
    (h : u = true ∨ s.isEmpty 7#3 = false) : Faulted (!u) [7#3] 7#3 s (s.loadSt i) := by
  subst hu
  rw [State.loadSt]
  cases h0 : s.isEmpty i
  · rw [if_neg (by decide)]
    exact load_faulted (by simpa [h0] using h) _
  · rw [if_pos rfl]
    exact raiseStack_faulted (writes_push indef) false s

theorem copyTo_faulted {s : State} (h : s.isEmpty 0#3 = true) (i : BitVec 3) (pop : Bool) :
    Faulted false [i] (if pop then 1#3 else 0#3) s (s.copyTo i pop) := by
  rw [State.copyTo, if_pos h]
  exact raiseStack_faulted (writes_setSt_popIf i indef pop) false s

theorem moveIf_faulted {s : State} {i : BitVec 3} (h : (s.isEmpty 0#3 || s.isEmpty i) = true) (cond : Bool) :
    Faulted false [0#3] 0#3 s (s.moveIf cond i) := by
  rw [State.moveIf, if_pos h]
  exact raiseStack_faulted (writes_setSt 0#3 indef) false s

theorem answering_fillEmpty (i : BitVec 3) : Answering (State.fillEmpty i) := by
  refine ⟨fun t => ?_, fun t => ?_⟩ <;> unfold State.fillEmpty <;> split <;> rfl

theorem answering_exchange (i : BitVec 3) : Answering (State.exchange i) := ⟨fun _ => rfl, fun _ => rfl⟩

/-- The masked response of FXCH. -/
def fillAndExchange (i : BitVec 3) (t : State) : State := ((t.fillEmpty 0#3).fillEmpty i).exchange i

theorem fillEmpty_top (i : BitVec 3) (t : State) : (t.fillEmpty i).sw.top = t.sw.top := by
  unfold State.fillEmpty
  split <;> rfl

theorem writes_fillAndExchange (v : Ext) (i : BitVec 3) : Writes v [] 0#3 (fillAndExchange i) := by
  refine ⟨((answering_fillEmpty 0#3).comp (answering_fillEmpty i)).comp (answering_exchange i), fun s u h =>
    ⟨?_, fun k hk => absurd hk List.not_mem_nil⟩⟩
  rw [BitVec.add_zero, ← h]
  exact (fillEmpty_top i _).trans (fillEmpty_top 0#3 u)

theorem swap_eq {s : State} {i : BitVec 3} (h : (s.isEmpty 0#3 || s.isEmpty i) = true) :
    s.swap i = s.raiseStack false (fillAndExchange i) := by
  rw [State.swap, if_pos h]
  rfl

theorem swap_faulted {s : State} {i : BitVec 3} (h : (s.isEmpty 0#3 || s.isEmpty i) = true) :
    Faulted false [] 0#3 s (s.swap i) := by
  rw [swap_eq h]
  exact raiseStack_faulted (writes_fillAndExchange indef i) false s

/-- What is stored does not show in the stack. -/
theorem Faulted.stored {o : Bool} {m : BitVec 3} {s : State} {x : State × Option (List Byte)}
    (h : Faulted o [] m s x.1) (hx : s.cw.getLsbD 0 = false → x.2 = none) (a : Addr) :
    Faulted o [] m s (storedAt a x) := by
  obtain ⟨u, bs⟩ := x
  cases bs with
  | none => exact h
  | some bs =>
    have hm : s.cw.getLsbD 0 = true := by
      by_contra hne
      exact absurd (hx (by simpa using hne)) (by simp)
    obtain ⟨hflags, hresp⟩ := h
    rw [Response, if_pos hm] at hresp
    exact ⟨hflags, by rw [Response, if_pos hm]; exact hresp⟩

theorem storeStack_faulted (bs : List Byte) (pop : Bool) (a : Addr) (s : State) :
    Faulted false [] (if pop then 1#3 else 0#3) s (storedAt a (s.storeStack bs pop)) := by
  refine Faulted.stored (raiseStack_faulted (writes_popIf indef pop) false s) (fun hm => if_neg ?_) a
  rw [hm]
  decide

theorem storeRounded_empty {s : State} (h : s.isEmpty 0#3 = true) (fits : Nat → Bool) (image : Nat → List Byte)
    (bad : List Byte) (pop : Bool) : s.storeRounded fits image bad pop = s.storeStack bad pop := by
  rw [State.storeRounded, if_pos h]

theorem storeInt_empty {s : State} (h : s.isEmpty 0#3 = true) (w : Nat) (pop : Bool) :
    s.storeInt w pop = s.storeStack (leBytes (w / 8) (intIndef w)) pop := by
  rw [State.storeInt]
  exact storeRounded_empty h _ _ _ _

theorem storeBcd_empty {s : State} (h : s.isEmpty 0#3 = true) : s.storeBcd = s.storeStack bcdIndefinite true := by
  rw [State.storeBcd]
  exact storeRounded_empty h _ _ _ _

theorem storeReal_empty {s : State} (h : s.isEmpty 0#3 = true) (f : RealFmt) (pop : Bool) :
    s.storeReal f pop = s.storeStack (leBytes f.bytes f.indefinite) pop := by
  rw [State.storeReal, if_pos h]

theorem storeExt_empty {s : State} (h : s.isEmpty 0#3 = true) :
    s.storeExt = s.storeStack (leBytes 10 indef.toNat) true := by
  rw [State.storeExt, if_pos h]

end Sys2Proof.Laws.Answers
end

section
/-! Stack faults of all instructions but the control ones, and the moves, loads of 80 bits and constants (43_data_transfer.md
sections 2, 4 to 7). -/

namespace Sys2Proof.Laws.Moves

open Sys2Proof.Machine Sys2Proof.Laws.Shapes Sys2Proof.Laws.Frame Sys2Proof.Laws.SignBit Sys2Proof.Laws.Answers

/-! ### Which registers are read -/

theorem one_source {s : State} {u : Bool} {j : BitVec 3} (h : u = true ↔ ∃ k ∈ [j], s.isEmpty k = true) :
    u = s.isEmpty j := by
  rw [Bool.eq_iff_iff, h]
  simp

theorem two_sources {s : State} {u : Bool} {i j : BitVec 3} (h : u = true ↔ ∃ k ∈ [i, j], s.isEmpty k = true) :
    u = (s.isEmpty i || s.isEmpty j) := by
  rw [Bool.eq_iff_iff, h]
  simp

theorem no_source {s : State} {u : Bool} (h : u = true ↔ ∃ k ∈ ([] : List (BitVec 3)), s.isEmpty k = true) :
    u = false := by
  rw [← Bool.not_eq_true, h]
  simp

theorem arithRow_reads {i : Instr} {row : ArithRow} (h : arithRow i = some row) (s : State) :
    answers i = [row.dest] ∧ topMove i = (if row.pop then 1#3 else 0#3) ∧ 7#3 ∉ topMoves i ∧
      ((∃ k ∈ sources i, s.isEmpty k = true) ↔
        (s.isEmpty row.dest || (sourceIn row.source (addressOf i) s).isEmpty s) = true) := by
  cases i <;> cases h <;>
    exact ⟨rfl, rfl, by simp [topMoves], by simp [sources, sourceIn, Source.isEmpty, or_comm]⟩

theorem compareRow_reads {i : Instr} {row : CompareRow} (h : compareRow i = some row) (s : State) :
    answers i = [] ∧ topMove i = BitVec.ofNat 3 row.pops ∧ 7#3 ∉ topMoves i ∧
      ((∃ k ∈ sources i, s.isEmpty k = true) ↔
        (s.isEmpty 0#3 || (sourceIn row.source (addressOf i) s).isEmpty s) = true) := by
  cases i <;> cases h <;> exact ⟨rfl, rfl, by simp [topMoves], by simp [sources, sourceIn, Source.isEmpty]⟩

/-! ### The stack faults -/

/-- What the rule shows of a stack fault. -/
def FaultShown (i : Instr) (s : State) (u : Bool) : Prop :=
  ∃ v, Shows v (afterOf i s) ∧ Faulted (!u) (answers i) (topMove i) s v

theorem faultShown_arith {i : Instr} {row : ArithRow} {s : State} {u : Bool} (hrow : arithRow i = some row)
    (hu : u = true ↔ ∃ k ∈ sources i, s.isEmpty k = true)
    (h : u = true ∨ (7#3 ∈ topMoves i ∧ s.isEmpty 7#3 = false)) : FaultShown i s u := by
  obtain ⟨hans, htop, hpush, hreads⟩ := arithRow_reads hrow s
  obtain rfl : u = true := h.resolve_right fun hp => hpush hp.1
  rw [FaultShown, hans, htop, afterOf_arith hrow]
  exact ⟨_, shows_openC023 _, arith_faulted (hreads.1 (hu.1 rfl)) _⟩

theorem faultShown_compare {i : Instr} {row : CompareRow} {s : State} {u : Bool} (hrow : compareRow i = some row)
    (hu : u = true ↔ ∃ k ∈ sources i, s.isEmpty k = true)
    (h : u = true ∨ (7#3 ∈ topMoves i ∧ s.isEmpty 7#3 = false)) : FaultShown i s u := by
  obtain ⟨hans, htop, hpush, hreads⟩ := compareRow_reads hrow s
  obtain rfl : u = true := h.resolve_right fun hp => hpush hp.1
  rw [FaultShown, hans, htop, afterOf_compare hrow]
  exact ⟨_, Shows.refl _, compare_faulted (hreads.1 (hu.1 rfl)) _ _ _⟩

/-- Without a push among the moves of TOP the fault is an underflow. -/
theorem underflow_of_no_push {s : State} {u : Bool} {L : List (BitVec 3)} (hL : 7#3 ∉ L)
    (h : u = true ∨ (7#3 ∈ L ∧ s.isEmpty 7#3 = false)) : u = true := h.resolve_right fun hp => hL hp.1

theorem faultShown_other {i : Instr} {s : State} {u : Bool} (hf : familyOf i = .other)
    (hu : u = true ↔ ∃ k ∈ sources i, s.isEmpty k = true)
    (h : u = true ∨ (7#3 ∈ topMoves i ∧ s.isEmpty 7#3 = false)) : FaultShown i s u := by
  cases i <;> cases hf
  case fxtract => exact ⟨_, shows_openC023 _, xtract_faulted (one_source hu) (h.imp_right And.right)⟩
  all_goals obtain rfl := underflow_of_no_push (by simp [topMoves]) h
  case fabs | fchs => exact ⟨_, shows_openC023 _, onSign_faulted (one_source hu).symm _⟩
  case fprem | fprem1 => exact ⟨_, Shows.refl _, prem_faulted (two_sources hu).symm _⟩
  case frndint | fsqrt => exact ⟨_, shows_openC023 _, unary_faulted (one_source hu).symm _ _⟩
  case fscale => exact ⟨_, shows_openC023 _, scale_faulted (two_sources hu).symm⟩

theorem faultShown_transcend {i : Instr} {s : State} {u : Bool} (hf : familyOf i = .transcend)
    (hu : u = true ↔ ∃ k ∈ sources i, s.isEmpty k = true)
    (h : u = true ∨ (7#3 ∈ topMoves i ∧ s.isEmpty 7#3 = false)) : FaultShown i s u := by
  cases i <;> cases hf
  case fptan | fsincos =>
    exact ⟨_, (shows_openC03 _).1, trigPair_faulted (one_source hu) (h.imp_right And.right) _ _⟩
  all_goals obtain rfl := underflow_of_no_push (by simp [topMoves]) h
  case f2xm1 => exact ⟨_, shows_openC023 _, f2xm1_faulted (one_source hu).symm⟩
  case fsin | fcos => exact ⟨_, (shows_openC03 _).1, trig_faulted (one_source hu).symm _ _ _⟩
  case fpatan | fyl2x | fyl2xp1 => exact ⟨_, shows_openC023 _, pairFront_faulted (two_sources hu).symm _⟩

theorem faultShown_load {i : Instr} {s : State} {u : Bool} (hf : familyOf i = .load)
    (hu : u = true ↔ ∃ k ∈ sources i, s.isEmpty k = true)
    (h : u = true ∨ (7#3 ∈ topMoves i ∧ s.isEmpty 7#3 = false)) : FaultShown i s u := by
  cases i <;> cases hf
  case fldSt k => exact ⟨_, shows_openC023 _, loadSt_faulted (one_source hu) (h.imp_right And.right)⟩
  all_goals
    obtain rfl := no_source hu
    have h7 := (h.resolve_left Bool.false_ne_true).2
  case fbld a => exact ⟨_, shows_openC023 _, loadBcd_faulted h7 _⟩
  case fldM32 a | fldM64 a => exact ⟨_, shows_openC023 _, loadReal_faulted h7 _⟩
  all_goals exact ⟨_, shows_openC023 _, load_faulted h7 _⟩

theorem faultShown_move {i : Instr} {s : State} {u : Bool} (hf : familyOf i = .move)
    (hu : u = true ↔ ∃ k ∈ sources i, s.isEmpty k = true)
    (h : u = true ∨ (7#3 ∈ topMoves i ∧ s.isEmpty 7#3 = false)) : FaultShown i s u := by
  cases i <;> cases hf
  all_goals obtain rfl := underflow_of_no_push (by simp [topMoves]) h
  case fstSt k => exact ⟨_, shows_openC023 _, copyTo_faulted (one_source hu).symm k false⟩
  case fstpSt k => exact ⟨_, shows_openC023 _, copyTo_faulted (one_source hu).symm k true⟩
  case fxch k => exact ⟨_, shows_openC023 _, swap_faulted (two_sources hu).symm⟩
  all_goals exact ⟨_, shows_openC023 _, moveIf_faulted (two_sources hu).symm _⟩

/-- The rule of a store of ST(0) to memory is one of three. -/
theorem store_rules {i : Instr} (hf : familyOf i = .store) : ∃ f : State → State × Option (List Byte),
    shapeOf i = .store (fun s => openAfter (f s)) ∧ sources i = [0#3] ∧ answers i = [] ∧ 7#3 ∉ topMoves i ∧
      ∃ pop, topMove i = (if pop then 1#3 else 0#3) ∧
        ∀ s, s.isEmpty 0#3 = true → ∃ bs, f s = s.storeStack bs pop := by
  cases i <;> cases hf
  case fstpM80 a => exact ⟨_, rfl, rfl, rfl, by simp [topMoves], true, rfl, fun s h => ⟨_, storeExt_empty h⟩⟩
  case fstM32 a => exact ⟨_, rfl, rfl, rfl, by simp [topMoves], false, rfl, fun s h => ⟨_, storeReal_empty h _ _⟩⟩
  case fstM64 a => exact ⟨_, rfl, rfl, rfl, by simp [topMoves], false, rfl, fun s h => ⟨_, storeReal_empty h _ _⟩⟩
  case fstpM32 a => exact ⟨_, rfl, rfl, rfl, by simp [topMoves], true, rfl, fun s h => ⟨_, storeReal_empty h _ _⟩⟩
  case fstpM64 a => exact ⟨_, rfl, rfl, rfl, by simp [topMoves], true, rfl, fun s h => ⟨_, storeReal_empty h _ _⟩⟩
  case fbstp a => exact ⟨_, rfl, rfl, rfl, by simp [topMoves], true, rfl, fun s h => ⟨_, storeBcd_empty h⟩⟩
  case fistM16 a | fistM32 a =>
    exact ⟨_, rfl, rfl, rfl, by simp [topMoves], false, rfl, fun s h => ⟨_, storeInt_empty h _ _⟩⟩
  all_goals exact ⟨_, rfl, rfl, rfl, by simp [topMoves], true, rfl, fun s h => ⟨_, storeInt_empty h _ _⟩⟩

theorem faultShown_store {i : Instr} {s : State} {u : Bool} (hf : familyOf i = .store)
    (hu : u = true ↔ ∃ k ∈ sources i, s.isEmpty k = true)
    (h : u = true ∨ (7#3 ∈ topMoves i ∧ s.isEmpty 7#3 = false)) : FaultShown i s u := by
  obtain ⟨f, hshape, hsrc, hans, hpush, pop, htop, hempty⟩ := store_rules hf
  obtain rfl := underflow_of_no_push hpush h
  rw [hsrc] at hu
  obtain ⟨bs, hbs⟩ := hempty s (one_source hu).symm
  rw [FaultShown, hans, htop, afterOf_stored hshape, hbs]
  exact ⟨_, storedAt_openAfter _ _, storeStack_faulted bs pop _ s⟩

/-- Settles O39: the first test of every rule. -/
theorem stackFaults : Obligations.StackFaults := by
  unfold Obligations.StackFaults
  intro i s u hf hr ho hu h
  have hshown : FaultShown i s u := by
    cases hfam : familyOf i
    case control => exact absurd hfam hf
    case arith =>
      obtain ⟨row, hrow⟩ := exists_arithRow hfam
      exact faultShown_arith hrow hu h
    case compare =>
      rcases exists_compareRow hfam with rfl | ⟨row, hrow⟩
      · obtain rfl := no_source hu
        exact absurd (h.resolve_left Bool.false_ne_true).1 (by simp [topMoves])
      · exact faultShown_compare hrow hu h
    case other => exact faultShown_other hfam hu h
    case transcend => exact faultShown_transcend hfam hu h
    case load => exact faultShown_load hfam hu h
    case store => exact faultShown_store hfam hu h
    case move => exact faultShown_move hfam hu h
  obtain ⟨v, hv, hfault⟩ := hshown
  obtain ⟨t, ht, hshows⟩ := runs_shows hf hr ho hv
  exact ⟨t, ht, (hfault.shows hshows).1, (hfault.shows hshows).2⟩

/-! ### FCMOVcc, FST ST(i), FSTP ST(i), FXCH -/

theorem cmov_rule {mk : BitVec 3 → Instr} {cond : State → Bool}
    (h : (mk, cond) ∈ [(Instr.fcmovb, fun s : State => s.cf), (Instr.fcmove, fun s => s.zf),
      (Instr.fcmovbe, fun s => s.cf || s.zf), (Instr.fcmovu, fun s => s.pf), (Instr.fcmovnb, fun s => !s.cf),
      (Instr.fcmovne, fun s => !s.zf), (Instr.fcmovnbe, fun s => !(s.cf || s.zf)), (Instr.fcmovnu, fun s => !s.pf)])
    (k : BitVec 3) (s : State) :
    familyOf (mk k) ≠ .control ∧ OperandThere (mk k) s ∧ afterOf (mk k) s = (s.moveIf (cond s) k).openC023 := by
  simp only [List.mem_cons, Prod.mk.injEq, List.not_mem_nil, or_false] at h
  rcases h with ⟨rfl, rfl⟩ | ⟨rfl, rfl⟩ | ⟨rfl, rfl⟩ | ⟨rfl, rfl⟩ | ⟨rfl, rfl⟩ | ⟨rfl, rfl⟩ | ⟨rfl, rfl⟩ | ⟨rfl, rfl⟩
  case inr.inr.inr.inr.inr.inr.inl =>
    refine ⟨nofun, trivial, ?_⟩
    dsimp only
    rw [Bool.not_or]
    rfl
  all_goals exact ⟨nofun, trivial, rfl⟩

theorem moveIf_full {s : State} {k : BitVec 3} (h0 : s.isEmpty 0#3 = false) (hk : s.isEmpty k = false) (c : Bool) :
    s.moveIf c k = (if c then s.setSt 0#3 (s.st k) else s).withC1 false := by
  rw [State.moveIf, if_neg (by rw [h0, hk]; decide)]

/-- Settles O44. -/
theorem conditionalMoves : Obligations.ConditionalMoves := by
  unfold Obligations.ConditionalMoves
  intro mk cond k s hmem hr
  obtain ⟨hf, ho, hafter⟩ := cmov_rule hmem k s
  obtain ⟨t, ht, hshow⟩ := runs_open hf hr ho hafter
  by_cases hempty : (s.isEmpty 0#3 || s.isEmpty k) = true
  · obtain ⟨hflags, hresp⟩ := (moveIf_faulted hempty (cond s)).shows hshow
    have hpure : ¬(s.isEmpty 0#3 = false ∧ s.isEmpty k = false) := fun ⟨h0, hk⟩ => by simp [h0, hk] at hempty
    have htop : t.sw.top = s.sw.top := by
      unfold Response at hresp
      split at hresp
      · exact hresp.1.trans (BitVec.add_zero _)
      · exact hresp.2.2.1
    exact ⟨t, ht, hflags.2.2.1, htop, fun h0 hk => absurd ⟨h0, hk⟩ hpure,
      fun _ => ⟨hflags, Response.mono (Q := fun u => u.reg (s.phys 0#3) = indef) hresp fun h => h.2 0#3 (List.mem_singleton.2 rfl)⟩⟩
  · obtain ⟨h0, hk⟩ : s.isEmpty 0#3 = false ∧ s.isEmpty k = false := by simpa using hempty
    rw [moveIf_full h0 hk] at hshow
    refine ⟨t, ht, hshow.c1, ?_, fun _ _ => ⟨fun f => ?_, fun hc => ?_, fun hc => ?_⟩,
      fun he => absurd he (by simp [h0, hk])⟩
    · rw [hshow.top]
      cases cond s <;> rfl
    · rw [hshow.flag]
      cases cond s <;> cases f <;> rfl
    · rw [hc, if_pos rfl] at hshow
      rw [hshow.reg, hshow.tag]
      simp
    · rw [hc, if_neg (by decide)] at hshow
      exact ⟨hshow.regs, hshow.tags⟩

/-- What a copy to ST(k) leaves, `x` being the state it starts from. -/
theorem copied {s x : State} (hx : x.sw.top = s.sw.top) (k : BitVec 3) (v : Ext) (pop : Bool) :
    (State.popIf pop (x.setSt k v)).reg (s.phys k) = v ∧
    (pop = false → (State.popIf pop (x.setSt k v)).sw.top = s.sw.top ∧
      (State.popIf pop (x.setSt k v)).tag (s.phys k) = tagOf ((State.popIf pop (x.setSt k v)).reg (s.phys k))) ∧
    (pop = true → (State.popIf pop (x.setSt k v)).sw.top = s.sw.top + 1#3 ∧
      (State.popIf pop (x.setSt k v)).tag (s.phys 0#3) = .empty) := by
  have hreg : (x.setSt k v).reg (s.phys k) = v := by simp [phys_of_top hx]
  cases pop
  · refine ⟨hreg, fun _ => ⟨hx, ?_⟩, nofun⟩
    simp only [State.popIf, Bool.false_eq_true, if_false, hreg]
    simp [phys_of_top hx]
  · refine ⟨hreg, nofun, fun _ => ⟨?_, ?_⟩⟩
    · rw [← hx]
      rfl
    · have hp : s.phys 0#3 = x.sw.top := by rw [State.phys, hx, BitVec.add_zero]
      rw [State.popIf, if_pos rfl, tag_pop, hp]
      exact if_pos rfl

theorem phys_inj {s : State} {i j : BitVec 3} : s.phys i = s.phys j ↔ i = j := by
  simp only [State.phys, BitVec.add_right_inj]

/-- Contents and tag after an exchange. -/
theorem exchange_spec (s : State) (k : BitVec 3) :
    (s.exchange k).reg (s.phys 0#3) = s.st k ∧ (s.exchange k).reg (s.phys k) = s.st 0#3 ∧
    (s.exchange k).tag (s.phys 0#3) = s.tag (s.phys k) ∧ (s.exchange k).tag (s.phys k) = s.tag (s.phys 0#3) := by
  unfold State.exchange
  by_cases hk : k = 0#3
  · subst hk
    simp [State.st]
  · have hne : s.phys 0#3 ≠ s.phys k := fun h => hk (phys_inj.1 h).symm
    simp [hne]

theorem fillEmpty_reg (s : State) (i j : BitVec 3) :
    (s.fillEmpty i).st j = if s.isEmpty i = true ∧ j = i then indef else s.st j := by
  unfold State.fillEmpty
  by_cases he : s.isEmpty i = true
  · simp [he, State.st, phys_inj]
  · simp [he]

theorem fillEmpty_isEmpty (s : State) (i j : BitVec 3) :
    (s.fillEmpty i).isEmpty j = if j = i then false else s.isEmpty j := by
  by_cases he : s.isEmpty i = true
  · rw [State.fillEmpty, if_pos he, State.isEmpty, phys_setSt, tag_setSt]
    by_cases hj : j = i
    · simp [hj]
    · rw [if_neg (mt phys_inj.1 hj), if_neg hj, State.isEmpty]
  · rw [State.fillEmpty, if_neg he]
    by_cases hj : j = i
    · rw [if_pos hj, hj]
      simpa using he
    · rw [if_neg hj]

theorem fillEmpty_phys (s : State) (i j : BitVec 3) : (s.fillEmpty i).phys j = s.phys j :=
  phys_of_top (fillEmpty_top i s) j

/-- The masked response of FXCH: each empty register filled, then the exchange. -/
theorem fillAndExchange_spec (s : State) (k : BitVec 3) :
    (fillAndExchange k s).reg (s.phys 0#3) = (if s.isEmpty k then indef else s.st k) ∧
    (fillAndExchange k s).reg (s.phys k) = (if s.isEmpty 0#3 then indef else s.st 0#3) ∧
    (fillAndExchange k s).tag (s.phys 0#3) ≠ .empty ∧ (fillAndExchange k s).tag (s.phys k) ≠ .empty := by
  have hphys : ∀ j, ((s.fillEmpty 0#3).fillEmpty k).phys j = s.phys j := fun j => by
    rw [fillEmpty_phys, fillEmpty_phys]
  have hfull : ∀ j, j = 0#3 ∨ j = k → ((s.fillEmpty 0#3).fillEmpty k).isEmpty j = false := fun j hj => by
    rw [fillEmpty_isEmpty, fillEmpty_isEmpty]
    split
    · rfl
    · next hne => rw [if_pos (hj.resolve_right hne)]
  obtain ⟨h1, h2, h3, h4⟩ := exchange_spec ((s.fillEmpty 0#3).fillEmpty k) k
  simp only [hphys] at h1 h2 h3 h4
  refine ⟨?_, ?_, ?_, ?_⟩
  · rw [fillAndExchange, h1, fillEmpty_reg, fillEmpty_reg, fillEmpty_isEmpty]
    by_cases hk : k = 0#3
    · subst hk
      cases s.isEmpty 0#3 <;> simp
    · cases s.isEmpty k <;> simp [hk]
  · rw [fillAndExchange, h2, fillEmpty_reg, fillEmpty_reg, fillEmpty_isEmpty]
    by_cases hk : k = 0#3
    · subst hk
      cases s.isEmpty 0#3 <;> simp
    · simp [Ne.symm hk]
  · have h := hfull k (.inr rfl)
    rw [State.isEmpty, hphys] at h
    rw [fillAndExchange, h3]
    exact of_decide_eq_false h
  · have h := hfull 0#3 (.inl rfl)
    rw [State.isEmpty, hphys] at h
    rw [fillAndExchange, h4]
    exact of_decide_eq_false h

theorem copy_rule {i : Instr} {k : BitVec 3} {pop : Bool} (h : (i, pop) ∈ [(Instr.fstSt k, false), (.fstpSt k, true)])
    (s : State) : familyOf i ≠ .control ∧ OperandThere i s ∧ afterOf i s = (s.copyTo k pop).openC023 := by
  simp only [List.mem_cons, Prod.mk.injEq, List.not_mem_nil, or_false] at h
  rcases h with ⟨rfl, rfl⟩ | ⟨rfl, rfl⟩ <;> exact ⟨nofun, trivial, rfl⟩

/-- A copy of ST(0) to ST(k) (rules R365, R521). -/
theorem copyTo_shown {s t : State} {k : BitVec 3} {pop : Bool} (hshow : Shows (s.copyTo k pop) t) :
    t.sw.c1 = false ∧
    (s.isEmpty 0#3 = false → t.reg (s.phys k) = s.st 0#3 ∧ (∀ f, t.sw.flag f = s.sw.flag f)) ∧
    (s.isEmpty 0#3 = false ∨ s.cw.getLsbD 0 = true →
      (pop = false → t.sw.top = s.sw.top ∧ t.tag (s.phys k) = tagOf (t.reg (s.phys k))) ∧
      (pop = true → t.sw.top = s.sw.top + 1#3 ∧ t.tag (s.phys 0#3) = .empty)) ∧
    (s.isEmpty 0#3 = true → StackFaultFlags false s t ∧
      (if s.cw.getLsbD 0 then t.reg (s.phys k) = 0xFFFFC000000000000000#80 else Untouched s t)) := by
  have moved : ∀ (x : State) (v : Ext), x.sw.top = s.sw.top → Shows (State.popIf pop (x.setSt k v)) t →
      (pop = false → t.sw.top = s.sw.top ∧ t.tag (s.phys k) = tagOf (t.reg (s.phys k))) ∧
      (pop = true → t.sw.top = s.sw.top + 1#3 ∧ t.tag (s.phys 0#3) = .empty) := fun x v hx hsh => by
    rw [hsh.top, hsh.tag, hsh.reg, hsh.tag]
    exact (copied hx k v pop).2
  cases h0 : s.isEmpty 0#3
  · rw [State.copyTo, if_neg (by rw [h0]; decide),
      show (s.setSt k (s.st 0#3)).withC1 false = (s.withC1 false).setSt k (s.st 0#3) from rfl] at hshow
    have hans : Answering fun x => State.popIf pop (x.setSt k (s.st 0#3)) :=
      (answering_setSt k (s.st 0#3)).comp (answering_popIf pop)
    refine ⟨hshow.c1.trans (hans.c1 _), fun _ => ⟨?_, fun f => ?_⟩, fun _ => moved (s.withC1 false) _ rfl hshow, nofun⟩
    · rw [hshow.reg]
      exact (copied rfl k (s.st 0#3) pop).1
    · rw [hshow.flag, hans.flag]
      cases f <;> rfl
  · obtain ⟨hflags, hresp⟩ := (copyTo_faulted h0 k pop).shows hshow
    refine ⟨hflags.2.2.1, nofun, fun hm => ?_, fun _ =>
      ⟨hflags, Response.mono (Q := fun u => u.reg (s.phys k) = indef) hresp fun h => h.2 k (List.mem_singleton.2 rfl)⟩⟩
    have hm := hm.resolve_left (by decide)
    rw [State.copyTo, if_pos h0, raiseStack_eq, if_pos hm] at hshow
    exact moved (stackFlagged false s) _ rfl hshow

/-- Settles O45. -/
theorem registerMoves : Obligations.RegisterMoves := by
  unfold Obligations.RegisterMoves
  intro k s
  refine ⟨fun i pop hmem hr => ?_, fun hr => ?_⟩
  · obtain ⟨hf, ho, hafter⟩ := copy_rule hmem s
    obtain ⟨t, ht, hshow⟩ := runs_open hf hr ho hafter
    exact ⟨t, ht, copyTo_shown hshow⟩
  · obtain ⟨t, ht, hshow⟩ := runs_open (i := .fxch k) (u := s.swap k) nofun hr trivial rfl
    by_cases hempty : (s.isEmpty 0#3 || s.isEmpty k) = true
    · obtain ⟨hflags, hresp⟩ := (swap_faulted hempty).shows hshow
      have htop : t.sw.top = s.sw.top := by
        unfold Response at hresp
        split at hresp
        · exact hresp.1.trans (BitVec.add_zero _)
        · exact hresp.2.2.1
      refine ⟨t, ht, hflags.2.2.1, htop, fun h0 hk => absurd hempty (by simp [h0, hk]), fun _ => ⟨hflags, ?_⟩⟩
      unfold Response at hresp
      split at hresp
      · next hm =>
        rw [swap_eq hempty, raiseStack_eq, if_pos hm] at hshow
        rw [if_pos hm, hshow.reg, hshow.reg, hshow.tag, hshow.tag]
        exact fillAndExchange_spec (stackFlagged false s) k
      · next hm =>
        rw [if_neg hm]
        exact hresp
    · obtain ⟨h0, hk⟩ : s.isEmpty 0#3 = false ∧ s.isEmpty k = false := by simpa using hempty
      rw [State.swap, if_neg hempty] at hshow
      refine ⟨t, ht, hshow.c1, hshow.top, fun _ _ => ?_, fun he => absurd he (by simp [h0, hk])⟩
      obtain ⟨h1, h2, h3, h4⟩ := exchange_spec s k
      exact ⟨(hshow.reg _).trans h1, (hshow.reg _).trans h2, (hshow.tag _).trans h3, (hshow.tag _).trans h4,
        fun f => (hshow.flag f).trans (by cases f <;> rfl)⟩

/-! ### Loads that move bits -/

/-- A load onto a free register. -/
theorem load_free {s : State} (h7 : s.isEmpty 7#3 = true) (v : Ext) : s.load v = (s.push v).withC1 false := by
  rw [State.load, if_neg (by rw [h7]; decide)]

/-- What a push shows. -/
theorem pushed {s t : State} {v : Ext} (h : Shows ((s.push v).withC1 false) t) :
    t.sw.top = s.sw.top - 1#3 ∧ t.st 0#3 = v ∧ t.tag (s.phys 7#3) = tagOf v ∧ t.sw.c1 = false ∧
      ∀ f, t.sw.flag f = s.sw.flag f := by
  refine ⟨h.top, (h.st 0#3).trans (st_push_zero s v), ?_, h.c1, fun f => (h.flag f).trans (by cases f <;> rfl)⟩
  rw [h.tag, tag_withC1, tag_push, State.phys, top_sub_one, if_pos rfl]

/-- Settles O38. -/
theorem loadConstants : Obligations.LoadConstants := by
  unfold Obligations.LoadConstants
  intro i lo near hi s hmem hr h7
  have hrule : familyOf i ≠ .control ∧ OperandThere i s ∧ ∃ v, afterOf i s = (s.load v).openC023 ∧
      v = (match rounding s.cw with | .nearest => near | .up => hi | .down => lo | .chop => lo) := by
    simp only [List.mem_cons, Prod.mk.injEq, List.not_mem_nil, or_false] at hmem
    rcases hmem with ⟨rfl, rfl, rfl, rfl⟩ | ⟨rfl, rfl, rfl, rfl⟩ | ⟨rfl, rfl, rfl, rfl⟩ | ⟨rfl, rfl, rfl, rfl⟩ |
      ⟨rfl, rfl, rfl, rfl⟩ | ⟨rfl, rfl, rfl, rfl⟩ | ⟨rfl, rfl, rfl, rfl⟩ <;>
    exact ⟨nofun, trivial, _, rfl, by cases rounding s.cw <;> rfl⟩
  obtain ⟨hf, ho, v, hafter, hv⟩ := hrule
  rw [load_free h7] at hafter
  obtain ⟨t, ht, hshow⟩ := runs_open hf hr ho hafter
  obtain ⟨htop, hst, -, hc1, hflag⟩ := pushed hshow
  exact ⟨t, ht, htop, hc1, hflag, hst.trans hv⟩

/-- What a store of ten bytes leaves in memory. -/
theorem stored_bytes {s u t : State} (hm : Memory.wf s.mem) (hu : u.mem = s.mem) {a : Addr} {bs : List Byte} {n : Nat}
    (hn : bs.length = n) (h : Shows (storedAt a (u, some bs)) t) : t.bytesAt a n = bs := by
  rw [h.bytesAt, ← hn]
  exact bytesAt_store (by rw [hu]; exact hm) a bs

/-- Settles O37. -/
theorem extendedBitsUnchanged : Obligations.ExtendedBitsUnchanged := by
  unfold Obligations.ExtendedBitsUnchanged
  refine ⟨fun i s v hi hr ho h7 => ?_, fun a s hr ho hm => ?_⟩
  · have hrule : familyOf i ≠ .control ∧ afterOf i s = ((s.push v).withC1 false).openC023 := by
      rcases hi with ⟨a, rfl, rfl⟩ | ⟨k, rfl, hk, rfl⟩
      · refine ⟨nofun, (Control.afterOf_load (i := .fldM80 a) rfl s).trans ?_⟩
        rw [show addressOf (.fldM80 a) = a from rfl, show widthOf s.cfg (.fldM80 a) = 10 from rfl]
        rw [load_free h7]
      · have hload : s.loadSt k = (s.push (s.st k)).withC1 false := by
          rw [State.loadSt, if_neg (by rw [hk]; decide), load_free h7]
        refine ⟨nofun, (Control.afterOf_compute (i := .fldSt k) rfl s).trans ?_⟩
        rw [hload]
    obtain ⟨t, ht, hshow⟩ := runs_open hrule.1 hr ho hrule.2
    exact ⟨t, ht, pushed hshow⟩
  · obtain ⟨t, ht, hshow⟩ := runs_store (i := .fstpM80 a) (f := State.storeExt) nofun hr ho rfl
    cases h0 : s.isEmpty 0#3
    · rw [State.storeExt, if_neg (by rw [h0]; decide)] at hshow
      refine ⟨t, ht, hshow.c1, fun _ => ⟨?_, hshow.top, ?_, fun f => (hshow.flag f).trans (by cases f <;> rfl)⟩, nofun⟩
      · rw [stored_bytes (a := a) (u := (s.withC1 false).pop) hm rfl (length_leBytes ..) hshow]
        exact Images.leNat_leBytes_ext _
      · rw [hshow.tag, State.phys, BitVec.add_zero]
        exact (tag_pop (s.withC1 false) s.sw.top).trans (if_pos rfl)
    · rw [storeExt_empty h0] at hshow
      obtain ⟨hflags, hresp⟩ := (storeStack_faulted _ true _ s).shows hshow
      refine ⟨t, ht, hflags.2.2.1, nofun, fun _ => ⟨hflags, ?_⟩⟩
      unfold Response at hresp
      split at hresp
      · next hc =>
        rw [if_pos hc]
        refine ⟨?_, hresp.1⟩
        rw [State.storeStack, if_pos hc, raiseStack_eq, if_pos hc] at hshow
        rw [stored_bytes (a := a) (u := (stackFlagged false s).pop) hm rfl (length_leBytes ..) hshow, Images.leNat_leBytes_ext]
        rfl
      · next hc =>
        rw [if_neg hc]
        exact hresp

end Sys2Proof.Laws.Moves
end

section
/-! Register contents as real numbers (10_state.md rules R32 to R35): the fields, the value, and the encodings of numbers
and of the memory formats (20_memory.md rules R98 to R103). -/

namespace Sys2Proof.Laws.Values

open Sys2Proof.Machine Sys2Proof.Laws Sys2Proof.Laws.Shapes Sys2Proof.Laws.Images

/-! ### The fields -/

theorem sigOf_eq (x : Ext) : sigOf x = x.toNat % 2 ^ 64 := by
  rw [sigOf, toNat_extract]
  omega

theorem expoOf_eq (x : Ext) : expoOf x = x.toNat / 2 ^ 64 % 2 ^ 15 := toNat_extract x 64 15

theorem signOf_eq (x : Ext) : signOf x = decide (2 ^ 79 ≤ x.toNat) := by
  have h := x.isLt
  rw [signOf, BitVec.getLsbD, Nat.testBit_eq_decide_div_mod_eq]
  congr 1
  rw [eq_iff_iff]
  omega

theorem intBit_eq (x : Ext) : intBit x = decide (2 ^ 63 ≤ sigOf x) := by
  rw [intBit, BitVec.getLsbD, Nat.testBit_eq_decide_div_mod_eq, sigOf_eq]
  congr 1
  rw [eq_iff_iff]
  omega

theorem fracOf_eq (x : Ext) : (fracOf x).toNat = sigOf x % 2 ^ 63 := by
  rw [fracOf, toNat_extract, sigOf_eq]
  omega

/-- Contents with the same fields are the same. -/
theorem ext_of_fields {x y : Ext} (h1 : signOf x = signOf y) (h2 : expoOf x = expoOf y) (h3 : sigOf x = sigOf y) :
    x = y := by
  have hx := x.isLt
  have hy := y.isLt
  rw [signOf_eq, signOf_eq, decide_eq_decide] at h1
  rw [expoOf_eq, expoOf_eq] at h2
  rw [sigOf_eq, sigOf_eq] at h3
  refine BitVec.eq_of_toNat_eq ?_
  by_cases h : 2 ^ 79 ≤ x.toNat
  · have h' := h1.1 h
    omega
  · have h' := mt h1.2 h
    omega

theorem toNat_mkExt {neg : Bool} {e s : Nat} (he : e < 2 ^ 15) (hs : s < 2 ^ 64) :
    (mkExt neg e s).toNat = neg.toNat * 2 ^ 79 + e * 2 ^ 64 + s := by
  rw [mkExt, toNat_append_add, toNat_append_add, BitVec.toNat_ofBool, BitVec.toNat_ofNat, BitVec.toNat_ofNat,
    Nat.mod_eq_of_lt he, Nat.mod_eq_of_lt hs]
  ring

theorem signOf_mkExt (neg : Bool) {e s : Nat} (he : e < 2 ^ 15) (hs : s < 2 ^ 64) :
    signOf (mkExt neg e s) = neg := by
  rw [signOf_eq, toNat_mkExt he hs]
  cases neg
  · rw [Bool.toNat_false]
    exact decide_eq_false (by omega)
  · rw [Bool.toNat_true]
    exact decide_eq_true (by omega)

theorem expoOf_mkExt (neg : Bool) {e s : Nat} (he : e < 2 ^ 15) (hs : s < 2 ^ 64) : expoOf (mkExt neg e s) = e := by
  have := Bool.toNat_le neg
  rw [expoOf_eq, toNat_mkExt he hs]
  omega

theorem sigOf_mkExt (neg : Bool) {e s : Nat} (he : e < 2 ^ 15) (hs : s < 2 ^ 64) : sigOf (mkExt neg e s) = s := by
  rw [sigOf_eq, toNat_mkExt he hs]
  omega

/-! ### The classes -/

theorem classOf_eq (x : Ext) : classOf x =
    if expoOf x = 0 then (if sigOf x = 0 then .zero else .denormal)
    else if expoOf x = 0x7FFF then
      (if 2 ^ 63 ≤ sigOf x then (if sigOf x = 2 ^ 63 then .infinity else .nan) else .unsupported)
    else if 2 ^ 63 ≤ sigOf x then .normal else .unsupported := by
  have hs := Laws.sigOf_lt x
  have hf : fracOf x = 0#63 ↔ sigOf x % 2 ^ 63 = 0 := by
    rw [← BitVec.toNat_inj, fracOf_eq]
    rfl
  simp only [classOf, intBit_eq, decide_eq_true_eq, hf]
  split
  · rfl
  · split
    · split
      · refine if_congr ?_ rfl rfl
        omega
      · rfl
    · rfl

theorem class_zero_iff (x : Ext) : classOf x = .zero ↔ expoOf x = 0 ∧ sigOf x = 0 := by
  rw [classOf_eq]
  split_ifs <;> simp_all

theorem class_denormal_iff (x : Ext) : classOf x = .denormal ↔ expoOf x = 0 ∧ sigOf x ≠ 0 := by
  rw [classOf_eq]
  split_ifs <;> simp_all

theorem class_normal_iff (x : Ext) :
    classOf x = .normal ↔ expoOf x ≠ 0 ∧ expoOf x ≠ 0x7FFF ∧ 2 ^ 63 ≤ sigOf x := by
  rw [classOf_eq]
  split_ifs <;> simp_all

theorem class_infinity_iff (x : Ext) : classOf x = .infinity ↔ expoOf x = 0x7FFF ∧ sigOf x = 2 ^ 63 := by
  rw [classOf_eq]
  split_ifs <;> simp_all
  omega

theorem class_nan_iff (x : Ext) : classOf x = .nan ↔ expoOf x = 0x7FFF ∧ 2 ^ 63 < sigOf x := by
  rw [classOf_eq]
  split_ifs <;> simp_all <;> omega

/-! ### The value -/

/-- The real number that a dyadic number is. -/
noncomputable def realOf (d : Dyad) : ℝ := signed d.neg (d.mant * 2 ^ d.exp)

theorem signed_zero (neg : Bool) : signed neg 0 = 0 := by cases neg <;> simp [signed]

theorem signed_eq (neg : Bool) (v : ℝ) : signed neg v = (if neg then -1 else 1) * v := by
  cases neg <;> simp [signed]

theorem sig_real (x : Ext) :
    ((if intBit x then 1 else 0) + ((fracOf x).toNat : ℝ) / 2 ^ 63) = (sigOf x : ℝ) / 2 ^ 63 := by
  have hs := Laws.sigOf_lt x
  rw [intBit_eq, fracOf_eq]
  by_cases h : 2 ^ 63 ≤ sigOf x
  · have hsplit : sigOf x = 2 ^ 63 + sigOf x % 2 ^ 63 := by omega
    rw [if_pos (decide_eq_true h)]
    conv_rhs => rw [hsplit]
    push_cast
    ring
  · rw [if_neg (by simpa using h), Nat.mod_eq_of_lt (by omega)]
    ring

/-- The value of a register in the terms of the model (rule R34). -/
theorem hasValue_iff (x : Ext) (v : ℝ) :
    HasValue x v ↔ (classOf x = .zero ∨ classOf x = .normal ∨ classOf x = .denormal) ∧ v = realOf (valOf x) := by
  have key : (if signOf x then -1 else 1) * (2 : ℝ) ^ ((max (expoOf x) 1 : ℤ) - 16383) *
      ((if intBit x then 1 else 0) + ((fracOf x).toNat : ℝ) / 2 ^ 63) = realOf (valOf x) := by
    have hexp : (valOf x).exp = (max (expoOf x) 1 : ℤ) - 16383 - 63 := by
      simp only [valOf]
      push_cast
      ring
    have hpow : (2 : ℝ) ^ (valOf x).exp = 2 ^ ((max (expoOf x) 1 : ℤ) - 16383) / 2 ^ 63 := by
      rw [hexp, zpow_sub₀ two_ne_zero _ 63]
      norm_num
    rw [sig_real, show realOf (valOf x) = signed (signOf x) ((sigOf x : ℝ) * 2 ^ (valOf x).exp) from rfl, signed_eq,
      hpow]
    ring
  rw [HasValue, key]

theorem realOf_zero {d : Dyad} (h : d.mant = 0) : realOf d = 0 := by simp [realOf, h, signed_zero]

theorem abs_realOf (d : Dyad) : |realOf d| = d.mant * 2 ^ d.exp := by
  rw [realOf, signed_abs _ (by positivity)]

theorem realOf_neg_iff {d : Dyad} (h : d.mant ≠ 0) : realOf d < 0 ↔ d.neg = true := by
  have : (0 : ℝ) < d.mant := by positivity
  exact signed_neg_iff _ (by positivity)

theorem HasValue.class_zero {x : Ext} {v : ℝ} (h : HasValue x v) : classOf x = .zero ↔ v = 0 := by
  obtain ⟨hc, rfl⟩ := (hasValue_iff x v).1 h
  constructor
  · intro hz
    exact realOf_zero ((class_zero_iff x).1 hz).2
  · intro hv
    rcases hc with hc | hc
    · exact hc
    · have hm := (Laws.valOf_finite hc).1
      have habs := abs_realOf (valOf x)
      rw [hv, abs_zero] at habs
      have : (0 : ℝ) < (valOf x).mant := by positivity
      exact absurd habs (by positivity)

theorem HasValue.finite {x : Ext} {v : ℝ} (h : HasValue x v) (hv : v ≠ 0) :
    classOf x = .normal ∨ classOf x = .denormal :=
  ((hasValue_iff x v).1 h).1.resolve_left fun hz => hv ((HasValue.class_zero h).1 hz)

theorem HasValue.sign {x : Ext} {v : ℝ} (h : HasValue x v) (hv : v ≠ 0) : signOf x = decide (v < 0) := by
  have hm := (Laws.valOf_finite (HasValue.finite h hv)).1
  obtain ⟨-, rfl⟩ := (hasValue_iff x v).1 h
  rw [Bool.eq_iff_iff, decide_eq_true_eq, realOf_neg_iff hm]
  rfl

theorem HasValue.abs {x : Ext} {v : ℝ} (h : HasValue x v) : |v| = (valOf x).mant * 2 ^ (valOf x).exp := by
  obtain ⟨-, rfl⟩ := (hasValue_iff x v).1 h
  exact abs_realOf _

theorem HasValue.eq {x : Ext} {v : ℝ} (h : HasValue x v) :
    v = signed (signOf x) ((valOf x).mant * 2 ^ (valOf x).exp) := ((hasValue_iff x v).1 h).2

theorem HasValue.unique {x : Ext} {v w : ℝ} (h : HasValue x v) (h' : HasValue x w) : v = w :=
  (HasValue.eq h).trans (HasValue.eq h').symm

theorem hasValue_of_class {x : Ext} (h : classOf x = .zero ∨ classOf x = .normal ∨ classOf x = .denormal) :
    HasValue x (realOf (valOf x)) := (hasValue_iff x _).2 ⟨h, rfl⟩

/-- The exponent of a normal number, whose leading bit is its integer bit. -/
theorem leadExp_normal {x : Ext} (h : classOf x = .normal) :
    leadExp (valOf x).mant (valOf x).exp = (expoOf x : ℤ) - 16383 := by
  obtain ⟨h0, -, hs⟩ := (class_normal_iff x).1 h
  have hlt := Laws.sigOf_lt x
  have hlog : (sigOf x).log2 = 63 := (Nat.log2_eq_iff (by omega)).2 ⟨hs, hlt⟩
  have hmax : ((max (expoOf x) 1 : ℕ) : ℤ) = expoOf x := by omega
  simp only [valOf, leadExp, hlog, hmax]
  ring

/-- Above the range of the denormals a value has one encoding. -/
theorem hasValue_inj {x y : Ext} {v : ℝ} (hx : HasValue x v) (hy : HasValue y v)
    (hv : (2 : ℝ) ^ (-16381 : ℤ) ≤ |v|) : x = y := by
  have hv0 : v ≠ 0 := by
    rintro rfl
    rw [abs_zero] at hv
    exact absurd hv (not_le.2 (two_zpow_pos _))
  have hbig : ∀ {z : Ext}, HasValue z v → 2 ≤ expoOf z ∧ classOf z = .normal := by
    intro z hz
    have h2 : 2 ≤ expoOf z := by
      by_contra hlt
      have hexp : (valOf z).exp = -16445 := by
        have hmax : max (expoOf z) 1 = 1 := by omega
        simp only [valOf, hmax]
        norm_num
      have hm : ((valOf z).mant : ℝ) < 2 ^ (64 : ℤ) := by
        have := Laws.sigOf_lt z
        exact_mod_cast this
      have habs := HasValue.abs hz
      rw [hexp] at habs
      have : |v| < 2 ^ (64 : ℤ) * 2 ^ (-16445 : ℤ) := by
        rw [habs]
        exact mul_lt_mul_of_pos_right hm (two_zpow_pos _)
      rw [← zpow_add₀ two_ne_zero] at this
      norm_num only at this hv
      linarith
    refine ⟨h2, (HasValue.finite hz hv0).resolve_right fun hd => ?_⟩
    have := ((class_denormal_iff z).1 hd).1
    omega
  obtain ⟨hx2, hxn⟩ := hbig hx
  obtain ⟨hy2, hyn⟩ := hbig hy
  have hxm := (Laws.valOf_finite (.inl hxn)).1
  have hym := (Laws.valOf_finite (.inl hyn)).1
  have hx1 := leadExp_spec hxm (valOf x).exp
  have hy1 := leadExp_spec hym (valOf y).exp
  rw [← HasValue.abs hx, leadExp_normal hxn] at hx1
  rw [← HasValue.abs hy, leadExp_normal hyn] at hy1
  have he : (expoOf x : ℤ) - 16383 = expoOf y - 16383 := exponent_unique hx1.1 hx1.2 hy1.1 hy1.2
  have hexpo : expoOf x = expoOf y := by omega
  refine ext_of_fields (by rw [HasValue.sign hx hv0, HasValue.sign hy hv0]) hexpo ?_
  have hsame : (valOf x).exp = (valOf y).exp := by simp only [valOf, hexpo]
  have hval := (HasValue.abs hx).symm.trans (HasValue.abs hy)
  rw [hsame] at hval
  exact_mod_cast mul_right_cancel₀ (two_zpow_pos _).ne' hval

/-! ### Encodings of numbers -/

/-- `m · 2^e` is the value of some register contents: below the largest, and a multiple of the spacing where it is. -/
def Fits (m : Nat) (e : Int) : Prop :=
  leadExp m e < 16384 ∧
    ((-16382 ≤ leadExp m e ∧ 2 ^ m.log2 ∣ m * 2 ^ 63) ∨
      (leadExp m e < -16382 ∧ ∃ n : ℕ, (m : ℝ) * 2 ^ e = n * 2 ^ (-16445 : ℤ)))

theorem pow_log2_dvd {m : Nat} (h : m ≤ 2 ^ 64) : 2 ^ m.log2 ∣ m * 2 ^ 63 := by
  rcases h.lt_or_eq with hlt | rfl
  · by_cases h0 : m = 0
    · simp [h0]
    · have hlog : m.log2 < 64 := (Nat.log2_lt h0).2 hlt
      exact Dvd.dvd.mul_left (pow_dvd_pow 2 (by omega)) m
  · rw [Nat.log2_two_pow]
    exact Nat.dvd_mul_right _ _

theorem fits_normal {m : Nat} {e : Int} (hm : m ≤ 2 ^ 64) (h1 : -16382 ≤ leadExp m e) (h2 : leadExp m e < 16384) :
    Fits m e := ⟨h2, .inl ⟨h1, pow_log2_dvd hm⟩⟩

theorem natCast_mul_two_pow (m : Nat) {e k : ℤ} (h : k ≤ e) :
    ∃ n : ℕ, (m : ℝ) * 2 ^ e = n * 2 ^ k := by
  refine ⟨m * 2 ^ (e - k).toNat, ?_⟩
  have hk : e = ((e - k).toNat : ℤ) + k := by omega
  conv_lhs => rw [hk, zpow_add₀ two_ne_zero, zpow_natCast]
  push_cast
  ring

theorem fits_of_le {m : Nat} {e : Int} (hm : m ≤ 2 ^ 64) (he : -16445 ≤ e) (h2 : leadExp m e < 16384) : Fits m e := by
  rcases le_or_gt (-16382) (leadExp m e) with h1 | h1
  · exact fits_normal hm h1 h2
  · exact ⟨h2, .inr ⟨h1, natCast_mul_two_pow m he⟩⟩

theorem extOf_zero (neg : Bool) (e : Int) : extOf neg 0 e = mkExt neg 0 0 := if_pos rfl

/-- The encoding of a number is the register contents with its value and sign. -/
theorem extOf_spec (neg : Bool) {m : Nat} {e : Int} (h : m ≠ 0 → Fits m e) :
    HasValue (extOf neg m e) (signed neg (m * 2 ^ e)) ∧ signOf (extOf neg m e) = neg ∧
      (m ≠ 0 → -16382 ≤ leadExp m e → classOf (extOf neg m e) = .normal) := by
  by_cases h0 : m = 0
  · subst h0
    have hs : sigOf (mkExt neg 0 0) = 0 := sigOf_mkExt neg (by norm_num) (by norm_num)
    have he : expoOf (mkExt neg 0 0) = 0 := expoOf_mkExt neg (by norm_num) (by norm_num)
    have hc : classOf (mkExt neg 0 0) = .zero := (class_zero_iff _).2 ⟨he, hs⟩
    refine ⟨(hasValue_iff _ _).2 ⟨.inl (by rw [extOf_zero, hc]), ?_⟩, ?_, fun h => absurd rfl h⟩
    · rw [extOf_zero, realOf_zero (d := valOf _) hs, Nat.cast_zero, zero_mul, signed_zero]
    · rw [extOf_zero]
      exact signOf_mkExt neg (by norm_num) (by norm_num)
  · obtain ⟨hhi, hfit⟩ := h h0
    have hspec := leadExp_spec h0 e
    rcases hfit with ⟨hlo, hdvd⟩ | ⟨hlo, n, hn⟩
    · have hlogle := Nat.log2_self_le h0
      have hloglt : m < 2 ^ (m.log2 + 1) := Nat.lt_log2_self
      obtain ⟨q, hq⟩ := hdvd
      have hpow : 0 < 2 ^ m.log2 := by positivity
      have hdiv : m * 2 ^ 63 / 2 ^ m.log2 = q := by rw [hq, Nat.mul_div_cancel_left _ hpow]
      have hq1 : 2 ^ 63 ≤ q := by
        have : 2 ^ m.log2 * 2 ^ 63 ≤ 2 ^ m.log2 * q := by rw [← hq]; exact Nat.mul_le_mul_right _ hlogle
        exact Nat.le_of_mul_le_mul_left this hpow
      have hq2 : q < 2 ^ 64 := by
        have : 2 ^ m.log2 * q < 2 ^ m.log2 * 2 ^ 64 := by
          rw [← hq]
          calc m * 2 ^ 63 < 2 ^ (m.log2 + 1) * 2 ^ 63 := Nat.mul_lt_mul_of_pos_right hloglt (by norm_num)
            _ = 2 ^ m.log2 * 2 ^ 64 := by rw [pow_succ]; ring
        exact Nat.lt_of_mul_lt_mul_left this
      have hexp : (leadExp m e + 16383).toNat < 2 ^ 15 := by omega
      have hval : extOf neg m e = mkExt neg (leadExp m e + 16383).toNat q := by
        rw [extOf, if_neg h0]
        dsimp only
        rw [if_neg (by omega), hdiv]
      have hs : sigOf (extOf neg m e) = q := by rw [hval]; exact sigOf_mkExt neg hexp hq2
      have he : expoOf (extOf neg m e) = (leadExp m e + 16383).toNat := by rw [hval]; exact expoOf_mkExt neg hexp hq2
      have hsign : signOf (extOf neg m e) = neg := by rw [hval]; exact signOf_mkExt neg hexp hq2
      have hc : classOf (extOf neg m e) = .normal := by
        rw [class_normal_iff, hs, he]
        exact ⟨by omega, by omega, hq1⟩
      refine ⟨(hasValue_iff _ _).2 ⟨.inr (.inl hc), ?_⟩, hsign, fun _ _ => hc⟩
      have hmax : ((max (leadExp m e + 16383).toNat 1 : ℕ) : ℤ) = m.log2 + e + 16383 := by
        simp only [leadExp] at hlo ⊢
        omega
      have hqr : (m : ℝ) * 2 ^ (63 : ℤ) = 2 ^ (m.log2 : ℤ) * q := by
        rw [zpow_natCast, show (63 : ℤ) = ((63 : ℕ) : ℤ) from rfl, zpow_natCast]
        exact_mod_cast hq
      simp only [realOf, valOf, hsign, hs, he, hmax]
      congr 1
      have h63 : (2 : ℝ) ^ (63 : ℤ) ≠ 0 := (two_zpow_pos _).ne'
      have hsum : (m.log2 : ℤ) + e + 16383 - 16446 = m.log2 + (e - 63) := by ring
      rw [hsum, zpow_add₀ two_ne_zero, zpow_sub₀ two_ne_zero, ← mul_assoc, mul_comm (q : ℝ), ← hqr]
      field_simp
    · have hfloor : (scaleFloor m (e + 16445) : ℝ) = n := by
        have hsc := scaleFloor_spec m (e + 16445)
        have hmn : (m : ℝ) * 2 ^ (e + 16445) = n := by
          rw [zpow_add₀ two_ne_zero, ← mul_assoc, hn, mul_assoc, ← zpow_add₀ two_ne_zero]
          norm_num
        rw [hmn] at hsc
        have h1 : scaleFloor m (e + 16445) ≤ n := by exact_mod_cast hsc.1
        have h2 : n < scaleFloor m (e + 16445) + 1 := by exact_mod_cast hsc.2
        exact_mod_cast (show scaleFloor m (e + 16445) = n by omega)
      have hn63 : n < 2 ^ 63 := by
        have hlt : (n : ℝ) * 2 ^ (-16445 : ℤ) < 2 ^ (63 : ℤ) * 2 ^ (-16445 : ℤ) := by
          rw [← hn, ← zpow_add₀ two_ne_zero]
          refine lt_of_lt_of_le hspec.2 (zpow_le_zpow_right₀ (by norm_num) ?_)
          omega
        have := lt_of_mul_lt_mul_right hlt (two_zpow_pos _).le
        exact_mod_cast this
      have hscale : scaleFloor m (e + 16445) = n := by exact_mod_cast hfloor
      have hval : extOf neg m e = mkExt neg 0 n := by
        rw [extOf, if_neg h0]
        dsimp only
        rw [if_pos hlo, hscale]
      have hs : sigOf (extOf neg m e) = n := by rw [hval]; exact sigOf_mkExt neg (by norm_num) (by omega)
      have he : expoOf (extOf neg m e) = 0 := by rw [hval]; exact expoOf_mkExt neg (by norm_num) (by omega)
      have hsign : signOf (extOf neg m e) = neg := by rw [hval]; exact signOf_mkExt neg (by norm_num) (by omega)
      have hc : classOf (extOf neg m e) = .zero ∨ classOf (extOf neg m e) = .normal ∨
          classOf (extOf neg m e) = .denormal := by
        rw [class_zero_iff, class_denormal_iff, hs, he]
        by_cases hn0 : n = 0
        · exact .inl ⟨rfl, hn0⟩
        · exact .inr (.inr ⟨rfl, hn0⟩)
      refine ⟨(hasValue_iff _ _).2 ⟨hc, ?_⟩, hsign, fun _ h => absurd h (by omega)⟩
      simp only [realOf, valOf, hsign, hs, he, hn]
      norm_num

end Sys2Proof.Laws.Values
end

section
/-! The second operand of an arithmetic or compare instruction, as the statements give it and as the rules read it
(20_memory.md rules R98 to R103, 41_arith_basic.md rule R235). -/

namespace Sys2Proof.Laws.Sources

open Sys2Proof.Machine Sys2Proof.Laws Sys2Proof.Laws.Shapes Sys2Proof.Laws.Values

/-! ### Encodings that are determined by value and sign -/

/-- Zeros, and values above the range of the denormals, are determined by value and sign. -/
theorem ext_of_value {x y : Ext} {v : ℝ} (hx : HasValue x v) (hy : HasValue y v) (hs : signOf x = signOf y)
    (hv : v = 0 ∨ (2 : ℝ) ^ (-16381 : ℤ) ≤ |v|) : x = y := by
  rcases hv with rfl | hv
  · obtain ⟨hx1, hx2⟩ := (class_zero_iff x).1 ((HasValue.class_zero hx).2 rfl)
    obtain ⟨hy1, hy2⟩ := (class_zero_iff y).1 ((HasValue.class_zero hy).2 rfl)
    exact ext_of_fields hs (hx1.trans hy1.symm) (hx2.trans hy2.symm)
  · exact hasValue_inj hx hy hv

theorem leadExp_lt {m k : Nat} (h0 : m ≠ 0) (hm : m < 2 ^ k) (e : Int) : leadExp m e < k + e := by
  have := (Nat.log2_lt h0).2 hm
  rw [leadExp]
  omega

theorem le_leadExp (m : Nat) (e : Int) : e ≤ leadExp m e := by
  rw [leadExp]
  omega

/-- Encodings of moderate size are never denormals. -/
theorem extOf_moderate (neg : Bool) {m : Nat} {e : Int} (hm : m < 2 ^ 64) (h1 : -1100 ≤ e) (h2 : e ≤ 1000) :
    HasValue (extOf neg m e) (signed neg (m * 2 ^ e)) ∧ signOf (extOf neg m e) = neg ∧
      classOf (extOf neg m e) ≠ .denormal := by
  have hlead := le_leadExp m e
  obtain ⟨hval, hsign, hclass⟩ := extOf_spec neg (m := m) (e := e) fun h0 =>
    fits_normal hm.le (by omega) (by have := leadExp_lt h0 hm e; omega)
  refine ⟨hval, hsign, fun hd => ?_⟩
  by_cases h0 : m = 0
  · subst h0
    rw [extOf_zero, class_denormal_iff, sigOf_mkExt neg (by norm_num) (by norm_num)] at hd
    exact hd.2 rfl
  · rw [hclass h0 (by omega)] at hd
    exact absurd hd (by decide)

theorem moderate_bound {m : Nat} {e : Int} (h0 : m ≠ 0) (h1 : -1100 ≤ e) : (2 : ℝ) ^ (-16381 : ℤ) ≤ m * 2 ^ e := by
  refine le_trans ?_ (leadExp_spec h0 e).1
  exact zpow_le_zpow_right₀ (by norm_num) (by have := le_leadExp m e; omega)

/-! ### Integers -/

theorem intToExt_spec {n : Int} (h : n.natAbs < 2 ^ 64) :
    HasValue (intToExt n) n ∧ signOf (intToExt n) = decide (n < 0) ∧ classOf (intToExt n) ≠ .denormal := by
  obtain ⟨hval, hsign, hclass⟩ := extOf_moderate (decide (n < 0)) h (show (-1100 : ℤ) ≤ 0 by omega) (by omega)
  refine ⟨?_, hsign, hclass⟩
  have hreal : signed (decide (n < 0)) (n.natAbs * 2 ^ (0 : ℤ)) = (n : ℝ) := by
    rw [zpow_zero, mul_one, Nat.cast_natAbs]
    by_cases hn : n < 0
    · rw [decide_eq_true hn, signed, if_pos rfl, abs_of_neg hn]
      push_cast
      ring
    · rw [decide_eq_false hn, signed, if_neg (by decide), abs_of_nonneg (by omega)]
  rwa [hreal] at hval

/-- The signed reading of `w` bits is the integer of the bit vector. -/
theorem signedOf_eq {w n : Nat} (hw : 0 < w) (hn : n < 2 ^ w) : signedOf w n = (BitVec.ofNat w n).toInt := by
  have hpow : 2 ^ w = 2 * 2 ^ (w - 1) := by
    rw [← pow_succ', Nat.sub_add_cancel hw]
  rw [signedOf, BitVec.toInt_eq_toNat_cond, BitVec.toNat_ofNat, Nat.mod_eq_of_lt hn]
  by_cases h : n < 2 ^ (w - 1)
  · rw [if_pos h, if_pos (by omega)]
  · rw [if_neg h, if_neg (by omega)]
    push_cast
    rfl

theorem natAbs_signedOf {w n : Nat} (hw : w ≤ 64) (hn : n < 2 ^ w) : (signedOf w n).natAbs < 2 ^ 64 := by
  have hpow : 2 ^ w ≤ 2 ^ 64 := Nat.pow_le_pow_right (by omega) hw
  have hcast : ((2 ^ w : ℕ) : ℤ) = 2 ^ w := by push_cast; rfl
  rw [signedOf]
  split
  · omega
  · next h =>
    by_cases h0 : n = 0
    · exact absurd (show n < 2 ^ (w - 1) by rw [h0]; positivity) h
    · omega

theorem leNat_bytesAt_lt (s : State) (a : Addr) (n : Nat) : leNat (s.bytesAt a n) < 256 ^ n := by
  have := leNat_lt (s.bytesAt a n)
  rwa [length_bytesAt] at this

/-- The integer in memory, as it is loaded. -/
theorem intAt_spec {w : Nat} (hw : w = 16 ∨ w = 32 ∨ w = 64) (a : Addr) (s : State) :
    signedOf w (leNat (s.bytesAt a (w / 8))) = intAt w a s ∧ (intAt w a s).natAbs < 2 ^ 64 := by
  have hlt : leNat (s.bytesAt a (w / 8)) < 2 ^ w := by
    refine lt_of_lt_of_eq (leNat_bytesAt_lt s a (w / 8)) ?_
    rcases hw with rfl | rfl | rfl <;> norm_num
  have heq := signedOf_eq (show 0 < w by omega) hlt
  refine ⟨heq, ?_⟩
  rw [intAt, ← heq]
  exact natAbs_signedOf (by omega) hlt

/-! ### Reals in memory -/

/-- The two memory formats. -/
def Narrow (f : RealFmt) : Prop := f = single ∨ f = double

/-- The significand and exponent of a word that is no infinity and no NaN, as integers. -/
def mantOf (f : RealFmt) (w : Nat) : Nat := if f.expoOf w = 0 then f.fracOf w else 2 ^ f.fracBits + f.fracOf w
def spacingOf (f : RealFmt) (w : Nat) : Int := max (f.expoOf w) 1 - f.bias - f.fracBits

theorem formatValue_iff (f : RealFmt) (w : Nat) (v : ℝ) : FormatValue f w v ↔
    f.expoOf w < f.expMax ∧ v = signed (f.negOf w) (mantOf f w * 2 ^ spacingOf f w) := by
  have hpow : (2 : ℝ) ^ spacingOf f w = 2 ^ ((max (f.expoOf w) 1 : ℤ) - f.bias) / 2 ^ f.fracBits := by
    rw [spacingOf, zpow_sub₀ two_ne_zero _ (f.fracBits : ℤ), zpow_natCast]
    push_cast
    rfl
  have hmant : (mantOf f w : ℝ) = ((if f.expoOf w = 0 then 0 else 1) + (f.fracOf w : ℝ) / 2 ^ f.fracBits) *
      2 ^ f.fracBits := by
    rw [mantOf]
    split
    · field_simp
      ring
    · push_cast
      field_simp
  have key : signed (f.negOf w) (mantOf f w * 2 ^ spacingOf f w) =
      (if f.negOf w then -1 else 1) * 2 ^ ((max (f.expoOf w) 1 : ℤ) - f.bias) *
        ((if f.expoOf w = 0 then 0 else 1) + (f.fracOf w : ℝ) / 2 ^ f.fracBits) := by
    rw [signed_eq, hpow, hmant]
    field_simp
  rw [FormatValue, key]

theorem expoOf_le (f : RealFmt) (w : Nat) : f.expoOf w ≤ f.expMax := by
  have : f.expoOf w < 2 ^ f.expBits := Nat.mod_lt _ (by positivity)
  rw [RealFmt.expMax]
  omega

theorem toExt_finite {f : RealFmt} {w : Nat} (h : f.expoOf w < f.expMax) :
    f.toExt w = ⟨extOf (f.negOf w) (mantOf f w) (spacingOf f w),
      decide (f.expoOf w = 0) && decide (f.fracOf w ≠ 0)⟩ := by
  rw [RealFmt.toExt, if_neg h.ne]
  by_cases h0 : f.expoOf w = 0
  · rw [if_pos h0, mantOf, if_pos h0, spacingOf, h0, decide_eq_true rfl, Bool.true_and]
    rfl
  · have hmax : ((max (f.expoOf w) 1 : ℕ) : ℤ) = f.expoOf w := by omega
    rw [if_neg h0, mantOf, if_neg h0, spacingOf, decide_eq_false h0, Bool.false_and]
    rw [hmax]

/-- An infinity or NaN in memory, as a register value. -/
theorem toExt_special {f : RealFmt} {w : Nat} (h : f.expoOf w = f.expMax) :
    f.toExt w = ⟨mkExt (f.negOf w) 0x7FFF (2 ^ 63 + f.fracOf w * 2 ^ (63 - f.fracBits)), false⟩ := by
  rw [RealFmt.toExt]
  exact if_pos h

theorem narrow_bounds {f : RealFmt} (hf : Narrow f) {w : Nat} (h : f.expoOf w < f.expMax) :
    mantOf f w < 2 ^ 64 ∧ -1100 ≤ spacingOf f w ∧ spacingOf f w ≤ 1000 := by
  have hfrac : f.fracOf w < 2 ^ f.fracBits := Nat.mod_lt _ (by positivity)
  unfold mantOf spacingOf
  rcases hf with rfl | rfl
  · have hb : single.bias = 127 := by decide
    have hm : single.expMax = 255 := by decide
    have hfb : single.fracBits = 23 := rfl
    rw [hfb] at hfrac ⊢
    rw [hm] at h
    rw [hb]
    refine ⟨?_, ?_, ?_⟩ <;> [(split <;> omega); omega; omega]
  · have hb : double.bias = 1023 := by decide
    have hm : double.expMax = 2047 := by decide
    have hfb : double.fracBits = 52 := rfl
    rw [hfb] at hfrac ⊢
    rw [hm] at h
    rw [hb]
    refine ⟨?_, ?_, ?_⟩ <;> [(split <;> omega); omega; omega]

/-- A number in memory is loaded with its value and sign, and never as a denormal. -/
theorem toExt_value {f : RealFmt} (hf : Narrow f) {w : Nat} {v : ℝ} (h : FormatValue f w v) :
    HasValue (f.toExt w).bits v ∧ signOf (f.toExt w).bits = f.negOf w ∧ classOf (f.toExt w).bits ≠ .denormal ∧
      (v = 0 ∨ (2 : ℝ) ^ (-16381 : ℤ) ≤ |v|) := by
  obtain ⟨hexp, rfl⟩ := (formatValue_iff f w v).1 h
  obtain ⟨hm, h1, h2⟩ := narrow_bounds hf hexp
  obtain ⟨hval, hsign, hclass⟩ := extOf_moderate (f.negOf w) hm h1 h2
  rw [toExt_finite hexp]
  refine ⟨hval, hsign, hclass, ?_⟩
  by_cases h0 : mantOf f w = 0
  · exact .inl (by rw [h0, Nat.cast_zero, zero_mul, signed_zero])
  · rw [signed_abs _ (by positivity)]
    exact .inr (moderate_bound h0 h1)

/-- The fields of an infinity or NaN in memory. -/
theorem special_bound {f : RealFmt} (hf : Narrow f) (w : Nat) : f.fracOf w * 2 ^ (63 - f.fracBits) < 2 ^ 63 := by
  have hfrac : f.fracOf w < 2 ^ f.fracBits := Nat.mod_lt _ (by positivity)
  have hle : f.fracBits ≤ 63 := by rcases hf with rfl | rfl <;> decide
  calc f.fracOf w * 2 ^ (63 - f.fracBits) < 2 ^ f.fracBits * 2 ^ (63 - f.fracBits) :=
        Nat.mul_lt_mul_of_pos_right hfrac (by positivity)
    _ = 2 ^ 63 := by rw [← pow_add]; congr 1; omega

theorem toExt_special_fields {f : RealFmt} (hf : Narrow f) {w : Nat} (h : f.expoOf w = f.expMax) :
    signOf (f.toExt w).bits = f.negOf w ∧ expoOf (f.toExt w).bits = 0x7FFF ∧
      sigOf (f.toExt w).bits = 2 ^ 63 + f.fracOf w * 2 ^ (63 - f.fracBits) := by
  have hb := special_bound hf w
  rw [toExt_special h]
  exact ⟨signOf_mkExt _ (by norm_num) (by omega), expoOf_mkExt _ (by norm_num) (by omega),
    sigOf_mkExt _ (by norm_num) (by omega)⟩

/-! ### The source of an instruction -/

/-- The sources that instructions have. -/
def Plain : SourceKind → Prop
  | .real f => Narrow f
  | .int w => w = 16 ∨ w = 32
  | .reg _ | .zero => True

theorem arithRow_plain {i : Instr} {row : ArithRow} (h : arithRow i = some row) : Plain row.source := by
  cases i <;> cases h <;> simp [Plain, Narrow]

theorem compareRow_plain {i : Instr} {row : CompareRow} (h : compareRow i = some row) : Plain row.source := by
  cases i <;> cases h <;> simp [Plain, Narrow]

/-- The second operand as the rules read it. -/
def operandOf (k : SourceKind) (a : Addr) (s : State) : Operand := (sourceIn k a s).operand s

theorem sourceIn_isEmpty (k : SourceKind) (a : Addr) (s : State) : (sourceIn k a s).isEmpty s = k.isEmpty s := by
  cases k <;> rfl

/-- The statements' source operand is the one the rules read. -/
theorem operandOf_bits {k : SourceKind} (hk : Plain k) {a : Addr} {s : State} {x : Ext} (h : SourceBits k a s x) :
    (operandOf k a s).bits = x := by
  cases k with
  | reg j => exact Eq.symm h
  | zero =>
    rw [show x = 0#80 from h]
    rfl
  | real f =>
    obtain ⟨hsign, hrest⟩ := h
    split at hrest
    · next hmax =>
      obtain ⟨hexpo, hint, hfrac⟩ := hrest
      obtain ⟨h1, h2, h3⟩ := toExt_special_fields hk hmax
      have hb := special_bound hk (leNat (s.bytesAt a f.bytes))
      have hs := Laws.sigOf_lt x
      rw [intBit_eq, decide_eq_true_eq] at hint
      rw [fracOf_eq] at hfrac
      exact ext_of_fields (h1.trans hsign.symm) (h2.trans hexpo.symm) (h3.trans (by omega))
    · obtain ⟨v, hv, hx⟩ := hrest
      obtain ⟨h1, h2, -, h4⟩ := toExt_value hk hv
      exact ext_of_value h1 hx (h2.trans hsign.symm) h4
  | int w =>
    obtain ⟨hsign, hx⟩ := h
    obtain ⟨heq, hlt⟩ := intAt_spec (hk.imp_right .inl) a s
    obtain ⟨h1, h2, -⟩ := intToExt_spec hlt
    have hbits : (operandOf (.int w) a s).bits = intToExt (intAt w a s) := congrArg intToExt heq
    rw [hbits]
    refine ext_of_value h1 hx (h2.trans hsign.symm) ?_
    by_cases h0 : intAt w a s = 0
    · exact .inl (by rw [h0, Int.cast_zero])
    · refine .inr ?_
      have h1 : (1 : ℝ) ≤ |(intAt w a s : ℝ)| := by exact_mod_cast Int.one_le_abs h0
      exact le_trans (zpow_le_one_of_nonpos₀ (by norm_num) (by norm_num)) h1

/-- The value and sign of the operand the rules read. -/
theorem operandOf_value {k : SourceKind} (hk : Plain k) {a : Addr} {s : State} {v : ℝ} (h : SourceValue k a s v) :
    HasValue (operandOf k a s).bits v ∧ signOf (operandOf k a s).bits = k.sign a s ∧ k.isEmpty s = false := by
  cases k with
  | reg j => exact ⟨h.2, rfl, h.1⟩
  | zero =>
    rw [show v = 0 from h]
    have hz := (extOf_moderate false (m := 0) (e := 0) (by norm_num) (by norm_num) (by norm_num))
    rw [extOf_zero, Nat.cast_zero, zero_mul, signed_zero] at hz
    exact ⟨hz.1, hz.2.1, rfl⟩
  | real f =>
    obtain ⟨h1, h2, -, -⟩ := toExt_value hk h
    exact ⟨h1, h2, rfl⟩
  | int w =>
    obtain ⟨heq, hlt⟩ := intAt_spec (hk.imp_right .inl) a s
    obtain ⟨h1, h2, -⟩ := intToExt_spec hlt
    have hbits : (operandOf (.int w) a s).bits = intToExt (intAt w a s) := congrArg intToExt heq
    rw [hbits, show v = (intAt w a s : ℝ) from h]
    exact ⟨h1, h2, rfl⟩

/-- The rules' denormal test of the source is that of the statements. -/
theorem operandOf_denormal {k : SourceKind} (hk : Plain k) (a : Addr) (s : State) :
    (operandOf k a s).denormal = k.denormal a s := by
  cases k with
  | reg j => exact Bool.false_or _
  | zero => exact (by decide : (Operand.mk (zeroOf false) false).denormal = false)
  | real f =>
    change (f.toExt (leNat (s.bytesAt a f.bytes))).denormal = _
    rcases (expoOf_le f (leNat (s.bytesAt a f.bytes))).lt_or_eq with hlt | hmax
    · have hv := (formatValue_iff f (leNat (s.bytesAt a f.bytes)) _).2 ⟨hlt, rfl⟩
      obtain ⟨-, -, hclass, -⟩ := toExt_value hk hv
      rw [Operand.denormal, decide_eq_false hclass, Bool.or_false, toExt_finite hlt]
      rfl
    · obtain ⟨-, hexpo, -⟩ := toExt_special_fields hk hmax
      have hclass : classOf (f.toExt (leNat (s.bytesAt a f.bytes))).bits ≠ .denormal := fun hd => by
        have h0 := ((class_denormal_iff _).1 hd).1
        rw [hexpo] at h0
        exact absurd h0 (by decide)
      have hpos : f.expMax ≠ 0 := by rcases hk with rfl | rfl <;> decide
      rw [Operand.denormal, decide_eq_false hclass, Bool.or_false, toExt_special hmax, SourceKind.denormal, hmax,
        decide_eq_false hpos, Bool.false_and]
  | int w =>
    obtain ⟨heq, hlt⟩ := intAt_spec (hk.imp_right .inl) a s
    obtain ⟨-, -, hclass⟩ := intToExt_spec hlt
    have hbits : (operandOf (.int w) a s).bits = intToExt (intAt w a s) := congrArg intToExt heq
    rw [Operand.denormal, hbits, decide_eq_false hclass]
    rfl

/-- The denormal operands of an arithmetic instruction. -/
theorem denormalOperand_arith {i : Instr} {row : ArithRow} (h : arithRow i = some row) (s : State) :
    denormalOperand i s =
      (decide (classOf (s.st row.dest) = .denormal) || (operandOf row.source (addressOf i) s).denormal) := by
  rw [operandOf_denormal (arithRow_plain h)]
  have hreg : ∀ a b : Bool, (a || b || a) = (b || a) := by decide
  have hreg' : ∀ a b : Bool, (a || b || b) = (a || b) := by decide
  cases i <;> cases h <;>
    simp [denormalOperand, sources, sourceOf, arithRow, SourceKind.denormal, hreg, hreg']

theorem denormalOperand_compare {i : Instr} {row : CompareRow} (h : compareRow i = some row) (s : State) :
    denormalOperand i s =
      (decide (classOf (s.st 0#3) = .denormal) || (operandOf row.source (addressOf i) s).denormal) := by
  rw [operandOf_denormal (compareRow_plain h)]
  have hreg : ∀ a b : Bool, (a || b || b) = (a || b) := by decide
  cases i <;> cases h <;>
    simp [denormalOperand, sources, sourceOf, arithRow, compareRow, SourceKind.denormal, hreg]

end Sys2Proof.Laws.Sources
end

section
/-! Operands that a rule answers without computing: NaNs (rule R537) and invalid operands (rules R522, R532) of the
arithmetic, transcendental and compare instructions. -/

namespace Sys2Proof.Laws.Operands

open Sys2Proof.Machine Sys2Proof.Laws Sys2Proof.Laws.Shapes Sys2Proof.Laws.Frame Sys2Proof.Laws.SignBit
open Sys2Proof.Laws.Answers Sys2Proof.Laws.Moves Sys2Proof.Laws.Values Sys2Proof.Laws.Sources

/-! ### NaNs -/

theorem isSNaN_iff (x : Ext) : isSNaN x = true ↔ classOf x = .nan ∧ x.getLsbD 62 = false := by
  simp [isSNaN]

theorem isQNaN_iff (x : Ext) : isQNaN x = true ↔ classOf x = .nan ∧ x.getLsbD 62 = true := by
  simp [isQNaN]

theorem not_snan_of_class {x : Ext} (h : classOf x ≠ .nan) : isSNaN x = false := by simp [isSNaN, h]

theorem not_qnan_of_class {x : Ext} (h : classOf x ≠ .nan) : isQNaN x = false := by simp [isQNaN, h]

theorem not_qnan_of_snan {x : Ext} (h : isSNaN x = true) : isQNaN x = false := by
  rw [isSNaN_iff] at h
  rw [isQNaN, h.2, Bool.and_false]

/-- A quiet NaN is its own quieted form. -/
theorem quiet_of_bit {x : Ext} (h : x.getLsbD 62 = true) : quiet x = x := by
  refine BitVec.eq_of_getLsbD_eq fun k hk => ?_
  have hbit : ∀ k, k < 80 → (0x4000000000000000#80).getLsbD k = decide (k = 62) := by decide
  rw [quiet, BitVec.getLsbD_or, hbit k hk]
  by_cases h62 : k = 62
  · subst h62
    rw [h]
    rfl
  · rw [decide_eq_false h62, Bool.or_false]

theorem quiet_of_not_snan {x : Ext} (hn : classOf x = .nan) (h : isSNaN x = false) : quiet x = x := by
  refine quiet_of_bit ?_
  by_contra hb
  rw [(isSNaN_iff x).2 ⟨hn, by simpa using hb⟩] at h
  exact absurd h (by decide)

theorem nan_eq {x y : Ext} (hx : classOf x = .nan) (hy : classOf y = .nan) (hs : signOf x = signOf y)
    (hsig : sigOf x = sigOf y) : x = y :=
  ext_of_fields hs (((class_nan_iff x).1 hx).1.trans ((class_nan_iff y).1 hy).1.symm) hsig

/-- The rules' answer to a NaN operand is the statements'. -/
theorem nan2_answer {a b : Ext} (h : classOf a = .nan ∨ classOf b = .nan) : NaNAnswer a b (nan2 a b) := by
  unfold NaNAnswer nan2
  by_cases ha : classOf a = .nan
  · by_cases hb : classOf b = .nan
    · refine ⟨fun h => absurd hb h, fun h => absurd ha h, fun hq hs => ?_, fun hs hq => ?_, fun heq _ _ => ?_⟩
      · have hbq := not_qnan_of_snan hs
        rw [if_neg (not_not.2 ha), if_neg (not_not.2 hb), if_pos (by simp [hq, hbq])]
      · have haq := not_qnan_of_snan hs
        rw [if_neg (not_not.2 ha), if_neg (not_not.2 hb), if_neg (by simp [haq]), if_pos (by simp [hq, haq])]
      · rw [if_neg (not_not.2 ha), if_neg (not_not.2 hb), if_neg (by simp [heq]), if_neg (by simp [heq])]
        refine ⟨fun hlt => if_pos hlt, fun hlt => ?_, fun hsig => ?_⟩
        · rw [if_neg (by omega), if_pos hlt]
        · rw [if_neg (by omega), if_neg (by omega)]
          refine ⟨fun h => by rw [h, if_neg (by decide)], fun h => ?_, ?_⟩
          · cases hsa : signOf a
            · rw [if_neg (by decide), nan_eq ha hb (hsa.trans h.symm) hsig]
            · rw [if_pos rfl]
          · rintro rfl
            exact ite_self _
    · have hbq := not_qnan_of_class hb
      have hbs := not_snan_of_class hb
      rw [if_neg (not_not.2 ha), if_pos hb]
      exact ⟨fun _ => rfl, fun h => absurd ha h, fun _ hs => absurd hs (by simp [hbs]),
        fun _ hq => absurd hq (by simp [hbq]), fun _ _ h => absurd h hb⟩
  · have hb := h.resolve_left ha
    have haq := not_qnan_of_class ha
    have has := not_snan_of_class ha
    rw [if_pos ha]
    exact ⟨fun h => absurd hb h, fun _ => rfl, fun hq => absurd hq (by simp [haq]),
      fun hs => absurd hs (by simp [has]), fun _ h => absurd h ha⟩

theorem NaNAnswer.symm {a b v : Ext} (h : NaNAnswer a b v) : NaNAnswer b a v := by
  obtain ⟨h1, h2, h3, h4, h5⟩ := h
  refine ⟨h2, h1, fun hq hs => h4 hs hq, fun hs hq => h3 hq hs, fun heq hb ha => ?_⟩
  obtain ⟨g1, g2, g3⟩ := h5 heq.symm ha hb
  refine ⟨g2, g1, fun hsig => ?_⟩
  obtain ⟨k1, k2, k3⟩ := g3 hsig.symm
  refine ⟨k2, k1, ?_⟩
  rintro rfl
  exact k3 rfl

/-- What shows of the answer to a NaN: the registers at `L` take `v`, or with `invalid` unmasked nothing changes. -/
def NaNShown (L : List (BitVec 3)) (m : BitVec 3) (v : Ext) (invalid : Bool) (s u : State) : Prop :=
  u.sw.ie = (s.sw.ie || invalid) ∧ u.sw.c1 = false ∧ (∀ f, f ≠ .ie → u.sw.flag f = s.sw.flag f) ∧
  (if invalid = true ∧ s.cw.getLsbD 0 = false then Untouched s u
   else u.sw.top = s.sw.top + m ∧ ∀ k ∈ L, u.reg (s.phys k) = v)

theorem NaNShown.shows {L : List (BitVec 3)} {m : BitVec 3} {v : Ext} {invalid : Bool} {s u t : State}
    (h : NaNShown L m v invalid s u) (ht : Shows u t) : NaNShown L m v invalid s t := by
  obtain ⟨hie, hc1, hflag, hrest⟩ := h
  refine ⟨ht.ie.trans hie, ht.c1.trans hc1, fun f hf => (ht.flag f).trans (hflag f hf), ?_⟩
  split
  · next hc =>
    rw [if_pos hc] at hrest
    exact ht.untouched hrest
  · next hc =>
    rw [if_neg hc] at hrest
    exact ⟨ht.top.trans hrest.1, fun k hk => (ht.reg _).trans (hrest.2 k hk)⟩

/-- A signalling NaN among the operands. -/
theorem nanShown_invalid {L : List (BitVec 3)} {m : BitVec 3} {v : Ext} {f : State → State} (h : Writes v L m f)
    (s : State) : NaNShown L m v true s (s.raiseInvalid f) := by
  obtain ⟨hie, hc1, hflag⟩ := raiseInvalid_flags h.1 s
  refine ⟨hie.trans (Bool.or_true _).symm, hc1, hflag, ?_⟩
  have hresp : Response (fun u => u.sw.top = s.sw.top + m ∧ ∀ k ∈ L, u.reg (s.phys k) = v) s (s.raiseInvalid f) :=
    raiseInvalid_response (h.2 s _ rfl)
  unfold Response at hresp
  cases hm : s.cw.getLsbD 0
  · rw [hm, if_neg (by decide)] at hresp
    rw [if_pos ⟨rfl, rfl⟩]
    exact hresp
  · rw [hm, if_pos rfl] at hresp
    rw [if_neg (by decide)]
    exact hresp

/-- Only quiet NaNs among the operands. -/
theorem nanShown_quiet {L : List (BitVec 3)} {m : BitVec 3} {v : Ext} {f : State → State} (h : Writes v L m f)
    (s : State) : NaNShown L m v false s (f (s.withC1 false)) := by
  refine ⟨(h.1.flag _ .ie).trans (Bool.or_false _).symm, h.1.c1 _, fun g _ => (h.1.flag _ g).trans ?_, ?_⟩
  · cases g <;> rfl
  · rw [if_neg (by simp)]
    exact h.2 s _ rfl

theorem nanOne_shown {L : List (BitVec 3)} {m : BitVec 3} {write : Ext → State → State}
    (h : ∀ v, Writes v L m (write v)) {a : Ext} (hn : classOf a = .nan) (s : State) :
    NaNShown L m (quiet a) (isSNaN a) s (s.nanOne a write) := by
  rw [State.nanOne]
  cases hs : isSNaN a
  · rw [if_neg (by decide), quiet_of_not_snan hn hs]
    exact nanShown_quiet (h a) s
  · rw [if_pos rfl]
    exact nanShown_invalid (h (quiet a)) s

theorem nanTwo_shown {L : List (BitVec 3)} {m : BitVec 3} {write : Ext → State → State}
    (h : ∀ v, Writes v L m (write v)) (a b : Ext) (s : State) :
    NaNShown L m (nan2 a b) (isSNaN a || isSNaN b) s (s.nanTwo a b write) := by
  rw [State.nanTwo]
  cases hs : isSNaN a || isSNaN b
  · rw [if_neg (by decide)]
    exact nanShown_quiet (h _) s
  · rw [if_pos rfl]
    exact nanShown_invalid (h _) s

/-! ### The sign bit inverted (rule R232) -/

theorem flipSign_fields (x : Ext) :
    signOf (flipSign x) = !signOf x ∧ expoOf (flipSign x) = expoOf x ∧ sigOf (flipSign x) = sigOf x := by
  have hbit : ∀ k, (0x80000000000000000000#80).getLsbD k = decide (k = 79) := fun k => by
    by_cases hk : k < 80
    · revert k
      decide
    · rw [BitVec.getLsbD_of_ge _ _ (by omega), decide_eq_false (by omega)]
  refine ⟨?_, ?_, ?_⟩
  · rw [signOf, flipSign, BitVec.getLsbD_xor, hbit, decide_eq_true rfl, Bool.xor_true, signOf]
  · refine congrArg BitVec.toNat (BitVec.eq_of_getLsbD_eq fun k hk => ?_)
    have h79 : decide (64 + k = 79) = false := decide_eq_false (by omega)
    rw [BitVec.getLsbD_extractLsb', BitVec.getLsbD_extractLsb', flipSign, BitVec.getLsbD_xor, hbit, h79,
      Bool.xor_false]
  · refine congrArg BitVec.toNat (BitVec.eq_of_getLsbD_eq fun k hk => ?_)
    have h79 : decide (0 + k = 79) = false := decide_eq_false (by omega)
    rw [BitVec.getLsbD_extractLsb', BitVec.getLsbD_extractLsb', flipSign, BitVec.getLsbD_xor, hbit, h79,
      Bool.xor_false]

@[simp] theorem signOf_flipSign (x : Ext) : signOf (flipSign x) = !signOf x := (flipSign_fields x).1
@[simp] theorem classOf_flipSign (x : Ext) : classOf (flipSign x) = classOf x := by
  obtain ⟨-, he, hs⟩ := flipSign_fields x
  rw [classOf_eq, classOf_eq, he, hs]

/-! ### The branches of an arithmetic rule (rule R230) -/

section
variable {op : ArithOp} {d : BitVec 3} {src : Source} {s : State}

/-- The masked answer of an arithmetic rule. -/
def arithAnswer (d : BitVec 3) (pop : Bool) (v : Ext) (t : State) : State := State.popIf pop (t.setSt d v)

theorem arith_unsupported (he : (s.isEmpty d || src.isEmpty s) = false)
    (h : classOf (s.st d) = .unsupported ∨ classOf (src.operand s).bits = .unsupported) (pop : Bool) :
    s.arith op d src pop = s.raiseInvalid (arithAnswer d pop indef) := by
  rw [State.arith, if_neg (by rw [he]; decide), if_pos h]
  rfl

theorem arith_nan (he : (s.isEmpty d || src.isEmpty s) = false)
    (h : ¬(classOf (s.st d) = .unsupported ∨ classOf (src.operand s).bits = .unsupported))
    (hn : classOf (s.st d) = .nan ∨ classOf (src.operand s).bits = .nan) (pop : Bool) :
    s.arith op d src pop = s.nanTwo (s.st d) (src.operand s).bits (arithAnswer d pop) := by
  rw [State.arith, if_neg (by rw [he]; decide), if_neg h, if_pos hn]
  rfl

/-- The rule on two operands that are numbers. -/
theorem arith_numbers (he : (s.isEmpty d || src.isEmpty s) = false) (ha : IsNumber (s.st d))
    (hb : IsNumber (src.operand s).bits) (pop : Bool) :
    s.arith op d src pop =
      if op.invalid (s.st d) (src.operand s).bits then s.raiseInvalid (arithAnswer d pop indef)
      else if op.zeroDivide (s.st d) (src.operand s).bits then
        s.raiseZeroDivide (arithAnswer d pop (infOf (signsDiffer (s.st d) (src.operand s).bits)))
      else
        s.denormalTest (decide (classOf (s.st d) = .denormal) || (src.operand s).denormal) fun t =>
          State.popIf pop (t.arithResult op d (s.st d) (src.operand s).bits) := by
  have hclass : ∀ {x : Ext}, IsNumber x → classOf x ≠ .unsupported ∧ classOf x ≠ .nan := fun {x} hx => by
    simp only [IsNumber, List.mem_cons, List.not_mem_nil, or_false] at hx
    rcases hx with h | h | h | h <;> rw [h] <;> decide
  obtain ⟨ha1, ha2⟩ := hclass ha
  obtain ⟨hb1, hb2⟩ := hclass hb
  rw [State.arith, if_neg (by rw [he]; decide), if_neg (by simp [ha1, hb1]), if_neg (by simp [ha2, hb2])]
  rfl

end

theorem isNumber_of_class {x : Ext} {c : Machine.Class} (h : classOf x = c)
    (hc : c ∈ [Machine.Class.zero, .normal, .denormal, .infinity]) : IsNumber x := by
  rw [IsNumber, h]
  exact hc

/-- The operands without a result (rules R231 to R234), as O19 lists them. -/
def NoResult (op : ArithOp) (a b : Ext) : Prop :=
  (op = .add ∧ classOf a = .infinity ∧ classOf b = .infinity ∧ signOf a ≠ signOf b) ∨
  (op ∈ [ArithOp.sub, .subr] ∧ classOf a = .infinity ∧ classOf b = .infinity ∧ signOf a = signOf b) ∨
  (op = .mul ∧ ((classOf a = .zero ∧ classOf b = .infinity) ∨ (classOf a = .infinity ∧ classOf b = .zero))) ∨
  (op ∈ [ArithOp.div, .divr] ∧ classOf a = classOf b ∧ (classOf a = .infinity ∨ classOf a = .zero))

theorem NoResult.invalid {op : ArithOp} {a b : Ext} (h : NoResult op a b) :
    op.invalid a b = true ∧ IsNumber a ∧ IsNumber b := by
  rcases h with ⟨rfl, ha, hb, hs⟩ | ⟨hop, ha, hb, hs⟩ | ⟨rfl, ⟨ha, hb⟩ | ⟨ha, hb⟩⟩ | ⟨hop, hab, ha | ha⟩
  · exact ⟨by simp [ArithOp.invalid, addInvalid, ha, hb, signsDiffer, hs], isNumber_of_class ha (by decide),
      isNumber_of_class hb (by decide)⟩
  · refine ⟨?_, isNumber_of_class ha (by decide), isNumber_of_class hb (by decide)⟩
    simp only [List.mem_cons, List.not_mem_nil, or_false] at hop
    rcases hop with rfl | rfl <;> simp [ArithOp.invalid, addInvalid, ha, hb, signsDiffer, hs]
  · exact ⟨by simp [ArithOp.invalid, mulInvalid, ha, hb], isNumber_of_class ha (by decide),
      isNumber_of_class hb (by decide)⟩
  · exact ⟨by simp [ArithOp.invalid, mulInvalid, ha, hb], isNumber_of_class ha (by decide),
      isNumber_of_class hb (by decide)⟩
  all_goals
    have hb := hab.symm.trans ha
    refine ⟨?_, isNumber_of_class ha (by decide), isNumber_of_class hb (by decide)⟩
    simp only [List.mem_cons, List.not_mem_nil, or_false] at hop
    rcases hop with rfl | rfl <;> simp [ArithOp.invalid, divInvalid, ha, hb]

theorem arith_invalid {op : ArithOp} {d : BitVec 3} {src : Source} {s : State} {pop : Bool}
    (he : (s.isEmpty d || src.isEmpty s) = false)
    (h : classOf (s.st d) = .unsupported ∨ classOf (src.operand s).bits = .unsupported ∨
      NoResult op (s.st d) (src.operand s).bits) :
    Invalidated [d] (if pop then 1#3 else 0#3) s (s.arith op d src pop) := by
  have heq : s.arith op d src pop = s.raiseInvalid (arithAnswer d pop indef) := by
    rcases or_assoc.2 h with hu | hn
    · exact arith_unsupported he hu pop
    · obtain ⟨hinv, ha, hb⟩ := NoResult.invalid hn
      rw [arith_numbers he ha hb, if_pos hinv]
  rw [heq]
  exact raiseInvalid_invalidated (writes_setSt_popIf d indef pop) s

theorem arith_runs {i : Instr} {row : ArithRow} {s : State} (hrow : arithRow i = some row) (hr : Ready i s)
    (ho : OperandThere i s) : ∃ t, exec i s = .next t ∧
      Shows (s.arith row.op row.dest (sourceIn row.source (addressOf i) s) row.pop) t :=
  runs_open (by rw [family_of_arithRow hrow]; decide) hr ho (afterOf_arith hrow s)

/-- Settles O19. -/
theorem arithInvalidOperation : Obligations.ArithInvalidOperation := by
  unfold Obligations.ArithInvalidOperation
  intro i row s a b empty hrow hr ho ha hb hempty h
  subst ha hempty
  obtain ⟨t, ht, hshow⟩ := arith_runs hrow hr ho
  have hbits := operandOf_bits (arithRow_plain hrow) hb
  rw [← sourceIn_isEmpty row.source (addressOf i) s] at h ⊢
  cases he : s.isEmpty row.dest || (sourceIn row.source (addressOf i) s).isEmpty s
  · rw [he] at h
    have hcase := h.resolve_left Bool.false_ne_true
    rw [← hbits] at hcase
    obtain ⟨⟨hie, hc1, hflag⟩, hresp⟩ := (arith_invalid (pop := row.pop) he hcase).shows hshow
    refine ⟨t, ht, hie, (hflag .sf (by decide)).trans (Bool.or_false _).symm, hc1, fun f h1 _ => hflag f h1, ?_⟩
    exact Response.mono (Q := fun u => u.reg (s.phys row.dest) = indef ∧
      u.sw.top = s.sw.top + (if row.pop then 1#3 else 0#3)) hresp
      fun hp => ⟨hp.2 _ (List.mem_singleton.2 rfl), hp.1⟩
  · obtain ⟨⟨hie, hsf, hc1, hflag⟩, hresp⟩ := (arith_faulted (op := row.op) he row.pop).shows hshow
    refine ⟨t, ht, hie, hsf.trans (Bool.or_true _).symm, hc1, hflag, ?_⟩
    exact Response.mono (Q := fun u => u.reg (s.phys row.dest) = indef ∧
      u.sw.top = s.sw.top + (if row.pop then 1#3 else 0#3)) hresp
      fun hp => ⟨hp.2 _ (List.mem_singleton.2 rfl), hp.1⟩

/-- Settles O20. -/
theorem arithNaN : Obligations.ArithNaN := by
  unfold Obligations.ArithNaN
  intro i row s a b hrow hr ho hdest hsrc ha hb hau hbu hn
  subst ha
  obtain ⟨t, ht, hshow⟩ := arith_runs hrow hr ho
  have hbits : (Source.operand (sourceIn row.source (addressOf i) s) s).bits = b :=
    operandOf_bits (arithRow_plain hrow) hb
  have he : (s.isEmpty row.dest || (sourceIn row.source (addressOf i) s).isEmpty s) = false := by
    rw [hdest, sourceIn_isEmpty, hsrc]
    rfl
  rw [arith_nan he (by rw [hbits]; exact not_or.2 ⟨hau, hbu⟩) (by rw [hbits]; exact hn), hbits] at hshow
  obtain ⟨hie, hc1, hflag, hrest⟩ :=
    (nanTwo_shown (fun v => writes_setSt_popIf row.dest v row.pop) (s.st row.dest) b s).shows hshow
  refine ⟨t, _, ht, rfl, hc1, hie.trans (Bool.or_assoc ..).symm, hflag, ?_⟩
  by_cases hc : s.cw.getLsbD 0 = false ∧ (isSNaN (s.st row.dest) = true ∨ isSNaN b = true)
  · rw [if_pos ⟨by simpa using hc.2, hc.1⟩] at hrest
    rw [if_pos hc]
    exact hrest
  · rw [if_neg fun h => hc ⟨h.2, by simpa using h.1⟩] at hrest
    rw [if_neg hc, hrest.2 _ (List.mem_singleton.2 rfl)]
    exact ⟨hrest.1, nan2_answer hn⟩

end Sys2Proof.Laws.Operands
end

section
/-! Comparison (45_comparison.md): the order of values, and the answers that are unordered. -/

namespace Sys2Proof.Laws.Comparison

open Sys2Proof.Machine Sys2Proof.Laws Sys2Proof.Laws.Shapes Sys2Proof.Laws.Frame Sys2Proof.Laws.SignBit
open Sys2Proof.Laws.Answers Sys2Proof.Laws.Moves Sys2Proof.Laws.Values Sys2Proof.Laws.Sources Sys2Proof.Laws.Operands

/-! ### The order of dyadic numbers -/

theorem atExp_real (x : Dyad) {e : Int} (h : e ≤ x.exp) : (x.atExp e : ℝ) * 2 ^ e = realOf x := by
  have hm : (x.mant : ℝ) * 2 ^ (x.exp - e).toNat * 2 ^ e = x.mant * 2 ^ x.exp := by
    rw [mul_assoc, ← zpow_natCast, ← zpow_add₀ two_ne_zero]
    congr 2
    omega
  unfold Dyad.atExp realOf signed
  cases x.neg
  · simpa using hm
  · simpa using hm

theorem less_iff (x y : Dyad) : x.less y = true ↔ realOf x < realOf y := by
  rw [Dyad.less, decide_eq_true_eq, ← atExp_real x (min_le_left x.exp y.exp), ← atExp_real y (min_le_right x.exp y.exp),
    mul_lt_mul_iff_left₀ (two_zpow_pos _), Int.cast_lt]

theorem same_iff (x y : Dyad) : x.same y = true ↔ realOf x = realOf y := by
  rw [Dyad.same, decide_eq_true_eq, ← atExp_real x (min_le_left x.exp y.exp), ← atExp_real y (min_le_right x.exp y.exp),
    mul_left_inj' (two_zpow_pos _).ne', Int.cast_inj]

/-! ### The relation of two operands -/

theorem class_ne_infinity {x : Ext} {v : ℝ} (h : HasValue x v) : classOf x ≠ .infinity := by
  rcases h.1 with hc | hc | hc <;> rw [hc] <;> decide

/-- The relation that the rules find is that of the extended reals. -/
theorem relate_spec {x y : Ext} {a b : EReal} (hx : ExtendedValue x a) (hy : ExtendedValue y b) :
    ((relate x y).z = true ↔ a = b) ∧ (relate x y).p = false ∧ ((relate x y).c = true ↔ a < b) := by
  unfold relate
  rcases hx with ⟨v, hv, rfl⟩ | ⟨hxi, rfl⟩ <;> rcases hy with ⟨w, hw, rfl⟩ | ⟨hyi, rfl⟩
  · rw [if_neg fun h => class_ne_infinity hv h.1, if_neg (class_ne_infinity hv), if_neg (class_ne_infinity hw)]
    have hless := less_iff (valOf x) (valOf y)
    have hsame := same_iff (valOf x) (valOf y)
    rw [← ((hasValue_iff x v).1 hv).2, ← ((hasValue_iff y w).1 hw).2] at hless hsame
    rw [EReal.coe_eq_coe_iff, EReal.coe_lt_coe_iff]
    split
    · next hl =>
      have hlt := hless.1 hl
      exact ⟨⟨nofun, fun h => absurd h hlt.ne⟩, rfl, ⟨fun _ => hlt, fun _ => rfl⟩⟩
    · next hl =>
      have hge := mt hless.2 hl
      split
      · next he => exact ⟨⟨fun _ => hsame.1 he, fun _ => rfl⟩, rfl, ⟨nofun, fun h => absurd h hge⟩⟩
      · next he => exact ⟨⟨nofun, fun h => absurd (hsame.2 h) he⟩, rfl, ⟨nofun, fun h => absurd h hge⟩⟩
  · rw [if_neg fun h => class_ne_infinity hv h.1, if_neg (class_ne_infinity hv), if_pos hyi]
    cases signOf y <;> simp [Relation.z, Relation.p, Relation.c]
  · rw [if_neg fun h => class_ne_infinity hw h.2, if_pos hxi]
    cases signOf x <;> simp [Relation.z, Relation.p, Relation.c]
  · rw [if_pos ⟨hxi, hyi⟩]
    cases signOf x <;> cases signOf y <;> simp [Relation.z, Relation.p, Relation.c]

/-! ### The result of a compare -/

/-- The result flags hold the relation. -/
def Result (host : Bool) (rel : Relation) (u : State) : Prop :=
  if host then u.zf = rel.z ∧ u.pf = rel.p ∧ u.cf = rel.c
  else u.sw.c3 = rel.z ∧ u.sw.c2 = rel.p ∧ u.sw.c0 = rel.c

theorem pops_host (n : Nat) (s : State) : HostKept s (State.pops n s) := by
  induction n generalizing s with
  | zero => exact ⟨rfl, rfl, rfl, rfl⟩
  | succ n ih => exact ih s.pop

theorem resultPops_result (row : CompareRow) (rel : Relation) (t : State) :
    Result row.host rel (resultPops (CompareRow.target row) rel row.pops t) ∧
      (row.host = false → HostKept t (resultPops (CompareRow.target row) rel row.pops t)) := by
  unfold Result resultPops CompareRow.target
  cases row.host
  · obtain ⟨h0, h2, h3⟩ := pops_codes row.pops (t.setResult .codes rel)
    exact ⟨⟨h3, h2, h0⟩, fun _ => pops_host row.pops (t.setResult .codes rel)⟩
  · obtain ⟨-, hz, hp, hc⟩ := pops_host row.pops (t.setResult .eflags rel)
    exact ⟨⟨hz, hp, hc⟩, nofun⟩

theorem Result.retire {host : Bool} {rel : Relation} {u : State} (h : Result host rel u) (ptr : Pointers) (i : Instr) :
    Result host rel (u.retire ptr i) := by
  unfold Result at h ⊢
  rwa [retire_zf, retire_pf, retire_cf, retire_sw]

theorem hostKept_retire {s u : State} (h : HostKept s u) (ptr : Pointers) (i : Instr) :
    HostKept s (u.retire ptr i) := by
  unfold HostKept at h ⊢
  rwa [retire_ax, retire_zf, retire_pf, retire_cf]

/-! ### The denormal exception masked or not raised -/

/-- The state in which the instruction goes on after its denormal test (rule R523). -/
def passed (den : Bool) (s : State) : State := { s with sw := { s.sw with de := s.sw.de || den } }

theorem passed_false (s : State) : passed false s = s := by
  rw [passed, Bool.or_false]

theorem denormalTest_passes {den : Bool} {s : State} (h : s.cw.getLsbD 1 = true ∨ den = false) (go : State → State) :
    s.denormalTest den go = go (passed den s) := by
  cases den
  · rw [passed_false]
    rfl
  · rw [State.denormalTest, if_pos rfl, State.raiseDenormal]
    dsimp only
    rw [if_pos (h.resolve_right (by decide)), passed, Bool.or_true]

section
variable (den : Bool) (s : State)
@[simp] theorem passed_regs : (passed den s).regs = s.regs := rfl
@[simp] theorem passed_tags : (passed den s).tags = s.tags := rfl
@[simp] theorem passed_reg (k : BitVec 3) : (passed den s).reg k = s.reg k := rfl
@[simp] theorem passed_tag (k : BitVec 3) : (passed den s).tag k = s.tag k := rfl
@[simp] theorem passed_phys (k : BitVec 3) : (passed den s).phys k = s.phys k := rfl
@[simp] theorem passed_st (k : BitVec 3) : (passed den s).st k = s.st k := rfl
@[simp] theorem passed_top : (passed den s).sw.top = s.sw.top := rfl
@[simp] theorem passed_cw : (passed den s).cw = s.cw := rfl
@[simp] theorem passed_cfg : (passed den s).cfg = s.cfg := rfl
@[simp] theorem passed_mem : (passed den s).mem = s.mem := rfl
@[simp] theorem passed_de : (passed den s).sw.de = (s.sw.de || den) := rfl
@[simp] theorem passed_c1 : (passed den s).sw.c1 = s.sw.c1 := rfl
@[simp] theorem passed_pe : (passed den s).sw.pe = s.sw.pe := rfl
@[simp] theorem passed_oe : (passed den s).sw.oe = s.sw.oe := rfl
@[simp] theorem passed_ue : (passed den s).sw.ue = s.sw.ue := rfl

theorem passed_flag {f : Flag} (hf : f ≠ .de) : (passed den s).sw.flag f = s.sw.flag f := by
  cases f <;> first | rfl | contradiction

end

/-! ### The branches of a compare (rule R470) -/

section
variable {src : Source} {s : State} {q : Bool} {dst : ResultTo} {n : Nat}

theorem compare_invalid (he : (s.isEmpty 0#3 || src.isEmpty s) = false)
    (h : compareInvalid q (s.st 0#3) (src.operand s).bits = true) :
    s.compare src q dst n = s.raiseInvalid (resultPops dst .unordered n) := by
  rw [State.compare, if_neg (by rw [he]; decide), if_pos h]
  rfl

theorem compare_quiet (he : (s.isEmpty 0#3 || src.isEmpty s) = false)
    (h : compareInvalid q (s.st 0#3) (src.operand s).bits = false)
    (hq : (isQNaN (s.st 0#3) || isQNaN (src.operand s).bits) = true) :
    s.compare src q dst n = resultPops dst .unordered n s := by
  rw [State.compare, if_neg (by rw [he]; decide), if_neg (by rw [h]; decide), if_pos hq]
  rfl

theorem compare_ordered (he : (s.isEmpty 0#3 || src.isEmpty s) = false)
    (h : compareInvalid q (s.st 0#3) (src.operand s).bits = false)
    (hq : (isQNaN (s.st 0#3) || isQNaN (src.operand s).bits) = false)
    (hd : s.cw.getLsbD 1 = true ∨ (decide (classOf (s.st 0#3) = .denormal) || (src.operand s).denormal) = false) :
    s.compare src q dst n = resultPops dst (relate (s.st 0#3) (src.operand s).bits) n
      (passed (decide (classOf (s.st 0#3) = .denormal) || (src.operand s).denormal) s) := by
  rw [State.compare, if_neg (by rw [he]; decide), if_neg (by rw [h]; decide), if_neg (by rw [hq]; decide)]
  cases hden : decide (classOf (s.st 0#3) = .denormal) || (src.operand s).denormal
  · rw [if_neg (by decide), passed_false]
    rfl
  · rw [if_pos rfl, State.raiseDenormal]
    dsimp only
    rw [if_pos (hd.resolve_right (by rw [hden]; decide)), passed, Bool.or_true]
    rfl

end

theorem isNumber_of_extended {x : Ext} {a : EReal} (h : ExtendedValue x a) : IsNumber x := by
  rcases h with ⟨r, hr, -⟩ | ⟨hi, -⟩
  · rcases hr.1 with hc | hc | hc <;> exact isNumber_of_class hc (by decide)
  · exact isNumber_of_class hi (by decide)

theorem isNumber_classes {x : Ext} (h : IsNumber x) :
    classOf x ≠ .unsupported ∧ classOf x ≠ .nan ∧ isSNaN x = false ∧ isQNaN x = false := by
  have hc : classOf x ≠ .unsupported ∧ classOf x ≠ .nan := by
    simp only [IsNumber, List.mem_cons, List.not_mem_nil, or_false] at h
    rcases h with h | h | h | h <;> rw [h] <;> decide
  exact ⟨hc.1, hc.2, not_snan_of_class hc.2, not_qnan_of_class hc.2⟩

theorem compare_runs {i : Instr} {row : CompareRow} {s : State} (hrow : compareRow i = some row) (hr : Ready i s)
    (ho : OperandThere i s) : exec i s = .next ((s.compare (sourceIn row.source (addressOf i) s) row.quiet
      (CompareRow.target row) row.pops).retire .record i) := by
  rw [exec_computes (by rw [family_of_compareRow hrow]; decide) hr ho, afterOf_compare hrow]

/-- Settles O47, from the order of the values (`relate_spec`). -/
theorem compareOrders : Obligations.CompareOrders := by
  unfold Obligations.CompareOrders
  intro i row s x a b hrow hr ho hpass h0 hsrc hx ha hb
  have hbits : (Source.operand (sourceIn row.source (addressOf i) s) s).bits = x :=
    operandOf_bits (compareRow_plain hrow) hx
  have he : (s.isEmpty 0#3 || (sourceIn row.source (addressOf i) s).isEmpty s) = false := by
    rw [h0, sourceIn_isEmpty, hsrc]
    rfl
  obtain ⟨ha1, -, ha3, ha4⟩ := isNumber_classes (isNumber_of_extended ha)
  obtain ⟨hb1, -, hb3, hb4⟩ := isNumber_classes (isNumber_of_extended hb)
  have hden := denormalOperand_compare hrow s
  have hrun := compare_runs hrow hr ho
  rw [compare_ordered he (by rw [hbits]; simp [compareInvalid, ha1, ha3, ha4, hb1, hb3, hb4])
    (by rw [hbits, ha4, hb4]; rfl) (hpass.imp_right fun h => hden ▸ h), hbits] at hrun
  obtain ⟨hflag, hc1, htop⟩ := resultPops_flags (CompareRow.target row) (relate (s.st 0#3) x) row.pops
    (passed (denormalOperand i s) s)
  obtain ⟨hres, hhost⟩ := resultPops_result row (relate (s.st 0#3) x) (passed (denormalOperand i s) s)
  obtain ⟨hz, hp, hc⟩ := relate_spec ha hb
  rw [show (decide (classOf (s.st 0#3) = .denormal) || (Source.operand (sourceIn row.source (addressOf i) s) s).denormal)
    = denormalOperand i s from hden.symm] at hrun
  refine ⟨_, hrun, by rw [retire_sw, hc1], by rw [retire_sw, htop, passed_top], fun f hf => ?_, ?_, ?_⟩
  · rw [retire_sw, hflag, passed_flag _ _ hf]
  · rw [retire_sw]
    exact (hflag .de).trans (passed_de _ s)
  · have hres' := Result.retire hres .record i
    have hhost' := fun h => hostKept_retire (hhost h) .record i
    unfold Result at hres'
    split at hres'
    · next hh =>
      rw [if_pos hh, hres'.1, hres'.2.1, hres'.2.2]
      exact ⟨hz, hp, hc⟩
    · next hh =>
      rw [if_neg hh, hres'.1, hres'.2.1, hres'.2.2]
      exact ⟨hz, hp, hc, hhost' (by simpa using hh)⟩

/-- What a compare shows whose answer is unordered. -/
structure Unordered (row : CompareRow) (invalid : Bool) (s u : State) : Prop where
  ie   : u.sw.ie = (s.sw.ie || invalid)
  c1   : u.sw.c1 = false
  flag : ∀ f, f ≠ .ie → f ≠ .sf → u.sw.flag f = s.sw.flag f
  rest : if invalid = true ∧ s.cw.getLsbD 0 = false then
      u.sw.c0 = s.sw.c0 ∧ u.sw.c2 = s.sw.c2 ∧ u.sw.c3 = s.sw.c3 ∧ HostKept s u ∧ Untouched s u
    else u.sw.top = s.sw.top + BitVec.ofNat 3 row.pops ∧ Result row.host .unordered u

/-- With IE raised the answer is the masked response, or nothing (rules R521, R522). -/
theorem unordered_raised {row : CompareRow} {s t : State} (hie : t.sw.ie = true) (hc1 : t.sw.c1 = false)
    (hflag : ∀ f, f ≠ .ie → f ≠ .sf → t.sw.flag f = s.sw.flag f) (htop : t.sw.top = s.sw.top)
    (hcodes : t.sw.c0 = s.sw.c0 ∧ t.sw.c2 = s.sw.c2 ∧ t.sw.c3 = s.sw.c3) (hhost : HostKept s t) (hun : Untouched s t) :
    Unordered row true s
      (if s.cw.getLsbD 0 then resultPops (CompareRow.target row) .unordered row.pops t else t) := by
  obtain ⟨hf, hc, hp⟩ := resultPops_flags (CompareRow.target row) .unordered row.pops t
  cases hm : s.cw.getLsbD 0
  · rw [if_neg (by decide)]
    refine ⟨hie.trans (Bool.or_true _).symm, hc1, hflag, ?_⟩
    rw [if_pos ⟨rfl, hm⟩]
    exact ⟨hcodes.1, hcodes.2.1, hcodes.2.2, hhost, hun⟩
  · rw [if_pos rfl]
    refine ⟨((hf .ie).trans hie).trans (Bool.or_true _).symm, hc, fun f h1 h2 => (hf f).trans (hflag f h1 h2), ?_⟩
    rw [if_neg fun h => absurd (hm.symm.trans h.2) (by decide)]
    exact ⟨by rw [hp, htop], (resultPops_result row .unordered t).1⟩

theorem compare_unordered {i : Instr} {row : CompareRow} {s : State} {b : Ext} {invalid : Bool}
    (hbits : (operandOf row.source (addressOf i) s).bits = b)
    (hcase : s.isEmpty 0#3 = true ∨ row.source.isEmpty s = true ∨
      classOf (s.st 0#3) ∈ [Machine.Class.nan, .unsupported] ∨ classOf b ∈ [Machine.Class.nan, .unsupported])
    (hinv : invalid = false ↔ row.quiet = true ∧ s.isEmpty 0#3 = false ∧ row.source.isEmpty s = false ∧
      classOf (s.st 0#3) ≠ .unsupported ∧ classOf b ≠ .unsupported ∧ isSNaN (s.st 0#3) = false ∧ isSNaN b = false) :
    Unordered row invalid s (s.compare (sourceIn row.source (addressOf i) s) row.quiet (CompareRow.target row)
      row.pops) := by
  cases he : s.isEmpty 0#3 || (sourceIn row.source (addressOf i) s).isEmpty s
  · obtain ⟨h0, h1⟩ := Bool.or_eq_false_iff.1 he
    rw [sourceIn_isEmpty] at h1
    rw [h0, h1] at hcase hinv
    cases hc : compareInvalid row.quiet (s.st 0#3) b
    · obtain ⟨hc1, hc2, hc3, hc4, hc5⟩ : classOf (s.st 0#3) ≠ .unsupported ∧ classOf b ≠ .unsupported ∧
          isSNaN (s.st 0#3) = false ∧ isSNaN b = false ∧
          (row.quiet = false → isQNaN (s.st 0#3) = false ∧ isQNaN b = false) := by
        simpa [compareInvalid, and_assoc] using hc
      have hnan : ∀ {x : Ext}, classOf x ∈ [Machine.Class.nan, .unsupported] → classOf x ≠ .unsupported →
          isSNaN x = false → isQNaN x = true := fun {x} hx hu hs => by
        have hx : classOf x = .nan := by
          simp only [List.mem_cons, List.not_mem_nil, or_false] at hx
          exact hx.resolve_right hu
        rw [isQNaN_iff]
        refine ⟨hx, ?_⟩
        by_contra hb
        rw [(isSNaN_iff x).2 ⟨hx, by simpa using hb⟩] at hs
        exact absurd hs (by decide)
      have hq : (isQNaN (s.st 0#3) || isQNaN b) = true := by
        rcases hcase with h | h | h | h
        · exact absurd h (by decide)
        · exact absurd h (by decide)
        · rw [hnan h hc1 hc3, Bool.true_or]
        · rw [hnan h hc2 hc4, Bool.or_true]
      have hquiet : row.quiet = true := by
        by_contra hne
        obtain ⟨q1, q2⟩ := hc5 (by simpa using hne)
        rw [q1, q2] at hq
        exact absurd hq (by decide)
      obtain rfl : invalid = false := hinv.2 ⟨hquiet, rfl, rfl, hc1, hc2, hc3, hc4⟩
      rw [compare_quiet he (by rw [← hc, ← hbits]; rfl) (by rw [← hq, ← hbits]; rfl)]
      obtain ⟨hf, hc, hp⟩ := resultPops_flags (CompareRow.target row) .unordered row.pops s
      refine ⟨(hf .ie).trans (Bool.or_false _).symm, hc, fun f _ _ => hf f, ?_⟩
      rw [if_neg (by simp)]
      exact ⟨hp, (resultPops_result row .unordered s).1⟩
    · obtain rfl : invalid = true := by
        by_contra hne
        obtain ⟨hq, -, -, k1, k2, k3, k4⟩ := hinv.1 (by simpa using hne)
        simp [compareInvalid, hq, k1, k2, k3, k4] at hc
      rw [compare_invalid he (by rw [← hc, ← hbits]; rfl), raiseInvalid_eq]
      obtain ⟨hie, hc1, hflag⟩ := invalidFlagged_flags s
      exact unordered_raised hie hc1 (fun f h1 _ => hflag f h1) rfl ⟨rfl, rfl, rfl⟩ ⟨rfl, rfl, rfl, rfl⟩
        (untouched_of_eq rfl rfl rfl rfl)
  · obtain rfl : invalid = true := by
      by_contra hne
      obtain ⟨-, k0, k1, -⟩ := hinv.1 (by simpa using hne)
      rw [sourceIn_isEmpty, k0, k1] at he
      exact absurd he (by decide)
    have heq : s.compare (sourceIn row.source (addressOf i) s) row.quiet (CompareRow.target row) row.pops =
        s.raiseStack false (resultPops (CompareRow.target row) .unordered row.pops) := by
      rw [State.compare, if_pos he]
      rfl
    obtain ⟨hie, -, hc1, hflag⟩ := stackFlagged_flags false s
    rw [heq, raiseStack_eq]
    exact unordered_raised hie hc1 hflag rfl ⟨rfl, rfl, rfl⟩ ⟨rfl, rfl, rfl, rfl⟩ (untouched_of_eq rfl rfl rfl rfl)

/-- Settles O48. -/
theorem compareUnordered : Obligations.CompareUnordered := by
  unfold Obligations.CompareUnordered
  intro i row s b invalid hrow hr ho hb hcase hinv
  have hrun := compare_runs hrow hr ho
  obtain ⟨hie, hc1, hflag, hrest⟩ := compare_unordered (operandOf_bits (compareRow_plain hrow) hb) hcase hinv
  generalize s.compare (sourceIn row.source (addressOf i) s) row.quiet (CompareRow.target row) row.pops = u at *
  refine ⟨_, hrun, by rw [retire_sw, hie], by rw [retire_sw, hc1], fun f h1 h2 => by rw [retire_sw, hflag f h1 h2], ?_⟩
  split
  · next hc =>
    rw [if_pos hc] at hrest
    obtain ⟨k0, k2, k3, hhost, hun⟩ := hrest
    rw [retire_sw]
    exact ⟨k0, k2, k3, hostKept_retire hhost .record i, (shows_retire .record i u).untouched hun⟩
  · next hc =>
    rw [if_neg hc] at hrest
    exact ⟨by rw [retire_sw, hrest.1], Result.retire hrest.2 .record i⟩

end Sys2Proof.Laws.Comparison
end

section
/-! Invalid operands and NaN operands of the other arithmetic and the transcendental instructions (rules R202 to R209,
R303 to R308, R522, R537). -/

namespace Sys2Proof.Laws.Refused

open Sys2Proof.Machine Sys2Proof.Laws Sys2Proof.Laws.Shapes Sys2Proof.Laws.Frame Sys2Proof.Laws.SignBit
open Sys2Proof.Laws.Answers Sys2Proof.Laws.Moves Sys2Proof.Laws.Values Sys2Proof.Laws.Sources Sys2Proof.Laws.Operands
open Sys2Proof.Laws.Comparison

/-! ### One, and the numbers below it -/

theorem realOf_one : realOf (valOf one) = 1 := by
  have h : valOf one = ⟨false, 2 ^ 63, -63⟩ := by decide
  rw [h]
  simp only [realOf, signed, Bool.false_eq_true, if_false]
  norm_num

theorem isOne_iff {x : Ext} {v : ℝ} (h : HasValue x v) : isOne x = true ↔ v = 1 := by
  rw [isOne, same_iff, realOf_one, ← ((hasValue_iff x v).1 h).2]

theorem belowOne_eq {x : Ext} {v : ℝ} (h : HasValue x v) : belowOne x = decide (v < 1) := by
  rw [Bool.eq_iff_iff, decide_eq_true_eq, belowOne, less_iff, realOf_one, ← ((hasValue_iff x v).1 h).2]

/-! ### The branches of the rules on operands that are not empty -/

section
variable {s : State}

theorem unary_unsupported (h0 : s.isEmpty 0#3 = false) (h : classOf (s.st 0#3) = .unsupported)
    (invalid : Ext → Bool) (f : Ext → State → State) :
    s.unary invalid f = s.raiseInvalid fun t => t.setSt 0#3 indef := by
  rw [State.unary, if_neg (by rw [h0]; decide), if_pos h]

theorem unary_nan (h0 : s.isEmpty 0#3 = false) (h : classOf (s.st 0#3) = .nan)
    (invalid : Ext → Bool) (f : Ext → State → State) :
    s.unary invalid f = s.nanOne (s.st 0#3) fun v t => t.setSt 0#3 v := by
  rw [State.unary, if_neg (by rw [h0]; decide), if_neg (by rw [h]; decide), if_pos h]

theorem unary_number (h0 : s.isEmpty 0#3 = false) (h : IsNumber (s.st 0#3)) (invalid : Ext → Bool)
    (f : Ext → State → State) :
    s.unary invalid f = if invalid (s.st 0#3) then s.raiseInvalid fun t => t.setSt 0#3 indef
      else s.denormalTest (decide (classOf (s.st 0#3) = .denormal)) (f (s.st 0#3)) := by
  rw [State.unary, if_neg (by rw [h0]; decide), if_neg (isNumber_classes h).1, if_neg (isNumber_classes h).2.1]

theorem f2xm1_unsupported (h0 : s.isEmpty 0#3 = false) (h : classOf (s.st 0#3) = .unsupported) :
    s.f2xm1 = s.raiseInvalid fun t => t.setSt 0#3 indef := by
  rw [State.f2xm1, if_neg (by rw [h0]; decide), if_pos h]

theorem f2xm1_nan (h0 : s.isEmpty 0#3 = false) (h : classOf (s.st 0#3) = .nan) :
    s.f2xm1 = s.nanOne (s.st 0#3) fun v t => t.setSt 0#3 v := by
  rw [State.f2xm1, if_neg (by rw [h0]; decide), if_neg (by rw [h]; decide), if_pos h]

variable {bad zero : State → State} {f : Ext → Rounding → Trans}

theorem trig_unsupported (h0 : s.isEmpty 0#3 = false) (h : classOf (s.st 0#3) = .unsupported) :
    s.trig bad zero f = bad s := by
  rw [State.trig, if_neg (by rw [h0]; decide), if_pos h]

theorem trig_nan (h0 : s.isEmpty 0#3 = false) (h : classOf (s.st 0#3) = .nan) :
    s.trig bad zero f = s.trigNaN (s.st 0#3) fun v t => t.setSt 0#3 v := by
  rw [State.trig, if_neg (by rw [h0]; decide), if_neg (by rw [h]; decide), if_pos h]

theorem trig_infinity (h0 : s.isEmpty 0#3 = false) (h : classOf (s.st 0#3) = .infinity) :
    s.trig bad zero f = s.trigInvalid fun t => t.setSt 0#3 indef := by
  rw [State.trig, if_neg (by rw [h0]; decide), if_neg (by rw [h]; decide), if_neg (by rw [h]; decide), if_pos h]

variable {takes : Ext → State → Bool} {g : Ext → State → State}

theorem trigPair_invalid (h0 : s.isEmpty 0#3 = false) (h7 : s.isEmpty 7#3 = true)
    (h : classOf (s.st 0#3) = .unsupported ∨ classOf (s.st 0#3) = .infinity) :
    s.trigPair takes g = s.trigInvalid (State.bothResults indef) := by
  rw [State.trigPair, if_neg (by rw [h0]; decide), if_neg (by rw [h7]; decide), if_pos h]

theorem trigPair_nan (h0 : s.isEmpty 0#3 = false) (h7 : s.isEmpty 7#3 = true) (h : classOf (s.st 0#3) = .nan) :
    s.trigPair takes g = s.trigNaN (s.st 0#3) State.bothResults := by
  rw [State.trigPair, if_neg (by rw [h0]; decide), if_neg (by rw [h7]; decide), if_neg (by rw [h]; decide), if_pos h]

theorem xtract_unsupported (h0 : s.isEmpty 0#3 = false) (h7 : s.isEmpty 7#3 = true)
    (h : classOf (s.st 0#3) = .unsupported) : s.xtract = s.raiseInvalid (State.bothResults indef) := by
  rw [State.xtract, if_neg (by rw [h0]; decide), if_neg (by rw [h7]; decide), if_pos h]

theorem xtract_nan (h0 : s.isEmpty 0#3 = false) (h7 : s.isEmpty 7#3 = true) (h : classOf (s.st 0#3) = .nan) :
    s.xtract = s.nanOne (s.st 0#3) State.bothResults := by
  rw [State.xtract, if_neg (by rw [h0]; decide), if_neg (by rw [h7]; decide), if_neg (by rw [h]; decide), if_pos h]

/-- Neither operand is empty. -/
def BothFull (s : State) : Prop := s.isEmpty 0#3 = false ∧ s.isEmpty 1#3 = false

/-- One of the two operands is of a class. -/
abbrev OneOf (c : Machine.Class) (s : State) : Prop := classOf (s.st 0#3) = c ∨ classOf (s.st 1#3) = c

theorem BothFull.test (h : BothFull s) : (s.isEmpty 0#3 || s.isEmpty 1#3) = false := by
  rw [h.1, h.2]
  rfl

theorem prem_unsupported (he : BothFull s) (h : OneOf .unsupported s) (nearest : Bool) :
    s.prem nearest = s.raiseInvalid fun t => t.setSt 0#3 indef := by
  rw [State.prem, if_neg (by rw [he.test]; decide), if_pos h]

theorem prem_nan (he : BothFull s) (h : ¬OneOf .unsupported s) (hn : OneOf .nan s) (nearest : Bool) :
    s.prem nearest = s.nanTwo (s.st 0#3) (s.st 1#3) fun v t => t.setSt 0#3 v := by
  rw [State.prem, if_neg (by rw [he.test]; decide), if_neg h, if_pos hn]

theorem scale_unsupported (he : BothFull s) (h : OneOf .unsupported s) :
    s.scale = s.raiseInvalid fun t => t.setSt 0#3 indef := by
  rw [State.scale, if_neg (by rw [he.test]; decide), if_pos h]

theorem scale_nan (he : BothFull s) (h : ¬OneOf .unsupported s) (hn : OneOf .nan s) :
    s.scale = s.nanTwo (s.st 0#3) (s.st 1#3) fun v t => t.setSt 0#3 v := by
  rw [State.scale, if_neg (by rw [he.test]; decide), if_neg h, if_pos hn]

/-- The answer of FPATAN, FYL2X and FYL2XP1: ST(1) written, then the pop. -/
def pairAnswer (v : Ext) (t : State) : State := (t.setSt 1#3 v).pop

variable {p : Ext → Ext → State → State}

theorem pairFront_unsupported (he : BothFull s) (h : OneOf .unsupported s) :
    s.pairFront p = s.raiseInvalid (pairAnswer indef) := by
  rw [State.pairFront, if_neg (by rw [he.test]; decide), if_pos h]
  rfl

theorem pairFront_nan (he : BothFull s) (h : ¬OneOf .unsupported s) (hn : OneOf .nan s) :
    s.pairFront p = s.nanTwo (s.st 1#3) (s.st 0#3) pairAnswer := by
  rw [State.pairFront, if_neg (by rw [he.test]; decide), if_neg h, if_pos hn]
  rfl

/-! Two operands that are numbers. -/

/-- Both operands are numbers. -/
def BothNumbers (s : State) : Prop := IsNumber (s.st 0#3) ∧ IsNumber (s.st 1#3)

theorem BothNumbers.classes (h : BothNumbers s) : ¬OneOf .unsupported s ∧ ¬OneOf .nan s := by
  obtain ⟨hx, hx', -⟩ := isNumber_classes h.1
  obtain ⟨hy, hy', -⟩ := isNumber_classes h.2
  exact ⟨not_or.2 ⟨hx, hy⟩, not_or.2 ⟨hx', hy'⟩⟩

theorem pairFront_numbers (he : BothFull s) (h : BothNumbers s) : s.pairFront p = p (s.st 1#3) (s.st 0#3) s := by
  rw [State.pairFront, if_neg (by rw [he.test]; decide), if_neg h.classes.1, if_neg h.classes.2]

theorem prem_invalid (he : BothFull s) (h : BothNumbers s)
    (hx : classOf (s.st 0#3) = .infinity ∨ classOf (s.st 1#3) = .zero) (nearest : Bool) :
    s.prem nearest = s.raiseInvalid fun t => t.setSt 0#3 indef := by
  rw [State.prem, if_neg (by rw [he.test]; decide), if_neg h.classes.1, if_neg h.classes.2, if_pos hx]

theorem scale_invalid (he : BothFull s) (h : BothNumbers s) (hi : scaleInvalid (s.st 0#3) (s.st 1#3) = true) :
    s.scale = s.raiseInvalid fun t => t.setSt 0#3 indef := by
  rw [State.scale, if_neg (by rw [he.test]; decide), if_neg h.classes.1, if_neg h.classes.2, if_pos hi]

end

/-- An infinity is the one of its sign. -/
theorem infinity_eq {x : Ext} (h : classOf x = .infinity) : x = infOf (signOf x) := by
  obtain ⟨he, hs⟩ := (class_infinity_iff x).1 h
  have he' : (0x7FFF : Nat) < 2 ^ 15 := by decide
  have hs' : (0x8000000000000000 : Nat) < 2 ^ 64 := by decide
  exact ext_of_fields (signOf_mkExt _ he' hs').symm (he.trans (expoOf_mkExt _ he' hs').symm)
    (hs.trans (sigOf_mkExt _ he' hs').symm)

theorem trigInvalid_shows (f : State → State) (s : State) :
    Shows (s.raiseInvalid f) (s.trigInvalid f) ∧ (s.trigInvalid f).sw.c2 = false :=
  ⟨⟨rfl, rfl, rfl, fun g => by cases g <;> rfl, rfl, rfl⟩, rfl⟩

theorem trigNaN_shows (x : Ext) (write : Ext → State → State) (s : State) :
    Shows (s.nanOne x write) (s.trigNaN x write) ∧ (s.trigNaN x write).sw.c2 = false :=
  ⟨⟨rfl, rfl, rfl, fun g => by cases g <;> rfl, rfl, rfl⟩, rfl⟩

/-- Like `runs_shows`, and C2 is that of the rule. -/
theorem runs_shows_c2 {i : Instr} {s u : State} (hf : familyOf i ≠ .control) (hr : Ready i s) (ho : OperandThere i s)
    (h : Shows u (afterOf i s)) : ∃ t, exec i s = .next t ∧ Shows u t ∧ t.sw.c2 = (afterOf i s).sw.c2 :=
  ⟨_, exec_computes hf hr ho, h.trans (shows_retire ..), by rw [retire_sw]⟩

/-! ### Invalid operands -/

/-- What the rule shows of an invalid operand. -/
def InvalidShown (i : Instr) (s : State) : Prop :=
  ∃ u, Shows u (afterOf i s) ∧ Invalidated (answers i) (topMove i) s u ∧
    (i ∈ [Instr.fsin, .fcos, .fptan, .fsincos] → classOf (s.st 0#3) = .infinity → (afterOf i s).sw.c2 = false)

/-- The operands are invalid, as O28 lists them. -/
def BadOperands (i : Instr) (s : State) : Prop :=
  (i ∉ [Instr.fabs, .fchs] ∧ ∃ k ∈ sources i, classOf (s.st k) = .unsupported) ∨ InvalidPair i (s.st 0#3) (s.st 1#3)

theorem full_of_two {s : State} (h : ∀ k ∈ ([0#3, 1#3] : List (BitVec 3)), s.isEmpty k = false) : BothFull s :=
  ⟨h _ (by simp), h _ (by simp)⟩

theorem full_of_one {s : State} (h : ∀ k ∈ ([0#3] : List (BitVec 3)), s.isEmpty k = false) : s.isEmpty 0#3 = false :=
  h _ (by simp)

theorem invalidShown_prem {nearest : Bool} {s : State} (he : BothFull s)
    (h : OneOf .unsupported s ∨ (IsNumber (s.st 0#3) ∧ IsNumber (s.st 1#3) ∧
      (classOf (s.st 0#3) = .infinity ∨ classOf (s.st 1#3) = .zero))) :
    Invalidated [0#3] 0#3 s (s.prem nearest) := by
  have heq : s.prem nearest = s.raiseInvalid fun t => t.setSt 0#3 indef := by
    rcases h with h | ⟨hx, hy, h⟩
    · exact prem_unsupported he h nearest
    · exact prem_invalid he ⟨hx, hy⟩ h nearest
  rw [heq]
  exact raiseInvalid_invalidated (writes_setSt 0#3 indef) s

theorem invalidShown_scale {s : State} (he : BothFull s)
    (h : OneOf .unsupported s ∨ (classOf (s.st 1#3) = .infinity ∧
      ((classOf (s.st 0#3) = .zero ∧ signOf (s.st 1#3) = false) ∨
        (classOf (s.st 0#3) = .infinity ∧ signOf (s.st 1#3) = true)))) :
    Invalidated [0#3] 0#3 s s.scale := by
  have heq : s.scale = s.raiseInvalid fun t => t.setSt 0#3 indef := by
    rcases h with h | ⟨hy, h⟩
    · exact scale_unsupported he h
    · have hy' := infinity_eq hy
      rcases h with ⟨hx, hs⟩ | ⟨hx, hs⟩ <;> rw [hs] at hy'
      · exact scale_invalid he ⟨isNumber_of_class hx (by decide), isNumber_of_class hy (by decide)⟩
          (by simp [scaleInvalid, hx, hy'])
      · exact scale_invalid he ⟨isNumber_of_class hx (by decide), isNumber_of_class hy (by decide)⟩
          (by simp [scaleInvalid, hx, hy'])
  rw [heq]
  exact raiseInvalid_invalidated (writes_setSt 0#3 indef) s

theorem invalidShown_yl2x {s : State} (he : BothFull s)
    (h : OneOf .unsupported s ∨ (IsNumber (s.st 0#3) ∧ IsNumber (s.st 1#3) ∧
      ((signOf (s.st 0#3) = true ∧ classOf (s.st 0#3) ≠ .zero) ∨
        (classOf (s.st 1#3) = .zero ∧ classOf (s.st 0#3) ∈ [Machine.Class.zero, .infinity]) ∨
        (classOf (s.st 1#3) = .infinity ∧ HasValue (s.st 0#3) 1)))) :
    Invalidated [1#3] 1#3 s (s.pairFront State.yl2x) := by
  have heq : s.pairFront State.yl2x = s.raiseInvalid (pairAnswer indef) := by
    rcases h with h | ⟨hx, hy, h⟩
    · exact pairFront_unsupported he h
    · have hinv : yl2xInvalid (s.st 1#3) (s.st 0#3) = true := by
        rcases h with ⟨hs, hc⟩ | ⟨hc, hc'⟩ | ⟨hc, hv⟩
        · simp [yl2xInvalid, hs, hc]
        · simp only [List.mem_cons, List.not_mem_nil, or_false] at hc'
          rcases hc' with hc' | hc' <;> simp [yl2xInvalid, hc, hc']
        · have hfin : isFinite (s.st 0#3) = true := by
            rcases HasValue.finite hv one_ne_zero with hc' | hc' <;> simp [isFinite, hc']
          simp [yl2xInvalid, hc, hfin, (isOne_iff hv).2 rfl]
      rw [pairFront_numbers he ⟨hx, hy⟩, State.yl2x, if_pos hinv]
      rfl
  rw [heq]
  exact raiseInvalid_invalidated (writes_setSt_popIf 1#3 indef true) s

theorem yl2xp1InRange_zero {x : Ext} (h : classOf x = .zero) : yl2xp1InRange x = true := by
  obtain ⟨he, hs⟩ := (class_zero_iff x).1 h
  have hv : valOf x = ⟨signOf x, 0, -16445⟩ := by rw [valOf, he, hs]; rfl
  rw [yl2xp1InRange, hv]
  dsimp only
  rw [if_neg (by decide), Nat.sub_zero]
  simp only [Nat.zero_le, decide_true, Bool.true_and, decide_eq_true_eq]
  omega

theorem invalidShown_yl2xp1 {s : State} (he : BothFull s)
    (h : OneOf .unsupported s ∨ (classOf (s.st 0#3) = .zero ∧ classOf (s.st 1#3) = .infinity)) :
    Invalidated [1#3] 1#3 s (s.pairFront State.yl2xp1) := by
  have heq : s.pairFront State.yl2xp1 = s.raiseInvalid (pairAnswer indef) := by
    rcases h with h | ⟨hx, hy⟩
    · exact pairFront_unsupported he h
    · rw [pairFront_numbers he ⟨isNumber_of_class hx (by decide), isNumber_of_class hy (by decide)⟩, State.yl2xp1,
        if_neg (by rw [hx, yl2xp1InRange_zero hx]; decide), if_pos ⟨hx, hy⟩]
      rfl
  rw [heq]
  exact raiseInvalid_invalidated (writes_setSt_popIf 1#3 indef true) s

theorem invalidShown_other {i : Instr} {s : State} (hf : familyOf i = .other)
    (he : ∀ k ∈ sources i, s.isEmpty k = false) (h7 : 7#3 ∈ topMoves i → s.isEmpty 7#3 = true)
    (h : BadOperands i s) : InvalidShown i s := by
  cases i <;> cases hf
  case fabs | fchs => exact absurd h (by simp [BadOperands, InvalidPair])
  case fprem | fprem1 =>
    refine ⟨_, Shows.refl _, invalidShown_prem (full_of_two he) ?_, by simp⟩
    simpa [BadOperands, sources, InvalidPair] using h
  case fscale =>
    refine ⟨_, shows_openC023 _, invalidShown_scale (full_of_two he) ?_, by simp⟩
    simpa [BadOperands, sources, InvalidPair] using h
  case frndint =>
    have hu : classOf (s.st 0#3) = .unsupported := by simpa [BadOperands, sources, InvalidPair] using h
    refine ⟨_, shows_openC023 _, ?_, by simp⟩
    rw [unary_unsupported (full_of_one he) hu]
    exact raiseInvalid_invalidated (writes_setSt 0#3 indef) s
  case fsqrt =>
    have hu : classOf (s.st 0#3) = .unsupported ∨
        (signOf (s.st 0#3) = true ∧ IsNumber (s.st 0#3) ∧ classOf (s.st 0#3) ≠ .zero) := by
      simpa [BadOperands, sources, InvalidPair] using h
    refine ⟨_, shows_openC023 _, ?_, by simp⟩
    rcases hu with hu | ⟨hs, hn, hz⟩
    · rw [unary_unsupported (full_of_one he) hu]
      exact raiseInvalid_invalidated (writes_setSt 0#3 indef) s
    · rw [unary_number (full_of_one he) hn, if_pos (by simp [sqrtInvalid, hs, hz])]
      exact raiseInvalid_invalidated (writes_setSt 0#3 indef) s
  case fxtract =>
    have hu : classOf (s.st 0#3) = .unsupported := by simpa [BadOperands, sources, InvalidPair] using h
    refine ⟨_, shows_openC023 _, ?_, by simp⟩
    rw [xtract_unsupported (full_of_one he) (h7 (by decide)) hu]
    exact raiseInvalid_invalidated (writes_bothResults indef) s

theorem invalidShown_transcend {i : Instr} {s : State} (hf : familyOf i = .transcend)
    (he : ∀ k ∈ sources i, s.isEmpty k = false) (h7 : 7#3 ∈ topMoves i → s.isEmpty 7#3 = true)
    (h : BadOperands i s) : InvalidShown i s := by
  cases i <;> cases hf
  case f2xm1 =>
    have hu : classOf (s.st 0#3) = .unsupported := by simpa [BadOperands, sources, InvalidPair] using h
    refine ⟨_, shows_openC023 _, ?_, by simp⟩
    rw [f2xm1_unsupported (full_of_one he) hu]
    exact raiseInvalid_invalidated (writes_setSt 0#3 indef) s
  case fcos =>
    have hu : classOf (s.st 0#3) = .unsupported ∨ classOf (s.st 0#3) = .infinity := by
      simpa [BadOperands, sources, InvalidPair] using h
    rcases hu with hu | hu
    · refine ⟨_, (shows_openC03 _).1, ?_, fun _ hi => absurd (hu.symm.trans hi) (by decide)⟩
      rw [trig_unsupported (full_of_one he) hu]
      exact raiseInvalid_invalidated (writes_setSt 0#3 indef) s
    · have heq := trig_infinity (bad := State.raiseInvalid State.indefSt0) (zero := fun t => t.setSt 0#3 one)
        (f := transCos) (full_of_one he) hu
      refine ⟨_, (trigInvalid_shows _ s).1.trans (heq ▸ (shows_openC03 _).1),
        raiseInvalid_invalidated (writes_setSt 0#3 indef) s, fun _ _ => ?_⟩
      exact (shows_openC03 _).2.trans (congrArg (fun u : State => u.sw.c2) heq)
  case fsin =>
    have hu : classOf (s.st 0#3) = .unsupported ∨ classOf (s.st 0#3) = .infinity := by
      simpa [BadOperands, sources, InvalidPair] using h
    have heq : s.trig (State.trigInvalid State.indefSt0) id transSin = s.trigInvalid fun t => t.setSt 0#3 indef := by
      rcases hu with hu | hu
      · exact trig_unsupported (full_of_one he) hu
      · exact trig_infinity (full_of_one he) hu
    refine ⟨_, (trigInvalid_shows _ s).1.trans (heq ▸ (shows_openC03 _).1),
      raiseInvalid_invalidated (writes_setSt 0#3 indef) s, fun _ _ => ?_⟩
    exact (shows_openC03 _).2.trans (congrArg (fun u : State => u.sw.c2) heq)
  case fptan | fsincos =>
    have hu : classOf (s.st 0#3) = .unsupported ∨ classOf (s.st 0#3) = .infinity := by
      simpa [BadOperands, sources, InvalidPair] using h
    have heq := fun takes g => trigPair_invalid (takes := takes) (g := g) (full_of_one he) (h7 (by decide)) hu
    refine ⟨_, (trigInvalid_shows _ s).1.trans (heq _ _ ▸ (shows_openC03 _).1),
      raiseInvalid_invalidated (writes_bothResults indef) s, fun _ _ => ?_⟩
    exact (shows_openC03 _).2.trans (congrArg (fun u : State => u.sw.c2) (heq _ _))
  case fpatan =>
    have hu : OneOf .unsupported s := by simpa [BadOperands, sources, InvalidPair] using h
    refine ⟨_, shows_openC023 _, ?_, by simp⟩
    rw [pairFront_unsupported (full_of_two he) hu]
    exact raiseInvalid_invalidated (writes_setSt_popIf 1#3 indef true) s
  case fyl2x =>
    refine ⟨_, shows_openC023 _, invalidShown_yl2x (full_of_two he) ?_, by simp⟩
    simpa [BadOperands, sources, InvalidPair] using h
  case fyl2xp1 =>
    refine ⟨_, shows_openC023 _, invalidShown_yl2xp1 (full_of_two he) ?_, by simp⟩
    simpa [BadOperands, sources, InvalidPair] using h

/-- Settles O28. -/
theorem invalidOperands : Obligations.InvalidOperands := by
  unfold Obligations.InvalidOperands
  intro i s hf hr he h7 h
  obtain ⟨hfam, ho, u, hu, hinv, hc2⟩ : familyOf i ≠ .control ∧ OperandThere i s ∧ InvalidShown i s := by
    simp only [List.mem_cons, List.not_mem_nil, or_false] at hf
    rcases hf with hf | hf
    · refine ⟨by rw [hf]; decide, ?_, invalidShown_other hf he h7 h⟩
      cases i <;> cases hf <;> trivial
    · refine ⟨by rw [hf]; decide, ?_, invalidShown_transcend hf he h7 h⟩
      cases i <;> cases hf <;> trivial
  obtain ⟨t, ht, hshow, htc2⟩ := runs_shows_c2 hfam hr ho hu
  obtain ⟨hflags, hresp⟩ := hinv.shows hshow
  exact ⟨t, ht, hflags, hresp, fun hi hx => htc2.trans (hc2 hi hx)⟩

/-! ### NaN operands -/

/-- What the rule shows of a NaN operand. -/
def NaNAnswered (i : Instr) (s : State) : Prop :=
  ∃ u v invalid, Shows u (afterOf i s) ∧ NaNShown (answers i) (topMove i) v invalid s u ∧
    (invalid = true ↔ ∃ k ∈ sources i, isSNaN (s.st k) = true) ∧
    (1#3 ∉ sources i → v = quiet (s.st 0#3)) ∧ (1#3 ∈ sources i → NaNAnswer (s.st 0#3) (s.st 1#3) v) ∧
    (i ∈ [Instr.fsin, .fcos, .fptan, .fsincos] → (afterOf i s).sw.c2 = false)

theorem nanAnswered_one {i : Instr} {s u : State} {write : Ext → State → State} (hsrc : sources i = [0#3])
    (hw : ∀ v, Writes v (answers i) (topMove i) (write v)) (hn : classOf (s.st 0#3) = .nan)
    (hu : u = s.nanOne (s.st 0#3) write) (h : Shows u (afterOf i s))
    (hc2 : i ∈ [Instr.fsin, .fcos, .fptan, .fsincos] → (afterOf i s).sw.c2 = false) : NaNAnswered i s := by
  refine ⟨u, _, _, h, hu ▸ nanOne_shown hw hn s, ?_, fun _ => rfl, fun h1 => ?_, hc2⟩
  · rw [hsrc]
    simp
  · rw [hsrc] at h1
    exact absurd h1 (by decide)

theorem nanAnswered_two {i : Instr} {s u : State} {write : Ext → State → State} (hsrc : sources i = [0#3, 1#3])
    (hw : ∀ v, Writes v (answers i) (topMove i) (write v)) (hn : OneOf .nan s)
    (hu : u = s.nanTwo (s.st 0#3) (s.st 1#3) write ∨ u = s.nanTwo (s.st 1#3) (s.st 0#3) write)
    (h : Shows u (afterOf i s)) (hi : i ∉ [Instr.fsin, .fcos, .fptan, .fsincos]) : NaNAnswered i s := by
  rcases hu with rfl | rfl
  · refine ⟨_, _, _, h, nanTwo_shown hw _ _ s, ?_, fun h1 => ?_, fun _ => nan2_answer hn, fun h1 => absurd h1 hi⟩
    · rw [hsrc]
      simp
    · rw [hsrc] at h1
      exact absurd h1 (by decide)
  · refine ⟨_, _, _, h, nanTwo_shown hw _ _ s, ?_, fun h1 => ?_, fun _ => NaNAnswer.symm (nan2_answer hn.symm),
      fun h1 => absurd h1 hi⟩
    · rw [hsrc]
      simp [or_comm]
    · rw [hsrc] at h1
      exact absurd h1 (by decide)

theorem one_nan {s : State} {c : Machine.Class} (h : ∃ k ∈ ([0#3] : List (BitVec 3)), classOf (s.st k) = c) :
    classOf (s.st 0#3) = c := by simpa using h

theorem two_nan {s : State} {c : Machine.Class} (h : ∃ k ∈ ([0#3, 1#3] : List (BitVec 3)), classOf (s.st k) = c) :
    OneOf c s := by simpa [OneOf] using h

theorem two_not {s : State} {c : Machine.Class} (h : ∀ k ∈ ([0#3, 1#3] : List (BitVec 3)), classOf (s.st k) ≠ c) :
    ¬OneOf c s := not_or.2 (by simpa using h)

theorem nanAnswered_other {i : Instr} {s : State} (hf : familyOf i = .other) (hi : i ∉ [Instr.fabs, .fchs])
    (he : ∀ k ∈ sources i, s.isEmpty k = false) (h7 : 7#3 ∈ topMoves i → s.isEmpty 7#3 = true)
    (hu : ∀ k ∈ sources i, classOf (s.st k) ≠ .unsupported) (hn : ∃ k ∈ sources i, classOf (s.st k) = .nan) :
    NaNAnswered i s := by
  cases i <;> cases hf
  case fabs | fchs => exact absurd hi (by simp)
  case fprem | fprem1 =>
    exact nanAnswered_two rfl (writes_setSt 0#3) (two_nan hn)
      (.inl (prem_nan (full_of_two he) (two_not hu) (two_nan hn) _)) (Shows.refl _) (by simp)
  case fscale =>
    exact nanAnswered_two rfl (writes_setSt 0#3) (two_nan hn)
      (.inl (scale_nan (full_of_two he) (two_not hu) (two_nan hn))) (shows_openC023 _) (by simp)
  case frndint | fsqrt =>
    exact nanAnswered_one rfl (writes_setSt 0#3) (one_nan hn) (unary_nan (full_of_one he) (one_nan hn) _ _)
      (shows_openC023 _) (by simp)
  case fxtract =>
    exact nanAnswered_one rfl writes_bothResults (one_nan hn)
      (xtract_nan (full_of_one he) (h7 (by decide)) (one_nan hn)) (shows_openC023 _) (by simp)

theorem nanAnswered_transcend {i : Instr} {s : State} (hf : familyOf i = .transcend)
    (he : ∀ k ∈ sources i, s.isEmpty k = false) (h7 : 7#3 ∈ topMoves i → s.isEmpty 7#3 = true)
    (hu : ∀ k ∈ sources i, classOf (s.st k) ≠ .unsupported) (hn : ∃ k ∈ sources i, classOf (s.st k) = .nan) :
    NaNAnswered i s := by
  cases i <;> cases hf
  case f2xm1 =>
    exact nanAnswered_one rfl (writes_setSt 0#3) (one_nan hn) (f2xm1_nan (full_of_one he) (one_nan hn))
      (shows_openC023 _) (by simp)
  case fsin | fcos =>
    have heq := fun bad zero f => trig_nan (bad := bad) (zero := zero) (f := f) (full_of_one he) (one_nan hn)
    exact nanAnswered_one rfl (writes_setSt 0#3) (one_nan hn) rfl
      ((trigNaN_shows _ _ s).1.trans (heq _ _ _ ▸ (shows_openC03 _).1))
      fun _ => (shows_openC03 _).2.trans (congrArg (fun u : State => u.sw.c2) (heq _ _ _))
  case fptan | fsincos =>
    have heq := fun takes g => trigPair_nan (takes := takes) (g := g) (full_of_one he) (h7 (by decide)) (one_nan hn)
    exact nanAnswered_one rfl writes_bothResults (one_nan hn) rfl
      ((trigNaN_shows _ _ s).1.trans (heq _ _ ▸ (shows_openC03 _).1))
      fun _ => (shows_openC03 _).2.trans (congrArg (fun u : State => u.sw.c2) (heq _ _))
  case fpatan | fyl2x | fyl2xp1 =>
    exact nanAnswered_two rfl (fun v => writes_setSt_popIf 1#3 v true) (two_nan hn)
      (.inr (pairFront_nan (full_of_two he) (two_not hu) (two_nan hn))) (shows_openC023 _) (by simp)

/-- Settles O29. -/
theorem naNOperands : Obligations.NaNOperands := by
  unfold Obligations.NaNOperands
  intro i s hf hi hr he h7 hu hn
  obtain ⟨hfam, ho, u, v, invalid, hshow, hnan, hinv, hone, htwo, hc2⟩ :
      familyOf i ≠ .control ∧ OperandThere i s ∧ NaNAnswered i s := by
    simp only [List.mem_cons, List.not_mem_nil, or_false] at hf
    rcases hf with hf | hf
    · refine ⟨by rw [hf]; decide, ?_, nanAnswered_other hf hi he h7 hu hn⟩
      cases i <;> cases hf <;> trivial
    · refine ⟨by rw [hf]; decide, ?_, nanAnswered_transcend hf he h7 hu hn⟩
      cases i <;> cases hf <;> trivial
  obtain ⟨t, ht, hshow, htc2⟩ := runs_shows_c2 hfam hr ho hshow
  obtain ⟨hie, hc1, hflag, hrest⟩ := hnan.shows hshow
  exact ⟨t, v, invalid, ht, hinv, hie, hc1, hflag, hone, htwo, hrest, fun hi => htc2.trans (hc2 hi)⟩

end Sys2Proof.Laws.Refused
end

section
/-! Results that are exactly an infinity or a zero, and divisions by zero (rules R231 to R234, R524). -/

namespace Sys2Proof.Laws.Special

open Sys2Proof.Machine Sys2Proof.Laws Sys2Proof.Laws.Shapes Sys2Proof.Laws.Frame Sys2Proof.Laws.SignBit
open Sys2Proof.Laws.Answers Sys2Proof.Laws.Moves Sys2Proof.Laws.Values Sys2Proof.Laws.Sources Sys2Proof.Laws.Operands
open Sys2Proof.Laws.Comparison Sys2Proof.Laws.Refused

/-! ### Zeros, infinities and sums -/

@[simp] theorem classOf_zeroOf (neg : Bool) : classOf (zeroOf neg) = .zero := by cases neg <;> decide
@[simp] theorem signOf_zeroOf (neg : Bool) : signOf (zeroOf neg) = neg := by cases neg <;> decide
@[simp] theorem classOf_infOf (neg : Bool) : classOf (infOf neg) = .infinity := by cases neg <;> decide
@[simp] theorem signOf_infOf (neg : Bool) : signOf (infOf neg) = neg := by cases neg <;> decide

theorem realOf_add (x y : Dyad) : realOf (x.add y) = realOf x + realOf y := by
  have hn : ∀ (n : ℤ) (e : ℤ), realOf ⟨decide (n < 0), n.natAbs, e⟩ = n * 2 ^ e := fun n e => by
    rw [realOf, signed_eq]
    by_cases hlt : n < 0
    · rw [if_pos (decide_eq_true hlt), Nat.cast_natAbs, abs_of_neg hlt]
      push_cast
      ring
    · rw [if_neg (by simpa using hlt), Nat.cast_natAbs, abs_of_nonneg (not_lt.1 hlt), one_mul]
  have hsum := hn (x.atExp (min x.exp y.exp) + y.atExp (min x.exp y.exp)) (min x.exp y.exp)
  rw [show realOf (x.add y) = realOf ⟨decide (x.atExp (min x.exp y.exp) + y.atExp (min x.exp y.exp) < 0),
    (x.atExp (min x.exp y.exp) + y.atExp (min x.exp y.exp)).natAbs, min x.exp y.exp⟩ from rfl, hsum]
  push_cast
  rw [add_mul, atExp_real x (min_le_left _ _), atExp_real y (min_le_right _ _)]

theorem mant_eq_zero_iff (d : Dyad) : d.mant = 0 ↔ realOf d = 0 := by
  rw [← abs_eq_zero, abs_realOf, mul_eq_zero, Nat.cast_eq_zero, or_iff_left (two_zpow_pos _).ne']

theorem hasValue_flipSign {x : Ext} {v : ℝ} (h : HasValue x v) : HasValue (flipSign x) (-v) := by
  obtain ⟨hc, hv⟩ := (hasValue_iff x v).1 h
  obtain ⟨hs, he, hm⟩ := flipSign_fields x
  refine (hasValue_iff _ _).2 ⟨by rwa [classOf_flipSign], ?_⟩
  rw [hv, show realOf (valOf (flipSign x)) = signed (signOf (flipSign x))
    ((sigOf (flipSign x) : ℝ) * 2 ^ (((max (expoOf (flipSign x)) 1 : Nat) : ℤ) - 16446)) from rfl, hs, he, hm,
    show realOf (valOf x) = signed (signOf x) ((sigOf x : ℝ) * 2 ^ (((max (expoOf x) 1 : Nat) : ℤ) - 16446)) from rfl,
    signed_eq, signed_eq]
  cases signOf x <;> simp

/-! ### Special results -/

theorem SpecialSum.symm {rc : Rounding} {a b : Ext} {sa sb : Bool} {c : Machine.Class} {neg : Bool}
    (h : SpecialSum rc a sa b sb c neg) : SpecialSum rc b sb a sa c neg := by
  rcases h with ⟨hc, ha, hb, h⟩ | ⟨hc, ha, hb, hn⟩ | ⟨hc, hs, hn, v, w, hv, hw, hvw, h0⟩
  · exact .inl ⟨hc, hb, ha, h.symm⟩
  · refine .inr (.inl ⟨hc, hb, ha, hn.trans ?_⟩)
    by_cases h : sa = sb
    · rw [if_pos h, if_pos h.symm, h]
    · rw [if_neg h, if_neg (Ne.symm h)]
  · refine .inr (.inr ⟨hc, hs.symm, hn, w, v, hw, hv, hvw.symm, ?_⟩)
    rw [← abs_ne_zero] at h0 ⊢
    rwa [← hvw]

/-- A sum with an operand negated is a sum. -/
theorem SpecialSum.flip {rc : Rounding} {a b : Ext} {sa sb : Bool} {c : Machine.Class} {neg : Bool}
    (h : SpecialSum rc a sa b sb c neg) : SpecialSum rc a sa (flipSign b) sb c neg := by
  unfold SpecialSum IsNumber at h ⊢
  rw [classOf_flipSign]
  refine h.imp_right (Or.imp_right fun ⟨hc, hs, hn, v, w, hv, hw, hvw, h0⟩ => ?_)
  exact ⟨hc, hs, hn, v, -w, hv, hasValue_flipSign hw, by rwa [abs_neg], h0⟩

/-- The result of an operation that needs no rounding: from its table of special results, or a sum of zero. -/
def Answer (op : ArithOp) (rc : Rounding) (a b r : Ext) : Prop :=
  op.special a b = some r ∨ (op.special a b = none ∧ op.exact a b = none ∧ r = zeroOf (decide (rc = .down)))

theorem sum_answer {rc : Rounding} {a b : Ext} {c : Machine.Class} {neg : Bool}
    (h : SpecialSum rc a (signOf a) b (signOf b) c neg) :
    addInvalid a b = false ∧ IsNumber a ∧ IsNumber b ∧
      ∃ r, classOf r = c ∧ signOf r = neg ∧ Answer .add rc a b r := by
  rcases h with ⟨rfl, ha, hb, h⟩ | ⟨rfl, ha, hb, rfl⟩ | ⟨rfl, hs, rfl, v, w, hv, hw, hvw, h0⟩
  · have hinv : addInvalid a b = false := by
      rcases h with ⟨hca, -, hs⟩ | ⟨hcb, -, hs⟩
      · by_cases hcb : classOf b = .infinity
        · simp [addInvalid, signsDiffer, hs hcb]
        · simp [addInvalid, hcb]
      · by_cases hca : classOf a = .infinity
        · simp [addInvalid, signsDiffer, hs hca]
        · simp [addInvalid, hca]
    refine ⟨hinv, ha, hb, infOf neg, classOf_infOf _, signOf_infOf _, .inl ?_⟩
    rw [ArithOp.special, addSpecial]
    rcases h with ⟨hca, rfl, -⟩ | ⟨hcb, rfl, hs⟩
    · rw [if_pos hca]
    · by_cases hca : classOf a = .infinity
      · rw [if_pos hca, hs hca]
      · rw [if_neg hca, if_pos hcb]
  · refine ⟨by simp [addInvalid, ha], isNumber_of_class ha (by decide), isNumber_of_class hb (by decide),
      zeroOf _, classOf_zeroOf _, signOf_zeroOf _, ?_⟩
    have hspecial : addSpecial a b = if signOf a = signOf b then some (zeroOf (signOf a)) else none := by
      rw [addSpecial, if_neg (by rw [ha]; decide), if_neg (by rw [hb]; decide)]
      by_cases hs : signOf a = signOf b <;> simp [signsDiffer, ha, hb, hs]
    by_cases hs : signOf a = signOf b
    · rw [if_pos hs]
      exact .inl (hspecial.trans (if_pos hs))
    · rw [if_neg hs]
      refine .inr ⟨hspecial.trans (if_neg hs), ?_, rfl⟩
      rw [ArithOp.exact, addExact]
      refine if_pos ((mant_eq_zero_iff _).2 ?_)
      rw [realOf_add, realOf_zero (show (valOf a).mant = 0 from ((class_zero_iff a).1 ha).2),
        realOf_zero (show (valOf b).mant = 0 from ((class_zero_iff b).1 hb).2), add_zero]
  · have hw0 : w ≠ 0 := by
      rw [← abs_ne_zero] at h0 ⊢
      rwa [← hvw]
    have hca := class_ne_infinity hv
    have hcb := class_ne_infinity hw
    have haz : classOf a ≠ .zero := mt (HasValue.class_zero hv).1 h0
    have hnum : ∀ {x : Ext} {v : ℝ}, HasValue x v → IsNumber x := fun h =>
      isNumber_of_extended (.inl ⟨_, h, rfl⟩)
    refine ⟨by simp [addInvalid, hca], hnum hv, hnum hw, zeroOf _, classOf_zeroOf _, signOf_zeroOf _, .inr ⟨?_, ?_, rfl⟩⟩
    · rw [ArithOp.special, addSpecial, if_neg hca, if_neg hcb, if_neg fun h => haz h.1]
    · rw [ArithOp.exact, addExact]
      refine if_pos ((mant_eq_zero_iff _).2 ?_)
      rw [realOf_add, ← ((hasValue_iff a v).1 hv).2, ← ((hasValue_iff b w).1 hw).2]
      rw [HasValue.sign hv h0, HasValue.sign hw hw0] at hs
      rcases abs_eq_abs.1 hvw with rfl | rfl
      · exact absurd rfl hs
      · exact neg_add_cancel w

theorem product_answer {a b : Ext} {c : Machine.Class} (rc : Rounding) (h : SpecialProduct a b c) :
    mulInvalid a b = false ∧ ∃ r, classOf r = c ∧ signOf r = signsDiffer a b ∧ Answer .mul rc a b r := by
  obtain ⟨-, -, ⟨rfl, hi, ha, hb⟩ | ⟨rfl, hz, ha, hb⟩⟩ := h
  · exact ⟨by simp [mulInvalid, ha, hb], infOf _, classOf_infOf _, signOf_infOf _, .inl (if_pos hi)⟩
  · refine ⟨by simp [mulInvalid, ha, hb], zeroOf _, classOf_zeroOf _, signOf_zeroOf _, .inl ?_⟩
    rw [ArithOp.special, mulSpecial, if_neg (not_or.2 ⟨ha, hb⟩), if_pos hz]

theorem quotient_answer {n v : Ext} {c : Machine.Class} (h : SpecialQuotient n v c) :
    divInvalid n v = false ∧ divZero n v = false ∧
      ∃ r, classOf r = c ∧ signOf r = signsDiffer n v ∧ divSpecial n v = some r := by
  obtain ⟨-, -, ⟨rfl, hi, hv⟩ | ⟨rfl, hn, hv, hz⟩⟩ := h
  · exact ⟨by simp [divInvalid, hi, hv], by simp [divZero, isFinite, hi], infOf _, classOf_infOf _, signOf_infOf _,
      if_pos hi⟩
  · refine ⟨by simp [divInvalid, hn, hv], by simp [divZero, hv], zeroOf _, classOf_zeroOf _, signOf_zeroOf _, ?_⟩
    rw [divSpecial, if_neg hn, if_pos hz.symm]

/-- The statements' special results are the rules'. -/
theorem special_answer {op : ArithOp} {rc : Rounding} {a b : Ext} {c : Machine.Class} {neg : Bool}
    (h : SpecialResult op rc a b c neg) :
    op.invalid a b = false ∧ op.zeroDivide a b = false ∧ IsNumber a ∧ IsNumber b ∧
      ∃ r, classOf r = c ∧ signOf r = neg ∧ Answer op rc a b r := by
  cases op with
  | add =>
    obtain ⟨hinv, ha, hb, hr⟩ := sum_answer h
    exact ⟨hinv, rfl, ha, hb, hr⟩
  | sub =>
    have h' := SpecialSum.flip h
    rw [← signOf_flipSign b] at h'
    obtain ⟨hinv, ha, hb, hr⟩ := sum_answer h'
    rw [IsNumber, classOf_flipSign] at hb
    exact ⟨hinv, rfl, ha, hb, hr⟩
  | subr =>
    have h' := SpecialSum.symm (SpecialSum.flip h)
    rw [← signOf_flipSign a] at h'
    obtain ⟨hinv, ha, hb, hr⟩ := sum_answer h'
    rw [IsNumber, classOf_flipSign] at ha
    exact ⟨hinv, rfl, ha, hb, hr⟩
  | mul =>
    obtain ⟨rfl, hp⟩ := h
    obtain ⟨hinv, hr⟩ := product_answer rc hp
    exact ⟨hinv, rfl, hp.1, hp.2.1, hr⟩
  | div =>
    obtain ⟨rfl, hq⟩ := h
    obtain ⟨hinv, hzero, r, hc, hs, heq⟩ := quotient_answer hq
    exact ⟨hinv, hzero, hq.1, hq.2.1, r, hc, hs, .inl heq⟩
  | divr =>
    obtain ⟨rfl, hq⟩ := h
    obtain ⟨hinv, hzero, r, hc, hs, heq⟩ := quotient_answer hq
    exact ⟨hinv, hzero, hq.2.1, hq.1, r, hc, hs.trans (Bool.xor_comm _ _), .inl heq⟩

theorem arithResult_answer {op : ArithOp} {d : BitVec 3} {a b r : Ext} {s : State}
    (h : Answer op (rounding s.cw) a b r) : s.arithResult op d a b = (s.setSt d r).withC1 false := by
  rw [State.arithResult]
  rcases h with h | ⟨h1, h2, rfl⟩
  · rw [h]
  · rw [h1]
    dsimp only
    rw [h2]

/-- The rule of an arithmetic instruction on two numbers that give a result. -/
theorem arith_result {i : Instr} {row : ArithRow} {s : State} {b : Ext} (hrow : arithRow i = some row)
    (hd : s.isEmpty row.dest = false) (hsrc : row.source.isEmpty s = false) (hpass : DenormalsPass i s)
    (hb : (operandOf row.source (addressOf i) s).bits = b) (ha : IsNumber (s.st row.dest)) (hbn : IsNumber b)
    (hinv : row.op.invalid (s.st row.dest) b = false) (hzero : row.op.zeroDivide (s.st row.dest) b = false) :
    s.arith row.op row.dest (sourceIn row.source (addressOf i) s) row.pop =
      State.popIf row.pop ((passed (denormalOperand i s) s).arithResult row.op row.dest (s.st row.dest) b) := by
  subst hb
  have he : (s.isEmpty row.dest || (sourceIn row.source (addressOf i) s).isEmpty s) = false := by
    rw [hd, sourceIn_isEmpty, hsrc]
    rfl
  have hinv' : row.op.invalid (s.st row.dest) (Source.operand (sourceIn row.source (addressOf i) s) s).bits = false :=
    hinv
  have hzero' :
      row.op.zeroDivide (s.st row.dest) (Source.operand (sourceIn row.source (addressOf i) s) s).bits = false := hzero
  rw [arith_numbers he ha hbn, hinv', hzero', if_neg (by decide), if_neg (by decide)]
  have hden := denormalOperand_arith hrow s
  rw [operandOf] at hden
  rw [← hden, denormalTest_passes hpass]
  rfl

/-- Settles O21. -/
theorem arithSpecialResults : Obligations.ArithSpecialResults := by
  unfold Obligations.ArithSpecialResults
  intro i row s a b c neg hrow hr ho hd hsrc hpass ha hb h
  subst ha
  obtain ⟨hinv, hzero, han, hbn, r, hc, hs, hans⟩ := special_answer h
  obtain ⟨t, ht, hshow⟩ := arith_runs hrow hr ho
  have hbits := operandOf_bits (arithRow_plain hrow) hb
  rw [arith_result hrow hd hsrc hpass hbits han hbn hinv hzero,
    arithResult_answer (s := passed (denormalOperand i s) s) hans] at hshow
  obtain ⟨hans, hwr⟩ := writes_setSt_popIf row.dest r row.pop
  obtain ⟨htop, hreg⟩ := hwr s ((passed (denormalOperand i s) s).withC1 false) rfl
  have hshow' : Shows (State.popIf row.pop (((passed (denormalOperand i s) s).withC1 false).setSt row.dest r)) t := hshow
  have hr' := (hshow'.reg _).trans (hreg _ (List.mem_singleton.2 rfl))
  exact ⟨t, ht, by rw [hr', hc], by rw [hr', hs], hshow'.c1.trans (hans.c1 _), hshow'.de.trans (hans.flag _ .de),
    fun f hf => ((hshow'.flag f).trans (hans.flag _ f)).trans
      (by cases f <;> first | rfl | contradiction), hshow'.top.trans htop⟩

/-! ### Divisions by zero (rule R524) -/

/-- The state in which a zero divide is flagged. -/
def zeroFlagged (s : State) : State := { s with sw := { s.sw with ze := true, c1 := false } }

theorem raiseZeroDivide_eq (f : State → State) (s : State) :
    s.raiseZeroDivide f = if s.cw.getLsbD 2 then f (zeroFlagged s) else zeroFlagged s := rfl

/-- What a zero divide shows: ZE, C1 cleared, and the masked response `P` or nothing. -/
def ZeroDivided (P : State → Prop) (s u : State) : Prop :=
  u.sw.ze = true ∧ u.sw.c1 = false ∧ (∀ f, f ≠ .ze → u.sw.flag f = s.sw.flag f) ∧
  (if s.cw.getLsbD 2 then P u else Untouched s u)

theorem zeroFlagged_flag (s : State) (f : Flag) (h : f ≠ .ze) : (zeroFlagged s).sw.flag f = s.sw.flag f := by
  cases f <;> first | rfl | contradiction

theorem raiseZeroDivide_divided {P : State → Prop} {f : State → State} (hf : Answering f) {s : State}
    (h : P (f (zeroFlagged s))) : ZeroDivided P s (s.raiseZeroDivide f) := by
  rw [raiseZeroDivide_eq]
  unfold ZeroDivided
  cases s.cw.getLsbD 2
  · exact ⟨rfl, rfl, zeroFlagged_flag s, by rw [if_neg (by decide), if_neg (by decide)]; exact untouched_of_eq rfl rfl rfl rfl⟩
  · rw [if_pos rfl, if_pos rfl]
    exact ⟨hf.flag _ .ze, hf.c1 _, fun g hg => (hf.flag _ g).trans (zeroFlagged_flag s g hg), h⟩

theorem ZeroDivided.shows {P : State → Prop} {s u t : State} (h : ZeroDivided P s u) (ht : Shows u t)
    (hp : P u → P t) : ZeroDivided P s t := by
  obtain ⟨hze, hc1, hflag, hrest⟩ := h
  refine ⟨ht.ze.trans hze, ht.c1.trans hc1, fun f hf => (ht.flag f).trans (hflag f hf), ?_⟩
  split at hrest
  · next hm => exact (if_pos hm).mpr (hp hrest)
  · next hm => exact (if_neg hm).mpr (ht.untouched hrest)

/-- A register written, then a push. -/
theorem wrote_pushed {s u : State} (h : u.sw.top = s.sw.top) (v w : Ext) :
    ((u.setSt 0#3 v).push w).reg (s.phys 0#3) = v ∧ ((u.setSt 0#3 v).push w).reg (s.phys 7#3) = w ∧
      ((u.setSt 0#3 v).push w).sw.top = s.sw.top - 1#3 := by
  have hp : s.phys 7#3 = s.sw.top - 1#3 := top_sub_one _
  have hp' : s.phys 0#3 = s.sw.top := BitVec.add_zero _
  refine ⟨?_, ?_, ?_⟩
  · rw [reg_push, hp', if_neg, State.setSt, reg_setReg, if_pos (by rw [phys_of_top h, hp'])]
    have hne : ∀ k : BitVec 3, k ≠ k - 1#3 := by decide
    rw [show (u.setSt 0#3 v).sw.top = u.sw.top from rfl, h]
    exact hne _
  · rw [reg_push, hp, show (u.setSt 0#3 v).sw.top = u.sw.top from rfl, h, if_pos rfl]
  · rw [← h]
    rfl

/-- The quotient by zero of an arithmetic instruction. -/
theorem zeroDivide_of {op : ArithOp} {a b : Ext} {v w : ℝ} (ha : HasValue a v) (hb : HasValue b w)
    (h : (op = .div ∧ w = 0 ∧ v ≠ 0) ∨ (op = .divr ∧ v = 0 ∧ w ≠ 0)) :
    op.invalid a b = false ∧ op.zeroDivide a b = true := by
  have hai := class_ne_infinity ha
  have hbi := class_ne_infinity hb
  have hfin : ∀ {x : Ext} {v : ℝ}, HasValue x v → v ≠ 0 → isFinite x = true := fun hx hv => by
    rcases HasValue.finite hx hv with hc | hc <;> simp [isFinite, hc]
  rcases h with ⟨rfl, rfl, h0⟩ | ⟨rfl, rfl, h0⟩
  · have hz := (HasValue.class_zero hb).2 rfl
    have hn := mt (HasValue.class_zero ha).1 h0
    exact ⟨by simp [ArithOp.invalid, divInvalid, hai, hn], by simp [ArithOp.zeroDivide, divZero, hfin ha h0, hz]⟩
  · have hz := (HasValue.class_zero ha).2 rfl
    have hn := mt (HasValue.class_zero hb).1 h0
    exact ⟨by simp [ArithOp.invalid, divInvalid, hbi, hn], by simp [ArithOp.zeroDivide, divZero, hfin hb h0, hz]⟩

theorem isNumber_of_value {x : Ext} {v : ℝ} (h : HasValue x v) : IsNumber x :=
  isNumber_of_extended (.inl ⟨_, h, rfl⟩)

theorem arith_zeroDivide {i : Instr} {row : ArithRow} {s : State} {a b : ℝ} (hrow : arithRow i = some row)
    (hr : Ready i s) (ho : OperandThere i s) (hd : s.isEmpty row.dest = false) (ha : HasValue (s.st row.dest) a)
    (hb : SourceValue row.source (addressOf i) s b)
    (h : (row.op = .div ∧ b = 0 ∧ a ≠ 0) ∨ (row.op = .divr ∧ a = 0 ∧ b ≠ 0)) :
    ∃ t, exec i s = .next t ∧ ZeroDivided (fun t => classOf (t.reg (s.phys row.dest)) = .infinity ∧
        signOf (t.reg (s.phys row.dest)) = (signOf (s.st row.dest) ^^ row.source.sign (addressOf i) s) ∧
        t.sw.top = s.sw.top + (if row.pop then 1#3 else 0#3)) s t := by
  obtain ⟨t, ht, hshow⟩ := arith_runs hrow hr ho
  obtain ⟨hbv, hbs, hbe⟩ := operandOf_value (arithRow_plain hrow) hb
  obtain ⟨hinv, hzero⟩ := zeroDivide_of ha hbv h
  have he : (s.isEmpty row.dest || (sourceIn row.source (addressOf i) s).isEmpty s) = false := by
    rw [hd, sourceIn_isEmpty, hbe]
    rfl
  rw [operandOf] at hinv hzero hbs hbv
  rw [arith_numbers he (isNumber_of_value ha) (isNumber_of_value hbv), hinv, hzero, if_neg (by decide), if_pos rfl]
    at hshow
  have hwrites : Writes (infOf (signsDiffer (s.st row.dest) (Source.operand (sourceIn row.source (addressOf i) s) s).bits))
      [row.dest] (if row.pop then 1#3 else 0#3) (arithAnswer row.dest row.pop
        (infOf (signsDiffer (s.st row.dest) (Source.operand (sourceIn row.source (addressOf i) s) s).bits))) :=
    writes_setSt_popIf row.dest _ row.pop
  obtain ⟨hans, hwr⟩ := hwrites
  obtain ⟨htop, hreg⟩ := hwr s (zeroFlagged s) rfl
  refine ⟨t, ht, (raiseZeroDivide_divided hans ⟨?_, ?_, htop⟩).shows hshow fun h => ?_⟩
  · rw [hshow.reg, hshow.top]
    exact h
  · rw [hreg _ (List.mem_singleton.2 rfl), classOf_infOf]
  · rw [hreg _ (List.mem_singleton.2 rfl), signOf_infOf, signsDiffer, hbs]

theorem yl2x_zeroDivide {s : State} {y : ℝ} (he : BothFull s) (hx : classOf (s.st 0#3) = .zero)
    (hy : HasValue (s.st 1#3) y) (h0 : y ≠ 0) :
    s.pairFront State.yl2x = s.raiseZeroDivide (pairAnswer (infOf (!signOf (s.st 1#3)))) := by
  have hfin := HasValue.finite hy h0
  have hyz := mt (HasValue.class_zero hy).1 h0
  rw [pairFront_numbers he ⟨isNumber_of_class hx (by decide), isNumber_of_value hy⟩, State.yl2x,
    if_neg (by simp [yl2xInvalid, hx, hyz, class_ne_infinity hy]),
    if_pos ⟨hx, by rcases hfin with h | h <;> simp [isFinite, h]⟩]
  rfl

theorem xtract_zero {s : State} (h0 : s.isEmpty 0#3 = false) (h7 : s.isEmpty 7#3 = true)
    (hx : classOf (s.st 0#3) = .zero) :
    s.xtract = s.raiseZeroDivide fun u => (u.setSt 0#3 (infOf true)).push (s.st 0#3) := by
  rw [State.xtract, if_neg (by rw [h0]; decide), if_neg (by rw [h7]; decide), if_neg (by rw [hx]; decide),
    if_neg (by rw [hx]; decide), denormalTest_passes (.inr (by rw [hx]; decide)), if_pos hx, hx]
  exact congrArg (fun u => State.raiseZeroDivide _ u) (passed_false s)

/-- Settles O18. -/
theorem divideByZero : Obligations.DivideByZero := by
  unfold Obligations.DivideByZero
  refine ⟨fun i row s a b hrow hr ho hd ha hb h => arith_zeroDivide hrow hr ho hd ha hb h, ?_, ?_⟩
  · intro s y hr h0 h1 hx hy hne
    obtain ⟨t, ht, hshow⟩ := runs_open (i := .fyl2x) (by decide) hr trivial rfl
    rw [yl2x_zeroDivide ⟨h0, h1⟩ hx hy hne] at hshow
    obtain ⟨hreg, -, hpop⟩ := copied (s := s) (x := zeroFlagged s) rfl 1#3 (infOf (!signOf (s.st 1#3))) true
    have hsign : (!signOf (s.st 1#3)) = decide (0 < y) := by
      rw [HasValue.sign hy hne, ← decide_not, decide_eq_decide, not_lt]
      exact ⟨fun h => lt_of_le_of_ne h hne.symm, le_of_lt⟩
    have hdiv : ZeroDivided (fun u => classOf (u.reg (s.phys 1#3)) = .infinity ∧
        signOf (u.reg (s.phys 1#3)) = decide (0 < y) ∧ u.sw.top = s.sw.top + 1#3 ∧ u.tag (s.phys 0#3) = .empty) s
        (s.raiseZeroDivide (pairAnswer (infOf (!signOf (s.st 1#3))))) := by
      refine raiseZeroDivide_divided (writes_setSt_popIf 1#3 _ true).1 ⟨?_, ?_, hpop rfl⟩
      · exact (congrArg classOf hreg).trans (classOf_infOf _)
      · exact (congrArg signOf hreg).trans ((signOf_infOf _).trans hsign)
    refine ⟨t, ht, hdiv.shows hshow fun h => ?_⟩
    rw [hshow.reg, hshow.top, hshow.tag]
    exact h
  · intro s hr h0 h7 hx
    obtain ⟨t, ht, hshow⟩ := runs_open (i := .fxtract) (by decide) hr trivial rfl
    rw [xtract_zero h0 h7 hx] at hshow
    obtain ⟨hreg, hreg7, htop⟩ := wrote_pushed (s := s) (u := zeroFlagged s) rfl (infOf true) (s.st 0#3)
    have hdiv : ZeroDivided (fun u => u.reg (s.phys 0#3) = 0xFFFF8000000000000000#80 ∧
        u.reg (s.phys 7#3) = s.st 0#3 ∧ u.sw.top = s.sw.top - 1#3) s
        (s.raiseZeroDivide fun u => (u.setSt 0#3 (infOf true)).push (s.st 0#3)) :=
      raiseZeroDivide_divided ((answering_setSt 0#3 (infOf true)).comp (answering_push (s.st 0#3)))
        ⟨hreg.trans (by decide), hreg7, htop⟩
    refine ⟨t, ht, hdiv.shows hshow fun h => ?_⟩
    rw [hshow.reg, hshow.reg, hshow.top]
    exact h

end Sys2Proof.Laws.Special
end

section
/-! Delivery of results to a register (rules R525, R526, R538): the four ways a delivery ends, and the arithmetic
instructions that take them (rules R230 to R235). -/

namespace Sys2Proof.Laws.Delivery

open Sys2Proof.Machine Sys2Proof.Laws Sys2Proof.Laws.Shapes Sys2Proof.Laws.Frame Sys2Proof.Laws.SignBit
open Sys2Proof.Laws.Answers Sys2Proof.Laws.Moves Sys2Proof.Laws.Values Sys2Proof.Laws.Sources Sys2Proof.Laws.Operands
open Sys2Proof.Laws.Comparison Sys2Proof.Laws.Refused Sys2Proof.Laws.Special

/-! ### The precision flag and C1 -/

/-- The state with a rounding marked in PE and C1 (rule R527). -/
def marked (inexact up : Bool) (s : State) : State :=
  { s with sw := { s.sw with pe := s.sw.pe || inexact, c1 := up } }

theorem inexactOr_eq {inexact up : Bool} (h : up = true → inexact = true) (s : State) :
    s.inexactOr inexact up = marked inexact up s := by
  cases inexact
  · cases up
    · rw [marked, Bool.or_false]
      rfl
    · exact absurd (h rfl) (by decide)
  · rw [marked, Bool.or_true]
    rfl

theorem marked_flag (inexact up : Bool) (s : State) {f : Flag} (hf : f ≠ .pe) :
    (marked inexact up s).sw.flag f = s.sw.flag f := by
  cases f <;> first | rfl | contradiction

theorem RoundedTo.up_inexact {k : ℤ} {rc : Rounding} {x y : ℝ} {inexact up : Bool} (h : RoundedTo k rc x y inexact up) :
    up = true → inexact = true := by
  obtain ⟨n, -, -, hi, hu, -⟩ := h
  exact fun h => hi.2 (hu.1 h).1

theorem CorrectlyRounded.up_inexact {p : ℕ} {rc : Rounding} {x y : ℝ} {inexact up : Bool}
    (h : CorrectlyRounded p rc x y inexact up) : up = true → inexact = true := by
  obtain ⟨e, -, -, hr⟩ := h
  exact RoundedTo.up_inexact hr

/-- A number below `N` units of the rounding is rounded to at most `N` units. -/
theorem RoundedTo.abs_le {k : ℤ} {rc : Rounding} {x y : ℝ} {inexact up : Bool} (h : RoundedTo k rc x y inexact up)
    {N : ℕ} (hx : |x| < N * 2 ^ k) : |y| ≤ N * 2 ^ k := by
  obtain ⟨n, hn, -, -, -, rfl⟩ := h
  have hk := two_zpow_pos k
  have hlt : n < N := by exact_mod_cast lt_of_mul_lt_mul_right (lt_of_le_of_lt hn hx) hk.le
  have hsign : |(if x < 0 then (-1 : ℝ) else 1)| = 1 := by split <;> simp
  rw [abs_mul, hsign, one_mul, abs_of_nonneg (by split <;> positivity)]
  refine mul_le_mul_of_nonneg_right ?_ hk.le
  split
  · exact_mod_cast hlt
  · exact_mod_cast hlt.le

/-! ### The ways a delivery ends (rule R538) -/

section
variable {i : BitVec 3} {neg : Bool} {x : Mag} {r : Rounded} {p : Nat} {s : State}

theorem settle_inRange (hup : r.up = true → r.inexact = true) (h1 : -16382 ≤ leadExp r.mant r.exp)
    (h2 : leadExp r.mant r.exp < 16384) :
    s.settle i neg x r p = (marked r.inexact r.up s).setSt i (extOf neg r.mant r.exp) := by
  rw [State.settle, if_neg (by omega), if_neg (by omega), inexactOr_eq hup]
  rfl

theorem settle_overflow_masked (h : 16384 ≤ leadExp r.mant r.exp) (hm : s.cw.getLsbD 3 = true) :
    s.settle i neg x r p = (marked true (toInfinity (rounding s.cw) neg) s.flagOverflow).setSt i
      (if toInfinity (rounding s.cw) neg then infOf neg else largestExt neg p) := by
  rw [State.settle, if_pos h, State.overflow, if_pos hm, marked, Bool.or_true]
  rfl

theorem settle_overflow_unmasked (hup : r.up = true → r.inexact = true) (h1 : 16384 ≤ leadExp r.mant r.exp)
    (h2 : leadExp r.mant r.exp < 40960) (hm : s.cw.getLsbD 3 = false) :
    s.settle i neg x r p = (marked r.inexact r.up s.flagOverflow).setSt i (extOf neg r.mant (r.exp - 24576)) := by
  rw [State.settle, if_pos h1, State.overflow, if_neg (by rw [hm]; decide), inexactOr_eq hup, State.setScaled, if_pos]
  · rfl
  · unfold leadExp at h1 h2 ⊢
    omega

/-- The marks of a masked underflow: those of the rounding to the spacing of the denormals, or of the first one. -/
def underMarked (d r : Rounded) (s : State) : State :=
  if d.inexact || r.inexact then marked true (if d.inexact then d.up else r.up) s.flagUnderflow else s.withC1 false

theorem settle_underflow_masked (h : leadExp r.mant r.exp < -16382) (hm : s.cw.getLsbD 4 = true) {d : Rounded}
    (hd : x.roundTo neg (-16382 - ((p : Int) - 1)) (rounding s.cw) = d) :
    s.settle i neg x r p = (underMarked d r s).setSt i (extOf neg d.mant d.exp) := by
  rw [State.settle, if_neg (by omega), if_pos h, State.underflow, if_pos hm, hd, underMarked]
  dsimp only
  split
  · rw [marked, Bool.or_true]
    rfl
  · rfl

theorem settle_underflow_unmasked (hup : r.up = true → r.inexact = true) (h1 : leadExp r.mant r.exp < -16382)
    (h2 : -40958 ≤ leadExp r.mant r.exp) (hm : s.cw.getLsbD 4 = false) :
    s.settle i neg x r p = (marked r.inexact r.up s.flagUnderflow).setSt i (extOf neg r.mant (r.exp + 24576)) := by
  rw [State.settle, if_neg (by omega), if_pos h1, State.underflow, if_neg (by rw [hm]; decide), inexactOr_eq hup,
    State.setScaled, if_pos]
  · rfl
  · unfold leadExp at h1 h2 ⊢
    omega

end

/-- The lead of a value tells its magnitude. -/
theorem lead_le_iff {m : Nat} (h0 : m ≠ 0) (e k : ℤ) : k ≤ leadExp m e ↔ (2 : ℝ) ^ k ≤ m * 2 ^ e := by
  obtain ⟨h1, h2⟩ := leadExp_spec h0 e
  have hpow : ∀ {a b : ℤ}, (2 : ℝ) ^ a < 2 ^ b ↔ a < b := zpow_lt_zpow_iff_right₀ (by norm_num)
  constructor
  · exact fun h => le_trans (zpow_le_zpow_right₀ (by norm_num) h) h1
  · intro h
    have := hpow.1 (lt_of_le_of_lt h h2)
    omega

theorem lead_lt_iff {m : Nat} (h0 : m ≠ 0) (e k : ℤ) : leadExp m e < k ↔ (m : ℝ) * 2 ^ e < 2 ^ k := by
  rw [← not_le, lead_le_iff h0, not_le]

theorem abs_signed_pow (neg : Bool) (m : Nat) (e : ℤ) : |signed neg (m * 2 ^ e)| = m * 2 ^ e :=
  signed_abs neg (by positivity)

theorem signed_scale (neg : Bool) (m : Nat) (e k : ℤ) : signed neg (m * 2 ^ (e + k)) = signed neg (m * 2 ^ e) * 2 ^ k := by
  rw [zpow_add₀ two_ne_zero, signed_eq, signed_eq]
  ring

theorem precision_le {cw : Word16} {p : Nat} (h : precision cw = some p) : 1 ≤ p ∧ p ≤ 64 := by
  unfold precision at h
  split_ifs at h <;> cases h <;> decide

/-- The rounding of a magnitude in the terms of the statements. -/
structure RoundedAs (x : Mag) (neg : Bool) (p : Nat) (rc : Rounding) (v y : ℝ) (inexact up : Bool) (r : Rounded) :
    Prop where
  eq      : x.roundPrec neg p rc = r
  inexact : r.inexact = inexact
  up      : r.up = up
  implies : r.up = true → r.inexact = true
  value   : y = signed neg (r.mant * 2 ^ r.exp)
  nonzero : r.mant ≠ 0
  le      : r.mant ≤ 2 ^ p
  lead    : x.log2 ≤ leadExp r.mant r.exp ∧ leadExp r.mant r.exp ≤ x.log2 + 1
  sign    : (v < 0) = (neg = true)

theorem roundedAs {x : Mag} (hx : Mag.ok x) {neg : Bool} {p : Nat} (hp : 1 ≤ p) {rc : Rounding} {v y : ℝ}
    {inexact up : Bool} (hv : v = signed neg (Mag.real x)) (h : CorrectlyRounded p rc v y inexact up) :
    RoundedAs x neg p rc v y inexact up (x.roundPrec neg p rc) := by
  have hspec := Mag.roundPrec_spec hx neg p rc
  rw [← hv] at hspec
  obtain ⟨hy, hi, hu⟩ := CorrectlyRounded.unique h hspec
  obtain ⟨h1, h2, -⟩ := Mag.roundPrec_mant hx neg hp rc
  have hpos : 0 < 2 ^ (p - 1) := by positivity
  refine ⟨rfl, hi.symm, hu.symm, CorrectlyRounded.up_inexact hspec, hy, by omega, h2,
    Mag.roundPrec_leadExp hx neg hp rc, ?_⟩
  rw [hv, signed_neg_iff neg (Mag.real_pos hx)]

/-- The largest number of a precision. -/
theorem largestExt_spec (neg : Bool) {p : Nat} (h1 : 1 ≤ p) (h2 : p ≤ 64) :
    HasValue (largestExt neg p) ((if neg then -1 else 1) * ((2 - 2 ^ (1 - (p : ℤ))) * 2 ^ (16383 : ℤ))) ∧
      signOf (largestExt neg p) = neg := by
  have hle : 2 ^ (64 - p) ≤ 2 ^ 63 := Nat.pow_le_pow_right (by decide) (by omega)
  have hpos : 0 < 2 ^ (64 - p) := by positivity
  have hs : 2 ^ 64 - 2 ^ (64 - p) < 2 ^ 64 := by omega
  have hsig : sigOf (largestExt neg p) = 2 ^ 64 - 2 ^ (64 - p) := sigOf_mkExt neg (by decide) hs
  have hexp : expoOf (largestExt neg p) = 0x7FFE := expoOf_mkExt neg (by decide) hs
  have hsign : signOf (largestExt neg p) = neg := signOf_mkExt neg (by decide) hs
  have hc : classOf (largestExt neg p) = .normal := by
    rw [class_normal_iff, hexp, hsig]
    refine ⟨by decide, by decide, by omega⟩
  refine ⟨(hasValue_iff _ _).2 ⟨.inr (.inl hc), ?_⟩, hsign⟩
  have hval : realOf (valOf (largestExt neg p)) = signed neg ((2 ^ 64 - 2 ^ (64 - p) : ℕ) * 2 ^ (16320 : ℤ)) := by
    simp only [realOf, valOf, hsign, hexp, hsig]
    norm_num
  rw [hval, signed_eq]
  congr 1
  have hpow : ((2 ^ (64 - p) : ℕ) : ℝ) = 2 ^ (64 - (p : ℤ)) := by
    rw [Nat.cast_pow, Nat.cast_ofNat, ← zpow_natCast, Nat.cast_sub h2]
    rfl
  have hcast : ((2 ^ 64 - 2 ^ (64 - p) : ℕ) : ℝ) = 2 ^ (64 : ℤ) - 2 ^ (64 - (p : ℤ)) := by
    rw [Nat.cast_sub (by omega), hpow]
    norm_num
  have h63 : (2 : ℝ) ^ (16383 : ℤ) = 2 ^ (63 : ℤ) * 2 ^ (16320 : ℤ) := by rw [← zpow_add₀ two_ne_zero]; norm_num
  have h64 : (2 : ℝ) ^ (64 : ℤ) = 2 * 2 ^ (63 : ℤ) := by rw [← zpow_one_add₀ two_ne_zero]; norm_num
  have hp64 : (2 : ℝ) ^ (64 - (p : ℤ)) = 2 ^ (1 - (p : ℤ)) * 2 ^ (63 : ℤ) := by
    rw [← zpow_add₀ two_ne_zero]
    congr 1
    ring
  rw [hcast, h64, hp64, h63]
  ring

/-! ### Exact results of the arithmetic operations (rules R231 to R234) -/

/-- The magnitude of a nonzero register value. -/
theorem value_bounds {x : Ext} {v : ℝ} (h : HasValue x v) (h0 : v ≠ 0) :
    (2 : ℝ) ^ (-16445 : ℤ) ≤ |v| ∧ |v| < (2 : ℝ) ^ (16384 : ℤ) := by
  obtain ⟨hm, hlt, he1, he2⟩ := valOf_finite (HasValue.finite h h0)
  rw [HasValue.abs h]
  have hlead := leadExp_lt hm hlt (valOf x).exp
  have hlead' := le_leadExp (valOf x).mant (valOf x).exp
  exact ⟨(lead_le_iff hm _ _).1 (by omega), (lead_lt_iff hm _ _).1 (by push_cast at hlead; omega)⟩

/-- What the rules compute of a nonzero result: sign and magnitude, and bounds that every delivery respects. -/
structure ExactAs (op : ArithOp) (a b : Ext) (v : ℝ) (neg : Bool) (x : Mag) : Prop where
  invalid : op.invalid a b = false
  zero    : op.zeroDivide a b = false
  special : op.special a b = none
  exact   : op.exact a b = some (neg, x)
  ok      : Mag.ok x
  value   : v = signed neg (Mag.real x)
  lower   : (2 : ℝ) ^ (-32900 : ℤ) ≤ |v|
  upper   : |v| < (2 : ℝ) ^ (32900 : ℤ)

theorem sum_exact {a b : Ext} {v w : ℝ} (ha : HasValue a v) (hb : HasValue b w) (h0 : v + w ≠ 0) :
    ∃ neg x, ExactAs .add a b (v + w) neg x := by
  have hai := class_ne_infinity ha
  have hbi := class_ne_infinity hb
  have hsum : realOf ((valOf a).add (valOf b)) = v + w := by
    rw [realOf_add, ← ((hasValue_iff a v).1 ha).2, ← ((hasValue_iff b w).1 hb).2]
  have hm : ((valOf a).add (valOf b)).mant ≠ 0 := fun h => h0 (by rw [← hsum, (mant_eq_zero_iff _).1 h])
  have habs := abs_realOf ((valOf a).add (valOf b))
  rw [hsum] at habs
  refine ⟨((valOf a).add (valOf b)).neg, ((valOf a).add (valOf b)).mag, by simp [ArithOp.invalid, addInvalid, hai], rfl,
    ?_, if_neg hm, dyad_mag_ok hm, ?_, ?_, ?_⟩
  · rw [ArithOp.special, addSpecial, if_neg hai, if_neg hbi, if_neg]
    rintro ⟨hza, hzb, -⟩
    exact h0 (by rw [(HasValue.class_zero ha).1 hza, (HasValue.class_zero hb).1 hzb, add_zero])
  · rw [dyad_mag_real, ← hsum]
    rfl
  · have hexp : ((valOf a).add (valOf b)).exp = min (valOf a).exp (valOf b).exp := rfl
    have hlow : ∀ x : Ext, -16445 ≤ (valOf x).exp := fun x => by
      simp only [valOf]
      omega
    have := le_leadExp ((valOf a).add (valOf b)).mant ((valOf a).add (valOf b)).exp
    have := hlow a
    have := hlow b
    rw [habs]
    exact (lead_le_iff hm _ _).1 (by omega)
  · have hle : ∀ {x : Ext} {v : ℝ}, HasValue x v → |v| < (2 : ℝ) ^ (16384 : ℤ) := fun {x v} hx => by
      by_cases hv : v = 0
      · rw [hv, abs_zero]
        exact two_zpow_pos _
      · exact (value_bounds hx hv).2
    calc |v + w| ≤ |v| + |w| := abs_add_le v w
      _ < 2 ^ (16384 : ℤ) + 2 ^ (16384 : ℤ) := add_lt_add (hle ha) (hle hb)
      _ = 2 ^ (16385 : ℤ) := by rw [← mul_two, ← zpow_add_one₀ two_ne_zero]; norm_num
      _ ≤ 2 ^ (32900 : ℤ) := zpow_le_zpow_right₀ (by norm_num) (by norm_num)

theorem signed_mul (m n : Bool) (v w : ℝ) : signed (m ^^ n) (v * w) = signed m v * signed n w := by
  cases m <;> cases n <;> simp [signed]

theorem product_exact {a b : Ext} {v w : ℝ} (ha : HasValue a v) (hb : HasValue b w) (h0 : v * w ≠ 0) :
    ∃ neg x, ExactAs .mul a b (v * w) neg x := by
  obtain ⟨hv, hw⟩ := mul_ne_zero_iff.1 h0
  have hai := class_ne_infinity ha
  have hbi := class_ne_infinity hb
  have haz := mt (HasValue.class_zero ha).1 hv
  have hbz := mt (HasValue.class_zero hb).1 hw
  obtain ⟨ha1, ha2⟩ := value_bounds ha hv
  obtain ⟨hb1, hb2⟩ := value_bounds hb hw
  refine ⟨_, _, by simp [ArithOp.invalid, mulInvalid, haz, hai], rfl, ?_, rfl,
    ⟨mul_ne_zero (valOf_finite (HasValue.finite ha hv)).1 (valOf_finite (HasValue.finite hb hw)).1, one_ne_zero⟩, ?_, ?_, ?_⟩
  · rw [ArithOp.special, mulSpecial, if_neg (not_or.2 ⟨hai, hbi⟩), if_neg (not_or.2 ⟨haz, hbz⟩)]
  · rw [HasValue.eq ha, HasValue.eq hb, ← signed_mul, Mag.real, zpow_add₀ two_ne_zero]
    push_cast
    rw [div_one, mul_mul_mul_comm]
    rfl
  · rw [abs_mul]
    calc (2 : ℝ) ^ (-32900 : ℤ) ≤ 2 ^ (-32890 : ℤ) := zpow_le_zpow_right₀ (by norm_num) (by norm_num)
      _ = 2 ^ (-16445 : ℤ) * 2 ^ (-16445 : ℤ) := by rw [← zpow_add₀ two_ne_zero]; norm_num
      _ ≤ |v| * |w| := mul_le_mul ha1 hb1 (two_zpow_pos _).le (abs_nonneg v)
  · rw [abs_mul]
    calc |v| * |w| < 2 ^ (16384 : ℤ) * 2 ^ (16384 : ℤ) :=
          mul_lt_mul'' ha2 hb2 (abs_nonneg v) (abs_nonneg w)
      _ = 2 ^ (32768 : ℤ) := by rw [← zpow_add₀ two_ne_zero]; norm_num
      _ ≤ 2 ^ (32900 : ℤ) := zpow_le_zpow_right₀ (by norm_num) (by norm_num)

theorem quotient_exact {n d : Ext} {v w : ℝ} (hn : HasValue n v) (hd : HasValue d w) (hw : w ≠ 0) (h0 : v / w ≠ 0) :
    ∃ neg x, ExactAs .div n d (v / w) neg x := by
  have hv : v ≠ 0 := fun h => h0 (by rw [h, zero_div])
  have hni := class_ne_infinity hn
  have hdi := class_ne_infinity hd
  have hnz := mt (HasValue.class_zero hn).1 hv
  have hdz := mt (HasValue.class_zero hd).1 hw
  obtain ⟨hn1, hn2⟩ := value_bounds hn hv
  obtain ⟨hd1, hd2⟩ := value_bounds hd hw
  have hnm := (valOf_finite (HasValue.finite hn hv)).1
  have hdm := (valOf_finite (HasValue.finite hd hw)).1
  have hwpos : 0 < |w| := abs_pos.2 hw
  refine ⟨_, _, by simp [ArithOp.invalid, divInvalid, hnz, hni], by simp [ArithOp.zeroDivide, divZero, hdz], ?_, rfl,
    ⟨hnm, hdm⟩, ?_, ?_, ?_⟩
  · rw [ArithOp.special, divSpecial, if_neg hni, if_neg (not_or.2 ⟨hdi, hnz⟩)]
  · have hdm' : ((valOf d).mant : ℝ) ≠ 0 := by exact_mod_cast hdm
    have hpow := (two_zpow_pos (valOf d).exp).ne'
    rw [div_eq_iff hw, HasValue.eq hn, HasValue.eq hd, signsDiffer, ← signed_mul, Mag.real, zpow_sub₀ two_ne_zero]
    have hxor : (signOf n ^^ signOf d ^^ signOf d) = signOf n := by rw [Bool.xor_assoc, Bool.xor_self, Bool.xor_false]
    rw [hxor]
    congr 1
    field_simp
  · rw [abs_div, le_div_iff₀ hwpos]
    calc (2 : ℝ) ^ (-32900 : ℤ) * |w| ≤ 2 ^ (-32900 : ℤ) * 2 ^ (16384 : ℤ) :=
          mul_le_mul_of_nonneg_left hd2.le (two_zpow_pos _).le
      _ = 2 ^ (-16516 : ℤ) := by rw [← zpow_add₀ two_ne_zero]; norm_num
      _ ≤ 2 ^ (-16445 : ℤ) := zpow_le_zpow_right₀ (by norm_num) (by norm_num)
      _ ≤ |v| := hn1
  · rw [abs_div, div_lt_iff₀ hwpos]
    calc |v| < 2 ^ (16384 : ℤ) := hn2
      _ ≤ 2 ^ (16455 : ℤ) := zpow_le_zpow_right₀ (by norm_num) (by norm_num)
      _ = 2 ^ (32900 : ℤ) * 2 ^ (-16445 : ℤ) := by rw [← zpow_add₀ two_ne_zero]; norm_num
      _ ≤ 2 ^ (32900 : ℤ) * |w| := mul_le_mul_of_nonneg_left hd1 (two_zpow_pos _).le

/-- The rules compute the real result. -/
theorem exact_result {op : ArithOp} {a b : Ext} {v w x : ℝ} (ha : HasValue a v) (hb : HasValue b w)
    (h : RealResult op v w x) (h0 : x ≠ 0) : ∃ neg m, ExactAs op a b x neg m := by
  cases op with
  | add =>
    obtain rfl : x = v + w := h
    exact sum_exact ha hb h0
  | sub =>
    obtain rfl : x = v - w := h
    rw [sub_eq_add_neg] at h0 ⊢
    obtain ⟨neg, m, hex⟩ := sum_exact ha (hasValue_flipSign hb) h0
    exact ⟨neg, m, hex.invalid, rfl, hex.special, hex.exact, hex.ok, hex.value, hex.lower, hex.upper⟩
  | subr =>
    obtain rfl : x = w - v := h
    rw [sub_eq_add_neg, add_comm] at h0 ⊢
    obtain ⟨neg, m, hex⟩ := sum_exact (hasValue_flipSign ha) hb h0
    exact ⟨neg, m, hex.invalid, rfl, hex.special, hex.exact, hex.ok, hex.value, hex.lower, hex.upper⟩
  | mul =>
    obtain rfl : x = v * w := h
    exact product_exact ha hb h0
  | div =>
    obtain ⟨hw, rfl⟩ := h
    exact quotient_exact ha hb hw h0
  | divr =>
    obtain ⟨hv, rfl⟩ := h
    obtain ⟨neg, m, hex⟩ := quotient_exact hb ha hv h0
    exact ⟨neg, m, hex.invalid, hex.zero, hex.special, hex.exact, hex.ok, hex.value, hex.lower, hex.upper⟩

/-! ### The arithmetic instructions -/

/-- An arithmetic instruction with a nonzero exact result delivers it. -/
theorem arith_delivers {i : Instr} {row : ArithRow} {s : State} {p : Nat} {a b x y : ℝ} {inexact up : Bool}
    (hrow : arithRow i = some row) (hr : Ready i s) (ho : OperandThere i s) (hpass : DenormalsPass i s)
    (hp : precision s.cw = some p) (hd : s.isEmpty row.dest = false) (ha : HasValue (s.st row.dest) a)
    (hb : SourceValue row.source (addressOf i) s b) (h : RealResult row.op a b x)
    (hround : CorrectlyRounded p (rounding s.cw) x y inexact up) :
    ∃ t neg m r, exec i s = .next t ∧
      Shows (State.popIf row.pop ((passed (denormalOperand i s) s).settle row.dest neg m r p)) t ∧
      RoundedAs m neg p (rounding s.cw) x y inexact up r ∧ Mag.ok m ∧ x = signed neg (Mag.real m) ∧
      -32902 ≤ leadExp r.mant r.exp ∧ leadExp r.mant r.exp ≤ 32900 := by
  have h0 : x ≠ 0 := by
    obtain ⟨e, he, -⟩ := hround
    exact abs_pos.1 (lt_of_lt_of_le (two_zpow_pos e) he)
  obtain ⟨hbv, -, hbe⟩ := operandOf_value (arithRow_plain hrow) hb
  obtain ⟨neg, m, hex⟩ := exact_result ha hbv h h0
  obtain ⟨t, ht, hshow⟩ := arith_runs hrow hr ho
  rw [arith_result hrow hd hbe hpass rfl (isNumber_of_value ha) (isNumber_of_value hbv) hex.invalid hex.zero,
    State.arithResult, hex.special] at hshow
  dsimp only at hshow
  rw [hex.exact] at hshow
  dsimp only at hshow
  rw [State.deliverPC, passed_cw, hp] at hshow
  dsimp only at hshow
  have has := roundedAs hex.ok (precision_le hp).1 hex.value hround
  obtain ⟨hlog1, hlog2⟩ := Mag.log2_spec hex.ok
  have habs : |x| = Mag.real m := by rw [hex.value, signed_abs neg (Mag.real_pos hex.ok).le]
  have hpow : ∀ {a b : ℤ}, (2 : ℝ) ^ a < 2 ^ b ↔ a < b := zpow_lt_zpow_iff_right₀ (by norm_num)
  have h1 := hpow.1 (lt_of_le_of_lt hex.lower (habs ▸ hlog2))
  have h2 := hpow.1 (lt_of_le_of_lt hlog1 (habs ▸ hex.upper))
  obtain ⟨h3, h4⟩ := has.lead
  exact ⟨t, neg, m, m.roundPrec neg p (rounding s.cw), ht, hshow, has, hex.ok, hex.value, by omega, by omega⟩

/-- A register written after flags were marked, then the pop. -/
theorem delivered {s x t : State} {d : BitVec 3} {v : Ext} {pop : Bool} (hx : x.sw.top = s.sw.top)
    (h : Shows (State.popIf pop (x.setSt d v)) t) :
    t.reg (s.phys d) = v ∧ (∀ f, t.sw.flag f = x.sw.flag f) ∧ t.sw.c1 = x.sw.c1 ∧
      t.sw.top = s.sw.top + (if pop then 1#3 else 0#3) ∧ (pop = true → t.tag (s.phys 0#3) = .empty) ∧
      (pop = false → t.tag (s.phys d) = tagOf v) := by
  obtain ⟨hans, hw⟩ := writes_setSt_popIf d v pop
  obtain ⟨htop, -⟩ := hw s x hx
  obtain ⟨hreg, hkeep, hpop⟩ := copied hx d v pop
  refine ⟨(h.reg _).trans hreg, fun f => (h.flag f).trans (hans.flag x f), h.c1.trans (hans.c1 x), h.top.trans htop,
    fun hp => (h.tag _).trans (hpop hp).2, fun hp => (h.tag _).trans ((hkeep hp).2.trans (by rw [hreg]))⟩

/-- Settles O15. -/
theorem arithCorrectlyRounded : Obligations.ArithCorrectlyRounded := by
  unfold Obligations.ArithCorrectlyRounded
  intro i row s p a b x y inexact up hrow hr ho hpass hp hd ha hb h hround hrange
  obtain ⟨t, neg, m, r, ht, hshow, has, -, -, -, -⟩ := arith_delivers hrow hr ho hpass hp hd ha hb h hround
  obtain ⟨hlo, hhi⟩ := hrange
  rw [has.value, abs_signed_pow] at hlo hhi
  have hlo' := (lead_le_iff has.nonzero r.exp _).2 hlo
  have hhi' := (lead_lt_iff has.nonzero r.exp _).2 hhi
  rw [settle_inRange has.implies hlo' hhi'] at hshow
  have hle : r.mant ≤ 2 ^ 64 := has.le.trans (Nat.pow_le_pow_right (by decide) (precision_le hp).2)
  obtain ⟨hval, -, hclass⟩ := extOf_spec neg fun _ => fits_normal hle hlo' hhi'
  obtain ⟨hreg, hflag, hc1, htop, hempty, htag⟩ :=
    delivered (s := s) (x := marked r.inexact r.up (passed (denormalOperand i s) s)) rfl hshow
  refine ⟨t, ht, by rw [hreg, has.value]; exact hval, hc1.trans has.up, ?_, ?_, fun f hf hf' => ?_, ?_⟩
  · rw [← has.inexact]
    exact hflag .pe
  · exact (hflag .de).trans (marked_flag _ _ _ (by decide))
  · rw [hflag, marked_flag _ _ _ hf, passed_flag _ _ hf']
  · cases hpop : row.pop
    · rw [hpop] at htop
      refine ⟨htop.trans (BitVec.add_zero _), (htag hpop).trans ?_⟩
      rw [tagOf, hclass has.nonzero hlo']
    · rw [hpop] at htop
      exact ⟨htop, hempty hpop⟩

theorem toInfinity_iff (rc : Rounding) {neg : Bool} {x : ℝ} (hs : (x < 0) = (neg = true)) (h0 : x ≠ 0) :
    toInfinity rc neg = true ↔ rc = .nearest ∨ (rc = .up ∧ 0 < x) ∨ (rc = .down ∧ x < 0) := by
  have hpos : 0 < x ↔ ¬x < 0 := ⟨fun h => h.le.not_gt, fun h => lt_of_le_of_ne (not_lt.1 h) h0.symm⟩
  rw [hpos, hs]
  cases rc <;> cases neg <;> decide

/-- Settles O16. -/
theorem arithOverflow : Obligations.ArithOverflow := by
  unfold Obligations.ArithOverflow
  intro i row s p a b x y inexact up hrow hr ho hpass hp hd ha hb h hround hbig
  obtain ⟨t, neg, m, r, ht, hshow, has, hok, hx, -, hlead⟩ := arith_delivers hrow hr ho hpass hp hd ha hb h hround
  have h0 : x ≠ 0 := by
    rw [hx, ← abs_pos, signed_abs neg (Mag.real_pos hok).le]
    exact Mag.real_pos hok
  rw [has.value, abs_signed_pow] at hbig
  have hbig' := (lead_le_iff has.nonzero r.exp _).2 hbig
  have hsign : neg = decide (x < 0) := by rw [Bool.eq_iff_iff, decide_eq_true_eq, has.sign]
  obtain ⟨hp1, hp2⟩ := precision_le hp
  have hkept : ∀ {inexact up : Bool} {f : Flag}, f ∈ [Flag.ie, .ze, .ue, .sf] →
      (marked inexact up (passed (denormalOperand i s) s).flagOverflow).sw.flag f = s.sw.flag f := fun {_ _ f} hf => by
    simp only [List.mem_cons, List.not_mem_nil, or_false] at hf
    rcases hf with rfl | rfl | rfl | rfl <;> rfl
  cases hm : s.cw.getLsbD 3
  · rw [settle_overflow_unmasked (s := passed (denormalOperand i s) s) has.implies hbig' (by omega) hm] at hshow
    obtain ⟨hreg, hflag, hc1, htop, hempty, -⟩ :=
      delivered (x := marked r.inexact r.up (passed (denormalOperand i s) s).flagOverflow) (s := s) rfl hshow
    have hfit : Fits r.mant (r.exp - 24576) :=
      fits_normal (has.le.trans (Nat.pow_le_pow_right (by decide) hp2)) (by unfold leadExp at hbig' ⊢; omega)
        (by unfold leadExp at hlead ⊢; omega)
    refine ⟨t, ht, hflag .oe, hflag .de, fun f hf => (hflag f).trans (hkept hf), htop, hempty, ?_⟩
    rw [if_neg (by decide)]
    refine ⟨?_, hc1.trans has.up, (hflag .pe).trans (by rw [← has.inexact]; rfl)⟩
    rw [hreg, has.value, ← signed_scale]
    exact (extOf_spec neg fun _ => hfit).1
  · rw [settle_overflow_masked (s := passed (denormalOperand i s) s) hbig' hm] at hshow
    obtain ⟨hreg, hflag, hc1, htop, hempty, -⟩ :=
      delivered (x := marked true (toInfinity (rounding s.cw) neg) (passed (denormalOperand i s) s).flagOverflow)
        (s := s) rfl hshow
    refine ⟨t, ht, hflag .oe, hflag .de, fun f hf => (hflag f).trans (hkept hf), htop, hempty, ?_⟩
    obtain ⟨hlv, hls⟩ := largestExt_spec neg hp1 hp2
    rw [if_pos rfl, hreg, passed_cw, ← hsign]
    refine ⟨(hflag .pe).trans (Bool.or_true _), by split <;> simp [hls], ?_⟩
    by_cases hinf : toInfinity (rounding s.cw) neg = true
    · rw [if_pos ((toInfinity_iff _ has.sign h0).1 hinf), if_pos hinf]
      exact ⟨classOf_infOf neg, hc1.trans hinf⟩
    · rw [if_neg (mt (toInfinity_iff _ has.sign h0).2 hinf), if_neg hinf]
      refine ⟨?_, hc1.trans (Bool.eq_false_iff.2 hinf)⟩
      have hcond : (if x < 0 then (-1 : ℝ) else 1) = if neg = true then -1 else 1 := by simp only [has.sign]
      rw [hcond]
      exact hlv

/-- A magnitude below the normal range is rounded to a denormal, or to the smallest normal number. -/
theorem denormal_fits {m : Mag} (hok : Mag.ok m) {p : Nat} (hp1 : 1 ≤ p) (hp2 : p ≤ 64) (hlog : m.log2 < -16382)
    (neg : Bool) (rc : Rounding) :
    Fits (m.roundTo neg (-16382 - ((p : ℤ) - 1)) rc).mant (-16382 - ((p : ℤ) - 1)) := by
  have hspec := Mag.roundTo_spec hok neg (-16382 - ((p : ℤ) - 1)) rc
  rw [Mag.roundTo_exp] at hspec
  have habs : |signed neg (Mag.real m)| < (2 ^ (p - 1) : ℕ) * 2 ^ (-16382 - ((p : ℤ) - 1)) := by
    rw [signed_abs neg (Mag.real_pos hok).le]
    refine lt_of_lt_of_le (Mag.log2_spec hok).2 ?_
    push_cast
    rw [← zpow_natCast, ← zpow_add₀ two_ne_zero]
    exact zpow_le_zpow_right₀ (by norm_num) (by omega)
  have hle := RoundedTo.abs_le hspec habs
  rw [abs_signed_pow] at hle
  have hle' : (m.roundTo neg (-16382 - ((p : ℤ) - 1)) rc).mant ≤ 2 ^ (p - 1) := by
    exact_mod_cast le_of_mul_le_mul_right hle (two_zpow_pos _)
  have h63 : 2 ^ (p - 1) ≤ 2 ^ 63 := Nat.pow_le_pow_right (by decide) (by omega)
  refine fits_of_le (by omega) (by omega) ?_
  by_cases hz : (m.roundTo neg (-16382 - ((p : ℤ) - 1)) rc).mant = 0
  · rw [hz, leadExp, Nat.log2_zero]
    push_cast
    omega
  · have := leadExp_lt hz (show _ < 2 ^ 64 by omega) (-16382 - ((p : ℤ) - 1))
    push_cast at this
    omega

/-- Settles O17. -/
theorem arithUnderflow : Obligations.ArithUnderflow := by
  unfold Obligations.ArithUnderflow
  intro i row s p a b x y d inexact up inexact2 up2 hrow hr ho hpass hp hd ha hb h hround hsmall hround2
  obtain ⟨t, neg, m, r, ht, hshow, has, hok, hx, hlead, -⟩ := arith_delivers hrow hr ho hpass hp hd ha hb h hround
  rw [has.value, abs_signed_pow] at hsmall
  have hsmall' := (lead_lt_iff has.nonzero r.exp _).2 hsmall
  have hsign : neg = decide (x < 0) := by rw [Bool.eq_iff_iff, decide_eq_true_eq, has.sign]
  obtain ⟨hp1, hp2⟩ := precision_le hp
  cases hm : s.cw.getLsbD 4
  · rw [settle_underflow_unmasked (s := passed (denormalOperand i s) s) has.implies hsmall' (by omega) hm] at hshow
    obtain ⟨hreg, hflag, hc1, htop, hempty, -⟩ :=
      delivered (x := marked r.inexact r.up (passed (denormalOperand i s) s).flagUnderflow) (s := s) rfl hshow
    have hfit : Fits r.mant (r.exp + 24576) :=
      fits_normal (has.le.trans (Nat.pow_le_pow_right (by decide) hp2)) (by unfold leadExp at hlead ⊢; omega)
        (by unfold leadExp at hsmall' ⊢; omega)
    refine ⟨t, ht, hflag .de, fun f hf => (hflag f).trans ?_, htop, hempty, ?_⟩
    · simp only [List.mem_cons, List.not_mem_nil, or_false] at hf
      rcases hf with rfl | rfl | rfl | rfl <;> rfl
    rw [if_neg (by decide)]
    refine ⟨?_, hflag .ue, hc1.trans has.up, (hflag .pe).trans (by rw [← has.inexact]; rfl)⟩
    rw [hreg, has.value, ← signed_scale]
    exact (extOf_spec neg fun _ => hfit).1
  · obtain ⟨hdv, hdi, hdu, hfit⟩ : d = signed neg ((m.roundTo neg (-16382 - ((p : ℤ) - 1)) (rounding s.cw)).mant *
          2 ^ (-16382 - ((p : ℤ) - 1))) ∧
        inexact2 = (m.roundTo neg (-16382 - ((p : ℤ) - 1)) (rounding s.cw)).inexact ∧
        up2 = (m.roundTo neg (-16382 - ((p : ℤ) - 1)) (rounding s.cw)).up ∧
        Fits (m.roundTo neg (-16382 - ((p : ℤ) - 1)) (rounding s.cw)).mant (-16382 - ((p : ℤ) - 1)) := by
      have hspec := Mag.roundTo_spec hok neg (-16382 - ((p : ℤ) - 1)) (rounding s.cw)
      rw [← hx, Mag.roundTo_exp] at hspec
      obtain ⟨h1, h2, h3⟩ := RoundedTo.unique hround2 hspec
      have := has.lead.1
      exact ⟨h1, h2, h3, denormal_fits hok hp1 hp2 (by omega) neg _⟩
    rw [settle_underflow_masked (s := passed (denormalOperand i s) s) hsmall' hm rfl, passed_cw] at hshow
    rw [Mag.roundTo_exp] at hshow
    generalize hr2 : m.roundTo neg (-16382 - ((p : ℤ) - 1)) (rounding s.cw) = r2 at hshow hdv hdi hdu hfit
    have htop0 : (underMarked r2 r (passed (denormalOperand i s) s)).sw.top = s.sw.top := by
      unfold underMarked
      split <;> rfl
    obtain ⟨hreg, hflag, hc1, htop, hempty, -⟩ := delivered htop0 hshow
    have hkept : ∀ {f : Flag}, f ∈ [Flag.ie, .ze, .oe, .sf] →
        (underMarked r2 r (passed (denormalOperand i s) s)).sw.flag f = s.sw.flag f := fun {f} hf => by
      simp only [List.mem_cons, List.not_mem_nil, or_false] at hf
      unfold underMarked
      rcases hf with rfl | rfl | rfl | rfl <;> split <;> rfl
    refine ⟨t, ht, (hflag .de).trans ?_, fun f hf => (hflag f).trans (hkept hf), htop, hempty, ?_⟩
    · unfold underMarked
      split <;> rfl
    rw [if_pos rfl, hreg, hdv, ← hsign]
    obtain ⟨hval, hs, -⟩ := extOf_spec neg fun _ => hfit
    refine ⟨hval, hs, ?_⟩
    rw [hdi, hdu, ← has.inexact, ← has.up]
    have hue := hflag .ue
    have hpe := hflag .pe
    unfold underMarked at hue hpe hc1
    split at hue
    · next hi =>
      rw [if_pos hi] at hpe hc1
      rw [if_pos hi]
      exact ⟨hue, hpe.trans (Bool.or_true _), hc1⟩
    · next hi =>
      rw [if_neg hi] at hpe hc1
      rw [if_neg hi]
      exact ⟨hue, hpe, hc1⟩

end Sys2Proof.Laws.Delivery
end

section
/-! FSQRT, FRNDINT and FSCALE on numbers (rules R305 to R307). -/

namespace Sys2Proof.Laws.Rounding

open Sys2Proof.Machine Sys2Proof.Laws Sys2Proof.Laws.Shapes Sys2Proof.Laws.Frame Sys2Proof.Laws.SignBit
open Sys2Proof.Laws.Answers Sys2Proof.Laws.Moves Sys2Proof.Laws.Values Sys2Proof.Laws.Sources Sys2Proof.Laws.Operands
open Sys2Proof.Laws.Comparison Sys2Proof.Laws.Refused Sys2Proof.Laws.Special Sys2Proof.Laws.Delivery

/-! ### Denormal operands in registers -/

theorem denormal_one {i : Instr} (hs : sources i = [0#3]) (ho : sourceOf i = none) (s : State) :
    denormalOperand i s = decide (classOf (s.st 0#3) = .denormal) := by
  rw [denormalOperand, hs, ho]
  simp

theorem denormal_two {i : Instr} (hs : sources i = [0#3, 1#3]) (ho : sourceOf i = none) (s : State) :
    denormalOperand i s = (decide (classOf (s.st 0#3) = .denormal) || decide (classOf (s.st 1#3) = .denormal)) := by
  rw [denormalOperand, hs, ho]
  simp

/-! ### FSQRT -/

/-- A register of ST written after the rounding was marked. -/
theorem roundedAnswer {s t : State} {den inexact up : Bool} {v : Ext}
    (h : Shows ((marked inexact up (passed den s)).setSt 0#3 v) t) :
    t.reg (s.phys 0#3) = v ∧ t.sw.c1 = up ∧ t.sw.pe = (s.sw.pe || inexact) ∧ t.sw.de = (s.sw.de || den) ∧
      ∀ f, f ≠ .pe → f ≠ .de → t.sw.flag f = s.sw.flag f := by
  obtain ⟨hreg, hflag, hc1, -⟩ := delivered (s := s) (x := marked inexact up (passed den s)) (pop := false) rfl h
  exact ⟨hreg, hc1, hflag .pe, hflag .de, fun f h1 h2 =>
    (hflag f).trans ((marked_flag _ _ _ h1).trans (passed_flag _ _ h2))⟩

theorem unary_runs {i : Instr} {s : State} {invalid : Ext → Bool} {f : Ext → State → State}
    (hafter : afterOf i s = (s.unary invalid f).openC023) (hf : familyOf i ≠ .control) (hsrc : sources i = [0#3])
    (hno : sourceOf i = none) (hr : Ready i s) (ho : OperandThere i s) (h0 : s.isEmpty 0#3 = false)
    (hpass : DenormalsPass i s) (hn : IsNumber (s.st 0#3)) (hinv : invalid (s.st 0#3) = false) :
    ∃ t, exec i s = .next t ∧ Shows (f (s.st 0#3) (passed (denormalOperand i s) s)) t := by
  obtain ⟨t, ht, hshow⟩ := runs_open hf hr ho hafter
  rw [unary_number h0 hn, hinv, if_neg (by decide), ← denormal_one hsrc hno, denormalTest_passes hpass] at hshow
  exact ⟨t, ht, hshow⟩

/-- The magnitude of a square root is far from the bounds of the exponent. -/
theorem root_lead {x : Ext} (h : classOf x = .normal ∨ classOf x = .denormal) :
    -8223 ≤ (Mag.root (valOf x).mant (valOf x).exp).log2 ∧ (Mag.root (valOf x).mant (valOf x).exp).log2 ≤ 8191 := by
  obtain ⟨h1, h2, h3, h4⟩ := valOf_finite h
  have hlog : (valOf x).mant.log2 < 64 := (Nat.log2_lt h1).2 h2
  simp only [Mag.log2]
  omega

/-- Settles O23. -/
theorem squareRootRounded : Obligations.SquareRootRounded := by
  unfold Obligations.SquareRootRounded
  intro s p a y inexact up hr h0 hpass hp ha hpos hround
  have hfin := HasValue.finite ha hpos.ne'
  have hsign : signOf (s.st 0#3) = false := by
    rw [HasValue.sign ha hpos.ne', decide_eq_false_iff_not, not_lt]
    exact hpos.le
  obtain ⟨t, ht, hshow⟩ := unary_runs (i := .fsqrt) (f := State.squareRoot) rfl (by decide) rfl rfl hr trivial h0 hpass
    (isNumber_of_value ha) (by simp [sqrtInvalid, hsign])
  have hok : Mag.ok (.root (valOf (s.st 0#3)).mant (valOf (s.st 0#3)).exp) := (valOf_finite hfin).1
  have hreal : Real.sqrt a = signed false (Mag.real (.root (valOf (s.st 0#3)).mant (valOf (s.st 0#3)).exp)) := by
    rw [← abs_of_pos hpos, HasValue.abs ha]
    rfl
  obtain ⟨hp1, hp2⟩ := precision_le hp
  have has := roundedAs hok hp1 hreal hround
  obtain ⟨hlo, hhi⟩ := root_lead hfin
  obtain ⟨hlead1, hlead2⟩ := has.lead
  have hclass : ¬(classOf (s.st 0#3) = .infinity ∨ classOf (s.st 0#3) = .zero) := by
    rcases hfin with h | h <;> rw [h] <;> decide
  rw [State.squareRoot, if_neg hclass, passed_cw, hp] at hshow
  dsimp only at hshow
  rw [State.deliver, passed_cw, settle_inRange has.implies (by omega) (by omega), has.inexact, has.up] at hshow
  obtain ⟨hreg, hc1, hpe, hde, hflag⟩ := roundedAnswer hshow
  have hfit := fits_normal (has.le.trans (Nat.pow_le_pow_right (by decide) hp2))
    (le_trans (by omega) hlead1) (lt_of_le_of_lt hlead2 (by omega))
  refine ⟨t, ht, ?_, hc1, hpe, hde, hflag⟩
  rw [hreg, has.value]
  exact (extOf_spec false fun _ => hfit).1

/-! ### FRNDINT -/

/-- A rounding that is not inexact keeps the number. -/
theorem RoundedTo.exact_value {k : ℤ} {rc : Rounding} {x y : ℝ} {up : Bool} (h : RoundedTo k rc x y false up) :
    y = x ∧ up = false := by
  have hup : up = false := by
    cases hu : up
    · rfl
    · exact absurd (RoundedTo.up_inexact h hu) (by decide)
  obtain ⟨n, -, -, hi, -, hy⟩ := h
  have habs : (n : ℝ) * 2 ^ k = |x| := by
    by_contra hne
    exact absurd (hi.2 hne) (by decide)
  refine ⟨?_, hup⟩
  simp only [hy, hup, Bool.false_eq_true, if_false, habs]
  split
  · next hneg => rw [abs_of_neg hneg, neg_one_mul, neg_neg]
  · next hpos => rw [abs_of_nonneg (not_lt.1 hpos), one_mul]

/-- Shifting the significand up keeps what fits. -/
theorem fits_shift {m k : Nat} {e : Int} (h0 : m ≠ 0) (hm : m ≤ 2 ^ 64) (h1 : -16382 ≤ leadExp m (e + k))
    (h2 : leadExp m (e + k) < 16384) : Fits (m * 2 ^ k) e := by
  have hlog : (m * 2 ^ k).log2 = m.log2 + k := by
    rw [Nat.log2_eq_iff (Nat.mul_ne_zero h0 (by positivity)), add_right_comm, pow_add, pow_add]
    exact ⟨Nat.mul_le_mul_right _ (Nat.log2_self_le h0), Nat.mul_lt_mul_of_pos_right Nat.lt_log2_self (by positivity)⟩
  have hlead : leadExp (m * 2 ^ k) e = leadExp m (e + k) := by
    rw [leadExp, leadExp, hlog]
    push_cast
    ring
  refine ⟨hlead ▸ h2, .inl ⟨hlead ▸ h1, ?_⟩⟩
  rw [hlog, pow_add, mul_right_comm]
  exact Nat.mul_dvd_mul_right (pow_log2_dvd hm) _

/-- The integer that a register value is rounded to fits a register. -/
theorem integer_fits {x : Ext} (h : classOf x = .normal ∨ classOf x = .denormal) (rc : Rounding) :
    Fits ((valOf x).mag.roundTo (signOf x) 0 rc).mant 0 := by
  obtain ⟨h0, hm, -, hexp⟩ := valOf_finite h
  have hspec := Mag.roundTo_spec (dyad_mag_ok h0) (signOf x) 0 rc
  rw [Mag.roundTo_exp, dyad_mag_real, zpow_zero, mul_one] at hspec
  rcases le_or_gt 0 (valOf x).exp with hpos | hneg
  · have hi := roundedTo_exact hspec (abs_signed_pow _ _ _) hpos
    rw [hi] at hspec
    have habs := congrArg abs (RoundedTo.exact_value hspec).1
    rw [signed_abs _ (by positivity), signed_abs _ (by positivity)] at habs
    have hshift : ((valOf x).mag.roundTo (signOf x) 0 rc).mant = (valOf x).mant * 2 ^ (valOf x).exp.toNat := by
      have hcast : (2 : ℝ) ^ (valOf x).exp = 2 ^ (valOf x).exp.toNat := by
        rw [← zpow_natCast, Int.toNat_of_nonneg hpos]
      rw [hcast] at habs
      exact_mod_cast habs
    have hlog : (valOf x).mant.log2 < 64 := (Nat.log2_lt h0).2 hm
    rw [hshift]
    exact fits_shift h0 hm.le (by unfold leadExp; omega) (by unfold leadExp; omega)
  · have hlt : |signed (signOf x) ((valOf x).mant * 2 ^ (valOf x).exp)| < (2 ^ 64 : ℕ) * 2 ^ (0 : ℤ) := by
      rw [abs_signed_pow, zpow_zero, mul_one]
      have hm' : ((valOf x).mant : ℝ) < (2 ^ 64 : ℕ) := by exact_mod_cast hm
      refine lt_of_le_of_lt ?_ hm'
      exact mul_le_of_le_one_right (by positivity) (zpow_le_one_of_nonpos₀ (by norm_num) hneg.le)
    have hle := RoundedTo.abs_le hspec hlt
    rw [signed_abs _ (by positivity), zpow_zero, mul_one] at hle
    have hle' : ((valOf x).mag.roundTo (signOf x) 0 rc).mant ≤ 2 ^ 64 := by exact_mod_cast hle
    refine fits_of_le hle' (by norm_num) ?_
    by_cases hz : ((valOf x).mag.roundTo (signOf x) 0 rc).mant = 0
    · rw [hz, leadExp, Nat.log2_zero]
      norm_num
    · have := leadExp_lt hz (show _ < 2 ^ 65 by omega) 0
      push_cast at this
      omega

/-- The rounding of zero. -/
theorem RoundedTo.of_zero {k : ℤ} {rc : Rounding} {y : ℝ} {inexact up : Bool} (h : RoundedTo k rc 0 y inexact up) :
    y = 0 ∧ inexact = false ∧ up = false := by
  have hi : inexact = false := roundedTo_exact h (n := 0) (e := k) (by simp) le_rfl
  subst hi
  exact ⟨(RoundedTo.exact_value h).1, rfl, (RoundedTo.exact_value h).2⟩

/-- Settles O24. -/
theorem roundToInteger : Obligations.RoundToInteger := by
  unfold Obligations.RoundToInteger
  intro s a y inexact up hr h0 hpass ha hround
  obtain ⟨t, ht, hshow⟩ := unary_runs (i := .frndint) (f := State.roundInt) rfl (by decide) rfl rfl hr trivial h0 hpass
    (isNumber_of_value ha) rfl
  have hinf := class_ne_infinity ha
  rw [State.roundInt, passed_cw] at hshow
  by_cases hz : classOf (s.st 0#3) = .zero
  · obtain rfl := (HasValue.class_zero ha).1 hz
    obtain ⟨rfl, rfl, rfl⟩ := RoundedTo.of_zero hround
    rw [if_pos (.inr hz)] at hshow
    refine ⟨t, ht, ?_, ?_, hshow.c1, hshow.pe.trans (Bool.or_false _).symm, hshow.de, fun f h1 h2 => ?_⟩
    · rw [hshow.reg]
      exact ha
    · rw [hshow.reg]
      rfl
    · rw [hshow.flag]
      exact (by cases f <;> rfl : _ = (passed (denormalOperand .frndint s) s).sw.flag f).trans (passed_flag _ _ h2)
  · have hfin : classOf (s.st 0#3) = .normal ∨ classOf (s.st 0#3) = .denormal := ((hasValue_iff _ _).1 ha).1.resolve_left hz
    have hspec := Mag.roundTo_spec (dyad_mag_ok (valOf_finite hfin).1) (signOf (s.st 0#3)) 0 (rounding s.cw)
    rw [dyad_mag_real, ← HasValue.eq ha, Mag.roundTo_exp] at hspec
    obtain ⟨hy, hi, hu⟩ := RoundedTo.unique hround hspec
    rw [if_neg (not_or.2 ⟨hinf, hz⟩)] at hshow
    dsimp only at hshow
    rw [inexactOr_eq (RoundedTo.up_inexact hspec), ← hi, ← hu] at hshow
    obtain ⟨hval, hs, -⟩ := extOf_spec (signOf (s.st 0#3)) fun _ => integer_fits hfin (rounding s.cw)
    obtain ⟨hreg, hc1, hpe, hde, hflag⟩ := roundedAnswer (s := s) (den := denormalOperand .frndint s)
      (inexact := inexact) (up := up) hshow
    refine ⟨t, ht, ?_, by rw [hreg, hs], hc1, hpe, hde, hflag⟩
    rw [hreg, hy]
    exact hval

end Sys2Proof.Laws.Rounding
end

section
/-! Deliveries that need no rounding: FSCALE, FPREM, FPREM1 and FXTRACT on numbers (rules R303, R304, R306, R308). -/

namespace Sys2Proof.Laws.Unrounded

open Sys2Proof.Machine Sys2Proof.Laws Sys2Proof.Laws.Shapes Sys2Proof.Laws.Frame Sys2Proof.Laws.SignBit
open Sys2Proof.Laws.Answers Sys2Proof.Laws.Moves Sys2Proof.Laws.Values Sys2Proof.Laws.Sources Sys2Proof.Laws.Operands
open Sys2Proof.Laws.Comparison Sys2Proof.Laws.Refused Sys2Proof.Laws.Special Sys2Proof.Laws.Delivery
open Sys2Proof.Laws.Rounding

/-! ### Exact roundings -/

/-- `r` is the number of magnitude `v` itself, in at most 64 bits. -/
structure ExactRound (v : ℝ) (r : Rounded) : Prop where
  inexact : r.inexact = false
  up      : r.up = false
  value   : (r.mant : ℝ) * 2 ^ r.exp = v
  nonzero : r.mant ≠ 0
  le      : r.mant ≤ 2 ^ 64

theorem CorrectlyRounded.exact_value {p : ℕ} {rc : Rounding} {x y : ℝ} {up : Bool}
    (h : CorrectlyRounded p rc x y false up) : y = x ∧ up = false := by
  obtain ⟨e, -, -, hr⟩ := h
  exact RoundedTo.exact_value hr

theorem exactRound {d : Dyad} (h0 : d.mant ≠ 0) (hm : d.mant < 2 ^ 64) (neg : Bool) (rc : Rounding) :
    ExactRound (d.mant * 2 ^ d.exp) (d.mag.roundPrec neg 64 rc) := by
  have hok := dyad_mag_ok h0
  have hspec := Mag.roundPrec_spec hok neg 64 rc
  rw [dyad_mag_real] at hspec
  have hi := correctlyRounded_exact hspec (abs_signed_pow neg _ _) hm
  obtain ⟨h1, h2, -⟩ := Mag.roundPrec_mant hok neg (p := 64) (by norm_num) rc
  rw [hi] at hspec
  obtain ⟨hy, hup⟩ := CorrectlyRounded.exact_value hspec
  have habs := congrArg abs hy
  rw [abs_signed_pow, abs_signed_pow] at habs
  have hpos : 0 < 2 ^ (64 - 1) := by positivity
  exact ⟨hi, hup, habs, by omega, h2⟩

theorem ExactRound.implies {v : ℝ} {r : Rounded} (h : ExactRound v r) : r.up = true → r.inexact = true :=
  fun hu => absurd (h.up.symm.trans hu) (by decide)

theorem marked_none (s : State) : marked false false s = s.withC1 false := by
  rw [marked, Bool.or_false]
  rfl

theorem settle_overflow_open {i : BitVec 3} {neg : Bool} {x : Mag} {r : Rounded} {p : Nat} {s : State}
    (hup : r.up = true → r.inexact = true) (h : 16384 ≤ leadExp r.mant r.exp) (hm : s.cw.getLsbD 3 = false) :
    ∃ v, Shows ((marked r.inexact r.up s.flagOverflow).setSt i v) (s.settle i neg x r p) ∧
      (leadExp r.mant r.exp < 40960 → v = extOf neg r.mant (r.exp - 24576)) := by
  by_cases hin : leadExp r.mant r.exp < 40960
  · rw [settle_overflow_unmasked hup h hin hm]
    exact ⟨_, Shows.refl _, fun _ => rfl⟩
  · refine ⟨Config.freeExt s.draws, ?_, fun h => absurd h hin⟩
    rw [State.settle, if_pos h, State.overflow, if_neg (by rw [hm]; decide), inexactOr_eq hup, State.setScaled,
      if_neg (by unfold leadExp at hin ⊢; omega)]
    exact ⟨rfl, rfl, rfl, fun f => by cases f <;> rfl, rfl, rfl⟩

theorem settle_underflow_open {i : BitVec 3} {neg : Bool} {x : Mag} {r : Rounded} {p : Nat} {s : State}
    (hup : r.up = true → r.inexact = true) (h : leadExp r.mant r.exp < -16382) (hm : s.cw.getLsbD 4 = false) :
    ∃ v, Shows ((marked r.inexact r.up s.flagUnderflow).setSt i v) (s.settle i neg x r p) ∧
      (-40958 ≤ leadExp r.mant r.exp → v = extOf neg r.mant (r.exp + 24576)) := by
  by_cases hin : -40958 ≤ leadExp r.mant r.exp
  · rw [settle_underflow_unmasked hup h hin hm]
    exact ⟨_, Shows.refl _, fun _ => rfl⟩
  · refine ⟨Config.freeExt s.draws, ?_, fun h => absurd h hin⟩
    rw [State.settle, if_neg (by omega), if_pos h, State.underflow, if_neg (by rw [hm]; decide), inexactOr_eq hup,
      State.setScaled, if_neg (by unfold leadExp at hin ⊢; omega)]
    exact ⟨rfl, rfl, rfl, fun f => by cases f <;> rfl, rfl, rfl⟩

/-- What a delivery leaves whatever the result: other registers, TOP, and the flags that are not about results. -/
theorem settle_kept {i : BitVec 3} {neg : Bool} {x : Mag} {r : Rounded} {p : Nat} {s t : State}
    (h : Shows (s.settle i neg x r p) t) :
    (∀ k, k ≠ i → t.reg (s.phys k) = s.st k) ∧ t.sw.top = s.sw.top ∧
      ∀ f ∈ [Flag.ie, .de, .ze, .sf], t.sw.flag f = s.sw.flag f := by
  have hcalc : Calc [0#3] [i] [.oe, .ue, .pe] s (s.settle i neg x r p) :=
    calc_settle (by simp) (by simp) (by simp) (by simp) s
  refine ⟨fun k hk => (h.reg _).trans (hcalc.regs _ ?_).1, h.top.trans hcalc.sameTop, fun f hf =>
    (h.flag f).trans ((hcalc.flags f).2 ?_)⟩
  · simpa [phys_inj] using hk
  · simp only [List.mem_cons, List.not_mem_nil, or_false] at hf
    rcases hf with rfl | rfl | rfl | rfl <;> decide

/-! ### FSCALE -/

theorem mag_floor_zero {x : Ext} (h : classOf x = .zero) : (valOf x).mag.floorAt 0 = 0 := by
  obtain ⟨he, hs⟩ := (class_zero_iff x).1 h
  have hv : (valOf x).mag = .ratio 0 1 (-16445) := by rw [valOf, he, hs]; rfl
  rw [hv]
  exact if_pos (by decide)

/-- The count of FSCALE is ST(1) truncated toward zero. -/
theorem scaleCount_eq {x : Ext} {b : ℝ} (h : HasValue x b) : scaleCount x = if 0 ≤ b then ⌊b⌋ else ⌈b⌉ := by
  have hfloor : ((valOf x).mag.floorAt 0 : ℤ) = ⌊|b|⌋ := by
    by_cases hb : b = 0
    · rw [mag_floor_zero ((HasValue.class_zero h).2 hb), hb, abs_zero, Int.floor_zero, Nat.cast_zero]
    · have hspec := Mag.floorAt_spec (dyad_mag_ok (valOf_finite (HasValue.finite h hb)).1) 0
      rw [dyad_mag_real, ← HasValue.abs h, zpow_zero, mul_one, mul_one] at hspec
      exact (Int.floor_eq_iff.2 ⟨by exact_mod_cast hspec.1, by exact_mod_cast hspec.2⟩).symm
  rw [scaleCount]
  rw [hfloor]
  by_cases hb : b = 0
  · subst hb
    simp
  · rw [HasValue.sign h hb]
    by_cases hneg : b < 0
    · rw [if_pos (decide_eq_true hneg), if_neg (not_le.2 hneg), abs_of_neg hneg, Int.floor_neg, neg_neg]
    · rw [if_neg (by simpa using hneg), if_pos (not_lt.1 hneg), abs_of_nonneg (not_lt.1 hneg)]

/-- FSCALE on two numbers, the first not zero, delivers the product. -/
theorem scale_delivers {s : State} {a b x : ℝ} (hr : Ready .fscale s) (h0 : s.isEmpty 0#3 = false)
    (h1 : s.isEmpty 1#3 = false) (hpass : DenormalsPass .fscale s) (ha : HasValue (s.st 0#3) a)
    (hb : HasValue (s.st 1#3) b) (hne : a ≠ 0) (hx : x = a * 2 ^ (if 0 ≤ b then ⌊b⌋ else ⌈b⌉)) :
    ∃ t m r, exec .fscale s = .next t ∧
      Shows ((passed (denormalOperand .fscale s) s).settle 0#3 (signOf (s.st 0#3)) m r 64) t ∧
      Mag.ok m ∧ x = signed (signOf (s.st 0#3)) (Mag.real m) ∧ ExactRound |x| r ∧
      (leadExp r.mant r.exp < -16382 → m.log2 < -16382) := by
  obtain ⟨t, ht, hshow⟩ := runs_open (i := .fscale) (by decide) hr trivial rfl
  have he : BothFull s := ⟨h0, h1⟩
  have hnum : BothNumbers s := ⟨isNumber_of_value ha, isNumber_of_value hb⟩
  have hai := class_ne_infinity ha
  have hbi := class_ne_infinity hb
  have haz := mt (HasValue.class_zero ha).1 hne
  have hm := valOf_finite (HasValue.finite ha hne)
  rw [State.scale, if_neg (by rw [he.test]; decide), if_neg hnum.classes.1, if_neg hnum.classes.2,
    if_neg (by simp [scaleInvalid, haz, hai]), ← denormal_two (i := .fscale) rfl rfl, denormalTest_passes hpass] at hshow
  rw [if_neg (not_or.2 ⟨hai, haz⟩), if_neg hbi, State.deliver, passed_cw] at hshow
  have hround := exactRound (d := ⟨false, (valOf (s.st 0#3)).mant, (valOf (s.st 0#3)).exp + scaleCount (s.st 1#3)⟩)
    hm.1 hm.2.1 (signOf (s.st 0#3)) (rounding s.cw)
  have hval : x = signed (signOf (s.st 0#3))
      ((valOf (s.st 0#3)).mant * 2 ^ ((valOf (s.st 0#3)).exp + scaleCount (s.st 1#3))) := by
    rw [hx, ← scaleCount_eq hb, signed_scale, ← HasValue.eq ha]
  have habs : |x| = (valOf (s.st 0#3)).mant * 2 ^ ((valOf (s.st 0#3)).exp + scaleCount (s.st 1#3)) := by
    rw [hval, abs_signed_pow]
  refine ⟨t, _, _, ht, hshow, ⟨hm.1, one_ne_zero⟩, ?_, habs ▸ hround, fun hlead => ?_⟩
  · rw [hval, Mag.real, Nat.cast_one, div_one]
  · have hlog := dyad_mag_log2 (d := ⟨false, (valOf (s.st 0#3)).mant,
      (valOf (s.st 0#3)).exp + scaleCount (s.st 1#3)⟩) hm.1
    rw [show Mag.ratio (valOf (s.st 0#3)).mant 1 ((valOf (s.st 0#3)).exp + scaleCount (s.st 1#3)) =
      Dyad.mag ⟨false, (valOf (s.st 0#3)).mant, (valOf (s.st 0#3)).exp + scaleCount (s.st 1#3)⟩ from rfl] at hlead ⊢
    rw [hlog, lead_lt_iff hm.1]
    rw [lead_lt_iff hround.nonzero, hround.value] at hlead
    exact hlead

/-- Settles O26. -/
theorem scaleExact : Obligations.ScaleExact := by
  unfold Obligations.ScaleExact
  intro s a b x hr h0 h1 hpass ha hb hne hx
  obtain ⟨t, m, r, ht, hshow, hok, hxm, hround, hlog⟩ := scale_delivers hr h0 h1 hpass ha hb hne hx
  obtain ⟨hother, -, hflag⟩ := settle_kept hshow
  have hpos := Mag.real_pos hok
  have hxs : (x < 0) = (signOf (s.st 0#3) = true) := by rw [hxm, signed_neg_iff _ hpos]
  have hx0 : x ≠ 0 := by
    rw [hxm, ← abs_pos, signed_abs _ hpos.le]
    exact hpos
  have hsign := HasValue.sign ha hne
  have has : (a < 0) = (signOf (s.st 0#3) = true) := by rw [hsign, decide_eq_true_eq]
  have hge : ∀ k : ℤ, (2 : ℝ) ^ k ≤ |x| ↔ k ≤ leadExp r.mant r.exp := fun k => by
    rw [lead_le_iff hround.nonzero, hround.value]
  have hlt : ∀ k : ℤ, |x| < (2 : ℝ) ^ k ↔ leadExp r.mant r.exp < k := fun k => by
    rw [lead_lt_iff hround.nonzero, hround.value]
  have hvalue : x = signed (signOf (s.st 0#3)) (r.mant * 2 ^ r.exp) := by
    rw [hround.value, hxm, signed_abs _ hpos.le]
  refine ⟨t, _, ht, rfl, hother 1#3 (by decide), hflag .de (by decide), fun f hf => ?_, fun hrange => ?_, fun hbig => ?_,
    fun d inexact up hsmall hd => ?_⟩
  · have hf' : f ∈ [Flag.ie, .de, .ze, .sf] ∧ f ≠ .de := by
      simp only [List.mem_cons, List.not_mem_nil, or_false] at hf
      rcases hf with rfl | rfl | rfl <;> decide
    exact (hflag f hf'.1).trans (passed_flag _ _ hf'.2)
  · obtain ⟨hlo, hhi⟩ := hrange
    rw [settle_inRange hround.implies ((hge _).1 hlo) ((hlt _).1 hhi), hround.inexact, hround.up] at hshow
    obtain ⟨hreg, hc1, hpe, hde, hrest⟩ := roundedAnswer hshow
    refine ⟨?_, hc1, fun f hf => ?_⟩
    · rw [hreg, hvalue]
      exact (extOf_spec _ fun _ => fits_normal hround.le ((hge _).1 hlo) ((hlt _).1 hhi)).1
    · by_cases hp : f = .pe
      · rw [hp]
        exact hpe.trans (Bool.or_false _)
      · exact hrest f hp hf
  · have hbig' := (hge _).1 hbig
    cases hm : s.cw.getLsbD 3
    · obtain ⟨v, hv, hscaled⟩ := settle_overflow_open (i := 0#3) (neg := signOf (s.st 0#3)) (x := m) (p := 64)
        (s := passed (denormalOperand .fscale s) s) hround.implies hbig' hm
      obtain ⟨hreg, hfl, hc1, -⟩ := delivered (s := s) (pop := false)
        (x := marked r.inexact r.up (passed (denormalOperand .fscale s) s).flagOverflow) rfl (hv.trans hshow)
      refine ⟨hfl .oe, hfl .ue, ?_⟩
      rw [if_neg (by decide)]
      refine ⟨(hfl .pe).trans (by rw [hround.inexact]; exact Bool.or_false _), hc1.trans hround.up, fun hin => ?_⟩
      have hin' := (hlt _).1 hin
      rw [hreg, hscaled (by omega), hvalue, ← signed_scale]
      exact (extOf_spec _ fun _ => fits_normal hround.le (by unfold leadExp at hbig' ⊢; omega)
        (by unfold leadExp at hin' ⊢; omega)).1
    · rw [settle_overflow_masked (s := passed (denormalOperand .fscale s) s) hbig' hm] at hshow
      obtain ⟨hreg, hfl, hc1, -⟩ := delivered (s := s) (pop := false)
        (x := marked true (toInfinity (rounding s.cw) (signOf (s.st 0#3)))
          (passed (denormalOperand .fscale s) s).flagOverflow) rfl hshow
      refine ⟨hfl .oe, hfl .ue, ?_⟩
      obtain ⟨hlv, hls⟩ := largestExt_spec (signOf (s.st 0#3)) (p := 64) (by norm_num) le_rfl
      rw [if_pos rfl, hreg, passed_cw, ← hsign]
      refine ⟨(hfl .pe).trans (Bool.or_true _), by split <;> simp [hls], ?_⟩
      by_cases hinf : toInfinity (rounding s.cw) (signOf (s.st 0#3)) = true
      · rw [if_pos ((toInfinity_iff _ has hne).1 hinf), if_pos hinf]
        exact ⟨classOf_infOf _, hc1.trans hinf⟩
      · rw [if_neg (mt (toInfinity_iff _ has hne).2 hinf), if_neg hinf]
        refine ⟨?_, hc1.trans (Bool.eq_false_iff.2 hinf)⟩
        simp only [has]
        exact hlv
  · have hsmall' := (hlt _).1 hsmall
    cases hm : s.cw.getLsbD 4
    · obtain ⟨v, hv, hscaled⟩ := settle_underflow_open (i := 0#3) (neg := signOf (s.st 0#3)) (x := m) (p := 64)
        (s := passed (denormalOperand .fscale s) s) hround.implies hsmall' hm
      obtain ⟨hreg, hfl, hc1, -⟩ := delivered (s := s) (pop := false)
        (x := marked r.inexact r.up (passed (denormalOperand .fscale s) s).flagUnderflow) rfl (hv.trans hshow)
      refine ⟨hfl .oe, ?_⟩
      rw [if_neg (by decide)]
      refine ⟨hfl .ue, (hfl .pe).trans (by rw [hround.inexact]; exact Bool.or_false _), hc1.trans hround.up, fun hin => ?_⟩
      have hin' := (hge _).1 hin
      rw [hreg, hscaled (by omega), hvalue, ← signed_scale]
      exact (extOf_spec _ fun _ => fits_normal hround.le (by unfold leadExp at hin' ⊢; omega)
        (by unfold leadExp at hsmall' ⊢; omega)).1
    · have hspec := Mag.roundTo_spec hok (signOf (s.st 0#3)) (-16382 - ((64 : ℕ) - 1 : ℤ)) (rounding s.cw)
      rw [← hxm, Mag.roundTo_exp] at hspec
      obtain ⟨hdv, hdi, hdu⟩ := RoundedTo.unique hd hspec
      have hfit := denormal_fits hok (p := 64) (by norm_num) le_rfl (hlog hsmall') (signOf (s.st 0#3)) (rounding s.cw)
      rw [settle_underflow_masked (s := passed (denormalOperand .fscale s) s) hsmall' hm rfl, passed_cw,
        Mag.roundTo_exp] at hshow
      generalize hr2 : m.roundTo (signOf (s.st 0#3)) (-16382 - ((64 : ℕ) - 1 : ℤ)) (rounding s.cw) = r2
        at hshow hdv hdi hdu hfit
      have hunder : underMarked r2 r (passed (denormalOperand .fscale s) s) =
          if inexact then marked true up (passed (denormalOperand .fscale s) s).flagUnderflow
          else (passed (denormalOperand .fscale s) s).withC1 false := by
        rw [underMarked, hround.inexact, Bool.or_false, ← hdi, ← hdu]
        cases inexact <;> rfl
      have hup : up = (inexact && up) := by
        cases hu : up
        · exact (Bool.and_false _).symm
        · rw [RoundedTo.up_inexact hd hu]
          rfl
      obtain ⟨hval, hs, -⟩ := extOf_spec (signOf (s.st 0#3)) fun _ => hfit
      rw [hunder] at hshow
      obtain ⟨hreg, hfl, hc1, -⟩ := delivered (s := s) (pop := false) (by cases inexact <;> rfl) hshow
      refine ⟨(hfl .oe).trans (by cases inexact <;> rfl), ?_⟩
      rw [if_pos rfl, hreg, hdv, ← hsign]
      refine ⟨hval, hs, (hfl .ue).trans ?_, (hfl .pe).trans ?_, hc1.trans ?_⟩
      · cases inexact
        · exact (Bool.or_false _).symm
        · exact (Bool.or_true _).symm
      · cases inexact
        · exact (Bool.or_false _).symm
        · exact (Bool.or_true _).trans (Bool.or_true _).symm
      · rw [hup]
        cases inexact <;> rfl

end Sys2Proof.Laws.Unrounded
end

section
/-! FPREM, FPREM1 and FXTRACT on numbers (rules R303, R304, R308). -/

namespace Sys2Proof.Laws.Remainder

open Sys2Proof.Machine Sys2Proof.Laws Sys2Proof.Laws.Shapes Sys2Proof.Laws.Frame Sys2Proof.Laws.SignBit
open Sys2Proof.Laws.Answers Sys2Proof.Laws.Moves Sys2Proof.Laws.Values Sys2Proof.Laws.Sources Sys2Proof.Laws.Operands
open Sys2Proof.Laws.Comparison Sys2Proof.Laws.Refused Sys2Proof.Laws.Special Sys2Proof.Laws.Delivery
open Sys2Proof.Laws.Rounding Sys2Proof.Laws.Unrounded

/-! ### The remainder -/

theorem signed_xor (m n : Bool) (v : ℝ) : signed (m ^^ n) v = signed m (signed n v) := by
  cases m <;> cases n <;> simp [signed]

/-- A number that a register holds is delivered as it is. -/
theorem deliver_exact {d : Dyad} (h0 : d.mant ≠ 0) (hm : d.mant < 2 ^ 64) (he : -16445 ≤ d.exp)
    (hl : leadExp d.mant d.exp < 16384) (i : BitVec 3) (neg : Bool) {s : State} (hu : s.cw.getLsbD 4 = true) :
    ∃ v, s.deliver i neg d.mag 64 = (s.withC1 false).setSt i v ∧
      HasValue v (signed neg (d.mant * 2 ^ d.exp)) ∧ signOf v = neg := by
  have hround := exactRound h0 hm neg (rounding s.cw)
  have hhi : leadExp (d.mag.roundPrec neg 64 (rounding s.cw)).mant (d.mag.roundPrec neg 64 (rounding s.cw)).exp < 16384 := by
    rw [lead_lt_iff hround.nonzero, hround.value, ← lead_lt_iff h0]
    exact hl
  rw [State.deliver]
  rcases le_or_gt (-16382) (leadExp (d.mag.roundPrec neg 64 (rounding s.cw)).mant
    (d.mag.roundPrec neg 64 (rounding s.cw)).exp) with hlo | hlo
  · rw [settle_inRange hround.implies hlo hhi, hround.inexact, hround.up, marked_none]
    obtain ⟨hval, hs, -⟩ := extOf_spec neg fun _ => fits_normal hround.le hlo hhi
    rw [hround.value] at hval
    exact ⟨_, rfl, hval, hs⟩
  · have hlog : d.mag.log2 < -16382 := by
      rw [lead_lt_iff hround.nonzero, hround.value, ← lead_lt_iff h0] at hlo
      rwa [dyad_mag_log2 h0]
    have hspec := Mag.roundTo_spec (dyad_mag_ok h0) neg (-16382 - ((64 : ℕ) - 1 : ℤ)) (rounding s.cw)
    rw [dyad_mag_real, Mag.roundTo_exp] at hspec
    have hi := roundedTo_exact hspec (abs_signed_pow neg _ _) (by norm_num; exact he)
    have hfit := denormal_fits (dyad_mag_ok h0) (p := 64) (by norm_num) le_rfl hlog neg (rounding s.cw)
    obtain ⟨hval, hs, -⟩ := extOf_spec neg fun _ => hfit
    have hunder : ∀ d2 : Rounded, d2.inexact = false →
        underMarked d2 (d.mag.roundPrec neg 64 (rounding s.cw)) s = s.withC1 false := fun d2 h => by
      rw [underMarked, h, hround.inexact, if_neg (by decide)]
    rw [settle_underflow_masked hlo hu rfl, hunder _ hi, Mag.roundTo_exp]
    rw [hi] at hspec
    rw [(RoundedTo.exact_value hspec).1] at hval
    exact ⟨_, rfl, hval, hs⟩

theorem realOf_remainder (x y : Dyad) (q : Nat) (k : Int) :
    realOf (remainderOf x y q k) = x.mant * 2 ^ x.exp - q * (y.mant * 2 ^ (y.exp + k)) := by
  rw [remainderOf, realOf_add]
  simp only [realOf, Dyad.abs, signed, Bool.false_eq_true, if_false, if_true]
  push_cast
  ring

/-- The remainder is delivered exactly, a zero with the sign of the dividend. -/
theorem remainder_delivered {a : Ext} {x y : Dyad} {q : Nat} {k : ℤ}
    (hx : x.mant < 2 ^ 64 ∧ -16445 ≤ x.exp ∧ x.exp ≤ 16320) (hy : y.mant < 2 ^ 64 ∧ -16445 ≤ y.exp + k)
    (h1 : |(x.mant : ℝ) * 2 ^ x.exp - q * (y.mant * 2 ^ (y.exp + k))| ≤ x.mant * 2 ^ x.exp)
    (h2 : |(x.mant : ℝ) * 2 ^ x.exp - q * (y.mant * 2 ^ (y.exp + k))| ≤ y.mant * 2 ^ (y.exp + k)) {s : State}
    (hu : s.cw.getLsbD 4 = true) :
    ∃ v c, s.deliverRemainder a (remainderOf x y q k) = (s.withC1 c).setSt 0#3 v ∧
      HasValue v (signed (signOf a) (x.mant * 2 ^ x.exp - q * (y.mant * 2 ^ (y.exp + k)))) ∧
      ((x.mant : ℝ) * 2 ^ x.exp - q * (y.mant * 2 ^ (y.exp + k)) = 0 → signOf v = signOf a) := by
  have hreal := realOf_remainder x y q k
  rw [State.deliverRemainder]
  by_cases h0 : (remainderOf x y q k).mant = 0
  · have hz := (mant_eq_zero_iff _).1 h0
    rw [if_pos h0, ← hreal, hz, signed_zero]
    have hzero := extOf_spec (signOf a) (m := 0) (e := 0) fun h => absurd rfl h
    rw [extOf_zero, Nat.cast_zero, zero_mul, signed_zero] at hzero
    exact ⟨_, s.sw.c1, rfl, hzero.1, fun _ => hzero.2.1⟩
  · obtain ⟨hspec, he⟩ := remainderOf_spec x y q k
    have hlead : leadExp (remainderOf x y q k).mant (remainderOf x y q k).exp < 16384 := by
      have hxm : (x.mant : ℝ) < 2 ^ (64 : ℤ) := by exact_mod_cast hx.1
      rw [lead_lt_iff h0, hspec]
      calc _ ≤ (x.mant : ℝ) * 2 ^ x.exp := h1
        _ < 2 ^ (64 : ℤ) * 2 ^ x.exp := mul_lt_mul_of_pos_right hxm (two_zpow_pos _)
        _ = 2 ^ (64 + x.exp) := by rw [← zpow_add₀ two_ne_zero]
        _ ≤ 2 ^ (16384 : ℤ) := zpow_le_zpow_right₀ (by norm_num) (by omega)
    obtain ⟨v, hv, hval, hs⟩ := deliver_exact h0 (remainderOf_bound hx.1 hy.1 h1 h2) (by rw [he]; omega) hlead 0#3
      (signOf a ^^ (remainderOf x y q k).neg) hu
    rw [if_neg h0, hv]
    refine ⟨v, false, rfl, ?_, fun hz => absurd ((mant_eq_zero_iff _).2 (hreal.trans hz)) h0⟩
    rw [← hreal]
    rwa [signed_xor] at hval

/-! ### The instructions -/

/-- The common part of FPREM and FPREM1. -/
theorem prem_rule {i : Instr} (h : i ∈ [Instr.fprem, .fprem1]) :
    ∃ nearest, (∀ s, afterOf i s = s.prem nearest) ∧ (i = .fprem → nearest = false) ∧ (i = .fprem1 → nearest = true) ∧
      familyOf i ≠ .control ∧ (∀ s, OperandThere i s) ∧ sources i = [0#3, 1#3] ∧ sourceOf i = none := by
  simp only [List.mem_cons, List.not_mem_nil, or_false] at h
  rcases h with rfl | rfl
  · exact ⟨false, fun _ => rfl, fun _ => rfl, nofun, by decide, fun _ => trivial, rfl, rfl⟩
  · exact ⟨true, fun _ => rfl, nofun, fun _ => rfl, by decide, fun _ => trivial, rfl, rfl⟩

/-- FPREM past its tests (rule R303). -/
theorem prem_numbers {s : State} {den : Bool} (he : BothFull s) (hn : BothNumbers s) (hx : classOf (s.st 0#3) ≠ .infinity)
    (hy : classOf (s.st 1#3) ≠ .zero)
    (hden : den = (decide (classOf (s.st 0#3) = .denormal) || decide (classOf (s.st 1#3) = .denormal)))
    (hpass : s.cw.getLsbD 1 = true ∨ den = false) (nearest : Bool) :
    s.prem nearest =
      if classOf (s.st 0#3) = .zero then ((((passed den s).withC0 false).withC1 false).withC2 false).withC3 false
      else if classOf (s.st 1#3) = .infinity then
        ((((passed den s).withC0 false).withC2 false).withC3 false).deliver 0#3 (signOf (s.st 0#3))
          (valOf (s.st 0#3)).mag 64
      else (passed den s).reduce nearest (s.st 0#3) (s.st 1#3) := by
  rw [State.prem, if_neg (by rw [he.test]; decide), if_neg hn.classes.1, if_neg hn.classes.2,
    if_neg (not_or.2 ⟨hx, hy⟩), ← hden, denormalTest_passes hpass]

/-- What a reduction leaves. -/
structure Reduced (nearest : Bool) (ea eb : ℤ) (a b : ℝ) (den : Bool) (s u : State) : Prop where
  spec : ∃ (q : ℕ) (m : ℝ),
    HasValue (u.reg (s.phys 0#3)) (signed (signOf (s.st 0#3)) (|a| - q * m)) ∧
    (|a| - q * m = 0 → signOf (u.reg (s.phys 0#3)) = signOf (s.st 0#3)) ∧
    (ea - eb < 64 → m = |b| ∧ (nearest = false → (q : ℝ) * |b| ≤ |a| ∧ |a| < ((q : ℝ) + 1) * |b|) ∧
      (nearest = true → ∃ inexact up, RoundedTo 0 .nearest (|a| / |b|) q inexact up) ∧
      u.sw.c2 = false ∧ u.sw.c0 = q.testBit 2 ∧ u.sw.c3 = q.testBit 1 ∧ u.sw.c1 = q.testBit 0) ∧
    (64 ≤ ea - eb → u.sw.c2 = true ∧ (∃ n : ℤ, 32 ≤ n ∧ n ≤ 63 ∧ m = |b| * 2 ^ (ea - eb - n)) ∧ (q : ℝ) * m ≤ |a| ∧
      |a| < ((q : ℝ) + 1) * m)
  flag : ∀ f, u.sw.flag f = (passed den s).sw.flag f

theorem reduced {s : State} {a b : ℝ} {ea eb : ℤ} {den : Bool} (ha : HasValue (s.st 0#3) a)
    (hb : HasValue (s.st 1#3) b) (ha0 : a ≠ 0) (hb0 : b ≠ 0) (hu : s.cw.getLsbD 4 = true)
    (hea : leadExp (valOf (s.st 0#3)).mant (valOf (s.st 0#3)).exp = ea)
    (heb : leadExp (valOf (s.st 1#3)).mant (valOf (s.st 1#3)).exp = eb) (nearest : Bool) :
    Reduced nearest ea eb a b den s ((passed den s).reduce nearest (s.st 0#3) (s.st 1#3)) := by
  have fa := valOf_finite (HasValue.finite ha ha0)
  have fb := valOf_finite (HasValue.finite hb hb0)
  have habs := HasValue.abs ha
  have hbbs := HasValue.abs hb
  have hok : ∀ k, Mag.ok (.ratio (valOf (s.st 0#3)).mant (valOf (s.st 1#3)).mant k) := fun k => ⟨fa.1, fb.1⟩
  rw [State.reduce]
  dsimp only
  rw [hea, heb]
  by_cases hd : ea - eb < 64
  · rw [if_pos hd]
    obtain ⟨hr1, hr2⟩ := complete_remainder nearest fa.1 fb.1
    obtain ⟨v, c, hv, hval, hs⟩ := remainder_delivered (a := s.st 0#3) (s := passed den s) fa.2 ⟨fb.2.1, by omega⟩
      hr1 hr2 hu
    rw [hv]
    rw [add_zero, ← habs, ← hbbs] at hval hs
    have hratio : Mag.real (.ratio (valOf (s.st 0#3)).mant (valOf (s.st 1#3)).mant
        ((valOf (s.st 0#3)).exp - (valOf (s.st 1#3)).exp)) = |a| / |b| := by
      have := ratio_real_sub (valOf (s.st 0#3)).mant (valOf (s.st 1#3)).mant (valOf (s.st 0#3)).exp
        (valOf (s.st 1#3)).exp 0 fb.1
      rw [sub_zero, add_zero] at this
      rw [this, habs, hbbs]
    have hreg : (((passed den s).withC1 c).setSt 0#3 v).reg (s.phys 0#3) = v :=
      (copied (s := s) (x := (passed den s).withC1 c) rfl 0#3 v false).1
    refine ⟨⟨premQuotient nearest (valOf (s.st 0#3)) (valOf (s.st 1#3)), |b|, ?_, ?_, fun _ =>
      ⟨rfl, fun hn => ?_, fun hn => ?_, rfl, rfl, rfl, rfl⟩, fun h => absurd hd (not_lt.2 h)⟩, fun f => by cases f <;> rfl⟩
    · exact hreg.symm ▸ hval
    · exact fun h => (congrArg signOf hreg).trans (hs h)
    · subst hn
      have hf := Mag.floorAt_spec (hok ((valOf (s.st 0#3)).exp - (valOf (s.st 1#3)).exp)) 0
      rw [hratio, zpow_zero, mul_one, mul_one, le_div_iff₀ (abs_pos.2 hb0), div_lt_iff₀ (abs_pos.2 hb0)] at hf
      exact hf
    · subst hn
      have hr := Mag.roundTo_spec (hok ((valOf (s.st 0#3)).exp - (valOf (s.st 1#3)).exp)) false 0 .nearest
      rw [hratio, Mag.roundTo_exp, zpow_zero, mul_one] at hr
      exact ⟨_, _, hr⟩
  · rw [if_neg hd]
    have hstep := (Config.premStep (ea - eb).toNat).isLt
    generalize hk : ea - eb - (32 + ((Config.premStep (ea - eb).toNat).toNat : ℤ)) = k
    obtain ⟨hr1, hr2⟩ := incomplete_remainder (a := valOf (s.st 0#3)) (b := valOf (s.st 1#3)) fa.1 fb.1 k
    obtain ⟨v, c, hv, hval, hs⟩ := remainder_delivered (a := s.st 0#3) (s := passed den s) fa.2
      ⟨fb.2.1, by have := fb.2.2.1; omega⟩ hr1 hr2 hu
    rw [hv]
    have hm : ((valOf (s.st 1#3)).mant : ℝ) * 2 ^ ((valOf (s.st 1#3)).exp + k) = |b| * 2 ^ k := by
      rw [hbbs, zpow_add₀ two_ne_zero, mul_assoc]
    rw [hm, ← habs] at hval hs
    have hmpos : 0 < |b| * (2 : ℝ) ^ k := mul_pos (abs_pos.2 hb0) (two_zpow_pos k)
    have hf := Mag.floorAt_spec (hok ((valOf (s.st 0#3)).exp - (valOf (s.st 1#3)).exp - k)) 0
    rw [ratio_real_sub _ _ _ _ _ fb.1, hm, ← habs, zpow_zero, mul_one, mul_one, le_div_iff₀ hmpos,
      div_lt_iff₀ hmpos] at hf
    have hreg : (((passed den s).withC1 c).setSt 0#3 v).reg (s.phys 0#3) = v :=
      (copied (s := s) (x := (passed den s).withC1 c) rfl 0#3 v false).1
    refine ⟨⟨_, |b| * 2 ^ k, ?_, ?_, fun h => absurd h hd, fun _ =>
      ⟨rfl, ⟨32 + (Config.premStep (ea - eb).toNat).toNat, by omega, by omega, by rw [hk]⟩, hf⟩⟩, fun f => by cases f <;> rfl⟩
    · exact hreg.symm ▸ hval
    · exact fun h => (congrArg signOf hreg).trans (hs h)

/-- Settles O25. -/
theorem remainderExact : Obligations.RemainderExact := by
  unfold Obligations.RemainderExact
  intro i s a hi hr h0 h1 hpass hu ha
  obtain ⟨nearest, hafter, hfalse, htrue, hf, ho, hsrc, hno⟩ := prem_rule hi
  have hrun := exec_computes hf hr (ho s)
  rw [hafter] at hrun
  have hden := denormal_two hsrc hno s
  have hai := class_ne_infinity ha
  refine ⟨fun b ea eb hb hea1 hea2 heb1 heb2 => ?_, fun hcase => ?_⟩
  · have ha0 : a ≠ 0 := abs_pos.1 (lt_of_lt_of_le (two_zpow_pos ea) hea1)
    have hb0 : b ≠ 0 := abs_pos.1 (lt_of_lt_of_le (two_zpow_pos eb) heb1)
    have hlead : ∀ {x : Ext} {v : ℝ} {e : ℤ}, HasValue x v → v ≠ 0 → (2 : ℝ) ^ e ≤ |v| → |v| < (2 : ℝ) ^ (e + 1) →
        leadExp (valOf x).mant (valOf x).exp = e := fun {x v e} hx hv h1 h2 => by
      obtain ⟨h3, h4⟩ := leadExp_spec (valOf_finite (HasValue.finite hx hv)).1 (valOf x).exp
      rw [← HasValue.abs hx] at h3 h4
      exact exponent_unique h3 h4 h1 h2
    rw [prem_numbers ⟨h0, h1⟩ ⟨isNumber_of_value ha, isNumber_of_value hb⟩ hai (mt (HasValue.class_zero hb).1 hb0) hden
      hpass, if_neg (mt (HasValue.class_zero ha).1 ha0), if_neg (class_ne_infinity hb)] at hrun
    obtain ⟨⟨q, m, hval, hs, hcomplete, hpartial⟩, hflag⟩ := reduced (den := denormalOperand i s) ha hb ha0 hb0 hu
      (hlead ha ha0 hea1 hea2) (hlead hb hb0 heb1 heb2) nearest
    have hsign := HasValue.sign ha ha0
    have hr' : signed (signOf (s.st 0#3)) (|a| - q * m) = (if a < 0 then -1 else 1) * (|a| - q * m) := by
      rw [signed_eq, hsign]
      simp only [decide_eq_true_eq]
    refine ⟨_, q, _, m, hrun, rfl, ?_, fun hz => ?_, fun f hf => ?_, ?_, fun hd => ?_, fun hd => ?_⟩
    · rw [retire_reg, ← hr']
      exact hval
    · rw [retire_reg, ← hsign]
      refine hs ?_
      rcases mul_eq_zero.1 hz with h | h
      · split at h <;> norm_num at h
      · exact h
    · rw [retire_sw, hflag, passed_flag _ _ hf]
    · rw [retire_sw]
      exact hflag .de
    · obtain ⟨hm, hprem, hprem1, hcodes⟩ := hcomplete hd
      rw [retire_sw]
      exact ⟨hm, fun h => hprem (hfalse h), fun h => hprem1 (htrue h), hcodes⟩
    · rw [retire_sw]
      exact hpartial hd
  · have hy : IsNumber (s.st 1#3) ∧ classOf (s.st 1#3) ≠ .zero := by
      rcases hcase with h | ⟨-, h⟩
      · exact ⟨isNumber_of_class h (by decide), by rw [h]; decide⟩
      · simp only [List.mem_cons, List.not_mem_nil, or_false] at h
        rcases h with h | h <;> exact ⟨isNumber_of_class h (by decide), by rw [h]; decide⟩
    rw [prem_numbers ⟨h0, h1⟩ ⟨isNumber_of_value ha, hy.1⟩ hai hy.2 hden hpass] at hrun
    by_cases hz : classOf (s.st 0#3) = .zero
    · rw [if_pos hz] at hrun
      refine ⟨_, hrun, ?_, ?_, ?_⟩
      · rw [retire_reg]
        exact ha
      · rw [retire_reg]
        rfl
      · rw [retire_sw]
        exact ⟨rfl, rfl, rfl, rfl, rfl, fun f hf => (by cases f <;> rfl : _ = (passed (denormalOperand i s) s).sw.flag f).trans (passed_flag _ _ hf)⟩
    · have hinf := hcase.resolve_right fun h => hz ((HasValue.class_zero ha).2 h.1)
      have fa := valOf_finite (((hasValue_iff _ _).1 ha).1.resolve_left hz)
      have hlog : (valOf (s.st 0#3)).mant.log2 < 64 := (Nat.log2_lt fa.1).2 fa.2.1
      obtain ⟨v, hv, hval, hs⟩ := deliver_exact fa.1 fa.2.1 fa.2.2.1 (by unfold leadExp; omega) 0#3 (signOf (s.st 0#3))
        (s := (((passed (denormalOperand i s) s).withC0 false).withC2 false).withC3 false) hu
      rw [if_neg hz, if_pos hinf, hv] at hrun
      have hreg := (copied (s := s) (x := ((((passed (denormalOperand i s) s).withC0 false).withC2 false).withC3
        false).withC1 false) rfl 0#3 v false).1
      refine ⟨_, hrun, ?_, ?_, ?_⟩
      · rw [retire_reg, HasValue.eq ha]
        exact hreg.symm ▸ hval
      · rw [retire_reg]
        exact (congrArg signOf hreg).trans hs
      · rw [retire_sw]
        exact ⟨rfl, rfl, rfl, rfl, rfl, fun f hf => (by cases f <;> rfl : _ = (passed (denormalOperand i s) s).sw.flag f).trans (passed_flag _ _ hf)⟩

/-! ### FXTRACT -/

/-- Settles O27. -/
theorem extractExact : Obligations.ExtractExact := by
  unfold Obligations.ExtractExact
  intro s a e hr h0 h7 hpass ha he1 he2
  have ha0 : a ≠ 0 := abs_pos.1 (lt_of_lt_of_le (two_zpow_pos e) he1)
  have hn := isNumber_classes (isNumber_of_value ha)
  have hfin := HasValue.finite ha ha0
  obtain ⟨hm, hlt, hexp1, hexp2⟩ := valOf_finite hfin
  have hlog : (valOf (s.st 0#3)).mant.log2 < 64 := (Nat.log2_lt hm).2 hlt
  have hlead : leadExp (valOf (s.st 0#3)).mant (valOf (s.st 0#3)).exp = e := by
    obtain ⟨h3, h4⟩ := leadExp_spec hm (valOf (s.st 0#3)).exp
    rw [← HasValue.abs ha] at h3 h4
    exact exponent_unique h3 h4 he1 he2
  obtain ⟨t, ht, hshow⟩ := runs_open (i := .fxtract) (by decide) hr trivial rfl
  rw [State.xtract, if_neg (by rw [h0]; decide), if_neg (by rw [h7]; decide), if_neg hn.1, if_neg hn.2.1,
    ← denormal_one (i := .fxtract) rfl rfl, denormalTest_passes hpass] at hshow
  rw [if_neg (mt (HasValue.class_zero ha).1 ha0), if_neg (class_ne_infinity ha), State.extract] at hshow
  rw [hlead] at hshow
  have hfit : Fits (valOf (s.st 0#3)).mant (-((valOf (s.st 0#3)).mant.log2 : ℤ)) :=
    fits_normal hlt.le (by unfold leadExp; omega) (by unfold leadExp; omega)
  have hsig : mkExt (signOf (s.st 0#3)) 0x3FFF ((valOf (s.st 0#3)).mant * 2 ^ 63 / 2 ^ (valOf (s.st 0#3)).mant.log2) =
      extOf (signOf (s.st 0#3)) (valOf (s.st 0#3)).mant (-((valOf (s.st 0#3)).mant.log2 : ℤ)) := by
    have hzero : leadExp (valOf (s.st 0#3)).mant (-((valOf (s.st 0#3)).mant.log2 : ℤ)) = 0 := by
      unfold leadExp
      omega
    rw [extOf, if_neg hm, hzero]
    rfl
  obtain ⟨hsval, -, -⟩ := extOf_spec (signOf (s.st 0#3)) fun _ => hfit
  obtain ⟨hev, -, -⟩ := intToExt_spec (n := e) (by unfold leadExp at hlead; omega)
  obtain ⟨hreg0, hreg7, htop⟩ := wrote_pushed (s := s) (u := passed (denormalOperand .fxtract s) s) rfl (intToExt e)
    (mkExt (signOf (s.st 0#3)) 0x3FFF ((valOf (s.st 0#3)).mant * 2 ^ 63 / 2 ^ (valOf (s.st 0#3)).mant.log2))
  have htop' : t.sw.top = s.sw.top - 1#3 := hshow.top.trans htop
  have hst1 : t.st 1#3 = intToExt e := by
    have hphys : t.phys 1#3 = s.phys 0#3 := by simp [State.phys, htop']
    rw [State.st, hphys, hshow.reg]
    exact hreg0
  have hst0 : t.st 0#3 =
      mkExt (signOf (s.st 0#3)) 0x3FFF ((valOf (s.st 0#3)).mant * 2 ^ 63 / 2 ^ (valOf (s.st 0#3)).mant.log2) := by
    have hphys : t.phys 0#3 = s.phys 7#3 := by rw [State.phys, htop', State.phys, top_sub_one, BitVec.add_zero]
    rw [State.st, hphys, hshow.reg]
    exact hreg7
  refine ⟨t, ht, htop', by rw [hst1]; exact hev, ?_, hshow.c1, hshow.de, fun f hf => ?_⟩
  · rw [hst0, hsig]
    have hval : a / 2 ^ e =
        signed (signOf (s.st 0#3)) ((valOf (s.st 0#3)).mant * 2 ^ (-((valOf (s.st 0#3)).mant.log2 : ℤ))) := by
      have hsplit : (valOf (s.st 0#3)).exp = -((valOf (s.st 0#3)).mant.log2 : ℤ) + e := by
        unfold leadExp at hlead
        omega
      rw [div_eq_iff (two_zpow_pos e).ne', ← signed_scale, ← hsplit]
      exact HasValue.eq ha
    rw [hval]
    exact hsval
  · exact (hshow.flag f).trans ((by cases f <;> rfl : _ = (passed (denormalOperand .fxtract s) s).sw.flag f).trans
      (passed_flag _ _ hf))

end Sys2Proof.Laws.Remainder
end

section
/-! Results of the transcendental functions (rules R200, R538), the operand ranges (rule R201), and FSIN, FCOS, FSINCOS
and FPTAN on numbers (rules R203, R205 to R207). -/

namespace Sys2Proof.Laws.Trigonometry

open Sys2Proof.Machine Sys2Proof.Laws Sys2Proof.Laws.Shapes Sys2Proof.Laws.Frame Sys2Proof.Laws.SignBit
open Sys2Proof.Laws.Answers Sys2Proof.Laws.Moves Sys2Proof.Laws.Values Sys2Proof.Laws.Sources Sys2Proof.Laws.Operands
open Sys2Proof.Laws.Comparison Sys2Proof.Laws.Refused Sys2Proof.Laws.Special Sys2Proof.Laws.Delivery
open Sys2Proof.Laws.Rounding Sys2Proof.Laws.Unrounded

/-! ### The magnitude of an answer of TRANS -/

/-- The magnitude of an answer of TRANS. -/
noncomputable def transMag (t : Trans) : ℝ := (2 ^ 63 + t.frac.toNat : ℕ) * 2 ^ (t.exp - 63)

theorem transMant_pos (t : Trans) : 2 ^ 63 + t.frac.toNat ≠ 0 := by omega

theorem transMant_lt (t : Trans) : 2 ^ 63 + t.frac.toNat < 2 ^ 64 := by
  have := t.frac.isLt
  omega

theorem transMag_bounds (t : Trans) : (2 : ℝ) ^ t.exp ≤ transMag t ∧ transMag t < 2 ^ (t.exp + 1) := by
  have h := leadExp_spec (transMant_pos t) (t.exp - 63)
  rw [leadExp_trans] at h
  exact h

theorem two_pow_63 (e : ℤ) : (2 : ℝ) ^ e = (2 ^ 63 : ℕ) * 2 ^ (e - 63) := by
  rw [Nat.cast_pow, Nat.cast_ofNat, ← zpow_natCast, ← zpow_add₀ two_ne_zero]
  congr 1
  push_cast
  ring

theorem atMost_le {t : Trans} {e : Int} {f : Nat} (h : Trans.atMost t e f = true) :
    transMag t ≤ (2 ^ 63 + f : ℕ) * 2 ^ (e - 63) := by
  simp only [Trans.atMost, Bool.or_eq_true, Bool.and_eq_true, decide_eq_true_eq] at h
  rcases h with hlt | ⟨rfl, hf⟩
  · calc transMag t ≤ 2 ^ (t.exp + 1) := (transMag_bounds t).2.le
      _ ≤ 2 ^ e := zpow_le_zpow_right₀ (by norm_num) (by omega)
      _ = (2 ^ 63 : ℕ) * 2 ^ (e - 63) := two_pow_63 e
      _ ≤ _ := mul_le_mul_of_nonneg_right (by exact_mod_cast Nat.le_add_right _ _) (two_zpow_pos _).le
  · exact mul_le_mul_of_nonneg_right (by exact_mod_cast Nat.add_le_add_left hf _) (two_zpow_pos _).le

theorem atLeast_le {t : Trans} {e : Int} {f : Nat} (hf : f < 2 ^ 63) (h : Trans.atLeast t e f = true) :
    (2 ^ 63 + f : ℕ) * 2 ^ (e - 63) ≤ transMag t := by
  simp only [Trans.atLeast, Bool.or_eq_true, Bool.and_eq_true, decide_eq_true_eq] at h
  rcases h with hlt | ⟨rfl, hle⟩
  · calc ((2 ^ 63 + f : ℕ) : ℝ) * 2 ^ (e - 63) ≤ (2 ^ 64 : ℕ) * 2 ^ (e - 63) :=
          mul_le_mul_of_nonneg_right (by exact_mod_cast (by omega : 2 ^ 63 + f ≤ 2 ^ 64)) (two_zpow_pos _).le
      _ = 2 ^ (e + 1) := by
          rw [Nat.cast_pow, Nat.cast_ofNat, ← zpow_natCast, ← zpow_add₀ two_ne_zero]
          congr 1
          push_cast
          ring
      _ ≤ 2 ^ t.exp := zpow_le_zpow_right₀ (by norm_num) (by omega)
      _ ≤ transMag t := (transMag_bounds t).1
  · exact mul_le_mul_of_nonneg_right (by exact_mod_cast Nat.add_le_add_left hle _) (two_zpow_pos _).le

theorem atMostOne_mag (t : Trans) : transMag (atMostOne t) ≤ 1 := by
  have hone : ((2 ^ 63 + 0 : ℕ) : ℝ) * 2 ^ ((0 : ℤ) - 63) = 1 := by norm_num
  unfold atMostOne
  split
  · next h => exact (atMost_le h).trans_eq hone
  · exact hone.le

theorem transSin_mag (x : Ext) (rc : Rounding) : transMag (transSin x rc) ≤ 1 := atMostOne_mag _

theorem transCos_mag (x : Ext) (rc : Rounding) : transMag (transCos x rc) ≤ 1 := by
  unfold transCos notTiny
  split
  · exact atMostOne_mag _
  · exact (transMag_bounds _).2.le.trans (zpow_le_one_of_nonpos₀ (by norm_num) (by norm_num))

/-! ### The delivery of an answer of TRANS -/

@[simp] theorem inexactOr_reg (i c : Bool) (s : State) (k : BitVec 3) : (s.inexactOr i c).reg k = s.reg k := by
  unfold State.inexactOr
  split <;> rfl

theorem reg_setSt_of_top {s x : State} (h : x.sw.top = s.sw.top) (i : BitVec 3) (v : Ext) :
    (x.setSt i v).reg (s.phys i) = v := (copied h i v false).1

theorem underMarked_top (d r : Rounded) (s : State) : (underMarked d r s).sw.top = s.sw.top := by
  unfold underMarked
  split <;> rfl

theorem finish_inRange {i : BitVec 3} {t : Trans} (h1 : -16382 ≤ t.exp) (h2 : t.exp < 16384) (s : State) :
    s.finish i t = (s.setSt i (extOf t.neg (2 ^ 63 + t.frac.toNat) (t.exp - 63))).inexactOr t.pe t.c1 := by
  rw [State.finish, State.settle, leadExp_trans, if_neg (by omega), if_neg (by omega)]

theorem trans_fits {t : Trans} (h1 : -16382 ≤ t.exp) (h2 : t.exp < 16384) : Fits (2 ^ 63 + t.frac.toNat) (t.exp - 63) :=
  fits_normal (transMant_lt t).le (by rwa [leadExp_trans]) (by rwa [leadExp_trans])

/-- The value that TRANS answers, or with underflow masked a denormal in its place. -/
def Delivered (t : Trans) (x : Ext) (w : ℝ) : Prop :=
  HasValue x w ∧ signOf x = t.neg ∧ (|w| = transMag t ∨ (t.exp < -16382 ∧ |w| ≤ 2 ^ (-16382 : ℤ)))

theorem ext_delivered {t : Trans} (h1 : -16382 ≤ t.exp) (h2 : t.exp < 16384) :
    Delivered t (extOf t.neg (2 ^ 63 + t.frac.toNat) (t.exp - 63)) (signed t.neg (transMag t)) := by
  obtain ⟨hval, hs, -⟩ := extOf_spec t.neg fun _ => trans_fits h1 h2
  exact ⟨hval, hs, .inl (abs_signed_pow _ _ _)⟩

theorem finish_delivered {i : BitVec 3} {t : Trans} {s : State} (h2 : t.exp < 16384) (hu : s.cw.getLsbD 4 = true) :
    ∃ w, Delivered t ((s.finish i t).reg (s.phys i)) w := by
  rcases le_or_gt (-16382) t.exp with h1 | h1
  · rw [finish_inRange h1 h2, inexactOr_reg, reg_setSt_of_top rfl]
    exact ⟨_, ext_delivered h1 h2⟩
  · have hok : Mag.ok (.ratio (2 ^ 63 + t.frac.toNat) 1 (t.exp - 63)) := ⟨transMant_pos t, one_ne_zero⟩
    have hlog : (Mag.ratio (2 ^ 63 + t.frac.toNat) 1 (t.exp - 63)).log2 = t.exp :=
      (dyad_mag_log2 (d := ⟨t.neg, _, _⟩) (transMant_pos t)).trans (leadExp_trans t)
    have hfit := denormal_fits hok (p := 64) (by norm_num) le_rfl (by omega) t.neg (rounding s.cw)
    obtain ⟨hval, hs, -⟩ := extOf_spec t.neg fun _ => hfit
    have hround := Mag.roundTo_spec hok t.neg (-16382 - ((64 : ℕ) - 1 : ℤ)) (rounding s.cw)
    rw [Mag.roundTo_exp] at hround
    have hle : |signed t.neg (Mag.real (.ratio (2 ^ 63 + t.frac.toNat) 1 (t.exp - 63)))| <
        (2 ^ 63 : ℕ) * 2 ^ (-16382 - ((64 : ℕ) - 1 : ℤ)) := by
      rw [signed_abs _ (Mag.real_pos hok).le, Mag.real, Nat.cast_one, div_one]
      calc transMag t < 2 ^ (t.exp + 1) := (transMag_bounds t).2
        _ ≤ 2 ^ (-16382 : ℤ) := zpow_le_zpow_right₀ (by norm_num) (by omega)
        _ = _ := two_pow_63 _
    rw [State.finish, settle_underflow_masked (by rwa [leadExp_trans]) hu rfl, Mag.roundTo_exp,
      reg_setSt_of_top (underMarked_top _ _ s)]
    refine ⟨_, hval, hs, .inr ⟨h1, (RoundedTo.abs_le hround hle).trans_eq (two_pow_63 _).symm⟩⟩

/-- What a finished answer leaves whatever it is. -/
theorem finish_kept {i : BitVec 3} {t : Trans} (s : State) :
    (s.finish i t).sw.top = s.sw.top ∧ (∀ k, k ≠ i → (s.finish i t).reg (s.phys k) = s.st k) ∧
      ∀ f ∈ [Flag.ie, .de, .ze, .sf], (s.finish i t).sw.flag f = s.sw.flag f := by
  obtain ⟨h1, h2, h3⟩ := settle_kept (s := s) (i := i) (neg := t.neg)
    (x := .ratio (2 ^ 63 + t.frac.toNat) 1 (t.exp - 63)) (r := ⟨2 ^ 63 + t.frac.toNat, t.exp - 63, t.pe, t.c1⟩) (p := 64)
    (Shows.refl _)
  exact ⟨h2, h1, h3⟩

/-! ### Operand ranges (rule R201) -/

theorem realOf_abs (d : Dyad) : realOf d.abs = |realOf d| := by
  rw [abs_realOf]
  rfl

theorem absAtMost_iff {x y : Ext} {v w : ℝ} (hx : HasValue x v) (hy : HasValue y w) :
    absAtMost x y = true ↔ |v| ≤ |w| := by
  rw [absAtMost, Bool.not_eq_true', ← Bool.not_eq_true, less_iff, realOf_abs, realOf_abs,
    ← ((hasValue_iff x v).1 hx).2, ← ((hasValue_iff y w).1 hy).2, not_lt]

theorem narrowRanges_false {s : State} (h : Gen.g387.rank ≤ s.cfg.gen.rank) : s.narrowRanges = false :=
  decide_eq_false (not_lt.2 h)

theorem quarterPi_value : HasValue quarterPi (0xC90FDAA22168C234 * 2 ^ (-64 : ℤ)) := by
  have hv : valOf quarterPi = ⟨false, 0xC90FDAA22168C234, -64⟩ := by decide
  refine (hasValue_iff _ _).2 ⟨.inr (.inl (by decide)), ?_⟩
  rw [hv]
  simp only [realOf, signed, Bool.false_eq_true, if_false]
  norm_num

/-- No register value lies between pi/4 and its truncation. -/
theorem quarterPi_bound {x : Ext} {v : ℝ} (hx : HasValue x v) (h0 : 0 ≤ v) (h : v ≤ Real.pi / 4) :
    v ≤ 0xC90FDAA22168C234 * 2 ^ (-64 : ℤ) := by
  by_contra hgt
  rw [not_le] at hgt
  have hpi := Real.pi_lt_d20
  have hv0 : v ≠ 0 := by
    rintro rfl
    exact absurd hgt (not_lt.2 (by positivity))
  have hm := valOf_finite (HasValue.finite hx hv0)
  have habs := HasValue.abs hx
  rw [abs_of_nonneg h0] at habs
  have hlo : (2 : ℝ) ^ (-1 : ℤ) ≤ v := by
    refine le_trans ?_ hgt.le
    norm_num
  have hhi : v < 2 ^ (0 : ℤ) := by
    norm_num
    linarith
  have hlead1 := (lead_le_iff hm.1 (valOf x).exp (-1)).2 (habs ▸ hlo)
  have hlead2 := (lead_lt_iff hm.1 (valOf x).exp 0).2 (habs ▸ hhi)
  have hnormal : classOf x = .normal := (HasValue.finite hx hv0).resolve_right fun hd => by
    obtain ⟨he, -⟩ := (class_denormal_iff x).1 hd
    have hexp : (valOf x).exp = -16445 := by
      simp only [valOf, he]
      norm_num
    have := leadExp_lt hm.1 hm.2.1 (valOf x).exp
    rw [hexp] at this hlead1
    push_cast at this
    omega
  have hexp : (valOf x).exp = -64 := by
    have hs := ((class_normal_iff x).1 hnormal).2.2
    have hlog : (valOf x).mant.log2 = 63 := (Nat.log2_eq_iff hm.1).2 ⟨hs, hm.2.1⟩
    unfold leadExp at hlead1 hlead2
    omega
  rw [hexp] at habs
  have hmant : 0xC90FDAA22168C235 ≤ (valOf x).mant := by
    have := lt_of_mul_lt_mul_right (habs ▸ hgt) (two_zpow_pos (-64)).le
    have : 0xC90FDAA22168C234 < (valOf x).mant := by exact_mod_cast this
    omega
  have hbig : (0xC90FDAA22168C235 : ℝ) * 2 ^ (-64 : ℤ) ≤ v := by
    rw [habs]
    exact mul_le_mul_of_nonneg_right (by exact_mod_cast hmant) (two_zpow_pos _).le
  norm_num at hbig
  linarith

theorem fptan_takes {s : State} {a : ℝ} (h : AcceptsOperands .fptan s) (ha : HasValue (s.st 0#3) a) (ha0 : a ≠ 0) :
    s.fptanTakes (s.st 0#3) = true := by
  rw [State.fptanTakes]
  rcases h with h | ⟨-, h, -⟩
  · rw [narrowRanges_false h]
    rfl
  · obtain ⟨x, hx, hx0, hxpi⟩ := h rfl
    obtain rfl := HasValue.unique ha hx
    have hsign : signOf (s.st 0#3) = false := by
      rw [HasValue.sign ha ha0, decide_eq_false_iff_not, not_lt]
      exact hx0
    have hle : absAtMost (s.st 0#3) quarterPi = true := by
      rw [absAtMost_iff ha quarterPi_value, abs_of_nonneg hx0, abs_of_nonneg (by positivity)]
      exact quarterPi_bound ha hx0 hxpi
    rw [hsign, hle]
    exact Bool.or_true _

/-- The test for an operand out of range. -/
theorem trigOutOfRange_iff {x : Ext} {a : ℝ} (h : HasValue x a) : trigOutOfRange x = true ↔ (2 : ℝ) ^ (63 : ℤ) ≤ |a| := by
  rw [trigOutOfRange, decide_eq_true_eq]
  by_cases ha : a = 0
  · obtain ⟨he, -⟩ := (class_zero_iff x).1 ((HasValue.class_zero h).2 ha)
    rw [he, ha, abs_zero]
    exact ⟨fun h => absurd h (by decide), fun h => absurd h (not_le.2 (two_zpow_pos _))⟩
  · have hm := valOf_finite (HasValue.finite h ha)
    rw [HasValue.abs h, ← lead_le_iff hm.1]
    rcases HasValue.finite h ha with hn | hd
    · rw [leadExp_normal hn]
      omega
    · obtain ⟨he, -⟩ := (class_denormal_iff x).1 hd
      have hlead := leadExp_lt hm.1 hm.2.1 (valOf x).exp
      have hexp : (valOf x).exp = -16445 := by
        simp only [valOf, he]
        norm_num
      rw [hexp] at hlead ⊢
      push_cast at hlead
      omega

/-! ### The rules past their tests -/

section
variable {s : State} {a : ℝ} {den : Bool}

/-- FSIN and FCOS past their tests (rules R203, R206). -/
theorem trig_number {bad zero : State → State} {f : Ext → Rounding → Trans} (h0 : s.isEmpty 0#3 = false)
    (ha : HasValue (s.st 0#3) a) (hden : den = decide (classOf (s.st 0#3) = .denormal))
    (hpass : s.cw.getLsbD 1 = true ∨ den = false) :
    s.trig bad zero f =
      if classOf (s.st 0#3) = .zero then ((zero (passed den s)).withC1 false).withC2 false
      else if trigOutOfRange (s.st 0#3) then ((passed den s).withC2 true).openC1
      else ((passed den s).finish 0#3 (f (s.st 0#3) (rounding s.cw))).withC2 false := by
  obtain ⟨hu, hn, -⟩ := isNumber_classes (isNumber_of_value ha)
  rw [State.trig, if_neg (by rw [h0]; decide), if_neg hu, if_neg hn, if_neg (class_ne_infinity ha), ← hden,
    denormalTest_passes hpass]
  rfl

/-- FPTAN and FSINCOS past their tests (rules R205, R207). -/
theorem trigPair_number {takes : Ext → State → Bool} {f : Ext → State → State} (h0 : s.isEmpty 0#3 = false)
    (h7 : s.isEmpty 7#3 = true) (ha : HasValue (s.st 0#3) a)
    (hden : den = decide (classOf (s.st 0#3) = .denormal)) (hpass : s.cw.getLsbD 1 = true ∨ den = false)
    (htakes : classOf (s.st 0#3) ≠ .zero → takes (s.st 0#3) (passed den s) = true) :
    s.trigPair takes f =
      if classOf (s.st 0#3) = .zero then (((passed den s).push one).withC1 false).withC2 false
      else if trigOutOfRange (s.st 0#3) then ((passed den s).withC2 true).openC1
      else (f (s.st 0#3) (passed den s)).withC2 false := by
  obtain ⟨hu, hn, -⟩ := isNumber_classes (isNumber_of_value ha)
  rw [State.trigPair, if_neg (by rw [h0]; decide), if_neg (by rw [h7]; decide),
    if_neg (not_or.2 ⟨hu, class_ne_infinity ha⟩), if_neg hn, ← hden, denormalTest_passes hpass]
  by_cases hz : classOf (s.st 0#3) = .zero
  · rw [if_pos hz, if_pos hz]
  · rw [if_neg hz, if_neg hz, htakes hz]
    rfl

end

/-- The four instructions share their operands and their last line. -/
theorem trig_family {i : Instr} (h : i ∈ [Instr.fsin, .fcos, .fsincos, .fptan]) (s : State) :
    familyOf i ≠ .control ∧ OperandThere i s ∧ sources i = [0#3] ∧ sourceOf i = none := by
  simp only [List.mem_cons, List.not_mem_nil, or_false] at h
  rcases h with rfl | rfl | rfl | rfl <;> exact ⟨by decide, trivial, rfl, rfl⟩

/-- A push next to a register already written. -/
theorem pushed_reg {s x : State} (h : x.sw.top = s.sw.top) (v : Ext) :
    (x.push v).reg (s.phys 0#3) = x.reg (s.phys 0#3) ∧ (x.push v).reg (s.phys 7#3) = v ∧
      (x.push v).sw.top = s.sw.top - 1#3 := by
  have hp : s.phys 7#3 = s.sw.top - 1#3 := top_sub_one _
  have hne : ∀ k : BitVec 3, k + 0#3 ≠ k - 1#3 := by decide
  refine ⟨?_, ?_, ?_⟩
  · rw [reg_push, h, State.phys, if_neg (hne _)]
  · rw [reg_push, h, hp, if_pos rfl]
  · rw [← h]
    rfl

/-- After a push ST(0) is the pushed register, and ST(1) what ST(0) was. -/
theorem st_pushed {s t : State} (h : t.sw.top = s.sw.top - 1#3) :
    t.st 0#3 = t.reg (s.phys 7#3) ∧ t.st 1#3 = t.reg (s.phys 0#3) := by
  have h0 : t.phys 0#3 = s.phys 7#3 := by rw [State.phys, h, State.phys, top_sub_one, BitVec.add_zero]
  have h1 : t.phys 1#3 = s.phys 0#3 := by simp [State.phys, h]
  rw [State.st, State.st, h0, h1]
  exact ⟨rfl, rfl⟩

/-! ### Operands that need no function value -/

theorem shows_cleared (u : State) : Shows u (u.withC2 false).openC03 ∧ (u.withC2 false).openC03.sw.c2 = false := by
  obtain ⟨hshow, hc2⟩ := shows_openC03 (u.withC2 false)
  exact ⟨Shows.trans (v := u.withC2 false) ⟨rfl, rfl, rfl, fun f => by cases f <;> rfl, rfl, rfl⟩ hshow, hc2⟩

/-- What the rule leaves of a zero. -/
theorem trig_zero {i : Instr} {s : State} (hi : i ∈ [Instr.fsin, .fcos, .fsincos, .fptan]) (h0 : s.isEmpty 0#3 = false)
    (h7 : i ∈ [Instr.fsincos, .fptan] → s.isEmpty 7#3 = true) (hz : classOf (s.st 0#3) = .zero) :
    ∃ u : State, Shows u (afterOf i s) ∧ (afterOf i s).sw.c2 = false ∧ u.sw.c1 = false ∧
      (∀ f, u.sw.flag f = s.sw.flag f) ∧
      (i = .fsin → u.st 0#3 = s.st 0#3) ∧ (i = .fcos → u.st 0#3 = one) ∧
      (i ∈ [Instr.fsincos, .fptan] → u.st 0#3 = one ∧ u.st 1#3 = s.st 0#3 ∧ u.sw.top = s.sw.top - 1#3) := by
  have hv := hasValue_of_class (.inl hz)
  have hden : false = decide (classOf (s.st 0#3) = .denormal) := by rw [hz]; rfl
  have hone := fun bad zero f => trig_number (bad := bad) (zero := zero) (f := f) h0 hv hden (.inr rfl)
  have htwo := fun takes f h7 => trigPair_number (takes := takes) (f := f) h0 h7 hv hden (.inr rfl)
    fun h => absurd hz h
  simp only [hz, if_true, passed_false] at hone htwo
  simp only [List.mem_cons, List.not_mem_nil, or_false] at hi
  rcases hi with rfl | rfl | rfl | rfl
  · have heq : afterOf .fsin s = ((s.withC1 false).withC2 false).openC03 := congrArg State.openC03 (hone _ _ _)
    rw [heq]
    exact ⟨_, (shows_cleared _).1, (shows_cleared _).2, rfl, fun f => by cases f <;> rfl, fun _ => rfl, nofun,
      fun h => absurd h (by decide)⟩
  · have heq : afterOf .fcos s = (((s.setSt 0#3 one).withC1 false).withC2 false).openC03 :=
      congrArg State.openC03 (hone _ _ _)
    rw [heq]
    exact ⟨_, (shows_cleared _).1, (shows_cleared _).2, rfl, fun f => by cases f <;> rfl, nofun,
      fun _ => reg_setSt_of_top rfl 0#3 one, fun h => absurd h (by decide)⟩
  all_goals
    obtain ⟨hreg0, hreg7, htop⟩ := pushed_reg (s := s) (x := s) rfl one
    obtain ⟨hst0, hst1⟩ := st_pushed htop
  · have heq : afterOf .fsincos s = (((s.push one).withC1 false).withC2 false).openC03 :=
      congrArg State.openC03 (htwo _ _ (h7 (by decide)))
    rw [heq]
    exact ⟨_, (shows_cleared _).1, (shows_cleared _).2, rfl, fun f => by cases f <;> rfl, nofun, nofun,
      fun _ => ⟨hst0.trans hreg7, hst1.trans hreg0, htop⟩⟩
  · have heq : afterOf .fptan s = (((s.push one).withC1 false).withC2 false).openC03 :=
      congrArg State.openC03 (htwo _ _ (h7 (by decide)))
    rw [heq]
    exact ⟨_, (shows_cleared _).1, (shows_cleared _).2, rfl, fun f => by cases f <;> rfl, nofun, nofun,
      fun _ => ⟨hst0.trans hreg7, hst1.trans hreg0, htop⟩⟩

/-- What the rule leaves of an operand out of range. -/
theorem trig_large {i : Instr} {s : State} {a : ℝ} (hi : i ∈ [Instr.fsin, .fcos, .fsincos, .fptan])
    (h0 : s.isEmpty 0#3 = false) (h7 : i ∈ [Instr.fsincos, .fptan] → s.isEmpty 7#3 = true)
    (hgen : Gen.g387.rank ≤ s.cfg.gen.rank) (ha : HasValue (s.st 0#3) a) (hbig : (2 : ℝ) ^ (63 : ℤ) ≤ |a|) :
    afterOf i s = ((s.withC2 true).openC1).openC03 := by
  have hout := (trigOutOfRange_iff ha).2 hbig
  have hz : classOf (s.st 0#3) ≠ .zero := fun hz => by
    rw [(HasValue.class_zero ha).1 hz, abs_zero] at hbig
    exact absurd hbig (not_le.2 (two_zpow_pos _))
  have hden : false = decide (classOf (s.st 0#3) = .denormal) := by
    symm
    rw [decide_eq_false_iff_not]
    intro hd
    obtain ⟨he, -⟩ := (class_denormal_iff _).1 hd
    rw [trigOutOfRange, he] at hout
    exact absurd hout (by decide)
  have hone := fun bad zero f => trig_number (bad := bad) (zero := zero) (f := f) h0 ha hden (.inr rfl)
  have htwo := fun takes f h7 ht => trigPair_number (takes := takes) (f := f) h0 h7 ha hden (.inr rfl) ht
  simp only [hz, if_false, hout, if_true, passed_false] at hone htwo
  simp only [List.mem_cons, List.not_mem_nil, or_false] at hi
  rcases hi with rfl | rfl | rfl | rfl
  · exact congrArg State.openC03 (hone _ _ _)
  · exact congrArg State.openC03 (hone _ _ _)
  · exact congrArg State.openC03 (htwo _ _ (h7 (by decide)) fun _ => rfl)
  · refine congrArg State.openC03 (htwo State.fptanTakes _ (h7 (by decide)) fun _ => ?_)
    rw [State.fptanTakes, narrowRanges_false hgen]
    rfl

/-- Settles O31. -/
theorem trigSpecialOperands : Obligations.TrigSpecialOperands := by
  unfold Obligations.TrigSpecialOperands
  intro i s hi hr h0 h7 hcase
  obtain ⟨hf, ho, -, -⟩ := trig_family hi s
  by_cases hz : classOf (s.st 0#3) = .zero
  · obtain ⟨u, hu, hc2, hc1, hflag, hsin, hcos, hpair⟩ := trig_zero hi h0 h7 hz
    obtain ⟨t, ht, hshow, htc2⟩ := runs_shows_c2 hf hr ho hu
    refine ⟨t, ht, fun f => (hshow.flag f).trans (hflag f), fun h => absurd hz h, fun _ =>
      ⟨hshow.c1.trans hc1, htc2.trans hc2, fun h => (hshow.st _).trans (hsin h), fun h => (hshow.st _).trans (hcos h),
        fun h => ?_⟩⟩
    obtain ⟨hst0, hst1, htop⟩ := hpair h
    exact ⟨(hshow.st _).trans hst0, (hshow.st _).trans hst1, hshow.top.trans htop⟩
  · obtain ⟨hgen, a, ha, hbig⟩ := hcase.resolve_left hz
    have heq := trig_large hi h0 h7 hgen ha hbig
    obtain ⟨t, ht, hshow, htc2⟩ := runs_shows_c2 hf hr ho (heq ▸ (shows_openC03 _).1)
    rw [heq] at htc2
    refine ⟨t, ht, fun f => (hshow.flag f).trans (by cases f <;> rfl), fun _ =>
      ⟨htc2.trans (shows_openC03 _).2, hshow.regs, hshow.tags, hshow.top⟩, fun h => absurd h hz⟩

/-! ### Operands in range -/

/-- What FSIN, FCOS, FSINCOS and FPTAN leave of an operand in range. -/
structure InRangeAnswer (i : Instr) (s u : State) : Prop where
  first  : ∃ v : ℝ, HasValue (u.reg (s.phys 0#3)) v ∧ (i ≠ .fptan → |v| ≤ 1)
  flag   : ∀ f ∈ [Flag.ie, .de, .ze, .sf], u.sw.flag f = (passed (denormalOperand i s) s).sw.flag f
  cosine : i = .fsincos → ∃ w : ℝ, HasValue (u.reg (s.phys 7#3)) w ∧ |w| ≤ 1
  one    : i = .fptan → u.reg (s.phys 7#3) = one
  top    : u.sw.top = (if i ∈ [Instr.fsincos, .fptan] then s.sw.top - 1#3 else s.sw.top)

theorem Delivered.abs_le_one {t : Trans} {x : Ext} {w : ℝ} (h : Delivered t x w) (ht : transMag t ≤ 1) : |w| ≤ 1 := by
  obtain ⟨-, -, hw | ⟨-, hw⟩⟩ := h
  · exact hw.trans_le ht
  · exact hw.trans (zpow_le_one_of_nonpos₀ (by norm_num) (by norm_num))

theorem pushCosine_shown (t : Trans) (u : State) :
    (∀ k, (u.pushCosine t).reg k = (u.push (extOf t.neg (2 ^ 63 + t.frac.toNat) (t.exp - 63))).reg k) ∧
      (u.pushCosine t).sw.top = u.sw.top - 1#3 ∧
      ∀ f ∈ [Flag.ie, .de, .ze, .sf], (u.pushCosine t).sw.flag f = u.sw.flag f := by
  unfold State.pushCosine
  dsimp only
  split
  · refine ⟨fun k => rfl, rfl, fun f hf => ?_⟩
    cases f <;> first | rfl | exact absurd hf (by decide)
  · exact ⟨fun k => rfl, rfl, fun f _ => by cases f <;> rfl⟩

theorem sine_answer {i : Instr} {s : State} {t : Trans} (hi : i ≠ .fptan ∧ i ∉ [Instr.fsincos, .fptan])
    (hexp : t.exp ≤ 0) (hmag : transMag t ≤ 1) (hu : s.cw.getLsbD 4 = true) :
    InRangeAnswer i s ((passed (denormalOperand i s) s).finish 0#3 t) := by
  obtain ⟨w, hw⟩ := finish_delivered (i := 0#3) (t := t) (s := passed (denormalOperand i s) s) (by omega) hu
  obtain ⟨htop, -, hflag⟩ := finish_kept (i := 0#3) (t := t) (passed (denormalOperand i s) s)
  refine ⟨⟨w, hw.1, fun _ => hw.abs_le_one hmag⟩, hflag, fun h => absurd h ?_, fun h => absurd h hi.1, ?_⟩
  · rintro rfl
    exact hi.2 (by decide)
  · rw [if_neg hi.2]
    exact htop

theorem tangent_answer {s : State} (hu : s.cw.getLsbD 4 = true) (x : Ext) :
    InRangeAnswer .fptan s ((passed (denormalOperand .fptan s) s).tangent x) := by
  obtain ⟨w, hw⟩ := finish_delivered (i := 0#3) (t := transTan x (rounding s.cw))
    (s := passed (denormalOperand .fptan s) s) (notHuge_exp _) hu
  obtain ⟨htop, -, hflag⟩ := finish_kept (i := 0#3) (t := transTan x (rounding s.cw))
    (passed (denormalOperand .fptan s) s)
  obtain ⟨hreg0, hreg7, htop'⟩ := pushed_reg (s := s) htop one
  refine ⟨⟨w, ?_, fun h => absurd rfl h⟩, fun f hf => ((answering_push one).flag _ f).trans (hflag f hf), nofun,
    fun _ => hreg7, htop'.trans (if_pos (by decide)).symm⟩
  rw [State.tangent, passed_cw, hreg0]
  exact hw.1

theorem sineCosine_answer {s : State} (hu : s.cw.getLsbD 4 = true) (x : Ext) :
    InRangeAnswer .fsincos s ((passed (denormalOperand .fsincos s) s).sineCosine x) := by
  obtain ⟨w, hw⟩ := finish_delivered (i := 0#3) (t := transSin x (rounding s.cw))
    (s := passed (denormalOperand .fsincos s) s) (by have := transSin_exp x (rounding s.cw); omega) hu
  obtain ⟨htop, -, hflag⟩ := finish_kept (i := 0#3) (t := transSin x (rounding s.cw))
    (passed (denormalOperand .fsincos s) s)
  obtain ⟨hreg, htop2, hflag2⟩ := pushCosine_shown (transCos x (rounding s.cw))
    ((passed (denormalOperand .fsincos s) s).finish 0#3 (transSin x (rounding s.cw)))
  obtain ⟨hcos1, hcos2⟩ := transCos_exp x (rounding s.cw)
  have hcos := ext_delivered hcos1 (show (transCos x (rounding s.cw)).exp < 16384 by omega)
  obtain ⟨hreg0, hreg7, -⟩ := pushed_reg (s := s) htop
    (extOf (transCos x (rounding s.cw)).neg (2 ^ 63 + (transCos x (rounding s.cw)).frac.toNat)
      ((transCos x (rounding s.cw)).exp - 63))
  refine ⟨⟨w, ?_, fun _ => hw.abs_le_one (transSin_mag x _)⟩, fun f hf => (hflag2 f hf).trans (hflag f hf), fun _ =>
    ⟨_, ?_, hcos.abs_le_one (transCos_mag x _)⟩, nofun, ?_⟩
  · rw [State.sineCosine, passed_cw, hreg, hreg0]
    exact hw.1
  · rw [State.sineCosine, passed_cw, hreg, hreg7]
    exact hcos.1
  · rw [if_pos (by decide)]
    exact htop2.trans (congrArg (· - 1#3) htop)

/-- The rule on an operand in range. -/
theorem trig_inRange {i : Instr} {s : State} {a : ℝ} (hi : i ∈ [Instr.fsin, .fcos, .fsincos, .fptan])
    (h0 : s.isEmpty 0#3 = false) (h7 : i ∈ [Instr.fsincos, .fptan] → s.isEmpty 7#3 = true)
    (hacc : AcceptsOperands i s) (hpass : DenormalsPass i s) (hu : s.cw.getLsbD 4 = true)
    (ha : HasValue (s.st 0#3) a) (ha0 : a ≠ 0) (hlt : |a| < (2 : ℝ) ^ (63 : ℤ)) :
    ∃ u : State, afterOf i s = (u.withC2 false).openC03 ∧ InRangeAnswer i s u := by
  have hz := mt (HasValue.class_zero ha).1 ha0
  have hout : trigOutOfRange (s.st 0#3) = false := by
    rw [← Bool.not_eq_true, trigOutOfRange_iff ha, not_le]
    exact hlt
  obtain ⟨-, -, hsrc, hno⟩ := trig_family hi s
  have hden := denormal_one hsrc hno s
  have hone := fun bad zero f => trig_number (bad := bad) (zero := zero) (f := f) h0 ha hden hpass
  have htwo := fun takes f h7 ht => trigPair_number (takes := takes) (f := f) h0 h7 ha hden hpass ht
  simp only [hz, if_false, hout, Bool.false_eq_true] at hone htwo
  simp only [List.mem_cons, List.not_mem_nil, or_false] at hi
  rcases hi with rfl | rfl | rfl | rfl
  · exact ⟨_, congrArg State.openC03 (hone _ _ _), sine_answer (by decide) (transSin_exp _ _) (transSin_mag _ _) hu⟩
  · exact ⟨_, congrArg State.openC03 (hone _ _ _), sine_answer (by decide) (transCos_exp _ _).2 (transCos_mag _ _) hu⟩
  · exact ⟨_, congrArg State.openC03 (htwo _ _ (h7 (by decide)) fun _ => rfl), sineCosine_answer hu _⟩
  · exact ⟨_, congrArg State.openC03 (htwo State.fptanTakes _ (h7 (by decide)) fun _ => fptan_takes hacc ha ha0),
      tangent_answer hu _⟩

/-- Settles O32. -/
theorem trigInRange : Obligations.TrigInRange := by
  unfold Obligations.TrigInRange
  intro i s a hi hr h0 h7 hacc hpass hu ha ha0 hlt
  obtain ⟨hf, ho, -, -⟩ := trig_family hi s
  obtain ⟨u, heq, ⟨v, hv, hone⟩, hflag, hcos, hpush, htop⟩ := trig_inRange hi h0 h7 hacc hpass hu ha ha0 hlt
  obtain ⟨t, ht, hshow, htc2⟩ := runs_shows_c2 hf hr ho (heq ▸ (shows_cleared u).1)
  rw [heq] at htc2
  refine ⟨t, v, ht, ?_, htc2.trans (shows_cleared u).2, hshow.de.trans (hflag .de (by decide)), fun f hf => ?_, hone,
    fun h => ?_, fun h => ?_, hshow.top.trans htop⟩
  · rw [hshow.reg]
    exact hv
  · have hf' : f ∈ [Flag.ie, .de, .ze, .sf] ∧ f ≠ .de := by
      simp only [List.mem_cons, List.not_mem_nil, or_false] at hf
      rcases hf with rfl | rfl | rfl <;> decide
    exact (hshow.flag f).trans ((hflag f hf'.1).trans (passed_flag _ _ hf'.2))
  · rw [hshow.reg]
    exact hcos h
  · rw [hshow.reg]
    exact hpush h

end Sys2Proof.Laws.Trigonometry
end

section
/-! F2XM1, FPATAN, FYL2X and FYL2XP1 on numbers, and the answers that are exactly an infinity, a zero or a multiple of pi
(rules R202, R204, R208, R209, R305 to R308). -/

namespace Sys2Proof.Laws.Logarithms

open Sys2Proof.Machine Sys2Proof.Laws Sys2Proof.Laws.Shapes Sys2Proof.Laws.Frame Sys2Proof.Laws.SignBit
open Sys2Proof.Laws.Answers Sys2Proof.Laws.Moves Sys2Proof.Laws.Values Sys2Proof.Laws.Sources Sys2Proof.Laws.Operands
open Sys2Proof.Laws.Comparison Sys2Proof.Laws.Refused Sys2Proof.Laws.Special Sys2Proof.Laws.Delivery
open Sys2Proof.Laws.Rounding Sys2Proof.Laws.Unrounded Sys2Proof.Laws.Trigonometry

/-! ### Operand ranges -/

theorem one_value : HasValue one 1 := (hasValue_iff _ _).2 ⟨.inr (.inl (by decide)), realOf_one.symm⟩

theorem half_value : HasValue half (1 / 2) := by
  have hv : valOf half = ⟨false, 2 ^ 63, -64⟩ := by decide
  refine (hasValue_iff _ _).2 ⟨.inr (.inl (by decide)), ?_⟩
  rw [hv]
  simp only [realOf, signed, Bool.false_eq_true, if_false]
  norm_num

theorem f2xm1_takes {s : State} {a : ℝ} (h : AcceptsOperands .f2xm1 s) (ha : HasValue (s.st 0#3) a) (ha0 : a ≠ 0)
    (hle : |a| ≤ 1) : s.f2xm1Takes (s.st 0#3) = true := by
  have hbelow : absAtMost (s.st 0#3) one = true := by
    rw [absAtMost_iff ha one_value, abs_one]
    exact hle
  rw [State.f2xm1Takes, decide_eq_true (class_ne_infinity ha), Bool.true_and]
  rcases h with h | ⟨h, -⟩
  · rw [narrowRanges_false h]
    exact hbelow
  · obtain ⟨x, hx, hx0, hxh⟩ := h rfl
    obtain rfl := HasValue.unique ha hx
    have hsign : signOf (s.st 0#3) = false := by
      rw [HasValue.sign ha ha0, decide_eq_false_iff_not, not_lt]
      exact hx0
    have hhalf : absAtMost (s.st 0#3) half = true := by
      rw [absAtMost_iff ha half_value, abs_of_nonneg hx0, abs_of_nonneg (by norm_num)]
      exact hxh
    rw [hsign, hhalf, hbelow]
    exact ite_self true

theorem fpatan_takes {s : State} (h : AcceptsOperands .fpatan s) : s.fpatanTakes (s.st 1#3) (s.st 0#3) = true := by
  rw [State.fpatanTakes]
  rcases h with h | ⟨-, -, h⟩
  · rw [narrowRanges_false h]
    rfl
  · obtain ⟨x, y, hx, hy, hlt⟩ := h rfl
    have hless : (valOf (s.st 1#3)).abs.less (valOf (s.st 0#3)).abs = true := by
      rw [less_iff, realOf_abs, realOf_abs, ← ((hasValue_iff _ x).1 hx).2, ← ((hasValue_iff _ y).1 hy).2]
      exact hlt
    rw [decide_eq_true (class_ne_infinity hx), decide_eq_true (class_ne_infinity hy), hless]
    exact Bool.or_true _

/-- The range of FYL2XP1, in the integers the rules compute with. -/
theorem yl2xp1_inRange {x : Ext} {a : ℝ} (h : HasValue x a) (hle : |a| ≤ 1 - Real.sqrt 2 / 2) :
    yl2xp1InRange x = true := by
  have hsq : Real.sqrt 2 * Real.sqrt 2 = 2 := Real.mul_self_sqrt (by norm_num)
  have hpos := Real.sqrt_nonneg 2
  rw [HasValue.abs h] at hle
  rw [yl2xp1InRange]
  split
  · next hexp =>
    rw [decide_eq_true_eq]
    by_contra hm
    have hm' : (1 : ℝ) ≤ (valOf x).mant := by exact_mod_cast Nat.one_le_iff_ne_zero.2 hm
    have hpow : (1 : ℝ) ≤ 2 ^ (valOf x).exp := one_le_zpow₀ (by norm_num) hexp
    have hsqrt : 0 < Real.sqrt 2 := by positivity
    have hlarge := one_le_mul_of_one_le_of_one_le hm' hpow
    linarith
  · next hexp =>
    rw [not_le] at hexp
    have hd : (2 : ℝ) ^ (valOf x).exp = ((2 ^ (-(valOf x).exp).toNat : ℕ) : ℝ)⁻¹ := by
      push_cast
      rw [← zpow_natCast, Int.toNat_of_nonneg (by omega), zpow_neg, inv_inv]
    generalize hD : 2 ^ (-(valOf x).exp).toNat = d at hd
    have hdpos : (0 : ℝ) < d := by
      rw [← hD]
      positivity
    rw [hd, ← div_eq_mul_inv, div_le_iff₀ hdpos] at hle
    have hmd : (valOf x).mant ≤ d := by
      have : ((valOf x).mant : ℝ) ≤ d := by nlinarith
      exact_mod_cast this
    dsimp only
    rw [Bool.and_eq_true, decide_eq_true_eq, decide_eq_true_eq]
    refine ⟨hmd, ?_⟩
    have hreal : (d : ℝ) * d ≤ 2 * ((d - (valOf x).mant) * (d - (valOf x).mant)) := by
      have h1 : Real.sqrt 2 / 2 * d ≤ d - (valOf x).mant := by linarith
      have h2 : (Real.sqrt 2 / 2 * d) * (Real.sqrt 2 / 2 * d) ≤ (d - (valOf x).mant) * (d - (valOf x).mant) :=
        mul_self_le_mul_self (by positivity) h1
      nlinarith
    rw [← Nat.cast_le (α := ℝ)]
    push_cast [Nat.cast_sub hmd]
    exact hreal

/-! ### The rules past their tests -/

section
variable {s : State} {den : Bool}

theorem f2xm1_number {a : ℝ} (h0 : s.isEmpty 0#3 = false) (ha : HasValue (s.st 0#3) a)
    (hden : den = decide (classOf (s.st 0#3) = .denormal)) (hpass : s.cw.getLsbD 1 = true ∨ den = false)
    (htakes : classOf (s.st 0#3) ≠ .zero → s.f2xm1Takes (s.st 0#3) = true) :
    s.f2xm1 = if classOf (s.st 0#3) = .zero then (passed den s).withC1 false
      else (passed den s).finish 0#3 (transF2xm1 (s.st 0#3) (rounding s.cw)) := by
  obtain ⟨hu, hn, -⟩ := isNumber_classes (isNumber_of_value ha)
  rw [State.f2xm1, if_neg (by rw [h0]; decide), if_neg hu, if_neg hn, ← hden, denormalTest_passes hpass]
  by_cases hz : classOf (s.st 0#3) = .zero
  · rw [if_pos hz, if_pos hz]
  · have htakes' : (passed den s).f2xm1Takes (s.st 0#3) = true := htakes hz
    rw [if_neg hz, if_neg hz, htakes', if_neg (by decide), passed_cw]

variable {x y : Ext}

theorem arctan_number (htakes : s.fpatanTakes y x = true)
    (hden : den = (decide (classOf x = .denormal) || decide (classOf y = .denormal)))
    (hpass : s.cw.getLsbD 1 = true ∨ den = false) :
    s.arctan y x = if atanExact y x then pairAnswer (zeroOf (signOf y)) ((passed den s).withC1 false)
      else ((passed den s).finish 1#3 (transAtan2 y x (rounding s.cw))).pop := by
  have htakes' : (passed den s).fpatanTakes y x = true := htakes
  rw [State.arctan, eitherDenormal, ← hden, denormalTest_passes hpass, htakes']
  rfl

theorem yl2x_number (hinv : yl2xInvalid y x = false) (hz : ¬(classOf x = .zero ∧ isFinite y = true))
    (hden : den = (decide (classOf x = .denormal) || decide (classOf y = .denormal)))
    (hpass : s.cw.getLsbD 1 = true ∨ den = false) :
    s.yl2x y x =
      match yl2xExact y x with
      | some v => pairAnswer v ((passed den s).withC1 false)
      | none => ((passed den s).finish 1#3 (transYl2x y x (rounding s.cw))).pop := by
  rw [State.yl2x, hinv, if_neg (by decide), if_neg hz, eitherDenormal, ← hden, denormalTest_passes hpass]
  cases yl2xExact y x <;> rfl

theorem yl2xp1_number (hi : classOf x ≠ .infinity) (hrange : yl2xp1InRange x = true)
    (hinv : ¬(classOf x = .zero ∧ classOf y = .infinity))
    (hden : den = (decide (classOf x = .denormal) || decide (classOf y = .denormal)))
    (hpass : s.cw.getLsbD 1 = true ∨ den = false) :
    s.yl2xp1 y x =
      if classOf x = .zero ∨ classOf y = .zero then pairAnswer (zeroOf (signsDiffer y x)) ((passed den s).withC1 false)
      else if classOf y = .infinity then pairAnswer (infOf (signsDiffer y x)) ((passed den s).withC1 false)
      else ((passed den s).finish 1#3 (transYl2xp1 y x (rounding s.cw))).pop := by
  rw [State.yl2xp1, if_neg (by rw [hrange]; simp [hi]), if_neg hinv, eitherDenormal, ← hden, denormalTest_passes hpass]
  rfl

end

/-- FPATAN, FYL2X or FYL2XP1 on two numbers runs its own part. -/
theorem pair_runs {i : Instr} {f : Ext → Ext → State → State} {s : State}
    (hafter : afterOf i s = (s.pairFront f).openC023) (hf : familyOf i ≠ .control) (hr : Ready i s)
    (ho : OperandThere i s) (he : BothFull s) (hn : BothNumbers s) :
    ∃ t, exec i s = .next t ∧ Shows (f (s.st 1#3) (s.st 0#3) s) t := by
  obtain ⟨t, ht, hshow⟩ := runs_open hf hr ho hafter
  rw [pairFront_numbers he hn] at hshow
  exact ⟨t, ht, hshow⟩

/-! ### Answers that are exactly an infinity or a zero -/

/-- What is said of an exact answer. -/
def ExactShown (i : Instr) (s : State) (c : Machine.Class) (neg : Bool) : Prop :=
  ∃ t, exec i s = .next t ∧ (∀ k ∈ answers i, classOf (t.reg (s.phys k)) = c ∧ signOf (t.reg (s.phys k)) = neg) ∧
    t.sw.top = s.sw.top + topMove i ∧ t.sw.c1 = false ∧ t.sw.de = (s.sw.de || denormalOperand i s) ∧
    ∀ f, f ≠ .de → t.sw.flag f = s.sw.flag f

theorem passed_c1_flag {s : State} {den : Bool} {f : Flag} (h : f ≠ .de) :
    ((passed den s).withC1 false).sw.flag f = s.sw.flag f := by
  cases f <;> first | rfl | contradiction

theorem exact_written {i : Instr} {s t : State} {v : Ext} {f : State → State} (hw : Writes v (answers i) (topMove i) f)
    (ht : exec i s = .next t) (h : Shows (f ((passed (denormalOperand i s) s).withC1 false)) t) :
    ExactShown i s (classOf v) (signOf v) := by
  obtain ⟨hans, hwr⟩ := hw
  obtain ⟨htop, hreg⟩ := hwr s ((passed (denormalOperand i s) s).withC1 false) rfl
  exact ⟨t, ht, fun k hk => by rw [h.reg, hreg k hk]; exact ⟨rfl, rfl⟩, h.top.trans htop, h.c1.trans (hans.c1 _),
    h.de.trans (hans.flag _ .de), fun g hg => ((h.flag g).trans (hans.flag _ g)).trans (passed_c1_flag hg)⟩

theorem exact_kept {i : Instr} {s t : State} (hans : answers i = [0#3]) (htop : topMove i = 0#3)
    (ht : exec i s = .next t) (h : Shows ((passed (denormalOperand i s) s).withC1 false) t) :
    ExactShown i s (classOf (s.st 0#3)) (signOf (s.st 0#3)) := by
  refine ⟨t, ht, fun k hk => ?_, by rw [htop, BitVec.add_zero]; exact h.top, h.c1, h.de,
    fun g hg => (h.flag g).trans (passed_c1_flag hg)⟩
  rw [hans, List.mem_singleton] at hk
  rw [hk, h.reg]
  exact ⟨rfl, rfl⟩

theorem writes_pairAnswer (v : Ext) : Writes v [1#3] 1#3 (pairAnswer v) := writes_setSt_popIf 1#3 v true

theorem scale_exact {s : State} {c : Machine.Class} {neg : Bool} (hr : Ready .fscale s) (he : BothFull s)
    (hpass : DenormalsPass .fscale s) (hneg : neg = signOf (s.st 0#3)) (hy : IsNumber (s.st 1#3))
    (hinv : ¬InvalidPair .fscale (s.st 0#3) (s.st 1#3))
    (h : (classOf (s.st 0#3) ∈ [Machine.Class.zero, .infinity] ∧ c = classOf (s.st 0#3)) ∨
      (IsFiniteNonzero (s.st 0#3) ∧ classOf (s.st 1#3) = .infinity ∧ c = if signOf (s.st 1#3) then .zero else .infinity)) :
    ExactShown .fscale s c neg := by
  subst hneg
  have hx : IsNumber (s.st 0#3) := by
    unfold IsNumber
    rcases h with ⟨h, -⟩ | ⟨h, -⟩
    · simp only [List.mem_cons, List.not_mem_nil, or_false] at h
      rcases h with h | h <;> rw [h] <;> decide
    · simp only [IsFiniteNonzero, List.mem_cons, List.not_mem_nil, or_false] at h
      rcases h with h | h <;> rw [h] <;> decide
  have hnum : BothNumbers s := ⟨hx, hy⟩
  have hscale : scaleInvalid (s.st 0#3) (s.st 1#3) = false := by
    by_contra hne
    refine hinv ?_
    simp only [scaleInvalid, Bool.not_eq_false, Bool.or_eq_true, Bool.and_eq_true, decide_eq_true_eq] at hne
    rcases hne with ⟨h1, h2⟩ | ⟨h1, h2⟩ <;> simp [InvalidPair, h1, h2]
  obtain ⟨t, ht, hshow⟩ := runs_open (i := .fscale) (by decide) hr trivial rfl
  rw [State.scale, if_neg (by rw [he.test]; decide), if_neg hnum.classes.1, if_neg hnum.classes.2, hscale,
    if_neg (by decide), ← denormal_two (i := .fscale) rfl rfl, denormalTest_passes hpass] at hshow
  rcases h with ⟨h, rfl⟩ | ⟨h, hyi, rfl⟩
  · simp only [List.mem_cons, List.not_mem_nil, or_false] at h
    rw [if_pos h.symm] at hshow
    exact exact_kept rfl rfl ht hshow
  · simp only [IsFiniteNonzero, List.mem_cons, List.not_mem_nil, or_false] at h
    rw [if_neg (by rcases h with h | h <;> rw [h] <;> decide), if_pos hyi] at hshow
    have hexact := exact_written (i := .fscale) (writes_setSt 0#3 _) ht hshow
    cases hs : signOf (s.st 1#3) <;> rw [hs] at hexact <;> simpa using hexact

theorem yl2x_exact {s : State} {c : Machine.Class} {neg : Bool} (hr : Ready .fyl2x s) (he : BothFull s)
    (hpass : DenormalsPass .fyl2x s) (h : Yl2xExact (s.st 0#3) (s.st 1#3) c neg) : ExactShown .fyl2x s c neg := by
  obtain ⟨hnum, hinv, hz, v, hv, hc, hs⟩ : BothNumbers s ∧ yl2xInvalid (s.st 1#3) (s.st 0#3) = false ∧
      ¬(classOf (s.st 0#3) = .zero ∧ isFinite (s.st 1#3) = true) ∧
      ∃ v, yl2xExact (s.st 1#3) (s.st 0#3) = some v ∧ classOf v = c ∧ signOf v = neg := by
    rcases h with ⟨hx, hsx, hy, hyz, rfl, rfl⟩ | ⟨a, ha, ⟨hy, ha0, ha1, rfl, rfl⟩ | ⟨hy, ha0, rfl, rfl⟩ | ⟨hy, rfl, rfl, rfl⟩⟩
    · exact ⟨⟨isNumber_of_class hx (by decide), hy⟩, by simp [yl2xInvalid, hsx, hyz, hx, isFinite], by simp [hx],
        infOf _, if_pos hx, classOf_infOf _, signOf_infOf _⟩
    · have hsign : signOf (s.st 0#3) = true → classOf (s.st 0#3) = .zero := fun hsx => by
        by_contra hz
        have hne := mt (HasValue.class_zero ha).2 hz
        rw [HasValue.sign ha hne, decide_eq_true_eq] at hsx
        exact absurd hsx (not_lt.2 ha0)
      have hone : isOne (s.st 0#3) = false := by
        rw [← Bool.not_eq_true, isOne_iff ha]
        exact ha1
      refine ⟨⟨isNumber_of_value ha, isNumber_of_class hy (by decide)⟩, ?_, by simp [isFinite, hy], infOf _, ?_,
        classOf_infOf _, signOf_infOf _⟩
      · simpa [yl2xInvalid, hy, hone] using hsign
      · rw [yl2xExact, if_neg (class_ne_infinity ha), if_pos hy, belowOne_eq ha]
    · have hsx : signOf (s.st 0#3) = false := by
        rw [HasValue.sign ha ha0.ne', decide_eq_false_iff_not, not_lt]
        exact ha0.le
      have hxz := mt (HasValue.class_zero ha).1 ha0.ne'
      refine ⟨⟨isNumber_of_value ha, isNumber_of_class hy (by decide)⟩,
        by simp [yl2xInvalid, hsx, hy, hxz, class_ne_infinity ha], by simp [hxz], zeroOf _, ?_, classOf_zeroOf _,
        signOf_zeroOf _⟩
      rw [yl2xExact, if_neg (class_ne_infinity ha), if_neg (by rw [hy]; decide), if_pos hy, belowOne_eq ha]
    · have hsx : signOf (s.st 0#3) = false := by
        rw [HasValue.sign ha one_ne_zero]
        exact decide_eq_false (by norm_num)
      have hxz := mt (HasValue.class_zero ha).1 one_ne_zero
      simp only [IsFiniteNonzero, List.mem_cons, List.not_mem_nil, or_false] at hy
      have hyn : IsNumber (s.st 1#3) ∧ classOf (s.st 1#3) ≠ .infinity ∧ classOf (s.st 1#3) ≠ .zero := by
        rcases hy with hy | hy <;> exact ⟨isNumber_of_class hy (by decide), by rw [hy]; decide, by rw [hy]; decide⟩
      refine ⟨⟨isNumber_of_value ha, hyn.1⟩, by simp [yl2xInvalid, hsx, hyn.2.1, hyn.2.2], by simp [hxz], zeroOf _, ?_,
        classOf_zeroOf _, signOf_zeroOf _⟩
      rw [yl2xExact, if_neg (class_ne_infinity ha), if_neg hyn.2.1, if_neg hyn.2.2, if_pos ((isOne_iff ha).2 rfl)]
  obtain ⟨t, ht, hshow⟩ := pair_runs (i := .fyl2x) rfl (by decide) hr trivial he hnum
  rw [yl2x_number hinv hz (denormal_two (i := .fyl2x) rfl rfl s) hpass, hv] at hshow
  exact hc ▸ hs ▸ exact_written (i := .fyl2x) (writes_pairAnswer v) ht hshow

theorem yl2xp1_exact {s : State} {c : Machine.Class} {neg : Bool} (hr : Ready .fyl2xp1 s) (he : BothFull s)
    (hpass : DenormalsPass .fyl2xp1 s) (h : Yl2xp1Exact (s.st 0#3) (s.st 1#3) c neg) : ExactShown .fyl2xp1 s c neg := by
  obtain ⟨rfl, a, ha, hle, hcase⟩ := h
  have hxor : (signOf (s.st 0#3) ^^ signOf (s.st 1#3)) = signsDiffer (s.st 1#3) (s.st 0#3) := Bool.xor_comm _ _
  have hden := denormal_two (i := .fyl2xp1) rfl rfl s
  rw [hxor]
  rcases hcase with ⟨rfl, hzero⟩ | ⟨rfl, hy, ha0⟩
  · have hz : classOf (s.st 0#3) = .zero ∨ classOf (s.st 1#3) = .zero :=
      hzero.imp_left fun h => (HasValue.class_zero ha).2 h.1
    have hy : IsNumber (s.st 1#3) ∧ classOf (s.st 1#3) ≠ .infinity := by
      rcases hzero with ⟨-, h⟩ | h
      · simp only [IsFiniteNonzero, List.mem_cons, List.not_mem_nil, or_false] at h
        rcases h with h | h <;> exact ⟨isNumber_of_class h (by decide), by rw [h]; decide⟩
      · exact ⟨isNumber_of_class h (by decide), by rw [h]; decide⟩
    obtain ⟨t, ht, hshow⟩ := pair_runs (i := .fyl2xp1) rfl (by decide) hr trivial he ⟨isNumber_of_value ha, hy.1⟩
    rw [yl2xp1_number (class_ne_infinity ha) (yl2xp1_inRange ha hle) (fun h => hy.2 h.2) hden hpass, if_pos hz] at hshow
    have hexact := exact_written (i := .fyl2xp1) (writes_pairAnswer _) ht hshow
    rwa [classOf_zeroOf, signOf_zeroOf] at hexact
  · have hxz := mt (HasValue.class_zero ha).1 ha0
    obtain ⟨t, ht, hshow⟩ := pair_runs (i := .fyl2xp1) rfl (by decide) hr trivial he
      ⟨isNumber_of_value ha, isNumber_of_class hy (by decide)⟩
    rw [yl2xp1_number (class_ne_infinity ha) (yl2xp1_inRange ha hle) (fun h => hxz h.1) hden hpass,
      if_neg (by simp [hxz, hy]), if_pos hy] at hshow
    have hexact := exact_written (i := .fyl2xp1) (writes_pairAnswer _) ht hshow
    rwa [classOf_infOf, signOf_infOf] at hexact

/-- Every exact answer of the table. -/
theorem exact_shown {i : Instr} {s : State} {c : Machine.Class} {neg : Bool} (hr : Ready i s)
    (he : ∀ k ∈ sources i, s.isEmpty k = false) (hpass : DenormalsPass i s)
    (hacc : i = .fpatan → AcceptsOperands i s) (h : ExactResult i (s.st 0#3) (s.st 1#3) c neg) : ExactShown i s c neg := by
  rcases h with ⟨rfl, hx, rfl, rfl⟩ | ⟨rfl, hx, rfl, rfl⟩ | ⟨rfl, hx, rfl, rfl⟩ | ⟨rfl, hneg, hy, hinv, h⟩ |
    ⟨rfl, rfl, rfl, hsx, h⟩ | ⟨rfl, h⟩ | ⟨rfl, h⟩
  · simp only [List.mem_cons, List.not_mem_nil, or_false] at hx
    obtain ⟨t, ht, hshow⟩ := unary_runs (i := .frndint) (f := State.roundInt) rfl (by decide) rfl rfl hr trivial
      (full_of_one he) hpass (by rcases hx with h | h <;> exact isNumber_of_class h (by decide)) rfl
    rw [State.roundInt, if_pos hx.symm] at hshow
    exact exact_kept rfl rfl ht hshow
  · obtain ⟨t, ht, hshow⟩ := unary_runs (i := .fsqrt) (f := State.squareRoot) rfl (by decide) rfl rfl hr trivial
      (full_of_one he) hpass (by rcases hx with h | ⟨h, -⟩ <;> exact isNumber_of_class h (by decide))
      (by rcases hx with h | ⟨-, h⟩ <;> simp [sqrtInvalid, h])
    rw [State.squareRoot, if_pos (hx.imp_right And.left).symm] at hshow
    exact exact_kept rfl rfl ht hshow
  · obtain ⟨t, ht, hshow⟩ := runs_open (i := .f2xm1) (by decide) hr trivial rfl
    rw [f2xm1_number (full_of_one he) (hasValue_of_class (.inl hx)) (denormal_one (i := .f2xm1) rfl rfl s) hpass
      fun h => absurd hx h, if_pos hx] at hshow
    exact hx ▸ exact_kept (i := .f2xm1) rfl rfl ht hshow
  · exact scale_exact hr (full_of_two he) hpass hneg hy hinv h
  · have hnum : BothNumbers s := by
      rcases h with ⟨hy, hx⟩ | ⟨hy, hx⟩
      · exact ⟨hx, isNumber_of_class hy (by decide)⟩
      · simp only [IsFiniteNonzero, List.mem_cons, List.not_mem_nil, or_false] at hy
        exact ⟨isNumber_of_class hx (by decide), by rcases hy with h | h <;> exact isNumber_of_class h (by decide)⟩
    have hexact : atanExact (s.st 1#3) (s.st 0#3) = true := by
      rcases h with ⟨hy, -⟩ | ⟨hy, hx⟩
      · simp [atanExact, hsx, hy]
      · simp only [IsFiniteNonzero, List.mem_cons, List.not_mem_nil, or_false] at hy
        rcases hy with hy | hy <;> simp [atanExact, hsx, hx, isFinite, hy]
    obtain ⟨t, ht, hshow⟩ := pair_runs (i := .fpatan) rfl (by decide) hr trivial (full_of_two he) hnum
    rw [arctan_number (fpatan_takes (hacc rfl)) (denormal_two (i := .fpatan) rfl rfl s) hpass, if_pos hexact] at hshow
    have hshown := exact_written (i := .fpatan) (writes_pairAnswer _) ht hshow
    rwa [classOf_zeroOf, signOf_zeroOf] at hshown
  · exact yl2x_exact hr (full_of_two he) hpass h
  · exact yl2xp1_exact hr (full_of_two he) hpass h

end Sys2Proof.Laws.Logarithms
end

section
/-! FPATAN, F2XM1, FYL2X and FYL2XP1 where they need TRANS: multiples of pi, quadrants, signs and bounds (rules R202,
R204, R208, R209), and FXTRACT of an infinity (rule R308). -/

namespace Sys2Proof.Laws.Quadrants

open Sys2Proof.Machine Sys2Proof.Laws Sys2Proof.Laws.Shapes Sys2Proof.Laws.Frame Sys2Proof.Laws.SignBit
open Sys2Proof.Laws.Answers Sys2Proof.Laws.Moves Sys2Proof.Laws.Values Sys2Proof.Laws.Sources Sys2Proof.Laws.Operands
open Sys2Proof.Laws.Comparison Sys2Proof.Laws.Refused Sys2Proof.Laws.Special Sys2Proof.Laws.Delivery
open Sys2Proof.Laws.Rounding Sys2Proof.Laws.Unrounded Sys2Proof.Laws.Trigonometry Sys2Proof.Laws.Logarithms

/-! ### FXTRACT of an infinity -/

theorem xtract_infinity {s : State} (h0 : s.isEmpty 0#3 = false) (h7 : s.isEmpty 7#3 = true)
    (hx : classOf (s.st 0#3) = .infinity) :
    s.xtract = ((s.setSt 0#3 (infOf false)).push (s.st 0#3)).withC1 false := by
  rw [State.xtract, if_neg (by rw [h0]; decide), if_neg (by rw [h7]; decide), if_neg (by rw [hx]; decide),
    if_neg (by rw [hx]; decide), denormalTest_passes (.inr (by rw [hx]; decide)), if_neg (by rw [hx]; decide),
    if_pos hx, hx]
  exact congrArg (fun u => State.withC1 false ((State.setSt u 0#3 (infOf false)).push (s.st 0#3))) (passed_false s)

theorem extract_infinity {s : State} (hr : Ready .fxtract s) (h0 : s.isEmpty 0#3 = false) (h7 : s.isEmpty 7#3 = true)
    (hx : classOf (s.st 0#3) = .infinity) :
    ∃ t, exec .fxtract s = .next t ∧ t.reg (s.phys 0#3) = 0x7FFF8000000000000000#80 ∧
      t.reg (s.phys 7#3) = s.st 0#3 ∧ t.sw.top = s.sw.top - 1#3 ∧ t.sw.c1 = false ∧
      ∀ f, t.sw.flag f = s.sw.flag f := by
  obtain ⟨t, ht, hshow⟩ := runs_open (i := .fxtract) (by decide) hr trivial rfl
  rw [xtract_infinity h0 h7 hx] at hshow
  obtain ⟨hreg0, hreg7, htop⟩ := wrote_pushed (s := s) (u := s) rfl (infOf false) (s.st 0#3)
  refine ⟨t, ht, ?_, ?_, hshow.top.trans htop, hshow.c1, fun f => (hshow.flag f).trans (by cases f <;> rfl)⟩
  · rw [hshow.reg]
    exact hreg0.trans (by decide)
  · rw [hshow.reg]
    exact hreg7

/-! ### The answer to ST(1) and the pop -/

/-- What shows after the pop that ends FPATAN, FYL2X and FYL2XP1. -/
theorem popped {s u t : State} (h : Shows u.pop t) (hu : u.sw.top = s.sw.top) :
    (∀ k, t.reg k = u.reg k) ∧ t.sw.top = s.sw.top + 1#3 ∧ t.tag (s.phys 0#3) = .empty ∧
      ∀ f, t.sw.flag f = u.sw.flag f := by
  refine ⟨fun k => by rw [h.reg, reg_pop], ?_, ?_, fun f => (h.flag f).trans (by cases f <;> rfl)⟩
  · rw [h.top, ← hu]
    rfl
  · have hp : s.phys 0#3 = u.sw.top := by rw [State.phys, hu, BitVec.add_zero]
    rw [h.tag, tag_pop, hp]
    exact if_pos rfl

theorem popped_finish {s t : State} {den : Bool} {T : Trans} (h : Shows ((passed den s).finish 1#3 T).pop t) :
    (∀ k, t.reg k = ((passed den s).finish 1#3 T).reg k) ∧ t.sw.top = s.sw.top + 1#3 ∧ t.tag (s.phys 0#3) = .empty ∧
      ∀ f, t.sw.flag f = ((passed den s).finish 1#3 T).sw.flag f :=
  popped h (finish_kept (i := 1#3) (t := T) (passed den s)).1

theorem finished_flag {i : BitVec 3} {T : Trans} {den : Bool} {s : State} :
    ((passed den s).finish i T).sw.de = (s.sw.de || den) ∧
      ∀ f ∈ [Flag.ie, .ze, .sf], ((passed den s).finish i T).sw.flag f = s.sw.flag f := by
  obtain ⟨-, -, hkept⟩ := finish_kept (i := i) (t := T) (passed den s)
  refine ⟨hkept .de (by decide), fun f hf => ?_⟩
  have hf' : f ∈ [Flag.ie, .de, .ze, .sf] ∧ f ≠ .de := by
    simp only [List.mem_cons, List.not_mem_nil, or_false] at hf
    rcases hf with rfl | rfl | rfl <;> decide
  exact (hkept f hf'.1).trans (passed_flag _ _ hf'.2)

/-! ### Answers of TRANS.atan2 -/

theorem toPi_spec (t : Trans) (neg : Bool) (e : Int) {m : Nat} (h1 : 2 ^ 63 ≤ m) (h2 : m + 1 < 2 ^ 64) :
    transMag (Trans.toPi t neg e (m - 2 ^ 63)) = m * 2 ^ (e - 63) ∨
      transMag (Trans.toPi t neg e (m - 2 ^ 63)) = ((m : ℝ) + 1) * 2 ^ (e - 63) := by
  have hfrac : 2 ^ 63 + (Trans.toPi t neg e (m - 2 ^ 63)).frac.toNat = m + t.frac.toNat % 2 := by
    rw [Trans.toPi, BitVec.toNat_ofNat, Nat.mod_eq_of_lt (by omega)]
    omega
  rw [transMag, hfrac]
  rcases Nat.mod_two_eq_zero_or_one t.frac.toNat with h | h <;> rw [h]
  · exact .inl rfl
  · exact .inr (by rw [Nat.cast_add, Nat.cast_one]; rfl)

/-- The table of the multiples of pi. -/
theorem transAtan2_multiple {x y : Ext} {m : ℕ} {e : ℤ} (h : PiMultiple x y m e) (rc : Rounding) :
    atanExact y x = false ∧ transAtan2 y x rc = Trans.toPi (Config.atan2 y x rc) (signOf y) e (m - 2 ^ 63) ∧
      2 ^ 63 ≤ m ∧ m + 1 < 2 ^ 64 ∧ -1 ≤ e ∧ e ≤ 1 := by
  have finite : IsFiniteNonzero y → classOf y ≠ .infinity ∧ classOf y ≠ .zero := fun hy => by
    simp only [IsFiniteNonzero, List.mem_cons, List.not_mem_nil, or_false] at hy
    rcases hy with hy | hy <;> rw [hy] <;> decide
  unfold transAtan2
  dsimp only
  rcases h with ⟨hy, hx, hm⟩ | ⟨hm, ⟨hy, -, hx⟩ | ⟨hy, hx⟩⟩ | ⟨hm, hs, ⟨hy, hx⟩ | ⟨hy, hx⟩⟩
  · rw [if_pos hy, if_pos hx]
    cases hs : signOf x <;> rw [hs] at hm <;> obtain ⟨rfl, rfl⟩ := Prod.mk.inj hm
    · exact ⟨by simp [atanExact, hy, isFinite], rfl, by decide, by decide, by decide, by decide⟩
    · exact ⟨by simp [atanExact, hs], rfl, by decide, by decide, by decide, by decide⟩
  · obtain ⟨rfl, rfl⟩ := Prod.mk.inj hm
    rw [if_pos hy, if_neg hx]
    exact ⟨by simp [atanExact, hy, isFinite], rfl, by decide, by decide, by decide, by decide⟩
  · obtain ⟨rfl, rfl⟩ := Prod.mk.inj hm
    rw [if_neg (finite hy).1, if_neg (not_or.2 ⟨(finite hy).2, by rw [hx]; decide⟩), if_pos hx]
    exact ⟨by simp [atanExact, hx, (finite hy).2], rfl, by decide, by decide, by decide, by decide⟩
  · obtain ⟨rfl, rfl⟩ := Prod.mk.inj hm
    rw [if_neg (by rw [hy]; decide), if_pos (.inl hy)]
    exact ⟨by simp [atanExact, hs], rfl, by decide, by decide, by decide, by decide⟩
  · obtain ⟨rfl, rfl⟩ := Prod.mk.inj hm
    rw [if_neg (finite hy).1, if_pos (.inr hx)]
    exact ⟨by simp [atanExact, hs], rfl, by decide, by decide, by decide, by decide⟩

theorem PiMultiple.numbers {s : State} {m : ℕ} {e : ℤ} (h : PiMultiple (s.st 0#3) (s.st 1#3) m e) : BothNumbers s := by
  have finite : ∀ {z : Ext}, IsFiniteNonzero z → IsNumber z := fun hz => by
    simp only [IsFiniteNonzero, List.mem_cons, List.not_mem_nil, or_false] at hz
    rcases hz with hz | hz <;> exact isNumber_of_class hz (by decide)
  rcases h with ⟨hy, hx, -⟩ | ⟨-, ⟨hy, hx, -⟩ | ⟨hy, hx⟩⟩ | ⟨-, -, ⟨hy, hx⟩ | ⟨hy, hx⟩⟩
  · exact ⟨isNumber_of_class hx (by decide), isNumber_of_class hy (by decide)⟩
  · exact ⟨hx, isNumber_of_class hy (by decide)⟩
  · exact ⟨isNumber_of_class hx (by decide), finite hy⟩
  · exact ⟨hx, isNumber_of_class hy (by decide)⟩
  · exact ⟨isNumber_of_class hx (by decide), finite hy⟩

/-- FPATAN of numbers whose answer is not an exact zero. -/
theorem fpatan_finished {s : State} (hr : Ready .fpatan s) (he : BothFull s) (hn : BothNumbers s)
    (hacc : AcceptsOperands .fpatan s) (hpass : DenormalsPass .fpatan s)
    (hexact : atanExact (s.st 1#3) (s.st 0#3) = false) :
    ∃ t, exec .fpatan s = .next t ∧ Shows ((passed (denormalOperand .fpatan s) s).finish 1#3
      (transAtan2 (s.st 1#3) (s.st 0#3) (rounding s.cw))).pop t := by
  obtain ⟨t, ht, hshow⟩ := pair_runs (i := .fpatan) rfl (by decide) hr trivial he hn
  rw [arctan_number (fpatan_takes hacc) (denormal_two (i := .fpatan) rfl rfl s) hpass, hexact,
    if_neg (by decide)] at hshow
  exact ⟨t, ht, hshow⟩

theorem fpatan_multiple {s : State} {m : ℕ} {e : ℤ} (hr : Ready .fpatan s) (he : BothFull s)
    (hacc : AcceptsOperands .fpatan s) (hpass : DenormalsPass .fpatan s)
    (h : PiMultiple (s.st 0#3) (s.st 1#3) m e) :
    ∃ (t : State) (v : ℝ), exec .fpatan s = .next t ∧ HasValue (t.reg (s.phys 1#3)) v ∧
      (|v| = m * 2 ^ (e - 63) ∨ |v| = ((m : ℝ) + 1) * 2 ^ (e - 63)) ∧
      signOf (t.reg (s.phys 1#3)) = signOf (s.st 1#3) ∧ t.sw.pe = true ∧
      t.sw.de = (s.sw.de || denormalOperand .fpatan s) ∧
      (∀ f, f ≠ .de → f ≠ .pe → t.sw.flag f = s.sw.flag f) ∧ t.sw.top = s.sw.top + 1#3 ∧
      t.tag (s.phys 0#3) = .empty := by
  obtain ⟨hexact, htrans, h1, h2, he1, he2⟩ := transAtan2_multiple h (rounding s.cw)
  obtain ⟨t, ht, hshow⟩ := fpatan_finished hr he (PiMultiple.numbers h) hacc hpass hexact
  have hmag := toPi_spec (Config.atan2 (s.st 1#3) (s.st 0#3) (rounding s.cw)) (signOf (s.st 1#3)) e h1 h2
  rw [htrans] at hshow
  generalize hT : Trans.toPi (Config.atan2 (s.st 1#3) (s.st 0#3) (rounding s.cw)) (signOf (s.st 1#3)) e (m - 2 ^ 63) = T
    at hshow hmag
  have hneg : T.neg = signOf (s.st 1#3) := hT ▸ rfl
  have hexp : T.exp = e := hT ▸ rfl
  have hpe : T.pe = true := hT ▸ rfl
  obtain ⟨hval, hsign, hw⟩ := ext_delivered (t := T) (by omega) (by omega)
  have hwmag := hw.resolve_right fun h => by omega
  rw [finish_inRange (by omega) (by omega), hpe] at hshow
  obtain ⟨hreg, htop, htag, hflag⟩ := popped (s := s) hshow rfl
  have hanswer : t.reg (s.phys 1#3) = extOf T.neg (2 ^ 63 + T.frac.toNat) (T.exp - 63) := by
    rw [hreg, inexactOr_reg, reg_setSt_of_top (s := s) (x := passed _ s) rfl]
  rw [← hanswer] at hval hsign
  exact ⟨t, _, ht, hval, by rwa [hwmag], hsign.trans hneg, hflag .pe, hflag .de,
    fun f hde hpe => (hflag f).trans (by cases f <;> first | rfl | contradiction), htop, htag⟩

/-- Settles O30. -/
theorem exactResults : Obligations.ExactResults := by
  unfold Obligations.ExactResults
  exact ⟨fun i s c neg hr he hpass hacc h => exact_shown hr he hpass hacc h,
    fun s hr h0 h7 hx => extract_infinity hr h0 h7 hx,
    fun s m e hr h0 h1 hacc hpass h => fpatan_multiple hr ⟨h0, h1⟩ hacc hpass h⟩

/-! ### The quadrants of FPATAN -/

/-- The constraints on TRANS.atan2 for finite nonzero operands. -/
theorem transAtan2_quadrant {x y : Ext} {v w : ℝ} (hx : HasValue x v) (hy : HasValue y w) (hv : v ≠ 0) (hw : w ≠ 0)
    (rc : Rounding) :
    atanExact y x = false ∧ (transAtan2 y x rc).neg = decide (w < 0) ∧
      (0 < v → Trans.atMost (transAtan2 y x rc) 0 (piFrac + 1) = true) ∧
      (v < 0 → Trans.atLeast (transAtan2 y x rc) 0 piFrac = true ∧
        Trans.atMost (transAtan2 y x rc) 1 (piFrac + 1) = true) := by
  have hxz := mt (HasValue.class_zero hx).1 hv
  have hyz := mt (HasValue.class_zero hy).1 hw
  have hxi := class_ne_infinity hx
  have hyi := class_ne_infinity hy
  have hlo : ∀ t : Trans, Trans.atMost (Trans.toPi t (signOf y) 0 piFrac) 0 (piFrac + 1) = true ∧
      Trans.atLeast (Trans.toPi t (signOf y) 0 piFrac) 0 piFrac = true ∧
      Trans.atMost (Trans.toPi t (signOf y) 0 piFrac) 1 (piFrac + 1) = true := fun t => by
    have hbit : (BitVec.ofNat 63 (piFrac + t.frac.toNat % 2)).toNat = piFrac + t.frac.toNat % 2 := by
      rw [BitVec.toNat_ofNat, Nat.mod_eq_of_lt]
      unfold piFrac
      omega
    have hle := Nat.lt_succ_iff.1 (Nat.mod_lt t.frac.toNat (by decide : 2 > 0))
    refine ⟨?_, ?_, ?_⟩ <;> simp [Trans.atMost, Trans.atLeast, Trans.toPi, hbit, hle]
  refine ⟨by simp [atanExact, hyz, hxi], ?_⟩
  rw [← HasValue.sign hy hw]
  have hsign := HasValue.sign hx hv
  unfold transAtan2
  dsimp only
  rw [if_neg hyi, if_neg (not_or.2 ⟨hyz, hxi⟩), if_neg hxz]
  rcases lt_or_gt_of_ne hv with hneg | hpos
  · rw [hsign, decide_eq_true hneg, if_pos rfl]
    refine ⟨by split <;> rfl, fun h => absurd h hneg.not_gt, fun _ => ?_⟩
    split
    · next h => exact Bool.and_eq_true_iff.1 h
    · exact (hlo _).2
  · rw [hsign, decide_eq_false hpos.not_gt, if_neg (by decide)]
    refine ⟨by split <;> rfl, fun _ => ?_, fun h => absurd h hpos.not_gt⟩
    split
    · next h => exact h
    · exact (hlo _).1

theorem scaled_le {a b c : ℝ} {k : ℤ} (h : a ≤ b * 2 ^ k) (hc : b * 2 ^ (k + 63) = c) : a * 2 ^ (63 : ℤ) ≤ c := by
  rw [← hc, zpow_add₀ two_ne_zero, ← mul_assoc]
  exact mul_le_mul_of_nonneg_right h (two_zpow_pos _).le

theorem quadrant_bounds {T : Trans} {r : Ext} {w x : ℝ} (hd : Delivered T r w)
    (hpos : 0 < x → Trans.atMost T 0 (piFrac + 1) = true)
    (hneg : x < 0 → Trans.atLeast T 0 piFrac = true ∧ Trans.atMost T 1 (piFrac + 1) = true) :
    (0 < x → |w| * 2 ^ (63 : ℤ) ≤ 0xC90FDAA22168C235) ∧
      (x < 0 → 0xC90FDAA22168C234 ≤ |w| * 2 ^ (63 : ℤ) ∧ |w| * 2 ^ (63 : ℤ) ≤ 2 * 0xC90FDAA22168C235) := by
  obtain ⟨-, -, hw⟩ := hd
  refine ⟨fun h => ?_, fun h => ?_⟩
  · have hmost := atMost_le (hpos h)
    refine scaled_le (k := 0 - 63) (b := (2 ^ 63 + (piFrac + 1) : ℕ)) ?_ (by norm_num [piFrac])
    rcases hw with hw | ⟨-, hw⟩
    · rw [hw]
      exact hmost
    · refine hw.trans ((zpow_le_zpow_right₀ (by norm_num) (show (-16382 : ℤ) ≤ 0 - 63 by norm_num)).trans ?_)
      exact le_mul_of_one_le_left (two_zpow_pos _).le (by norm_num [piFrac])
  · obtain ⟨hleast, hmost⟩ := hneg h
    have hlow := atLeast_le (by decide : piFrac < 2 ^ 63) hleast
    have hexp : 0 ≤ T.exp := by
      simp only [Trans.atLeast, Bool.or_eq_true, Bool.and_eq_true, decide_eq_true_eq] at hleast
      omega
    have heq := hw.resolve_right fun h => by omega
    rw [heq]
    refine ⟨?_, scaled_le (atMost_le hmost) (by norm_num [piFrac])⟩
    calc (0xC90FDAA22168C234 : ℝ) = (2 ^ 63 + piFrac : ℕ) * 2 ^ ((0 : ℤ) - 63) * 2 ^ (63 : ℤ) := by norm_num [piFrac]
      _ ≤ _ := mul_le_mul_of_nonneg_right hlow (two_zpow_pos _).le

/-- Settles O33. -/
theorem arctangentQuadrant : Obligations.ArctangentQuadrant := by
  unfold Obligations.ArctangentQuadrant
  intro s x y hr h0 h1 hacc hpass hu hx hy hx0 hy0
  obtain ⟨hexact, hneg, hright, hleft⟩ := transAtan2_quadrant hx hy hx0 hy0 (rounding s.cw)
  have hexp := transAtan2_exp (s.st 1#3) (s.st 0#3) (rounding s.cw)
  obtain ⟨t, ht, hshow⟩ := fpatan_finished hr ⟨h0, h1⟩ ⟨isNumber_of_value hx, isNumber_of_value hy⟩ hacc hpass hexact
  generalize transAtan2 (s.st 1#3) (s.st 0#3) (rounding s.cw) = T at hshow hneg hright hleft hexp
  obtain ⟨w, hw⟩ := finish_delivered (i := 1#3) (t := T) (s := passed (denormalOperand .fpatan s) s) (by omega) hu
  have hcalc := (calc_finish (K := [1#3]) (F := [.ue, .pe]) (i := 1#3) (by decide) (t := T) (fun h => by omega)
    (fun _ => by decide) (by decide) (passed (denormalOperand .fpatan s) s)).flags
  obtain ⟨hde, -⟩ := finished_flag (i := 1#3) (T := T) (den := denormalOperand .fpatan s) (s := s)
  obtain ⟨hreg, htop, htag, hflag⟩ := popped_finish hshow
  obtain ⟨hr1, hr2⟩ := quadrant_bounds hw hright hleft
  obtain ⟨hval, hsign, -⟩ := hw
  rw [← hreg] at hval hsign
  refine ⟨t, w, ht, hval, hsign.trans hneg, (hflag .de).trans hde, fun f hf => ?_, hr1, hr2, htop,
    htag⟩
  have hf' : f ∉ [Flag.ue, .pe] ∧ f ≠ .de := by
    simp only [List.mem_cons, List.not_mem_nil, or_false] at hf
    rcases hf with rfl | rfl | rfl | rfl <;> decide
  exact (hflag f).trans (((hcalc f).2 hf'.1).trans (passed_flag _ _ hf'.2))

/-! ### F2XM1 -/

theorem transF2xm1_spec {x : Ext} (rc : Rounding) :
    (transF2xm1 x rc).neg = signOf x ∧ transMag (transF2xm1 x rc) ≤ if signOf x then 1 / 2 else 1 := by
  have hpow : ∀ e : ℤ, ((2 ^ 63 + 0 : ℕ) : ℝ) * 2 ^ (e - 63) = 2 ^ e := fun e => (two_pow_63 e).symm
  rw [transF2xm1]
  by_cases h : Trans.atMost (Config.f2xm1 x rc) (if signOf x then -1 else 0) 0 = true
  · rw [if_pos h]
    refine ⟨rfl, (atMost_le h).trans_eq ?_⟩
    rw [hpow]
    cases signOf x <;> norm_num
  · rw [if_neg h]
    refine ⟨rfl, (hpow (-1)).trans_le ?_⟩
    cases signOf x <;> norm_num

theorem f2xm1_bounds {x r : Ext} {w : ℝ} {rc : Rounding} (h : Delivered (transF2xm1 x rc) r w) :
    -1 / 2 ≤ w ∧ w ≤ 1 ∧ signOf r = signOf x := by
  obtain ⟨hneg, hmag⟩ := transF2xm1_spec (x := x) rc
  obtain ⟨hval, hsign, hw⟩ := h
  rw [hneg] at hsign
  have htiny : (2 : ℝ) ^ (-16382 : ℤ) ≤ 1 / 2 :=
    (zpow_le_zpow_right₀ (by norm_num) (by norm_num : (-16382 : ℤ) ≤ -1)).trans_eq (by norm_num)
  have habs : |w| ≤ if signOf x then 1 / 2 else 1 := by
    rcases hw with hw | ⟨-, hw⟩
    · exact hw.trans_le hmag
    · refine hw.trans (htiny.trans ?_)
      cases signOf x <;> norm_num
  obtain ⟨hlo, hhi⟩ := abs_le.1 habs
  cases hx : signOf x <;> rw [hx] at hlo hhi hsign
  · have hw0 : 0 ≤ w := by
      by_contra hlt
      rw [not_le] at hlt
      rw [HasValue.sign hval hlt.ne, decide_eq_false_iff_not] at hsign
      exact hsign hlt
    exact ⟨by linarith, hhi, hsign⟩
  · simp only [if_true] at hlo hhi
    exact ⟨by linarith, by linarith, hsign⟩

theorem exponential {s : State} {a : ℝ} (hr : Ready .f2xm1 s) (h0 : s.isEmpty 0#3 = false)
    (hacc : AcceptsOperands .f2xm1 s) (hpass : DenormalsPass .f2xm1 s) (hu : s.cw.getLsbD 4 = true)
    (ha : HasValue (s.st 0#3) a) (ha0 : a ≠ 0) (hle : |a| ≤ 1) :
    ∃ (t : State) (v : ℝ), exec .f2xm1 s = .next t ∧ HasValue (t.reg (s.phys 0#3)) v ∧ -1 / 2 ≤ v ∧ v ≤ 1 ∧
      signOf (t.reg (s.phys 0#3)) = decide (a < 0) ∧ t.sw.de = (s.sw.de || denormalOperand .f2xm1 s) ∧
      ∀ f, f ∈ [Flag.ie, .ze, .sf] → t.sw.flag f = s.sw.flag f := by
  obtain ⟨t, ht, hshow⟩ := runs_open (i := .f2xm1) (by decide) hr trivial rfl
  rw [f2xm1_number h0 ha (denormal_one (i := .f2xm1) rfl rfl s) hpass fun _ => f2xm1_takes hacc ha ha0 hle,
    if_neg (mt (HasValue.class_zero ha).1 ha0)] at hshow
  obtain ⟨w, hw⟩ := finish_delivered (i := 0#3) (t := transF2xm1 (s.st 0#3) (rounding s.cw))
    (s := passed (denormalOperand .f2xm1 s) s) (by have := transF2xm1_exp (s.st 0#3) (rounding s.cw); omega) hu
  obtain ⟨hlo, hhi, hsign⟩ := f2xm1_bounds hw
  obtain ⟨hde, hflag⟩ := finished_flag (i := 0#3) (T := transF2xm1 (s.st 0#3) (rounding s.cw))
    (den := denormalOperand .f2xm1 s) (s := s)
  have hreg : t.reg (s.phys 0#3) = _ := hshow.reg _
  refine ⟨t, w, ht, ?_, hlo, hhi, ?_, hshow.de.trans hde, fun f hf => (hshow.flag f).trans (hflag f hf)⟩
  · rw [hreg]
    exact hw.1
  · rw [hreg]
    exact hsign.trans (HasValue.sign ha ha0)

/-! ### FYL2X and FYL2XP1 -/

/-- With overflow and underflow masked a finished answer has the sign of TRANS. -/
theorem finish_sign {i : BitVec 3} {T : Trans} {s : State} (ho : s.cw.getLsbD 3 = true) (hu : s.cw.getLsbD 4 = true) :
    signOf ((s.finish i T).reg (s.phys i)) = T.neg := by
  rcases lt_or_ge T.exp 16384 with h | h
  · obtain ⟨-, -, hsign, -⟩ := finish_delivered (i := i) h hu
    exact hsign
  · rw [State.finish, settle_overflow_masked (by rwa [leadExp_trans]) ho,
      reg_setSt_of_top (s := s) (x := marked true _ s.flagOverflow) rfl]
    split
    · exact signOf_infOf _
    · exact (largestExt_spec T.neg (by norm_num) le_rfl).2

/-- What the two logarithms leave of an answer of TRANS. -/
theorem logarithm_shown {i : Instr} {T : Trans} {s t : State} (ho : s.cw.getLsbD 3 = true) (hu : s.cw.getLsbD 4 = true)
    (h : Shows ((passed (denormalOperand i s) s).finish 1#3 T).pop t) :
    t.sw.top = s.sw.top + 1#3 ∧ t.tag (s.phys 0#3) = .empty ∧ signOf (t.reg (s.phys 1#3)) = T.neg ∧
      t.sw.de = (s.sw.de || denormalOperand i s) ∧ ∀ f, f ∈ [Flag.ie, .ze, .sf] → t.sw.flag f = s.sw.flag f := by
  obtain ⟨hreg, htop, htag, hflag⟩ := popped_finish h
  obtain ⟨hde, hkept⟩ := finished_flag (i := 1#3) (T := T) (den := denormalOperand i s) (s := s)
  refine ⟨htop, htag, ?_, (hflag .de).trans hde, fun f hf => (hflag f).trans (hkept f hf)⟩
  rw [hreg]
  exact finish_sign (s := passed (denormalOperand i s) s) ho hu

theorem logarithm_sign {i : Instr} {s : State} {x y : ℝ} (hi : i ∈ [Instr.fyl2x, .fyl2xp1]) (hr : Ready i s)
    (he : BothFull s) (hpass : DenormalsPass i s) (hx : HasValue (s.st 0#3) x) (hy : HasValue (s.st 1#3) y)
    (hx0 : x ≠ 0) (hy0 : y ≠ 0) (hpos : i = .fyl2x → 0 < x ∧ x ≠ 1) (hle : i = .fyl2xp1 → |x| ≤ 1 - Real.sqrt 2 / 2) :
    ∃ T t, T.neg = (decide (y < 0) ^^ decide (if i = .fyl2x then x < 1 else x < 0)) ∧ exec i s = .next t ∧
      Shows ((passed (denormalOperand i s) s).finish 1#3 T).pop t := by
  have hn : BothNumbers s := ⟨isNumber_of_value hx, isNumber_of_value hy⟩
  have hxz := mt (HasValue.class_zero hx).1 hx0
  have hyz := mt (HasValue.class_zero hy).1 hy0
  have hxi := class_ne_infinity hx
  have hyi := class_ne_infinity hy
  have hsx := HasValue.sign hx hx0
  have hsy := HasValue.sign hy hy0
  simp only [List.mem_cons, List.not_mem_nil, or_false] at hi
  rcases hi with rfl | rfl
  · obtain ⟨h0, h1⟩ := hpos rfl
    have hinv : yl2xInvalid (s.st 1#3) (s.st 0#3) = false := by
      simp [yl2xInvalid, hsx, h0.not_gt, hyz, hyi]
    have hone : isOne (s.st 0#3) = false := by
      rw [← Bool.not_eq_true, isOne_iff hx]
      exact h1
    have hexact : yl2xExact (s.st 1#3) (s.st 0#3) = none := by
      rw [yl2xExact, if_neg hxi, if_neg hyi, if_neg hyz, hone, if_neg (by decide)]
    obtain ⟨t, ht, hshow⟩ := pair_runs (i := .fyl2x) rfl (by decide) hr trivial he hn
    rw [yl2x_number hinv (fun h => hxz h.1) (denormal_two (i := .fyl2x) rfl rfl s) hpass, hexact] at hshow
    refine ⟨transYl2x (s.st 1#3) (s.st 0#3) (rounding s.cw), t, ?_, ht, hshow⟩
    simp only [if_true, transYl2x, hsy, belowOne_eq hx]
  · obtain ⟨t, ht, hshow⟩ := pair_runs (i := .fyl2xp1) rfl (by decide) hr trivial he hn
    rw [yl2xp1_number hxi (yl2xp1_inRange hx (hle rfl)) (fun h => hxz h.1) (denormal_two (i := .fyl2xp1) rfl rfl s) hpass,
      if_neg (not_or.2 ⟨hxz, hyz⟩), if_neg hyi] at hshow
    refine ⟨transYl2xp1 (s.st 1#3) (s.st 0#3) (rounding s.cw), t, ?_, ht, hshow⟩
    simp only [reduceCtorEq, if_false, transYl2xp1, hsy, hsx]

/-- Settles O34. -/
theorem exponentialAndLogarithms : Obligations.ExponentialAndLogarithms := by
  unfold Obligations.ExponentialAndLogarithms
  refine ⟨fun s a hr h0 hacc hpass hu ha ha0 hle => exponential hr h0 hacc hpass hu ha ha0 hle, ?_⟩
  intro i s x y hi hr h0 h1 hpass ho hu hx hy hx0 hy0 hpos hle
  obtain ⟨T, t, hneg, ht, hshow⟩ := logarithm_sign hi hr ⟨h0, h1⟩ hpass hx hy hx0 hy0 hpos hle
  obtain ⟨htop, htag, hsign, hde, hflag⟩ := logarithm_shown ho hu hshow
  exact ⟨t, ht, htop, htag, hsign.trans hneg, hde, hflag⟩

end Sys2Proof.Laws.Quadrants
end

section
/-! Loads with a conversion: integers, packed decimal numbers and the narrower real formats (rules R330, R341 to R343,
R350, R351). -/

namespace Sys2Proof.Laws.Loads

open Sys2Proof.Machine Sys2Proof.Laws Sys2Proof.Laws.Shapes Sys2Proof.Laws.Frame Sys2Proof.Laws.SignBit
open Sys2Proof.Laws.Answers Sys2Proof.Laws.Moves Sys2Proof.Laws.Values Sys2Proof.Laws.Sources Sys2Proof.Laws.Operands
open Sys2Proof.Laws.Comparison Sys2Proof.Laws.Control

/-- A load of a value onto a free register. -/
theorem runs_load {i : Instr} {s : State} {v : Ext} (hf : familyOf i ≠ .control) (hr : Ready i s)
    (ho : OperandThere i s) (h7 : s.isEmpty 7#3 = true) (hafter : afterOf i s = (s.load v).openC023) :
    ∃ t, exec i s = .next t ∧ t.sw.top = s.sw.top - 1#3 ∧ t.st 0#3 = v ∧ t.sw.c1 = false ∧
      ∀ f, t.sw.flag f = s.sw.flag f := by
  rw [load_free h7] at hafter
  obtain ⟨t, ht, hshow⟩ := runs_open hf hr ho hafter
  obtain ⟨htop, hst, -, hc1, hflag⟩ := pushed hshow
  exact ⟨t, ht, htop, hst, hc1, hflag⟩

/-! ### Integers -/

theorem load_integer {w : Nat} {mk : Addr → Instr} {a : Addr} {s : State}
    (hmem : (w, mk) ∈ [(16, Instr.fildM16), (32, Instr.fildM32), (64, Instr.fildM64)]) (hr : Ready (mk a) s)
    (ho : OperandThere (mk a) s) (h7 : s.isEmpty 7#3 = true) :
    ∃ t, exec (mk a) s = .next t ∧ t.sw.top = s.sw.top - 1#3 ∧ HasValue (t.st 0#3) (intAt w a s : ℝ) ∧
      t.sw.c1 = false ∧ ∀ f, t.sw.flag f = s.sw.flag f := by
  obtain ⟨hf, hw, hafter⟩ : familyOf (mk a) ≠ .control ∧ (w = 16 ∨ w = 32 ∨ w = 64) ∧
      afterOf (mk a) s = (s.load (intToExt (signedOf w (leNat (s.bytesAt a (w / 8)))))).openC023 := by
    simp only [List.mem_cons, Prod.mk.injEq, List.not_mem_nil, or_false] at hmem
    rcases hmem with ⟨rfl, rfl⟩ | ⟨rfl, rfl⟩ | ⟨rfl, rfl⟩
    · exact ⟨nofun, .inl rfl, afterOf_load (i := .fildM16 a) rfl s⟩
    · exact ⟨nofun, .inr (.inl rfl), afterOf_load (i := .fildM32 a) rfl s⟩
    · exact ⟨nofun, .inr (.inr rfl), afterOf_load (i := .fildM64 a) rfl s⟩
  obtain ⟨hint, hlt⟩ := intAt_spec hw a s
  rw [hint] at hafter
  obtain ⟨t, ht, htop, hst, hc1, hflag⟩ := runs_load hf hr ho h7 hafter
  exact ⟨t, ht, htop, hst ▸ (intToExt_spec hlt).1, hc1, hflag⟩

/-! ### Packed decimal numbers -/

theorem digitByte_toNat {d e : Nat} (hd : d < 10) (he : e < 10) : (BitVec.ofNat 8 (d + 16 * e)).toNat = d + 16 * e := by
  rw [BitVec.toNat_ofNat, Nat.mod_eq_of_lt (by omega)]

/-- Bytes that write digits are valid and have the value of the digits, lowest first. -/
theorem bcd_readBytes (m : List Host.Cell) (n a : Nat) (d : Nat → Nat) (hd : ∀ k, d k < 10)
    (h : ∀ k < n, Memory.read m (a + k) = BitVec.ofNat 8 (d (2 * k) + 16 * d (2 * k + 1))) :
    bcdValid (Memory.readBytes m a n) = true ∧
      bcdMagnitude (Memory.readBytes m a n) = ∑ k ∈ Finset.range (2 * n), d k * 10 ^ k := by
  induction n generalizing a d with
  | zero => exact ⟨rfl, rfl⟩
  | succ n ih =>
    have hfirst := h 0 (Nat.succ_pos n)
    rw [Nat.add_zero, Nat.mul_zero] at hfirst
    obtain ⟨hvalid, hmag⟩ := ih (a + 1) (fun k => d (k + 2)) (fun k => hd _) fun k hk => by
      rw [Nat.add_assoc, Nat.add_comm 1 k, h (k + 1) (by omega)]
      rfl
    have hd0 := hd 0
    have hd1 := hd (0 + 1)
    have hlow : (d 0 + 16 * d (0 + 1)) % 16 = d 0 := by omega
    have hhigh : (d 0 + 16 * d (0 + 1)) / 16 = d (0 + 1) := by omega
    rw [Memory.readBytes, bcdValid, bcdMagnitude, hfirst, digitByte_toNat hd0 hd1, hlow, hhigh, hvalid, hmag]
    refine ⟨by simp [Nat.le_of_lt_succ hd0, Nat.le_of_lt_succ hd1], ?_⟩
    rw [show 2 * (n + 1) = 2 * n + 1 + 1 from rfl, Finset.sum_range_succ', Finset.sum_range_succ', Finset.mul_sum]
    have hterm : ∀ k ∈ Finset.range (2 * n), 100 * (d (k + 2) * 10 ^ k) = d (k + 1 + 1) * 10 ^ (k + 1 + 1) := fun k _ => by
      ring
    rw [Finset.sum_congr rfl hterm]
    ring

/-- The digits as a function of all positions. -/
def digitAt (digit : Fin 18 → Fin 10) (k : Nat) : Nat := if h : k < 18 then (digit ⟨k, h⟩).val else 0

theorem digitAt_lt (digit : Fin 18 → Fin 10) (k : Nat) : digitAt digit k < 10 := by
  unfold digitAt
  split
  · exact (digit _).isLt
  · decide

theorem sum_digitAt (digit : Fin 18 → Fin 10) :
    ((∑ k ∈ Finset.range 18, digitAt digit k * 10 ^ k : ℕ) : ℝ) = ∑ k : Fin 18, (digit k).val * (10 : ℝ) ^ k.val := by
  rw [← Fin.sum_univ_eq_sum_range (fun k => digitAt digit k * 10 ^ k) 18, Nat.cast_sum]
  refine Finset.sum_congr rfl fun k _ => ?_
  rw [digitAt, dif_pos k.isLt]
  push_cast
  rfl

theorem sum_digits_lt {d : Nat → Nat} (hd : ∀ k, d k < 10) (n : Nat) : ∑ k ∈ Finset.range n, d k * 10 ^ k < 10 ^ n := by
  induction n with
  | zero => simp
  | succ n ih =>
    have hn : d n * 10 ^ n ≤ 9 * 10 ^ n := Nat.mul_le_mul_right _ (Nat.le_of_lt_succ (hd n))
    rw [Finset.sum_range_succ, pow_succ]
    omega

theorem load_decimal {a : Addr} {s : State} {digit : Fin 18 → Fin 10} {sign : Byte} (hr : Ready (.fbld a) s)
    (ho : OperandThere (.fbld a) s) (h7 : s.isEmpty 7#3 = true)
    (hdigits : ∀ k : Fin 9, s.byteAt (a.toNat + k.val) = BitVec.ofNat 8
      ((digit ⟨2 * k.val, by omega⟩).val + 16 * (digit ⟨2 * k.val + 1, by omega⟩).val))
    (hsign : s.byteAt (a.toNat + 9) = sign) :
    ∃ t, exec (.fbld a) s = .next t ∧ t.sw.top = s.sw.top - 1#3 ∧
      HasValue (t.st 0#3) ((if sign.getLsbD 7 then -1 else 1) * ∑ k : Fin 18, (digit k).val * (10 : ℝ) ^ k.val) ∧
      signOf (t.st 0#3) = sign.getLsbD 7 ∧ t.sw.c1 = false := by
  obtain ⟨hvalid, hmag⟩ := bcd_readBytes s.mem 9 a.toNat (digitAt digit) (digitAt_lt digit) fun k hk => by
    rw [digitAt, digitAt, dif_pos (by omega), dif_pos (by omega)]
    exact hdigits ⟨k, hk⟩
  have htake : (s.bytesAt a 10).take 9 = Memory.readBytes s.mem a.toNat 9 := rfl
  have hlast : (s.bytesAt a 10).getD 9 0#8 = sign := hsign
  have hafter : afterOf (.fbld a) s =
      (s.load (extOf (sign.getLsbD 7) (∑ k ∈ Finset.range 18, digitAt digit k * 10 ^ k) 0)).openC023 := by
    refine (afterOf_load (i := .fbld a) rfl s).trans ?_
    rw [show addressOf (.fbld a) = a from rfl, show widthOf s.cfg (.fbld a) = 10 from rfl, State.loadBcd, htake, hvalid,
      if_pos rfl, hlast, hmag]
  have hlt := sum_digits_lt (digitAt_lt digit) 18
  obtain ⟨hval, hs, -⟩ := extOf_moderate (sign.getLsbD 7) (e := 0)
    (show ∑ k ∈ Finset.range 18, digitAt digit k * 10 ^ k < 2 ^ 64 by omega) (by omega) (by omega)
  obtain ⟨t, ht, htop, hst, hc1, -⟩ := runs_load (i := .fbld a) nofun hr ho h7 hafter
  refine ⟨t, ht, htop, ?_, hst ▸ hs, hc1⟩
  rw [hst, ← sum_digitAt, ← signed_eq]
  simpa only [zpow_zero, mul_one] using hval

/-- Settles O35. -/
theorem loadIntegerAndBcdExact : Obligations.LoadIntegerAndBcdExact := by
  unfold Obligations.LoadIntegerAndBcdExact
  exact ⟨fun w mk a s hmem hr ho h7 => load_integer hmem hr ho h7,
    fun a s digit sign hr ho h7 hdigits hsign => load_decimal hr ho h7 hdigits hsign⟩

/-! ### The narrower real formats -/

theorem real_rule {f : RealFmt} {mk : Addr → Instr} (h : (f, mk) ∈ [(single, Instr.fldM32), (double, Instr.fldM64)])
    (a : Addr) (s : State) :
    Narrow f ∧ familyOf (mk a) = .load ∧ afterOf (mk a) s = (s.loadReal (operandOf (.real f) a s)).openC023 := by
  simp only [List.mem_cons, Prod.mk.injEq, List.not_mem_nil, or_false] at h
  rcases h with ⟨rfl, rfl⟩ | ⟨rfl, rfl⟩
  · exact ⟨.inl rfl, rfl, afterOf_load (i := .fldM32 a) rfl s⟩
  · exact ⟨.inr rfl, rfl, afterOf_load (i := .fldM64 a) rfl s⟩

/-- The state in which a loaded denormal is flagged: with DM = 0 too the push goes on. -/
theorem loadReal_pushes {b : Operand} {s : State} (h7 : s.isEmpty 7#3 = true) (hs : isSNaN b.bits = false) :
    ∃ u : State, s.loadReal b = (u.push b.bits).withC1 false ∧ u.sw.top = s.sw.top ∧ u.sw.de = (s.sw.de || b.denMem) ∧
      ∀ g, g ≠ .de → u.sw.flag g = s.sw.flag g := by
  rw [State.loadReal, if_neg (by rw [h7]; decide), hs, if_neg (by decide)]
  refine ⟨_, rfl, ?_⟩
  cases b.denMem
  · exact ⟨rfl, (Bool.or_false _).symm, fun g _ => rfl⟩
  · rw [if_pos rfl, State.raiseDenormal]
    split
    · exact ⟨rfl, (Bool.or_true _).symm, fun g hg => by cases g <;> first | rfl | contradiction⟩
    · exact ⟨rfl, (Bool.or_true _).symm, fun g hg => by cases g <;> first | rfl | contradiction⟩

/-- Loads keep the control word. -/
theorem load_cw {i : Instr} {s t : State} (hf : familyOf i = .load) (hr : Ready i s) (ho : OperandThere i s)
    (ht : exec i s = .next t) : t.cw = s.cw := by
  have hctl : familyOf i ≠ .control := by rw [hf]; decide
  have hcalc := afterOf_calc (holds_calc hctl (by rw [hf]; decide)) (shape_of_family hctl (by rw [hf]; decide)) s
  rw [exec_computes hctl hr ho] at ht
  obtain rfl := Host.Outcome.next.inj ht
  rw [retire_cw, hcalc.cw]

theorem load_number {f : RealFmt} {mk : Addr → Instr} {a : Addr} {s : State} {v : ℝ}
    (h : (f, mk) ∈ [(single, Instr.fldM32), (double, Instr.fldM64)]) (hr : Ready (mk a) s)
    (ho : OperandThere (mk a) s) (h7 : s.isEmpty 7#3 = true) (hv : FormatValue f (leNat (s.bytesAt a f.bytes)) v) :
    ∃ (t : State) (den : Bool), exec (mk a) s = .next t ∧ t.sw.top = s.sw.top - 1#3 ∧ HasValue (t.st 0#3) v ∧
      signOf (t.st 0#3) = f.negOf (leNat (s.bytesAt a f.bytes)) ∧ t.sw.c1 = false ∧
      (den = true ↔ v ≠ 0 ∧ f.expoOf (leNat (s.bytesAt a f.bytes)) = 0) ∧ t.sw.de = (s.sw.de || den) ∧
      (den = true → s.cw.getLsbD 1 = false → t.swWord.getLsbD 7 = true) ∧
      ∀ g, g ≠ .de → t.sw.flag g = s.sw.flag g := by
  obtain ⟨hf, hfam, hafter⟩ := real_rule h a s
  obtain ⟨hval, hsign, -, -⟩ := toExt_value hf hv
  have hb : operandOf (.real f) a s = f.toExt (leNat (s.bytesAt a f.bytes)) := rfl
  rw [hb] at hafter
  obtain ⟨u, hu, htop, hde, hflag⟩ := loadReal_pushes (b := f.toExt (leNat (s.bytesAt a f.bytes))) h7
    (not_snan_of_class (isNumber_classes (isNumber_of_extended (.inl ⟨_, hval, rfl⟩))).2.1)
  rw [hu] at hafter
  obtain ⟨t, ht, hshow⟩ := runs_open (by rw [hfam]; decide) hr ho hafter
  obtain ⟨ttop, tst, -, tc1, tflag⟩ := pushed hshow
  have tde : t.sw.de = (s.sw.de || (f.toExt (leNat (s.bytesAt a f.bytes))).denMem) := (tflag .de).trans hde
  refine ⟨t, _, ht, ttop.trans (by rw [htop]), tst ▸ hval, tst ▸ hsign, tc1, ?_, tde, fun hden hm => ?_,
    fun g hg => (tflag g).trans (hflag g hg)⟩
  · obtain ⟨hlt, rfl⟩ := (formatValue_iff f _ v).1 hv
    rw [toExt_finite hlt, Bool.and_eq_true, decide_eq_true_eq, decide_eq_true_eq, and_comm]
    refine and_congr_left fun h0 => not_congr ?_
    rw [mantOf, if_pos h0, ← abs_eq_zero, signed_abs _ (by positivity), mul_eq_zero,
      or_iff_left (two_zpow_pos _).ne', Nat.cast_eq_zero]
  · rw [hden, Bool.or_true] at tde
    rw [(Invariant.swWord_summary t).1, State.es, tde, load_cw hfam hr ho ht, hm]
    simp

theorem load_special {f : RealFmt} {mk : Addr → Instr} {a : Addr} {s : State} {v : Ext}
    (h : (f, mk) ∈ [(single, Instr.fldM32), (double, Instr.fldM64)]) (hr : Ready (mk a) s)
    (ho : OperandThere (mk a) s) (h7 : s.isEmpty 7#3 = true)
    (hmax : f.expoOf (leNat (s.bytesAt a f.bytes)) = f.expMax) (hv : SourceBits (.real f) a s v) :
    ∃ t, exec (mk a) s = .next t ∧ t.sw.c1 = false ∧ t.sw.ie = (s.sw.ie || isSNaN v) ∧
      (∀ g, g ≠ .ie → t.sw.flag g = s.sw.flag g) ∧
      (if isSNaN v = true ∧ s.cw.getLsbD 0 = false then Untouched s t
       else t.sw.top = s.sw.top - 1#3 ∧ t.st 0#3 = (if isSNaN v then quiet v else v)) := by
  obtain ⟨hf, hfam, hafter⟩ := real_rule h a s
  have hbits := operandOf_bits (k := .real f) hf hv
  have hden : (operandOf (.real f) a s).denMem = false := congrArg Operand.denMem (toExt_special hmax)
  obtain ⟨t, ht, hshow⟩ := runs_open (by rw [hfam]; decide) hr ho hafter
  cases hs : isSNaN v
  · obtain ⟨u, hu, htop, hde, hflag⟩ := loadReal_pushes (b := operandOf (.real f) a s) h7 (hbits ▸ hs)
    rw [hu, hbits] at hshow
    rw [hden, Bool.or_false] at hde
    obtain ⟨ttop, tst, -, tc1, tflag⟩ := pushed hshow
    have hall : ∀ g, u.sw.flag g = s.sw.flag g := fun g => by
      by_cases hg : g = .de
      · rw [hg]
        exact hde
      · exact hflag g hg
    rw [if_neg (by decide), Bool.or_false]
    exact ⟨t, ht, tc1, (tflag .ie).trans (hall .ie), fun g _ => (tflag g).trans (hall g), ttop.trans (by rw [htop]), tst⟩
  · rw [State.loadReal, if_neg (by rw [h7]; decide), hbits, if_pos hs] at hshow
    obtain ⟨hie, hc1, hrest⟩ := hshow.invalid (raiseInvalid_flags (answering_push (quiet v)) s)
    refine ⟨t, ht, hc1, hie.trans (Bool.or_true _).symm, hrest, ?_⟩
    rw [raiseInvalid_eq] at hshow
    by_cases hm : s.cw.getLsbD 0 = true
    · rw [if_pos hm] at hshow
      rw [if_neg (by rw [hm]; decide)]
      exact ⟨hshow.top, (hshow.st _).trans (st_push_zero _ _)⟩
    · rw [if_neg hm] at hshow
      rw [if_pos ⟨rfl, Bool.eq_false_iff.2 hm⟩]
      exact hshow.untouched (untouched_of_eq rfl rfl rfl rfl)

/-- Settles O36. -/
theorem loadRealExact : Obligations.LoadRealExact := by
  unfold Obligations.LoadRealExact
  exact fun f mk a s h hr ho h7 => ⟨fun v hv => load_number h hr ho h7 hv, fun v hmax hv => load_special h hr ho h7 hmax hv⟩

end Sys2Proof.Laws.Loads
end

section
/-! Stores of a rounded integer: FIST, FISTP and FBSTP (rules R61, R331, R344). -/

namespace Sys2Proof.Laws.IntegerStores

open Sys2Proof.Machine Sys2Proof.Laws Sys2Proof.Laws.Shapes Sys2Proof.Laws.Frame Sys2Proof.Laws.SignBit
open Sys2Proof.Laws.Answers Sys2Proof.Laws.Moves Sys2Proof.Laws.Values Sys2Proof.Laws.Sources Sys2Proof.Laws.Operands
open Sys2Proof.Laws.Comparison Sys2Proof.Laws.Special Sys2Proof.Laws.Delivery Sys2Proof.Laws.Rounding Sys2Proof.Laws.Loads

/-! ### What a store shows -/

section
variable {s t u : State} {a : Addr} {bs : List Byte} {pop : Bool}

/-- The bytes are at the operand and the pop of the form is done. -/
structure StoredPopped (a : Addr) (bs : List Byte) (pop : Bool) (s t : State) : Prop where
  bytes : t.bytesAt a bs.length = bs
  top   : t.sw.top = s.sw.top + (if pop then 1#3 else 0#3)
  tag   : pop = true → t.tag (s.phys 0#3) = .empty

/-- A store of bytes after which only flags and the pop have changed the state. -/
theorem stored_popped (hm : Memory.wf s.mem) (hu : u.mem = s.mem) (htop : u.sw.top = s.sw.top)
    (h : Shows (storedAt a (State.popIf pop u, some bs)) t) :
    StoredPopped a bs pop s t ∧ (∀ f, t.sw.flag f = u.sw.flag f) ∧ t.sw.c1 = u.sw.c1 := by
  have hans := answering_popIf pop
  have hflag : ∀ f, t.sw.flag f = u.sw.flag f := fun f => (h.flag f).trans (hans.flag u f)
  refine ⟨⟨stored_bytes hm ((hans.mem u).trans hu) rfl h, ?_, fun hp => ?_⟩, hflag, h.c1.trans (hans.c1 u)⟩
  · exact h.top.trans ((writes_popIf 0#80 pop).2 s u htop).1
  · subst hp
    have hp : s.phys 0#3 = u.sw.top := by rw [State.phys, htop, BitVec.add_zero]
    rw [h.tag, hp]
    exact (tag_pop u u.sw.top).trans (if_pos rfl)

/-- The response of a store that is refused: masked, the indefinite and the pop, else nothing. -/
abbrev StoreResponse (a : Addr) (bs : List Byte) (pop : Bool) (s t : State) : Prop :=
  if s.cw.getLsbD 0 then StoredPopped a bs pop s t else Untouched s t

theorem storeInvalid_shown (hm : Memory.wf s.mem) (h : Shows (storedAt a (s.storeInvalid bs pop)) t) :
    InvalidFlags s t ∧ StoreResponse a bs pop s t := by
  rw [State.storeInvalid, raiseInvalid_eq] at h
  obtain ⟨hie, hc1, hrest⟩ := invalidFlagged_flags s
  by_cases hc : s.cw.getLsbD 0 = true
  · rw [if_pos hc, if_pos hc] at h
    obtain ⟨hst, hflag, htc1⟩ := stored_popped (u := invalidFlagged s) hm rfl rfl h
    exact ⟨⟨(hflag .ie).trans hie, htc1.trans hc1, fun f hf => (hflag f).trans (hrest f hf)⟩, (if_pos hc).mpr hst⟩
  · rw [if_neg hc, if_neg hc] at h
    have h : Shows (invalidFlagged s) t := h
    exact ⟨h.invalid (invalidFlagged_flags s),
      (if_neg hc).mpr (h.untouched (untouched_of_eq (u := invalidFlagged s) rfl rfl rfl rfl))⟩

theorem storeStack_shown (hm : Memory.wf s.mem) (h : Shows (storedAt a (s.storeStack bs pop)) t) :
    StackFaultFlags false s t ∧ StoreResponse a bs pop s t := by
  rw [State.storeStack, raiseStack_eq] at h
  obtain ⟨hie, hsf, hc1, hrest⟩ := stackFlagged_flags false s
  by_cases hc : s.cw.getLsbD 0 = true
  · rw [if_pos hc, if_pos hc] at h
    obtain ⟨hst, hflag, htc1⟩ := stored_popped (u := stackFlagged false s) hm rfl rfl h
    exact ⟨⟨(hflag .ie).trans hie, (hflag .sf).trans hsf, htc1.trans hc1,
      fun f h1 h2 => (hflag f).trans (hrest f h1 h2)⟩, (if_pos hc).mpr hst⟩
  · rw [if_neg hc, if_neg hc] at h
    have h : Shows (stackFlagged false s) t := h
    exact ⟨h.stackFault (stackFlagged_flags false s),
      (if_neg hc).mpr (h.untouched (untouched_of_eq (u := stackFlagged false s) rfl rfl rfl rfl))⟩

end

/-! ### The rounded integer (rule R61) -/

theorem toInteger_spec {x : Ext} {v y : ℝ} {rc : Rounding} {inexact up : Bool} (hx : HasValue x v)
    (h : RoundedTo 0 rc v y inexact up) :
    y = signed (signOf x) (toInteger x rc).mant ∧ (toInteger x rc).inexact = inexact ∧ (toInteger x rc).up = up := by
  rw [toInteger]
  by_cases hz : classOf x = .zero
  · obtain rfl := (HasValue.class_zero hx).1 hz
    obtain ⟨rfl, rfl, rfl⟩ := RoundedTo.of_zero h
    rw [if_pos hz, Nat.cast_zero, signed_zero]
    exact ⟨rfl, rfl, rfl⟩
  · have hfin : classOf x = .normal ∨ classOf x = .denormal := ((hasValue_iff x v).1 hx).1.resolve_left hz
    have hspec := Mag.roundTo_spec (dyad_mag_ok (valOf_finite hfin).1) (signOf x) 0 rc
    rw [dyad_mag_real, ← HasValue.eq hx, Mag.roundTo_exp, zpow_zero, mul_one] at hspec
    obtain ⟨hy, hi, hu⟩ := RoundedTo.unique h hspec
    rw [if_neg hz]
    exact ⟨hy, hi.symm, hu.symm⟩

theorem notANumber_iff (x : Ext) : notANumber x = true ↔ classOf x ∈ [Machine.Class.nan, .infinity, .unsupported] := by
  rw [notANumber]
  cases classOf x <;> decide

theorem notANumber_of_value {x : Ext} {v : ℝ} (h : HasValue x v) : notANumber x = false := by
  rw [← Bool.not_eq_true, notANumber_iff]
  rcases ((hasValue_iff x v).1 h).1 with hc | hc | hc <;> rw [hc] <;> decide

section
variable {s t : State} {a : Addr} {fits : Nat → Bool} {image : Nat → List Byte} {bad : List Byte} {pop : Bool}

/-- A number whose integer fits is stored. -/
theorem storeRounded_fits {v y : ℝ} {inexact up : Bool} (hm : Memory.wf s.mem) (h0 : s.isEmpty 0#3 = false)
    (hv : HasValue (s.st 0#3) v) (hr : RoundedTo 0 (rounding s.cw) v y inexact up)
    (hfit : fits (toInteger (s.st 0#3) (rounding s.cw)).mant = true)
    (h : Shows (storedAt a (s.storeRounded fits image bad pop)) t) :
    StoredPopped a (image (toInteger (s.st 0#3) (rounding s.cw)).mant) pop s t ∧ t.sw.c1 = up ∧
      t.sw.pe = (s.sw.pe || inexact) ∧ t.sw.ie = s.sw.ie := by
  obtain ⟨-, hi, hu⟩ := toInteger_spec hv hr
  rw [State.storeRounded, if_neg (by rw [h0]; decide), notANumber_of_value hv, if_neg (by decide), hfit,
    if_neg (by decide), hi, hu, inexactOr_eq (RoundedTo.up_inexact hr)] at h
  obtain ⟨hst, hflag, hc1⟩ := stored_popped (u := marked inexact up s) hm rfl rfl h
  exact ⟨hst, hc1, hflag .pe, (hflag .ie).trans (marked_flag _ _ _ (by decide))⟩

/-- What is no number or does not fit is refused. -/
theorem storeRounded_refused (hm : Memory.wf s.mem) (h0 : s.isEmpty 0#3 = false)
    (hbad : classOf (s.st 0#3) ∈ [Machine.Class.nan, .infinity, .unsupported] ∨
      fits (toInteger (s.st 0#3) (rounding s.cw)).mant = false)
    (h : Shows (storedAt a (s.storeRounded fits image bad pop)) t) :
    InvalidFlags s t ∧ StoreResponse a bad pop s t := by
  refine storeInvalid_shown hm ?_
  rw [State.storeRounded, if_neg (by rw [h0]; decide)] at h
  by_cases hn : notANumber (s.st 0#3) = true
  · rwa [if_pos hn] at h
  · have hfit := hbad.resolve_left (mt (notANumber_iff _).2 hn)
    rwa [if_neg hn, hfit, if_pos (by decide)] at h

end

/-! ### FIST and FISTP -/

theorem withSign_cast (neg : Bool) (n : Nat) : ((withSign neg n : ℤ) : ℝ) = signed neg n := by
  cases neg
  · exact Int.cast_natCast n
  · exact (Int.cast_neg _).trans (congrArg _ (Int.cast_natCast n))

/-- The range test of FIST and FISTP. -/
def fitsWidth (w : Nat) (neg : Bool) (n : Nat) : Bool :=
  decide (-(2 ^ (w - 1) : Int) ≤ withSign neg n) && decide (withSign neg n < 2 ^ (w - 1))

theorem fitsWidth_iff {w : Nat} (hw : 0 < w) (neg : Bool) (n : Nat) :
    fitsWidth w neg n = true ↔ -(2 : ℝ) ^ ((w : ℤ) - 1) ≤ signed neg n ∧ signed neg n < (2 : ℝ) ^ ((w : ℤ) - 1) := by
  have hpow : (2 : ℝ) ^ ((w : ℤ) - 1) = ((2 ^ (w - 1) : ℤ) : ℝ) := by
    rw [show (w : ℤ) - 1 = ((w - 1 : ℕ) : ℤ) by omega, zpow_natCast]
    push_cast
    rfl
  rw [fitsWidth, Bool.and_eq_true, decide_eq_true_eq, decide_eq_true_eq, hpow, ← withSign_cast, ← Int.cast_neg,
    Int.cast_le, Int.cast_lt]

/-- The bytes of an integer in range are those of its two's complement. -/
theorem toInt_leBytes {w : Nat} (hw : w = 16 ∨ w = 32 ∨ w = 64) {z : Int} (h1 : -2 ^ (w - 1) ≤ z)
    (h2 : z < 2 ^ (w - 1)) : (BitVec.ofNat w (leNat (leBytes (w / 8) (unsignedOf w z)))).toInt = z := by
  have hpow : 256 ^ (w / 8) = 2 ^ w := by rcases hw with rfl | rfl | rfl <;> norm_num
  have hbits : BitVec.ofNat w (leNat (leBytes (w / 8) (unsignedOf w z))) = BitVec.ofInt w z := by
    refine BitVec.eq_of_toNat_eq ?_
    rw [BitVec.toNat_ofNat, leNat_leBytes, hpow, Nat.mod_mod, BitVec.toNat_ofInt, unsignedOf]
    have hlt : (z % 2 ^ w).toNat < 2 ^ w := by
      have hpos : (0 : ℤ) < 2 ^ w := by positivity
      have h1 := Int.emod_nonneg z hpos.ne'
      have h2 := Int.emod_lt_of_pos z hpos
      rw [← Int.ofNat_lt, Int.toNat_of_nonneg h1]
      push_cast
      exact h2
    rw [Nat.mod_eq_of_lt hlt]
    push_cast
    rfl
  rw [hbits]
  exact BitVec.toInt_ofInt_eq_self (by omega) h1 h2

theorem fist_rule {w : Nat} {pop : Bool} {mk : Addr → Instr}
    (h : (w, pop, mk) ∈ [(16, false, Instr.fistM16), (32, false, Instr.fistM32), (16, true, Instr.fistpM16),
      (32, true, Instr.fistpM32), (64, true, Instr.fistpM64)]) (a : Addr) :
    (w = 16 ∨ w = 32 ∨ w = 64) ∧ familyOf (mk a) ≠ .control ∧ addressOf (mk a) = a ∧
      shapeOf (mk a) = .store fun s => openAfter (s.storeInt w pop) := by
  simp only [List.mem_cons, Prod.mk.injEq, List.not_mem_nil, or_false] at h
  rcases h with ⟨rfl, rfl, rfl⟩ | ⟨rfl, rfl, rfl⟩ | ⟨rfl, rfl, rfl⟩ | ⟨rfl, rfl, rfl⟩ | ⟨rfl, rfl, rfl⟩ <;>
    exact ⟨by decide, nofun, rfl, rfl⟩

theorem leNat_intIndef {w : Nat} (hw : w = 16 ∨ w = 32 ∨ w = 64) :
    leNat (leBytes (w / 8) (intIndef w)) = 2 ^ (w - 1) := by
  rcases hw with rfl | rfl | rfl <;> decide

/-- Settles O41. -/
theorem storeIntegerRounded : Obligations.StoreIntegerRounded := by
  unfold Obligations.StoreIntegerRounded
  intro w pop mk a s hmem hr ho hm
  obtain ⟨hw, hf, haddr, hshape⟩ := fist_rule hmem a
  obtain ⟨t, ht, hshow⟩ := runs_store hf hr ho hshape
  rw [haddr] at hshow
  have hlen : ∀ n, (leBytes (w / 8) n).length = w / 8 := fun n => length_leBytes _ _
  have fitting : ∀ (v y : ℝ) (inexact up : Bool), HasValue (s.st 0#3) v → RoundedTo 0 (rounding s.cw) v y inexact up →
      (fitsWidth w (signOf (s.st 0#3)) (toInteger (s.st 0#3) (rounding s.cw)).mant = true ↔
        -(2 : ℝ) ^ ((w : ℤ) - 1) ≤ y ∧ y < (2 : ℝ) ^ ((w : ℤ) - 1)) := fun v y inexact up hv hround => by
    rw [fitsWidth_iff (by omega), ← (toInteger_spec hv hround).1]
  have refused : s.isEmpty 0#3 = false → classOf (s.st 0#3) ∈ [Machine.Class.nan, .infinity, .unsupported] ∨
      (∃ (v y : ℝ) (inexact up : Bool), HasValue (s.st 0#3) v ∧ RoundedTo 0 (rounding s.cw) v y inexact up ∧
        ¬(-(2 : ℝ) ^ ((w : ℤ) - 1) ≤ y ∧ y < (2 : ℝ) ^ ((w : ℤ) - 1))) →
      InvalidFlags s t ∧ StoreResponse a (leBytes (w / 8) (intIndef w)) pop s t := fun h0 hbad =>
    storeRounded_refused (fits := fitsWidth w (signOf (s.st 0#3))) hm h0
      (hbad.imp_right fun ⟨v, y, inexact, up, hv, hround, hout⟩ =>
        Bool.eq_false_iff.2 fun h => hout ((fitting v y inexact up hv hround).1 h)) hshow
  have empty : s.isEmpty 0#3 = true →
      StackFaultFlags false s t ∧ StoreResponse a (leBytes (w / 8) (intIndef w)) pop s t := fun h0 =>
    storeStack_shown hm (storeInt_empty h0 w pop ▸ hshow)
  refine ⟨t, ht, fun v y inexact up h0 hv hround h1 h2 => ?_, fun h0 hbad => (refused h0 hbad).1,
    fun h0 => (empty h0).1, fun hcase => ?_⟩
  · have hfit := (fitting v y inexact up hv hround).2 ⟨h1, h2⟩
    obtain ⟨⟨hbytes, htop, -⟩, hc1, hpe, hie⟩ :=
      storeRounded_fits (fits := fitsWidth w (signOf (s.st 0#3))) hm h0 hv hround hfit hshow
    obtain ⟨hlo, hhi⟩ := Bool.and_eq_true_iff.1 hfit
    rw [hlen] at hbytes
    refine ⟨?_, hc1, hpe, hie, htop⟩
    rw [hbytes, toInt_leBytes hw (of_decide_eq_true hlo) (of_decide_eq_true hhi), withSign_cast]
    exact (toInteger_spec hv hround).1.symm
  · have hresp : StoreResponse a (leBytes (w / 8) (intIndef w)) pop s t := by
      cases h0 : s.isEmpty 0#3
      · exact (refused h0 (hcase.resolve_left (by rw [h0]; decide))).2
      · exact (empty h0).2
    unfold StoreResponse at hresp
    split at hresp
    · next hc =>
      obtain ⟨hbytes, htop, -⟩ := hresp
      rw [hlen] at hbytes
      rw [if_pos hc, hbytes]
      exact ⟨leNat_intIndef hw, htop⟩
    · next hc => exact (if_neg hc).mpr hresp

/-! ### FBSTP -/

/-- The decimal digit at a position. -/
def decimalDigit (n k : Nat) : Nat := n / 10 ^ k % 10

theorem sum_decimalDigit (n m : Nat) : ∑ k ∈ Finset.range m, decimalDigit n k * 10 ^ k = n % 10 ^ m := by
  induction m with
  | zero => rw [Finset.sum_range_zero, pow_zero, Nat.mod_one]
  | succ m ih => rw [Finset.sum_range_succ, ih, decimalDigit, Nat.mod_pow_succ, mul_comm (n / 10 ^ m % 10)]

theorem getElem_bcdDigits (n m k : Nat) (h : k < m) :
    (bcdDigits m n)[k]? = some (BitVec.ofNat 8 (decimalDigit n (2 * k) + 16 * decimalDigit n (2 * k + 1))) := by
  induction m generalizing n k with
  | zero => exact absurd h (Nat.not_lt_zero k)
  | succ m ih =>
    cases k with
    | zero => simp [bcdDigits, decimalDigit]
    | succ k =>
      have hdigit : ∀ j, decimalDigit (n / 100) j = decimalDigit n (j + 2) := fun j => by
        rw [decimalDigit, decimalDigit, Nat.div_div_eq_div_mul, show 100 = 10 ^ 2 by norm_num, ← pow_add, Nat.add_comm 2]
      rw [bcdDigits, List.getElem?_cons_succ, ih _ _ (Nat.lt_of_succ_lt_succ h), hdigit, hdigit]
      rfl

theorem getD_bcdBytes (neg : Bool) (n k : Nat) : (bcdBytes neg n).getD k 0#8 =
    if k < 9 then BitVec.ofNat 8 (decimalDigit n (2 * k) + 16 * decimalDigit n (2 * k + 1))
    else if k = 9 then (if neg then 0x80#8 else 0x00#8) else 0#8 := by
  have hlen := length_bcdDigits 9 n
  rw [List.getD_eq_getElem?_getD, bcdBytes]
  by_cases hk : k < 9
  · rw [List.getElem?_append_left (by omega), getElem_bcdDigits n 9 k hk, if_pos hk]
    rfl
  · rw [List.getElem?_append_right (by omega), hlen, if_neg hk]
    by_cases h9 : k = 9
    · subst h9
      rfl
    · rw [if_neg h9, List.getElem?_eq_none (by simp; omega)]
      rfl

theorem readBytes_getD (m : List Host.Cell) (n a k : Nat) (h : k < n) :
    (Memory.readBytes m a n).getD k 0#8 = Memory.read m (a + k) := by
  induction n generalizing a k with
  | zero => exact absurd h (Nat.not_lt_zero k)
  | succ n ih =>
    cases k with
    | zero => rfl
    | succ k =>
      rw [Memory.readBytes, List.getD_cons_succ, ih _ _ (Nat.lt_of_succ_lt_succ h), Nat.add_assoc, Nat.add_comm 1]

/-- The bytes of a packed decimal number in memory. -/
theorem byteAt_bcdBytes {t : State} {a : Addr} {neg : Bool} {n : Nat} (h : t.bytesAt a 10 = bcdBytes neg n) {k : Nat}
    (hk : k < 10) : t.byteAt (a.toNat + k) =
      if k < 9 then BitVec.ofNat 8 (decimalDigit n (2 * k) + 16 * decimalDigit n (2 * k + 1))
      else if k = 9 then (if neg then 0x80#8 else 0x00#8) else 0#8 := by
  rw [← getD_bcdBytes, ← h]
  exact (readBytes_getD t.mem 10 a.toNat k hk).symm

/-- The digits that are stored. -/
theorem decimal_stored {t : State} {a : Addr} {neg : Bool} {n : Nat} (h : t.bytesAt a 10 = bcdBytes neg n)
    (hn : n < 10 ^ 18) : ∃ digit : Fin 18 → Fin 10,
      (∀ k : Fin 9, t.byteAt (a.toNat + k.val) = BitVec.ofNat 8
        ((digit ⟨2 * k.val, by omega⟩).val + 16 * (digit ⟨2 * k.val + 1, by omega⟩).val)) ∧
      (n : ℝ) = ∑ k : Fin 18, (digit k).val * (10 : ℝ) ^ k.val ∧
      t.byteAt (a.toNat + 9) = (if neg then 0x80#8 else 0x00#8) := by
  refine ⟨fun k => ⟨decimalDigit n k.val, Nat.mod_lt _ (by decide)⟩, fun k => ?_, ?_, ?_⟩
  · rw [byteAt_bcdBytes h (by omega), if_pos k.isLt]
  · have hsum := sum_decimalDigit n 18
    rw [Nat.mod_eq_of_lt hn, ← Fin.sum_univ_eq_sum_range (fun k => decimalDigit n k * 10 ^ k) 18] at hsum
    have hcast := congrArg (Nat.cast (R := ℝ)) hsum
    rw [Nat.cast_sum] at hcast
    rw [← hcast]
    refine Finset.sum_congr rfl fun k _ => ?_
    rw [Nat.cast_mul, Nat.cast_pow, Nat.cast_ofNat]
  · rw [byteAt_bcdBytes h (by omega), if_neg (by omega), if_pos rfl]

/-- The range test of FBSTP. -/
def fitsDecimal (n : Nat) : Bool := decide (n < 10 ^ 18)

theorem storeBcd_eq (s : State) : s.storeBcd =
    s.storeRounded fitsDecimal (bcdBytes (signOf (s.st 0#3))) bcdIndefinite true := rfl

theorem fitsDecimal_iff (n : Nat) : fitsDecimal n = true ↔ (n : ℝ) < 10 ^ 18 := by
  rw [fitsDecimal, decide_eq_true_eq]
  exact_mod_cast Iff.rfl

/-- Settles O43. -/
theorem storeBcdRounded : Obligations.StoreBcdRounded := by
  unfold Obligations.StoreBcdRounded
  intro a s hr ho hm
  obtain ⟨t, ht, hshow⟩ := runs_store (i := .fbstp a) (f := State.storeBcd) nofun hr ho rfl
  rw [show addressOf (.fbstp a) = a from rfl] at hshow
  have habs : ∀ (v y : ℝ) (inexact up : Bool), HasValue (s.st 0#3) v → RoundedTo 0 (rounding s.cw) v y inexact up →
      |y| = (toInteger (s.st 0#3) (rounding s.cw)).mant := fun v y inexact up hv hround => by
    rw [(toInteger_spec hv hround).1, signed_abs _ (Nat.cast_nonneg _)]
  have refused : s.isEmpty 0#3 = false → classOf (s.st 0#3) ∈ [Machine.Class.nan, .infinity, .unsupported] ∨
      (∃ (v y : ℝ) (inexact up : Bool), HasValue (s.st 0#3) v ∧ RoundedTo 0 (rounding s.cw) v y inexact up ∧
        10 ^ 18 ≤ |y|) → InvalidFlags s t ∧ StoreResponse a bcdIndefinite true s t := fun h0 hbad =>
    storeRounded_refused (fits := fitsDecimal) hm h0
      (hbad.imp_right fun ⟨v, y, inexact, up, hv, hround, hout⟩ => by
        rw [habs v y inexact up hv hround, ← not_lt, ← fitsDecimal_iff, Bool.not_eq_true] at hout
        exact hout) (storeBcd_eq s ▸ hshow)
  have empty : s.isEmpty 0#3 = true → StackFaultFlags false s t ∧ StoreResponse a bcdIndefinite true s t := fun h0 =>
    storeStack_shown hm (storeBcd_empty h0 ▸ hshow)
  refine ⟨t, ht, fun v y inexact up h0 hv hround hlt => ?_, fun h0 hbad => (refused h0 hbad).1,
    fun h0 => (empty h0).1, fun hcase => ?_⟩
  · have hy := habs v y inexact up hv hround
    rw [hy] at hlt ⊢
    have hn : (toInteger (s.st 0#3) (rounding s.cw)).mant < 10 ^ 18 := by exact_mod_cast hlt
    obtain ⟨⟨hbytes, htop, htag⟩, hc1, hpe, -⟩ := storeRounded_fits (fits := fitsDecimal) hm h0 hv hround
      ((fitsDecimal_iff _).2 hlt) (storeBcd_eq s ▸ hshow)
    have hlen : (bcdBytes (signOf (s.st 0#3)) (toInteger (s.st 0#3) (rounding s.cw)).mant).length = 10 := by
      simp [bcdBytes, length_bcdDigits]
    rw [hlen] at hbytes
    obtain ⟨digit, hdigits, hsum, hsign⟩ := decimal_stored hbytes hn
    exact ⟨digit, hdigits, hsum, hsign, hc1, hpe, htop, htag rfl⟩
  · have hresp : StoreResponse a bcdIndefinite true s t := by
      cases h0 : s.isEmpty 0#3
      · exact (refused h0 (hcase.resolve_left (by rw [h0]; decide))).2
      · exact (empty h0).2
    unfold StoreResponse at hresp
    split at hresp
    · next hc =>
      obtain ⟨hbytes, htop, -⟩ := hresp
      rw [if_pos hc, show t.bytesAt a 10 = bcdIndefinite from hbytes]
      exact ⟨by decide, htop⟩
    · next hc => exact (if_neg hc).mpr hresp

end Sys2Proof.Laws.IntegerStores
end

section
/-! Stores of a rounded real: FST and FSTP to the narrower formats (rules R60, R98, R99, R362). -/

namespace Sys2Proof.Laws.RealStores

open Sys2Proof.Machine Sys2Proof.Laws Sys2Proof.Laws.Shapes Sys2Proof.Laws.Frame Sys2Proof.Laws.SignBit
open Sys2Proof.Laws.Answers Sys2Proof.Laws.Moves Sys2Proof.Laws.Values Sys2Proof.Laws.Sources Sys2Proof.Laws.Operands
open Sys2Proof.Laws.Comparison Sys2Proof.Laws.Special Sys2Proof.Laws.Delivery Sys2Proof.Laws.Rounding Sys2Proof.Laws.Loads
open Sys2Proof.Laws.IntegerStores

/-! ### Words of the narrower formats -/

section
variable {f : RealFmt} (hf : Narrow f)
include hf

theorem pack_fields (neg : Bool) {expo frac : Nat} (h1 : expo ≤ f.expMax) (h2 : frac < 2 ^ f.fracBits) :
    f.negOf (f.pack neg expo frac) = neg ∧ f.expoOf (f.pack neg expo frac) = expo ∧
      f.fracOf (f.pack neg expo frac) = frac ∧ f.pack neg expo frac < 256 ^ f.bytes := by
  rcases hf with rfl | rfl
  · rw [show single.expMax = 255 from by decide] at h1
    rw [show single.fracBits = 23 from rfl] at h2
    simp only [RealFmt.negOf, RealFmt.expoOf, RealFmt.fracOf, RealFmt.pack, RealFmt.bytes, single]
    cases neg
    · simp only [Bool.false_eq_true, if_false, decide_eq_false_iff_not]
      omega
    · simp only [if_true, decide_eq_true_eq]
      omega
  · rw [show double.expMax = 2047 from by decide] at h1
    rw [show double.fracBits = 52 from rfl] at h2
    simp only [RealFmt.negOf, RealFmt.expoOf, RealFmt.fracOf, RealFmt.pack, RealFmt.bytes, double]
    cases neg
    · simp only [Bool.false_eq_true, if_false, decide_eq_false_iff_not]
      omega
    · simp only [if_true, decide_eq_true_eq]
      omega

/-- A word of the format is read back from its bytes. -/
theorem leNat_pack (neg : Bool) {expo frac : Nat} (h1 : expo ≤ f.expMax) (h2 : frac < 2 ^ f.fracBits) :
    leNat (leBytes f.bytes (f.pack neg expo frac)) = f.pack neg expo frac := by
  rw [leNat_leBytes, Nat.mod_eq_of_lt (pack_fields hf neg h1 h2).2.2.2]

/-- The value of a word by its fields. -/
theorem formatValue_pack (neg : Bool) {expo frac : Nat} (h1 : expo < f.expMax) (h2 : frac < 2 ^ f.fracBits) :
    FormatValue f (f.pack neg expo frac) (signed neg ((if expo = 0 then frac else 2 ^ f.fracBits + frac : ℕ) *
      2 ^ ((max expo 1 : ℕ) - f.bias - f.fracBits))) := by
  obtain ⟨hneg, hexpo, hfrac, -⟩ := pack_fields hf neg h1.le h2
  rw [formatValue_iff, hexpo, hneg, mantOf, spacingOf, hexpo, hfrac]
  exact ⟨h1, rfl⟩

/-- The format holds the number `± m · 2^e`, in the word that the rules compute. -/
def Encoded (f : RealFmt) (neg : Bool) (m : Nat) (e : Int) : Prop :=
  FormatValue f (f.encode neg m e) (signed neg (m * 2 ^ e)) ∧ f.negOf (f.encode neg m e) = neg ∧
    leNat (leBytes f.bytes (f.encode neg m e)) = f.encode neg m e

theorem encode_normal (neg : Bool) {m : Nat} {e : Int} (h0 : m ≠ 0) (hm : m ≤ 2 ^ (f.fracBits + 1))
    (h1 : f.emin ≤ leadExp m e) (h2 : leadExp m e ≤ f.emax) : Encoded f neg m e := by
  obtain ⟨hbias, hmax⟩ : 1 < f.bias ∧ (f.expMax : ℤ) = 2 * f.bias + 1 := by rcases hf with rfl | rfl <;> decide
  have hemin : f.emin = 1 - f.bias := rfl
  have hemax : f.emax = f.bias := rfl
  have hlog := Nat.log2_self_le h0
  have hlog' := Nat.lt_log2_self (n := m)
  have hdvd : 2 ^ m.log2 ∣ m * 2 ^ f.fracBits := by
    rcases hm.lt_or_eq with hlt | rfl
    · have : m.log2 < f.fracBits + 1 := (Nat.log2_lt h0).2 hlt
      exact Dvd.dvd.mul_left (pow_dvd_pow 2 (by omega)) m
    · rw [Nat.log2_two_pow]
      exact Nat.dvd_mul_right _ _
  obtain ⟨q, hq⟩ := hdvd
  have hpos : 0 < 2 ^ m.log2 := by positivity
  have hq1 : 2 ^ f.fracBits ≤ q := by
    refine Nat.le_of_mul_le_mul_left ?_ hpos
    rw [← hq]
    exact Nat.mul_le_mul_right _ hlog
  have hq2 : q < 2 ^ (f.fracBits + 1) := by
    refine Nat.lt_of_mul_lt_mul_left (a := 2 ^ m.log2) ?_
    rw [← hq, pow_succ 2 f.fracBits, ← mul_assoc, mul_right_comm, ← pow_succ]
    exact Nat.mul_lt_mul_of_pos_right hlog' (by positivity)
  have hfrac : q - 2 ^ f.fracBits < 2 ^ f.fracBits := by
    rw [pow_succ] at hq2
    omega
  have hencode : f.encode neg m e = f.pack neg (leadExp m e + f.bias).toNat (q - 2 ^ f.fracBits) := by
    rw [RealFmt.encode, if_neg h0, if_neg (not_lt.2 h1), hq, Nat.mul_div_cancel_left _ hpos]
  have hexpo : (leadExp m e + f.bias).toNat < f.expMax := by omega
  have hexpo0 : (leadExp m e + f.bias).toNat ≠ 0 := by omega
  have hreal : (q : ℝ) * 2 ^ (leadExp m e - f.fracBits) = m * 2 ^ e := by
    have hcast : (m : ℝ) * 2 ^ f.fracBits = 2 ^ m.log2 * q := by exact_mod_cast hq
    rw [leadExp, zpow_sub₀ two_ne_zero, zpow_add₀ two_ne_zero, zpow_natCast, zpow_natCast]
    field_simp
    linear_combination -hcast
  have hval := formatValue_pack hf neg hexpo hfrac
  rw [if_neg hexpo0, Nat.add_sub_cancel' hq1,
    show ((max (leadExp m e + f.bias).toNat 1 : ℕ) : ℤ) - f.bias - f.fracBits = leadExp m e - f.fracBits by omega,
    hreal] at hval
  rw [Encoded, hencode]
  exact ⟨hval, (pack_fields hf neg hexpo.le hfrac).1, leNat_pack hf neg hexpo.le hfrac⟩

theorem encode_denormal (neg : Bool) {m : Nat} (hm : m ≤ 2 ^ f.fracBits) : Encoded f neg m (f.emin - f.fracBits) := by
  obtain ⟨hbias, hmax⟩ : 1 < f.bias ∧ (f.expMax : ℤ) = 2 * f.bias + 1 := by rcases hf with rfl | rfl <;> decide
  rcases hm.lt_or_eq with hlt | rfl
  · have hencode : f.encode neg m (f.emin - f.fracBits) = f.pack neg 0 m := by
      by_cases h0 : m = 0
      · rw [RealFmt.encode, if_pos h0, h0]
      · have hlead : leadExp m (f.emin - f.fracBits) < f.emin := by
          have := leadExp_lt h0 hlt (f.emin - f.fracBits)
          omega
        rw [RealFmt.encode, if_neg h0, if_pos hlead, sub_self, scaleFloor, if_pos le_rfl]
        exact congrArg (f.pack neg 0) (Nat.mul_one m)
    have hval := formatValue_pack hf neg (expo := 0) (by omega) hlt
    rw [if_pos rfl] at hval
    rw [Encoded, hencode]
    exact ⟨hval, (pack_fields hf neg (Nat.zero_le _) hlt).1, leNat_pack hf neg (Nat.zero_le _) hlt⟩
  · have hlead : leadExp (2 ^ f.fracBits) (f.emin - f.fracBits) = f.emin := by
      rw [leadExp, Nat.log2_two_pow]
      omega
    have hemin : f.emin = 1 - f.bias := rfl
    have hemax : f.emax = f.bias := rfl
    exact encode_normal hf neg (by positivity) (Nat.pow_le_pow_right (by decide) (Nat.le_succ _)) hlead.ge (by omega)

/-- The largest number of the format. -/
theorem largest_spec (neg : Bool) :
    FormatValue f (f.largest neg) ((if neg then -1 else 1) * ((2 - 2 ^ (-(f.fracBits : ℤ))) * 2 ^ f.emax)) ∧
      f.negOf (f.largest neg) = neg ∧ leNat (leBytes f.bytes (f.largest neg)) = f.largest neg := by
  obtain ⟨hbias, hmax⟩ : 1 < f.bias ∧ (f.expMax : ℤ) = 2 * f.bias + 1 := by rcases hf with rfl | rfl <;> decide
  have hpos : 0 < 2 ^ f.fracBits := by positivity
  have hfrac : 2 ^ f.fracBits - 1 < 2 ^ f.fracBits := by omega
  have hval := formatValue_pack hf neg (expo := f.expMax - 1) (by omega) hfrac
  refine ⟨?_, (pack_fields hf neg (by omega) hfrac).1, leNat_pack hf neg (by omega) hfrac⟩
  rw [if_neg (by omega), signed_eq,
    show ((max (f.expMax - 1) 1 : ℕ) : ℤ) - f.bias - f.fracBits = f.emax - f.fracBits by
      rw [show f.emax = f.bias from rfl]
      omega] at hval
  have hreal : ((2 ^ f.fracBits + (2 ^ f.fracBits - 1) : ℕ) : ℝ) * 2 ^ (f.emax - f.fracBits) =
      (2 - 2 ^ (-(f.fracBits : ℤ))) * 2 ^ f.emax := by
    rw [Nat.cast_add, Nat.cast_sub hpos, zpow_sub₀ two_ne_zero, zpow_neg, zpow_natCast]
    push_cast
    field_simp
    ring
  rwa [hreal] at hval

end

/-! ### The rules past their tests -/

theorem storeReal_finite {f : RealFmt} {pop : Bool} {s : State} {v : ℝ} (h0 : s.isEmpty 0#3 = false)
    (hv : HasValue (s.st 0#3) v) (hne : v ≠ 0) : s.storeReal f pop = s.storeFinite f pop (s.st 0#3) := by
  have hclass := HasValue.finite hv hne
  have hfin : isFinite (s.st 0#3) = true := by rcases hclass with h | h <;> simp [isFinite, h]
  have hsnan : isSNaN (s.st 0#3) = false :=
    not_snan_of_class (by rcases hclass with h | h <;> rw [h] <;> decide)
  rw [State.storeReal, if_neg (by rw [h0]; decide), if_neg (by rcases hclass with h | h <;> rw [h] <;> decide), hsnan,
    if_neg (by decide), if_pos hfin]

section
variable {f : RealFmt} {pop : Bool} {s : State} {x : Ext} {r : Rounded}

theorem storeFinite_inRange (hr : (valOf x).mag.roundPrec (signOf x) (f.fracBits + 1) (rounding s.cw) = r)
    (hup : r.up = true → r.inexact = true) (h1 : f.emin ≤ leadExp r.mant r.exp)
    (h2 : leadExp r.mant r.exp < f.emax + 1) :
    s.storeFinite f pop x = (State.popIf pop (marked r.inexact r.up s),
      some (leBytes f.bytes (f.encode (signOf x) r.mant r.exp))) := by
  subst hr
  rw [← inexactOr_eq hup, State.storeFinite]
  dsimp only
  rw [if_neg (not_le.2 h2), if_neg (not_lt.2 h1)]

theorem storeFinite_overflow (hr : (valOf x).mag.roundPrec (signOf x) (f.fracBits + 1) (rounding s.cw) = r)
    (h : f.emax + 1 ≤ leadExp r.mant r.exp) :
    s.storeFinite f pop x = if s.cw.getLsbD 3 then
        (State.popIf pop (marked true (toInfinity (rounding s.cw) (signOf x)) s.flagOverflow),
          some (leBytes f.bytes (if toInfinity (rounding s.cw) (signOf x) then f.infinity (signOf x)
            else f.largest (signOf x))))
      else (s.flagOverflow.withC1 false, none) := by
  subst hr
  rw [marked, Bool.or_true, State.storeFinite]
  dsimp only
  rw [if_pos h]
  rfl

/-- The marks of a masked underflow of a store: none where the delivered number is exact. -/
def tinyMarked (inexact up : Bool) (s : State) : State :=
  { s with sw := { s.sw with ue := s.sw.ue || inexact, pe := s.sw.pe || inexact, c1 := up } }

theorem storeFinite_underflow {d : Rounded} (hr : (valOf x).mag.roundPrec (signOf x) (f.fracBits + 1) (rounding s.cw) = r)
    (h1 : leadExp r.mant r.exp < f.emin) (h2 : leadExp r.mant r.exp < f.emax + 1)
    (hd : (valOf x).mag.roundTo (signOf x) (f.emin - f.fracBits) (rounding s.cw) = d)
    (hup : d.up = true → d.inexact = true) :
    s.storeFinite f pop x = if s.cw.getLsbD 4 then
        (State.popIf pop (tinyMarked d.inexact d.up s), some (leBytes f.bytes (f.encode (signOf x) d.mant d.exp)))
      else (s.flagUnderflow.withC1 false, none) := by
  have hk : f.emin - ((f.fracBits + 1 : ℕ) : ℤ) + 1 = f.emin - f.fracBits := by
    push_cast
    ring
  have hmark : (if d.inexact then s.flagUnderflow.raiseInexact d.up else s.withC1 false) =
      tinyMarked d.inexact d.up s := by
    rw [tinyMarked]
    cases hi : d.inexact
    · have hu : d.up = false := by
        cases hu : d.up
        · rfl
        · exact absurd (hup hu) (by rw [hi]; decide)
      rw [hu, Bool.or_false, Bool.or_false]
      rfl
    · rw [Bool.or_true, Bool.or_true]
      rfl
  subst hr
  rw [State.storeFinite]
  dsimp only
  rw [if_neg (not_le.2 h2), if_pos h1, hk, hd, hmark]

end

/-! ### What the stores of numbers show -/

section
variable {f : RealFmt} {pop : Bool} {s t : State} {a : Addr} {v y : ℝ} {inexact up : Bool}

/-- The statements' rounding is that of the rules. -/
theorem storeRoundedAs (hv : HasValue (s.st 0#3) v) (hround : CorrectlyRounded (f.fracBits + 1) (rounding s.cw) v y inexact up) :
    v ≠ 0 ∧ RoundedAs (valOf (s.st 0#3)).mag (signOf (s.st 0#3)) (f.fracBits + 1) (rounding s.cw) v y inexact up
      ((valOf (s.st 0#3)).mag.roundPrec (signOf (s.st 0#3)) (f.fracBits + 1) (rounding s.cw)) := by
  have hne : v ≠ 0 := by
    obtain ⟨e, he, -⟩ := hround
    exact abs_pos.1 (lt_of_lt_of_le (two_zpow_pos e) he)
  have hm := (valOf_finite (HasValue.finite hv hne)).1
  refine ⟨hne, roundedAs (dyad_mag_ok hm) (Nat.succ_pos _) ?_ hround⟩
  rw [dyad_mag_real]
  exact HasValue.eq hv

theorem store_inRange (hf : Narrow f) (hm : Memory.wf s.mem) (h0 : s.isEmpty 0#3 = false) (hv : HasValue (s.st 0#3) v)
    (hround : CorrectlyRounded (f.fracBits + 1) (rounding s.cw) v y inexact up) (h1 : (2 : ℝ) ^ f.emin ≤ |y|)
    (h2 : |y| < (2 : ℝ) ^ (f.emax + 1)) (h : Shows (storedAt a (s.storeReal f pop)) t) :
    FormatValue f (leNat (t.bytesAt a f.bytes)) y ∧ t.sw.c1 = up ∧ t.sw.pe = (s.sw.pe || inexact) ∧
      (∀ g, g ≠ .pe → t.sw.flag g = s.sw.flag g) ∧ t.sw.top = s.sw.top + (if pop then 1#3 else 0#3) := by
  obtain ⟨hne, has⟩ := storeRoundedAs hv hround
  rw [has.value, abs_signed_pow] at h1 h2
  have hlead1 := (lead_le_iff has.nonzero _ _).2 h1
  have hlead2 := (lead_lt_iff has.nonzero _ _).2 h2
  rw [storeReal_finite h0 hv hne, storeFinite_inRange rfl has.implies hlead1 hlead2, has.inexact, has.up] at h
  obtain ⟨⟨hbytes, htop, -⟩, hflag, hc1⟩ := stored_popped (u := marked inexact up s) hm rfl rfl h
  obtain ⟨hval, -, hword⟩ := encode_normal hf (signOf (s.st 0#3)) has.nonzero has.le hlead1 (Int.lt_add_one_iff.1 hlead2)
  rw [length_leBytes] at hbytes
  rw [hbytes, hword, has.value]
  exact ⟨hval, hc1, hflag .pe, fun g hg => (hflag g).trans (marked_flag _ _ _ hg), htop⟩

theorem store_overflow (hf : Narrow f) (hm : Memory.wf s.mem) (h0 : s.isEmpty 0#3 = false) (hv : HasValue (s.st 0#3) v)
    (hround : CorrectlyRounded (f.fracBits + 1) (rounding s.cw) v y inexact up) (h1 : (2 : ℝ) ^ (f.emax + 1) ≤ |y|)
    (h : Shows (storedAt a (s.storeReal f pop)) t) :
    t.sw.oe = true ∧ t.sw.ie = s.sw.ie ∧ t.sw.ue = s.sw.ue ∧
      (if s.cw.getLsbD 3 then
        t.sw.pe = true ∧ f.negOf (leNat (t.bytesAt a f.bytes)) = decide (v < 0) ∧
        t.sw.top = s.sw.top + (if pop then 1#3 else 0#3) ∧
        (if rounding s.cw = .nearest ∨ (rounding s.cw = .up ∧ 0 < v) ∨ (rounding s.cw = .down ∧ v < 0) then
          f.expoOf (leNat (t.bytesAt a f.bytes)) = f.expMax ∧ f.fracOf (leNat (t.bytesAt a f.bytes)) = 0 ∧ t.sw.c1 = true
         else
          FormatValue f (leNat (t.bytesAt a f.bytes))
            ((if v < 0 then -1 else 1) * ((2 - 2 ^ (-(f.fracBits : ℤ))) * 2 ^ f.emax)) ∧ t.sw.c1 = false)
       else t.sw.pe = s.sw.pe ∧ Untouched s t) := by
  obtain ⟨hne, has⟩ := storeRoundedAs hv hround
  rw [has.value, abs_signed_pow] at h1
  rw [storeReal_finite h0 hv hne, storeFinite_overflow rfl ((lead_le_iff has.nonzero _ _).2 h1)] at h
  have hsign : signOf (s.st 0#3) = decide (v < 0) := HasValue.sign hv hne
  have hinf := toInfinity_iff (rounding s.cw) has.sign hne
  by_cases hc : s.cw.getLsbD 3 = true
  · rw [if_pos hc] at h ⊢
    obtain ⟨⟨hbytes, htop, -⟩, hflag, hc1⟩ :=
      stored_popped (u := marked true (toInfinity (rounding s.cw) (signOf (s.st 0#3))) s.flagOverflow) hm rfl rfl h
    rw [length_leBytes] at hbytes
    refine ⟨hflag .oe, hflag .ie, hflag .ue, (hflag .pe).trans (Bool.or_true _), ?_⟩
    rw [hbytes]
    by_cases hto : toInfinity (rounding s.cw) (signOf (s.st 0#3)) = true
    · obtain ⟨hneg, hexpo, hfrac, -⟩ := pack_fields hf (signOf (s.st 0#3)) le_rfl (show 0 < 2 ^ f.fracBits by positivity)
      rw [if_pos hto, if_pos (hinf.1 hto), RealFmt.infinity, leNat_pack hf _ le_rfl (by positivity)]
      exact ⟨hneg.trans hsign, htop, hexpo, hfrac, hc1.trans hto⟩
    · obtain ⟨hval, hneg, hword⟩ := largest_spec hf (signOf (s.st 0#3))
      rw [if_neg hto, if_neg (mt hinf.2 hto), hword]
      refine ⟨hneg.trans hsign, htop, ?_, hc1.trans (Bool.eq_false_iff.2 hto)⟩
      simp only [hsign, decide_eq_true_eq] at hval
      rwa [hsign]
  · rw [if_neg hc] at h ⊢
    have h : Shows (s.flagOverflow.withC1 false) t := h
    exact ⟨h.oe, h.ie, h.ue, h.pe, h.untouched (untouched_of_eq (u := s.flagOverflow.withC1 false) rfl rfl rfl rfl)⟩

theorem store_underflow {d : ℝ} {inexact2 up2 : Bool} (hf : Narrow f) (hm : Memory.wf s.mem) (h0 : s.isEmpty 0#3 = false)
    (hv : HasValue (s.st 0#3) v) (hround : CorrectlyRounded (f.fracBits + 1) (rounding s.cw) v y inexact up)
    (h1 : |y| < (2 : ℝ) ^ f.emin) (hd : RoundedTo (f.emin - f.fracBits) (rounding s.cw) v d inexact2 up2)
    (h : Shows (storedAt a (s.storeReal f pop)) t) :
    t.sw.oe = s.sw.oe ∧ t.sw.ie = s.sw.ie ∧
      (if s.cw.getLsbD 4 then
        FormatValue f (leNat (t.bytesAt a f.bytes)) d ∧ f.negOf (leNat (t.bytesAt a f.bytes)) = decide (v < 0) ∧
        t.sw.ue = (s.sw.ue || inexact2) ∧ t.sw.pe = (s.sw.pe || inexact2) ∧ t.sw.c1 = up2 ∧
        t.sw.top = s.sw.top + (if pop then 1#3 else 0#3)
       else t.sw.ue = true ∧ t.sw.pe = s.sw.pe ∧ Untouched s t) := by
  obtain ⟨hne, has⟩ := storeRoundedAs hv hround
  have hm0 := (valOf_finite (HasValue.finite hv hne)).1
  have hspec := Mag.roundTo_spec (dyad_mag_ok hm0) (signOf (s.st 0#3)) (f.emin - f.fracBits) (rounding s.cw)
  rw [dyad_mag_real, ← HasValue.eq hv] at hspec
  obtain ⟨hdv, hdi, hdu⟩ := RoundedTo.unique hd hspec
  have hlead : leadExp _ _ < f.emin := (lead_lt_iff has.nonzero _ _).2 (by rwa [has.value, abs_signed_pow] at h1)
  have hemin : f.emin ≤ f.emax := by rcases hf with rfl | rfl <;> decide
  rw [storeReal_finite h0 hv hne,
    storeFinite_underflow rfl hlead (by omega) rfl (RoundedTo.up_inexact hspec), ← hdi, ← hdu] at h
  by_cases hc : s.cw.getLsbD 4 = true
  · rw [if_pos hc] at h ⊢
    have hlt : |v| < (2 ^ f.fracBits : ℕ) * 2 ^ (f.emin - f.fracBits) := by
      have hlog := has.lead.1
      rw [Nat.cast_pow, Nat.cast_ofNat, ← zpow_natCast, ← zpow_add₀ two_ne_zero, add_sub_cancel, HasValue.abs hv,
        ← lead_lt_iff hm0]
      rw [dyad_mag_log2 hm0] at hlog
      omega
    have hle := RoundedTo.abs_le hspec hlt
    rw [Mag.roundTo_exp, abs_signed_pow] at hle
    have hmant := Nat.cast_le.1 (le_of_mul_le_mul_right hle (two_zpow_pos _))
    obtain ⟨hval, hneg, hword⟩ := encode_denormal hf (signOf (s.st 0#3)) hmant
    obtain ⟨⟨hbytes, htop, -⟩, hflag, hc1⟩ := stored_popped (u := tinyMarked inexact2 up2 s) hm rfl rfl h
    rw [length_leBytes, Mag.roundTo_exp] at hbytes
    rw [hbytes, hword, hdv, Mag.roundTo_exp]
    exact ⟨hflag .oe, hflag .ie, hval, hneg.trans (HasValue.sign hv hne), hflag .ue, hflag .pe, hc1, htop⟩
  · rw [if_neg hc] at h ⊢
    have h : Shows (s.flagUnderflow.withC1 false) t := h
    exact ⟨h.oe, h.ie, h.ue, h.pe, h.untouched (untouched_of_eq (u := s.flagUnderflow.withC1 false) rfl rfl rfl rfl)⟩

end

/-! ### Zeros, infinities and NaNs -/

section
variable {f : RealFmt} {pop : Bool} {s t : State} {a : Addr}

theorem quiet_fields (x : Ext) : signOf (quiet x) = signOf x ∧ expoOf (quiet x) = expoOf x := by
  refine ⟨?_, ?_⟩
  · rw [signOf, signOf, quiet, BitVec.getLsbD_or]
    simp
  · rw [expoOf, expoOf, quiet, BitVec.extractLsb'_or]
    simp

/-- The word of a zero, an infinity or a NaN. -/
theorem narrow_spec (hf : Narrow f) (x : Ext) :
    f.negOf (f.narrow x) = signOf x ∧ leNat (leBytes f.bytes (f.narrow x)) = f.narrow x ∧
      (classOf x = .zero → FormatValue f (f.narrow x) 0) ∧
      (classOf x ≠ .zero → f.expoOf (f.narrow x) = f.expMax ∧
        f.fracOf (f.narrow x) = (fracOf x).toNat / 2 ^ (63 - f.fracBits)) := by
  have hfb : f.fracBits ≤ 63 := by rcases hf with rfl | rfl <;> decide
  have hfrac : (fracOf x).toNat / 2 ^ (63 - f.fracBits) < 2 ^ f.fracBits := by
    refine Nat.div_lt_of_lt_mul ?_
    rw [← pow_add, Nat.sub_add_cancel hfb]
    exact (fracOf x).isLt
  have hpos : 0 < 2 ^ f.fracBits := by positivity
  have hmax : 0 < f.expMax := by rcases hf with rfl | rfl <;> decide
  rw [RealFmt.narrow]
  by_cases hz : classOf x = .zero
  · have hval := formatValue_pack hf (signOf x) (expo := 0) (frac := 0) hmax hpos
    rw [if_pos rfl, Nat.cast_zero, zero_mul, signed_zero] at hval
    rw [if_pos hz]
    exact ⟨(pack_fields hf _ (Nat.zero_le _) hpos).1, leNat_pack hf _ (Nat.zero_le _) hpos, fun _ => hval,
      fun h => absurd hz h⟩
  · obtain ⟨hneg, hexpo, hfr, -⟩ := pack_fields hf (signOf x) le_rfl hfrac
    rw [if_neg hz]
    exact ⟨hneg, leNat_pack hf _ le_rfl hfrac, fun h => absurd h hz, fun _ => ⟨hexpo, hfr⟩⟩

/-- What is said of a stored zero, infinity or NaN. -/
theorem store_special (hf : Narrow f) (hm : Memory.wf s.mem) (h0 : s.isEmpty 0#3 = false)
    (hclass : classOf (s.st 0#3) ∈ [Machine.Class.zero, .infinity, .nan])
    (h : Shows (storedAt a (s.storeReal f pop)) t) :
    t.sw.c1 = false ∧ t.sw.ie = (s.sw.ie || isSNaN (s.st 0#3)) ∧ (∀ g, g ≠ .ie → t.sw.flag g = s.sw.flag g) ∧
      (if isSNaN (s.st 0#3) = true ∧ s.cw.getLsbD 0 = false then Untouched s t
       else
        f.negOf (leNat (t.bytesAt a f.bytes)) = signOf (s.st 0#3) ∧ t.sw.top = s.sw.top + (if pop then 1#3 else 0#3) ∧
        (classOf (s.st 0#3) = .zero → FormatValue f (leNat (t.bytesAt a f.bytes)) 0) ∧
        (classOf (s.st 0#3) = .infinity → f.expoOf (leNat (t.bytesAt a f.bytes)) = f.expMax ∧
          f.fracOf (leNat (t.bytesAt a f.bytes)) = 0) ∧
        (classOf (s.st 0#3) = .nan → f.expoOf (leNat (t.bytesAt a f.bytes)) = f.expMax ∧
          f.fracOf (leNat (t.bytesAt a f.bytes)) = (fracOf (quiet (s.st 0#3))).toNat / 2 ^ (63 - f.fracBits))) := by
  have hun : classOf (s.st 0#3) ≠ .unsupported := fun h => by
    rw [h] at hclass
    exact absurd hclass (by decide)
  rw [State.storeReal, if_neg (by rw [h0]; decide), if_neg hun] at h
  by_cases hs : isSNaN (s.st 0#3) = true
  · have hn := ((isSNaN_iff _).1 hs).1
    rw [if_pos hs] at h
    obtain ⟨⟨hie, hc1, hrest⟩, hresp⟩ := storeInvalid_shown hm h
    refine ⟨hc1, hie.trans (by rw [hs, Bool.or_true]), hrest, ?_⟩
    unfold StoreResponse at hresp
    by_cases hc : s.cw.getLsbD 0 = true
    · rw [if_pos hc] at hresp
      rw [if_neg (by rw [hc]; simp)]
      obtain ⟨hbytes, htop, -⟩ := hresp
      obtain ⟨hsign, hexpo⟩ := quiet_fields (s.st 0#3)
      obtain ⟨hneg, hword, -, hfields⟩ := narrow_spec hf (quiet (s.st 0#3))
      have hq : classOf (quiet (s.st 0#3)) ≠ .zero := fun hz => by
        have he := ((class_zero_iff _).1 hz).1
        rw [hexpo, ((class_nan_iff _).1 hn).1] at he
        exact absurd he (by decide)
      rw [length_leBytes] at hbytes
      rw [hbytes, hword]
      exact ⟨hneg.trans hsign, htop, fun hz => absurd (hz.symm.trans hn) (by decide),
        fun hi => absurd (hi.symm.trans hn) (by decide), fun _ => hfields hq⟩
    · rw [if_neg hc] at hresp
      rw [if_pos ⟨hs, Bool.eq_false_iff.2 hc⟩]
      exact hresp
  · have hfin : isFinite (s.st 0#3) = false := by
      simp only [List.mem_cons, List.not_mem_nil, or_false] at hclass
      rcases hclass with hc | hc | hc <;> simp [isFinite, hc]
    rw [if_neg hs, hfin, if_neg (by decide)] at h
    obtain ⟨⟨hbytes, htop, -⟩, hflag, hc1⟩ := stored_popped (u := s.withC1 false) hm rfl rfl h
    obtain ⟨hneg, hword, hzero, hfields⟩ := narrow_spec hf (s.st 0#3)
    have hkept : ∀ g, t.sw.flag g = s.sw.flag g := fun g => (hflag g).trans (by cases g <;> rfl)
    rw [length_leBytes] at hbytes
    rw [if_neg (fun h => hs h.1), hbytes, hword, Bool.eq_false_iff.2 hs, Bool.or_false]
    refine ⟨hc1, hkept .ie, fun g _ => hkept g, hneg, htop, hzero, fun hi => ?_, fun hn => ?_⟩
    · obtain ⟨hexpo, hfrac⟩ := hfields (by rw [hi]; decide)
      refine ⟨hexpo, hfrac.trans ?_⟩
      rw [fracOf_eq, ((class_infinity_iff _).1 hi).2, Nat.mod_self, Nat.zero_div]
    · rw [quiet_of_not_snan hn (Bool.eq_false_iff.2 hs)]
      exact hfields (by rw [hn]; decide)

end

/-! ### FST and FSTP -/

theorem fst_rule {f : RealFmt} {pop : Bool} {mk : Addr → Instr}
    (h : (f, pop, mk) ∈ [(single, false, Instr.fstM32), (double, false, Instr.fstM64), (single, true, Instr.fstpM32),
      (double, true, Instr.fstpM64)]) (a : Addr) :
    Narrow f ∧ familyOf (mk a) ≠ .control ∧ addressOf (mk a) = a ∧
      shapeOf (mk a) = .store fun s => openAfter (s.storeReal f pop) := by
  simp only [List.mem_cons, Prod.mk.injEq, List.not_mem_nil, or_false] at h
  rcases h with ⟨rfl, rfl, rfl⟩ | ⟨rfl, rfl, rfl⟩ | ⟨rfl, rfl, rfl⟩ | ⟨rfl, rfl, rfl⟩
  · exact ⟨.inl rfl, nofun, rfl, rfl⟩
  · exact ⟨.inr rfl, nofun, rfl, rfl⟩
  · exact ⟨.inl rfl, nofun, rfl, rfl⟩
  · exact ⟨.inr rfl, nofun, rfl, rfl⟩

theorem leNat_indefinite {f : RealFmt} (hf : Narrow f) :
    leNat (leBytes f.bytes f.indefinite) = if f = single then 0xFFC00000 else 0xFFF8000000000000 := by
  rcases hf with rfl | rfl <;> decide

/-- Settles O42. -/
theorem storeRealRounded : Obligations.StoreRealRounded := by
  unfold Obligations.StoreRealRounded
  intro f pop mk a s hmem hr ho hm
  obtain ⟨hf, hctl, haddr, hshape⟩ := fst_rule hmem a
  obtain ⟨t, ht, hshow⟩ := runs_store hctl hr ho hshape
  rw [haddr] at hshow
  have empty : s.isEmpty 0#3 = true →
      StackFaultFlags false s t ∧ StoreResponse a (leBytes f.bytes f.indefinite) pop s t := fun h0 =>
    storeStack_shown hm (storeReal_empty h0 f pop ▸ hshow)
  have unsupported : s.isEmpty 0#3 = false → classOf (s.st 0#3) = .unsupported →
      InvalidFlags s t ∧ StoreResponse a (leBytes f.bytes f.indefinite) pop s t := fun h0 hu =>
    storeInvalid_shown hm (by rwa [State.storeReal, if_neg (by rw [h0]; decide), if_pos hu] at hshow)
  refine ⟨t, _, ht, rfl, fun v y inexact up h0 hv hround =>
    ⟨fun h1 h2 => store_inRange hf hm h0 hv hround h1 h2 hshow, fun h1 => store_overflow hf hm h0 hv hround h1 hshow,
      fun d inexact2 up2 h1 hd => store_underflow hf hm h0 hv hround h1 hd hshow⟩,
    fun h0 hc => store_special hf hm h0 hc hshow, fun h0 hu => (unsupported h0 hu).1, fun h0 => (empty h0).1,
    fun hcase => ?_⟩
  have hresp : StoreResponse a (leBytes f.bytes f.indefinite) pop s t := by
    cases h0 : s.isEmpty 0#3
    · exact (unsupported h0 (hcase.resolve_left (by rw [h0]; decide))).2
    · exact (empty h0).2
  unfold StoreResponse at hresp
  split at hresp
  · next hc =>
    obtain ⟨hbytes, htop, -⟩ := hresp
    rw [length_leBytes] at hbytes
    rw [if_pos hc, hbytes]
    exact ⟨leNat_indefinite hf, htop⟩
  · next hc => exact (if_neg hc).mpr hresp

end Sys2Proof.Laws.RealStores
end

section
/-! Unmasked IE, DE and ZE end an instruction before it writes a register, a tag or memory or moves TOP (rules R94, R521
to R524, R528). -/

namespace Sys2Proof.Laws.Unmasked

open Sys2Proof.Machine Sys2Proof.Laws Sys2Proof.Laws.Shapes Sys2Proof.Laws.Frame Sys2Proof.Laws.SignBit
open Sys2Proof.Laws.Answers Sys2Proof.Laws.Moves Sys2Proof.Laws.Values Sys2Proof.Laws.Sources Sys2Proof.Laws.Operands
open Sys2Proof.Laws.Comparison Sys2Proof.Laws.Special

/-! ### Steps that leave the mask bits and IE, DE and ZE -/

/-- CW and the flags IE, DE and ZE are as they were. -/
def Calm (s t : State) : Prop := t.cw = s.cw ∧ t.sw.ie = s.sw.ie ∧ t.sw.de = s.sw.de ∧ t.sw.ze = s.sw.ze

theorem Calm.refl (s : State) : Calm s s := ⟨rfl, rfl, rfl, rfl⟩

theorem Calm.trans {s t u : State} (h : Calm s t) (g : Calm t u) : Calm s u := by
  obtain ⟨h1, h2, h3, h4⟩ := h
  obtain ⟨g1, g2, g3, g4⟩ := g
  exact ⟨g1.trans h1, g2.trans h2, g3.trans h3, g4.trans h4⟩

theorem calm_of_calc {D K : List (BitVec 3)} {s t : State} (h : Calc D K [.oe, .ue, .pe] s t) : Calm s t :=
  ⟨h.cw, (h.flags .ie).2 (by decide), (h.flags .de).2 (by decide), (h.flags .ze).2 (by decide)⟩

theorem calm_ite {c : Prop} [Decidable c] {s t u : State} (h : c → Calm s t) (g : ¬c → Calm s u) :
    Calm s (if c then t else u) := by
  split
  · next hc => exact h hc
  · next hc => exact g hc

theorem calm_setSt (i : BitVec 3) (v : Ext) (s : State) : Calm s (s.setSt i v) := ⟨rfl, rfl, rfl, rfl⟩
theorem calm_push (v : Ext) (s : State) : Calm s (s.push v) := ⟨rfl, rfl, rfl, rfl⟩
theorem calm_pop (s : State) : Calm s s.pop := ⟨rfl, rfl, rfl, rfl⟩
theorem calm_withC1 (b : Bool) (s : State) : Calm s (s.withC1 b) := ⟨rfl, rfl, rfl, rfl⟩

theorem calm_withC0 (b : Bool) (s : State) : Calm s (s.withC0 b) := ⟨rfl, rfl, rfl, rfl⟩
theorem calm_withC2 (b : Bool) (s : State) : Calm s (s.withC2 b) := ⟨rfl, rfl, rfl, rfl⟩
theorem calm_withC3 (b : Bool) (s : State) : Calm s (s.withC3 b) := ⟨rfl, rfl, rfl, rfl⟩
theorem calm_openC0 (s : State) : Calm s s.openC0 := ⟨rfl, rfl, rfl, rfl⟩
theorem calm_openC1 (s : State) : Calm s s.openC1 := ⟨rfl, rfl, rfl, rfl⟩
theorem calm_openC2 (s : State) : Calm s s.openC2 := ⟨rfl, rfl, rfl, rfl⟩
theorem calm_openC3 (s : State) : Calm s s.openC3 := ⟨rfl, rfl, rfl, rfl⟩

theorem calm_raiseInexact (b : Bool) (s : State) : Calm s (s.raiseInexact b) := ⟨rfl, rfl, rfl, rfl⟩

theorem calm_popIf (b : Bool) (s : State) : Calm s (State.popIf b s) := by
  cases b
  · exact Calm.refl s
  · exact calm_pop s

theorem calm_pops (n : Nat) (s : State) : Calm s (State.pops n s) := by
  induction n generalizing s with
  | zero => exact Calm.refl s
  | succ n ih => exact (calm_pop s).trans (ih s.pop)

theorem calm_answer (i : BitVec 3) (v : Ext) (pop : Bool) (s : State) : Calm s (State.popIf pop (s.setSt i v)) :=
  (calm_setSt i v s).trans (calm_popIf pop _)

theorem calm_setResult (dst : ResultTo) (rel : Relation) (s : State) : Calm s (s.setResult dst rel) := by
  cases dst <;> exact ⟨rfl, rfl, rfl, rfl⟩

theorem calm_openC023 (s : State) : Calm s s.openC023 := calm_of_calc (K := []) (calc_openC023 s)

theorem calm_openC03 (s : State) : Calm s s.openC03 := calm_of_calc (K := []) (calc_openC03 s)

theorem calm_finish (i : BitVec 3) (t : Trans) (s : State) : Calm s (s.finish i t) :=
  calm_of_calc (K := [i]) (calc_finish (List.mem_singleton.2 rfl) (fun _ => by decide) (fun _ => by decide) (by decide) s)

theorem calm_deliver (i : BitVec 3) (neg : Bool) (x : Mag) (p : Nat) (s : State) : Calm s (s.deliver i neg x p) :=
  calm_of_calc (K := [i]) (calc_deliver (List.mem_singleton.2 rfl) (by decide) (by decide) (by decide) neg x p s)

theorem calm_openResult (i : BitVec 3) (s : State) : Calm s (s.openResult i) :=
  calm_of_calc (K := [i]) (calc_openResult (List.mem_singleton.2 rfl) (by decide) (by decide) s)

theorem calm_arithResult (op : ArithOp) (d : BitVec 3) (a b : Ext) (s : State) : Calm s (s.arithResult op d a b) :=
  calm_of_calc (K := [d]) (calc_arithResult (List.mem_singleton.2 rfl) (by decide) (by decide) (by decide) op a b s)

theorem calm_deliverRemainder (a : Ext) (x : Dyad) (s : State) : Calm s (s.deliverRemainder a x) :=
  calm_ite (fun _ => calm_setSt _ _ s) fun _ => calm_deliver _ _ _ _ s

theorem calm_reduce (nearest : Bool) (a b : Ext) (s : State) : Calm s (s.reduce nearest a b) := by
  refine calm_ite (fun _ => ?_) fun _ => ?_
  · exact (((calm_deliverRemainder a _ s).trans (calm_withC2 _ _)).trans (calm_withC0 _ _)).trans
      ((calm_withC3 _ _).trans (calm_withC1 _ _))
  · exact (((calm_deliverRemainder a _ s).trans (calm_withC2 _ _)).trans (calm_openC0 _)).trans
      ((calm_openC1 _).trans (calm_openC3 _))

/-! ### The relation -/

/-- None of IE, ZE and, where `d` asks for it, DE is set with its mask clear. -/
def Clear (d : Bool) (s : State) : Prop :=
  (s.cw.getLsbD 0 = false → s.sw.ie = false) ∧ (s.cw.getLsbD 2 = false → s.sw.ze = false) ∧
    (d = true → s.cw.getLsbD 1 = false → s.sw.de = false)

theorem Clear.calm {d : Bool} {s t : State} (h : Clear d s) (g : Calm s t) : Clear d t := by
  obtain ⟨hcw, hie, hde, hze⟩ := g
  unfold Clear
  rw [hcw, hie, hde, hze]
  exact h

/-- Registers, tags and TOP are as they were. -/
def StackKept (s t : State) : Prop := t.regs = s.regs ∧ t.tags = s.tags ∧ t.sw.top = s.sw.top

/-- With none of the flags unmasked before, none is after, or the stack is as it was. -/
def Stops (d : Bool) (s t : State) : Prop := Clear d s → Clear d t ∨ StackKept s t

section
variable {d : Bool} {s t u : State}

theorem stops_of_calm (h : Calm s t) : Stops d s t := fun hc => .inl (hc.calm h)

theorem Stops.after (h : Stops d s t) (hcalm : Calm t u) (hkept : StackKept t u) : Stops d s u := fun hc => by
  rcases h hc with hclear | ⟨hr, ht, hp⟩
  · exact .inl (hclear.calm hcalm)
  · obtain ⟨hr', ht', hp'⟩ := hkept
    exact .inr ⟨hr'.trans hr, ht'.trans ht, hp'.trans hp⟩

theorem Stops.openC023 (h : Stops d s t) : Stops d s t.openC023 :=
  h.after (calm_openC023 t) ⟨openC023_regs t, openC023_tags t, openC023_top t⟩

theorem Stops.openC03 (h : Stops d s t) : Stops d s t.openC03 := h.after (calm_openC03 t) ⟨rfl, rfl, rfl⟩

theorem Stops.withC2 (h : Stops d s t) (b : Bool) : Stops d s (t.withC2 b) := h.after ⟨rfl, rfl, rfl, rfl⟩ ⟨rfl, rfl, rfl⟩

theorem stops_ite {c : Prop} [Decidable c] (h : c → Stops d s t) (g : ¬c → Stops d s u) :
    Stops d s (if c then t else u) := by
  split
  · next hc => exact h hc
  · next hc => exact g hc

variable {f : State → State}

theorem stops_raiseStack (hf : ∀ x, Calm x (f x)) (o : Bool) : Stops d s (s.raiseStack o f) := fun hc => by
  rw [raiseStack_eq]
  split
  · next hm =>
    have hclear : Clear d (stackFlagged o s) := ⟨fun h => absurd (hm.symm.trans h) (by decide), hc.2⟩
    exact .inl (hclear.calm (hf _))
  · exact .inr ⟨rfl, rfl, rfl⟩

theorem stops_raiseInvalid (hf : ∀ x, Calm x (f x)) : Stops d s (s.raiseInvalid f) := fun hc => by
  rw [raiseInvalid_eq]
  split
  · next hm =>
    have hclear : Clear d (invalidFlagged s) := ⟨fun h => absurd (hm.symm.trans h) (by decide), hc.2⟩
    exact .inl (hclear.calm (hf _))
  · exact .inr ⟨rfl, rfl, rfl⟩

theorem stops_raiseZeroDivide (hf : ∀ x, Calm x (f x)) : Stops d s (s.raiseZeroDivide f) := fun hc => by
  rw [raiseZeroDivide_eq]
  split
  · next hm =>
    obtain ⟨hie, -, hde⟩ := hc
    have hclear : Clear d (zeroFlagged s) := ⟨hie, fun h => absurd (hm.symm.trans h) (by decide), hde⟩
    exact .inl (hclear.calm (hf _))
  · exact .inr ⟨rfl, rfl, rfl⟩

theorem stops_raiseDenormal {g : State → State} (hf : ∀ x, Stops d x (f x)) (hg : ∀ x, StackKept x (g x)) :
    Stops d s (s.raiseDenormal f g) := fun hc => by
  rw [State.raiseDenormal]
  dsimp only
  split
  · next hm =>
    obtain ⟨hie, hze, -⟩ := hc
    have hclear : Clear d { s with sw := { s.sw with de := true } } :=
      ⟨hie, hze, fun _ h => absurd (hm.symm.trans h) (by decide)⟩
    exact (hf _ hclear).imp_right fun ⟨hr, ht, hp⟩ => ⟨hr, ht, hp⟩
  · obtain ⟨hr, ht, hp⟩ := hg (State.withC1 false { s with sw := { s.sw with de := true } })
    exact .inr ⟨hr, ht, hp⟩

theorem stops_denormalTest (den : Bool) (hf : ∀ x, Stops d x (f x)) : Stops d s (s.denormalTest den f) :=
  stops_ite (fun _ => stops_raiseDenormal hf fun _ => ⟨rfl, rfl, rfl⟩) fun _ => hf s

theorem stops_denormalTest_calm (den : Bool) (hf : ∀ x, Calm x (f x)) : Stops d s (s.denormalTest den f) :=
  stops_denormalTest den fun x => stops_of_calm (hf x)

variable {write : Ext → State → State}

theorem stops_nanOne (hw : ∀ v x, Calm x (write v x)) (a : Ext) : Stops d s (s.nanOne a write) :=
  stops_ite (fun _ => stops_raiseInvalid (hw _)) fun _ => stops_of_calm ((calm_withC1 false s).trans (hw _ _))

theorem stops_nanTwo (hw : ∀ v x, Calm x (write v x)) (a b : Ext) : Stops d s (s.nanTwo a b write) :=
  stops_ite (fun _ => stops_raiseInvalid (hw _)) fun _ => stops_of_calm ((calm_withC1 false s).trans (hw _ _))

end

/-! ### The rules -/

section
variable {d : Bool} (s : State)

theorem stops_arith (op : ArithOp) (k : BitVec 3) (src : Source) (pop : Bool) : Stops d s (s.arith op k src pop) :=
  stops_ite (fun _ => stops_raiseStack (calm_answer k _ pop) false) fun _ =>
  stops_ite (fun _ => stops_raiseInvalid (calm_answer k _ pop)) fun _ =>
  stops_ite (fun _ => stops_nanTwo (fun v => calm_answer k v pop) _ _) fun _ =>
  stops_ite (fun _ => stops_raiseInvalid (calm_answer k _ pop)) fun _ =>
  stops_ite (fun _ => stops_raiseZeroDivide (calm_answer k _ pop)) fun _ =>
  stops_denormalTest_calm _ fun x => (calm_arithResult op k _ _ x).trans (calm_popIf pop _)

theorem stops_compare (src : Source) (q : Bool) (dst : ResultTo) (n : Nat) : Stops d s (s.compare src q dst n) := by
  have answer : ∀ rel x, Calm x (State.pops n (x.setResult dst rel)) := fun rel x =>
    (calm_setResult dst rel x).trans (calm_pops n _)
  exact
    stops_ite (fun _ => stops_raiseStack (answer _) false) fun _ =>
    stops_ite (fun _ => stops_raiseInvalid (answer _)) fun _ =>
    stops_ite (fun _ => stops_of_calm (answer _ s)) fun _ =>
    stops_ite (fun _ => stops_raiseDenormal (fun x => stops_of_calm (answer _ x)) fun x => by cases dst <;> exact ⟨rfl, rfl, rfl⟩) fun _ =>
    stops_of_calm (answer _ s)

theorem stops_unary {invalid : Ext → Bool} {f : Ext → State → State}
    (hf : ∀ x, classOf (s.st 0#3) ≠ .unsupported → classOf (s.st 0#3) ≠ .nan → Calm x (f (s.st 0#3) x)) :
    Stops d s (s.unary invalid f) :=
  stops_ite (fun _ => stops_raiseStack (calm_setSt _ _) false) fun _ =>
  stops_ite (fun _ => stops_raiseInvalid (calm_setSt _ _)) fun hu =>
  stops_ite (fun _ => stops_nanOne (calm_setSt _) _) fun hn =>
  stops_ite (fun _ => stops_raiseInvalid (calm_setSt _ _)) fun _ =>
  stops_denormalTest_calm _ fun x => hf x hu hn

theorem stops_onSign (f : Ext → Ext) : Stops d s (s.onSign f) :=
  stops_ite (fun _ => stops_raiseStack (calm_setSt _ _) false) fun _ => stops_of_calm ⟨rfl, rfl, rfl, rfl⟩

theorem stops_prem (nearest : Bool) : Stops d s (s.prem nearest) :=
  stops_ite (fun _ => stops_raiseStack (calm_setSt _ _) false) fun _ =>
  stops_ite (fun _ => stops_raiseInvalid (calm_setSt _ _)) fun _ =>
  stops_ite (fun _ => stops_nanTwo (calm_setSt _) _ _) fun _ =>
  stops_ite (fun _ => stops_raiseInvalid (calm_setSt _ _)) fun _ =>
  stops_denormalTest_calm _ fun x =>
    calm_ite (fun _ => ⟨rfl, rfl, rfl, rfl⟩) fun _ =>
    calm_ite (fun _ => Calm.trans (t := ((x.withC0 false).withC2 false).withC3 false) ⟨rfl, rfl, rfl, rfl⟩
      (calm_deliver _ _ _ _ _)) fun _ =>
    calm_reduce nearest _ _ x

theorem stops_scale : Stops d s s.scale :=
  stops_ite (fun _ => stops_raiseStack (calm_setSt _ _) false) fun _ =>
  stops_ite (fun _ => stops_raiseInvalid (calm_setSt _ _)) fun _ =>
  stops_ite (fun _ => stops_nanTwo (calm_setSt _) _ _) fun _ =>
  stops_ite (fun _ => stops_raiseInvalid (calm_setSt _ _)) fun _ =>
  stops_denormalTest_calm _ fun x =>
    calm_ite (fun _ => calm_withC1 false x) fun _ =>
    calm_ite (fun _ => ⟨rfl, rfl, rfl, rfl⟩) fun _ => calm_deliver _ _ _ _ x

theorem calm_bothResults (v : Ext) (x : State) : Calm x (State.bothResults v x) := ⟨rfl, rfl, rfl, rfl⟩

theorem stops_xtract : Stops d s s.xtract :=
  stops_ite (fun _ => stops_raiseStack (calm_bothResults _) false) fun _ =>
  stops_ite (fun _ => stops_raiseStack (calm_bothResults _) true) fun _ =>
  stops_ite (fun _ => stops_raiseInvalid (calm_bothResults _)) fun _ =>
  stops_ite (fun _ => stops_nanOne calm_bothResults _) fun _ =>
  stops_denormalTest _ fun _ =>
    stops_ite (fun _ => stops_raiseZeroDivide fun _ => ⟨rfl, rfl, rfl, rfl⟩) fun _ =>
    stops_ite (fun _ => stops_of_calm ⟨rfl, rfl, rfl, rfl⟩) fun _ => stops_of_calm ⟨rfl, rfl, rfl, rfl⟩

/-! ### Transcendental instructions -/

theorem stops_f2xm1 : Stops d s s.f2xm1 :=
  stops_ite (fun _ => stops_raiseStack (calm_setSt _ _) false) fun _ =>
  stops_ite (fun _ => stops_raiseInvalid (calm_setSt _ _)) fun _ =>
  stops_ite (fun _ => stops_nanOne (calm_setSt _) _) fun _ =>
  stops_denormalTest_calm _ fun x =>
    calm_ite (fun _ => calm_withC1 false x) fun _ =>
    calm_ite (fun _ => calm_openResult _ x) fun _ => calm_finish _ _ x

theorem stops_trig {bad zero : State → State} {f : Ext → Rounding → Trans} (hbad : Stops d s (bad s))
    (hzero : ∀ x, Calm x (zero x)) : Stops d s (s.trig bad zero f) :=
  stops_ite (fun _ => stops_raiseStack (calm_setSt _ _) false) fun _ =>
  stops_ite (fun _ => hbad) fun _ =>
  stops_ite (fun _ => (stops_nanOne (calm_setSt _) _).withC2 false) fun _ =>
  stops_ite (fun _ => (stops_raiseInvalid (calm_setSt _ _)).withC2 false) fun _ =>
  stops_denormalTest_calm _ fun x =>
    calm_ite (fun _ => (hzero x).trans ((calm_withC1 _ _).trans (calm_withC2 _ _))) fun _ =>
    calm_ite (fun _ => (calm_withC2 _ x).trans (calm_openC1 _)) fun _ => (calm_finish _ _ x).trans (calm_withC2 _ _)

theorem stops_trigPair {takes : Ext → State → Bool} {f : Ext → State → State} (hf : ∀ v x, Calm x (f v x)) :
    Stops d s (s.trigPair takes f) :=
  stops_ite (fun _ => stops_raiseStack (calm_bothResults _) false) fun _ =>
  stops_ite (fun _ => stops_raiseStack (calm_bothResults _) true) fun _ =>
  stops_ite (fun _ => (stops_raiseInvalid (calm_bothResults _)).withC2 false) fun _ =>
  stops_ite (fun _ => (stops_nanOne calm_bothResults _).withC2 false) fun _ =>
  stops_denormalTest_calm _ fun x =>
    calm_ite (fun _ => ⟨rfl, rfl, rfl, rfl⟩) fun _ =>
    calm_ite (fun _ => (calm_openResult _ x).trans ((calm_push _ _).trans (calm_openC2 _))) fun _ =>
    calm_ite (fun _ => (calm_withC2 _ x).trans (calm_openC1 _)) fun _ => (hf _ x).trans (calm_withC2 _ _)

theorem calm_tangent (v : Ext) (x : State) : Calm x (x.tangent v) := (calm_finish _ _ x).trans (calm_push _ _)

theorem calm_sineCosine (v : Ext) (x : State) : Calm x (x.sineCosine v) := by
  refine (calm_finish _ _ x).trans (calm_ite (fun _ => ?_) fun _ => calm_push _ _)
  exact (calm_push _ _).trans (calm_raiseInexact _ _)

theorem calm_pairAnswer (v : Ext) (x : State) : Calm x ((x.setSt 1#3 v).pop) := (calm_setSt _ _ x).trans (calm_pop _)

theorem stops_pairFront {f : Ext → Ext → State → State} (hf : ∀ y x t, Stops d t (f y x t)) : Stops d s (s.pairFront f) :=
  stops_ite (fun _ => stops_raiseStack (calm_pairAnswer _) false) fun _ =>
  stops_ite (fun _ => stops_raiseInvalid (calm_pairAnswer _)) fun _ =>
  stops_ite (fun _ => stops_nanTwo calm_pairAnswer _ _) fun _ => hf _ _ s

theorem stops_arctan (y x : Ext) : Stops d s (s.arctan y x) :=
  stops_denormalTest_calm _ fun t =>
    calm_ite (fun _ => (calm_openResult _ t).trans (calm_pop _)) fun _ =>
    calm_ite (fun _ => (calm_setSt _ _ t).trans ((calm_withC1 _ _).trans (calm_pop _))) fun _ =>
    (calm_finish _ _ t).trans (calm_pop _)

theorem stops_yl2x (y x : Ext) : Stops d s (s.yl2x y x) :=
  stops_ite (fun _ => stops_raiseInvalid (calm_pairAnswer _)) fun _ =>
  stops_ite (fun _ => stops_raiseZeroDivide (calm_pairAnswer _)) fun _ =>
  stops_denormalTest_calm _ fun t => by
    cases yl2xExact y x with
    | some v => exact (calm_withC1 false t).trans (calm_pairAnswer v _)
    | none => exact (calm_finish _ _ t).trans (calm_pop _)

theorem calm_openDelivery (i : BitVec 3) (x : State) : Calm x (x.openDelivery i) :=
  calm_of_calc (K := [i]) (calc_openDelivery (List.mem_singleton.2 rfl) (by decide) (by decide) (by decide) x)

/-- The flags of an operand out of range are free bits, and one that is unmasked stops the instruction (log entry 10). -/
theorem stops_yl2xp1Open : Stops d s s.yl2xp1Open := by
  intro hc
  rw [State.yl2xp1Open]
  generalize Config.freeBit s.draws = bi, Config.freeBit (s.draws + 1) = bd, Config.freeBit (s.draws + 2) = bz
  dsimp only
  split
  · exact .inr ⟨rfl, rfl, rfl⟩
  · next hmask =>
    obtain ⟨hie, hze, hde⟩ := hc
    simp only [Bool.or_eq_true, Bool.and_eq_true, Bool.not_eq_true', not_or, not_and, Bool.not_eq_false] at hmask
    obtain ⟨⟨hi, hd⟩, hz⟩ := hmask
    have hfree : ∀ {b m f : Bool}, (b = true → m = true) → (m = false → f = false) → m = false → (f || b) = false := by
      decide
    have hclear : Clear d { s with
        sw := { s.sw with ie := s.sw.ie || bi, de := s.sw.de || bd, ze := s.sw.ze || bz }
        draws := s.draws + 3 } :=
      ⟨fun h => hfree hi hie h, fun h => hfree hz hze h, fun hd' h => hfree hd (hde hd') h⟩
    exact .inl (hclear.calm ((calm_openDelivery _ _).trans (calm_pop _)))

theorem stops_yl2xp1 (y x : Ext) : Stops d s (s.yl2xp1 y x) :=
  stops_ite (fun _ => stops_yl2xp1Open s) fun _ =>
  stops_ite (fun _ => stops_raiseInvalid (calm_pairAnswer _)) fun _ =>
  stops_denormalTest_calm _ fun t =>
    calm_ite (fun _ => (calm_withC1 false t).trans (calm_pairAnswer _ _)) fun _ =>
    calm_ite (fun _ => (calm_withC1 false t).trans (calm_pairAnswer _ _)) fun _ =>
    (calm_finish _ _ t).trans (calm_pop _)

/-! ### Loads, moves and stores -/

theorem stops_load (v : Ext) : Stops d s (s.load v) :=
  stops_ite (fun _ => stops_raiseStack (calm_push _) true) fun _ => stops_of_calm ⟨rfl, rfl, rfl, rfl⟩

theorem stops_loadBcd (bs : List Byte) : Stops d s (s.loadBcd bs) :=
  stops_ite (fun _ => stops_load s _) fun _ =>
  stops_ite (fun _ => stops_load s _) fun _ => (stops_load s _).after ⟨rfl, rfl, rfl, rfl⟩ ⟨rfl, rfl, rfl⟩

/-- A denormal is pushed with DM = 0 too, so the flag DE is left out. -/
theorem stops_loadReal (b : Operand) : Stops false s (s.loadReal b) :=
  stops_ite (fun _ => stops_raiseStack (calm_push _) true) fun _ =>
  stops_ite (fun _ => stops_raiseInvalid (calm_push _)) fun _ => by
    have hkept : (if b.denMem then s.raiseDenormal id id else s).cw = s.cw ∧
        (if b.denMem then s.raiseDenormal id id else s).sw.ie = s.sw.ie ∧
        (if b.denMem then s.raiseDenormal id id else s).sw.ze = s.sw.ze := by
      rw [State.raiseDenormal, id, id]
      split
      · split <;> exact ⟨rfl, rfl, rfl⟩
      · exact ⟨rfl, rfl, rfl⟩
    obtain ⟨hcw, hie', hze'⟩ := hkept
    rintro ⟨hie, hze, -⟩
    have hclear : Clear false (if b.denMem then s.raiseDenormal id id else s) := by
      unfold Clear
      rw [hcw, hie', hze']
      exact ⟨hie, hze, nofun⟩
    exact .inl (hclear.calm ((calm_push _ _).trans (calm_withC1 _ _)))

theorem stops_loadSt (i : BitVec 3) : Stops d s (s.loadSt i) :=
  stops_ite (fun _ => stops_raiseStack (calm_push _) false) fun _ => stops_load s _

theorem stops_copyTo (i : BitVec 3) (pop : Bool) : Stops d s (s.copyTo i pop) :=
  stops_ite (fun _ => stops_raiseStack (calm_answer i _ pop) false) fun _ =>
    stops_of_calm ((calm_setSt _ _ s).trans ((calm_withC1 _ _).trans (calm_popIf pop _)))

theorem calm_fillEmpty (i : BitVec 3) (x : State) : Calm x (x.fillEmpty i) :=
  calm_ite (fun _ => calm_setSt _ _ x) fun _ => Calm.refl x

theorem calm_exchange (i : BitVec 3) (x : State) : Calm x (x.exchange i) := ⟨rfl, rfl, rfl, rfl⟩

theorem stops_swap (i : BitVec 3) : Stops d s (s.swap i) :=
  stops_ite (fun _ => stops_raiseStack (fun x => (calm_fillEmpty _ x).trans ((calm_fillEmpty i _).trans
    (calm_exchange i _))) false) fun _ => stops_of_calm ((calm_exchange i s).trans (calm_withC1 _ _))

theorem stops_moveIf (cond : Bool) (i : BitVec 3) : Stops d s (s.moveIf cond i) :=
  stops_ite (fun _ => stops_raiseStack (calm_setSt _ _) false) fun _ =>
    stops_of_calm ((calm_ite (fun _ => calm_setSt _ _ s) fun _ => Calm.refl s).trans (calm_withC1 _ _))

/-- A store with one of the flags unmasked after it stores nothing, and the stack is as it was. -/
def StopsStore (d : Bool) (s : State) (x : State × Option (List Byte)) : Prop :=
  Clear d s → Clear d x.1 ∨ (x.2 = none ∧ StackKept s x.1)

theorem stopsStore_ite {c : Prop} [Decidable c] {x y : State × Option (List Byte)} (h : c → StopsStore d s x)
    (g : ¬c → StopsStore d s y) : StopsStore d s (if c then x else y) := by
  split
  · next hc => exact h hc
  · next hc => exact g hc

theorem stopsStore_calm {x : State × Option (List Byte)} (h : Calm s x.1) : StopsStore d s x := fun hc => .inl (hc.calm h)

theorem stopsStore_storeStack (bs : List Byte) (pop : Bool) : StopsStore d s (s.storeStack bs pop) := fun hc => by
  by_cases hm : s.cw.getLsbD 0 = true
  · refine .inl (Clear.calm (s := stackFlagged false s) ⟨fun h => absurd (hm.symm.trans h) (by decide), hc.2⟩ ?_)
    rw [State.storeStack, raiseStack_eq, if_pos hm]
    exact calm_popIf pop _
  · rw [State.storeStack, raiseStack_eq, if_neg hm, if_neg hm]
    exact .inr ⟨rfl, rfl, rfl, rfl⟩

theorem stopsStore_storeInvalid (bs : List Byte) (pop : Bool) : StopsStore d s (s.storeInvalid bs pop) := fun hc => by
  by_cases hm : s.cw.getLsbD 0 = true
  · refine .inl (Clear.calm (s := invalidFlagged s) ⟨fun h => absurd (hm.symm.trans h) (by decide), hc.2⟩ ?_)
    rw [State.storeInvalid, raiseInvalid_eq, if_pos hm]
    exact calm_popIf pop _
  · rw [State.storeInvalid, raiseInvalid_eq, if_neg hm, if_neg hm]
    exact .inr ⟨rfl, rfl, rfl, rfl⟩

theorem calm_inexactOr (i b : Bool) (x : State) : Calm x (x.inexactOr i b) :=
  calm_ite (fun _ => calm_raiseInexact b x) fun _ => calm_withC1 false x

theorem stopsStore_storeRounded (fits : Nat → Bool) (image : Nat → List Byte) (bad : List Byte) (pop : Bool) :
    StopsStore d s (s.storeRounded fits image bad pop) :=
  stopsStore_ite s (fun _ => stopsStore_storeStack s _ _) fun _ =>
  stopsStore_ite s (fun _ => stopsStore_storeInvalid s _ _) fun _ =>
  stopsStore_ite s (fun _ => stopsStore_storeInvalid s _ _) fun _ =>
  stopsStore_calm s ((calm_inexactOr _ _ s).trans (calm_popIf pop _))

theorem stopsStore_storeReal (f : RealFmt) (pop : Bool) : StopsStore d s (s.storeReal f pop) := by
  refine stopsStore_ite s (fun _ => stopsStore_storeStack s _ _) fun _ =>
    stopsStore_ite s (fun _ => stopsStore_storeInvalid s _ _) fun _ =>
    stopsStore_ite s (fun _ => stopsStore_storeInvalid s _ _) fun _ =>
    stopsStore_ite s (fun _ => stopsStore_calm s ?_) fun _ =>
      stopsStore_calm s ((calm_withC1 false s).trans (calm_popIf pop _))
  exact calm_of_calc (D := [0#3, 1#3]) (K := [0#3]) (calc_storeFinite (by decide) (fun _ => by decide)
    (fun _ => by decide) (by decide) (by decide) (by decide) _ s)

theorem stopsStore_storeExt : StopsStore d s s.storeExt :=
  stopsStore_ite s (fun _ => stopsStore_storeStack s _ _) fun _ =>
    stopsStore_calm s ((calm_withC1 false s).trans (calm_pop _))

variable {s} in
theorem StopsStore.openAfter {x : State × Option (List Byte)} (h : StopsStore d s x) : StopsStore d s (openAfter x) :=
  fun hc => by
    rcases h hc with hclear | ⟨hnone, hr, ht, hp⟩
    · exact .inl (hclear.calm (calm_openC023 _))
    · exact .inr ⟨hnone, (openC023_regs _).trans hr, (openC023_tags _).trans ht, (openC023_top _).trans hp⟩

end

/-! ### Every instruction -/

/-- The relation for the three shapes. -/
def StopsShape (d : Bool) : Shape → Prop
  | .compute f => ∀ s, Stops d s (f s)
  | .load f => ∀ bs s, Stops d s (f bs s)
  | .store f => ∀ s, StopsStore d s (f s)

theorem stops_withSource {d : Bool} {k : SourceKind} {f : Source → State → State} (h : ∀ src s, Stops d s (f src s)) :
    StopsShape d (withSource k f) := by
  cases k with
  | reg j => exact fun s => h _ s
  | zero => exact fun s => h _ s
  | real f => exact fun bs s => h _ s
  | int w => exact fun bs s => h _ s

/-- Does an unmasked denormal exception end the instruction? The two loads that complete their push excepted. -/
def stopsOnDenormal : Instr → Bool
  | .fldM32 _ | .fldM64 _ => false
  | _ => true

/-- Each instruction that is no control instruction. -/
theorem stops_shapeOf {i : Instr} (h : familyOf i ≠ .control) : StopsShape (stopsOnDenormal i) (shapeOf i) := by
  by_cases ha : familyOf i = .arith
  · obtain ⟨row, hr⟩ := exists_arithRow ha
    rw [shapeOf_arith hr]
    exact stops_withSource fun src s => (stops_arith s _ _ _ _).openC023
  by_cases hc : familyOf i = .compare
  · obtain rfl | ⟨row, hr⟩ := exists_compareRow hc
    · exact fun s => stops_of_calm (calm_of_calc (K := []) (calc_examine s))
    · rw [shapeOf_compare hr]
      exact stops_withSource fun src s => stops_compare s _ _ _ _
  cases i <;> first
    | exact absurd rfl h
    | exact absurd rfl hc
    | exact absurd rfl ha
    | skip
  -- transcendental instructions
  case f2xm1 => exact fun s => (stops_f2xm1 s).openC023
  case fcos => exact fun s => (stops_trig s (bad := State.raiseInvalid State.indefSt0)
    (stops_raiseInvalid (calm_setSt 0#3 indef)) (calm_setSt 0#3 one)).openC03
  case fsin => exact fun s => (stops_trig s (bad := State.trigInvalid State.indefSt0) (zero := id)
    ((stops_raiseInvalid (f := State.indefSt0) (calm_setSt 0#3 indef)).withC2 false) Calm.refl).openC03
  case fptan => exact fun s => (stops_trigPair s calm_tangent).openC03
  case fsincos => exact fun s => (stops_trigPair s calm_sineCosine).openC03
  case fpatan => exact fun s => (stops_pairFront s fun y x t => stops_arctan t y x).openC023
  case fyl2x => exact fun s => (stops_pairFront s fun y x t => stops_yl2x t y x).openC023
  case fyl2xp1 => exact fun s => (stops_pairFront s fun y x t => stops_yl2xp1 t y x).openC023
  -- other arithmetic
  case fabs | fchs => exact fun s => (stops_onSign s _).openC023
  case fprem | fprem1 => exact fun s => stops_prem s _
  case frndint => exact fun s => (stops_unary s fun x _ _ =>
    calm_of_calc (K := [0#3]) (calc_roundInt (by decide) (by decide) _ x)).openC023
  case fsqrt => exact fun s => (stops_unary s fun x hu hn =>
    calm_of_calc (K := [0#3]) (calc_squareRoot (by decide) (by decide) hu hn x)).openC023
  case fscale => exact fun s => (stops_scale s).openC023
  case fxtract => exact fun s => (stops_xtract s).openC023
  -- loads
  case fbld => exact fun bs s => (stops_loadBcd s bs).openC023
  case fildM16 | fildM32 | fildM64 | fldM80 => exact fun bs s => (stops_load s _).openC023
  case fldM32 | fldM64 => exact fun bs s => (stops_loadReal s _).openC023
  case fldSt => exact fun s => (stops_loadSt s _).openC023
  case fld1 | fldl2t | fldl2e | fldpi | fldlg2 | fldln2 | fldz => exact fun s => (stops_load s _).openC023
  -- stores
  case fbstp => exact fun s => (stopsStore_storeRounded s _ _ _ _).openAfter
  case fistM16 | fistM32 | fistpM16 | fistpM32 | fistpM64 =>
    exact fun s => (stopsStore_storeRounded s _ _ _ _).openAfter
  case fstM32 | fstM64 | fstpM32 | fstpM64 => exact fun s => (stopsStore_storeReal s _ _).openAfter
  case fstpM80 => exact fun s => (stopsStore_storeExt s).openAfter
  -- moves
  case fcmovb | fcmove | fcmovbe | fcmovu | fcmovnb | fcmovne | fcmovnbe | fcmovnu =>
    exact fun s => (stops_moveIf s _ _).openC023
  case fstSt | fstpSt => exact fun s => (stops_copyTo s _ _).openC023
  case fxch => exact fun s => (stops_swap s _).openC023

/-- Nothing pending leaves none of the flags unmasked. -/
theorem clear_of_es {s : State} (h : s.es = false) (d : Bool) : Clear d s := by
  rw [State.es] at h
  simp only [Bool.or_eq_false_iff, Bool.and_eq_false_iff, Bool.not_eq_false'] at h
  obtain ⟨⟨⟨⟨⟨hie, hde⟩, hze⟩, -⟩, -⟩, -⟩ := h
  exact ⟨fun hm => hie.resolve_right (by rw [hm]; decide), fun hm => hze.resolve_right (by rw [hm]; decide),
    fun _ hm => hde.resolve_right (by rw [hm]; decide)⟩

/-- An instruction that answers a state answers that of its rule. -/
theorem rule_of_next {i : Instr} {s t : State} (hf : familyOf i ≠ .control) (hr : Ready i s) (ht : exec i s = .next t) :
    ∃ u, ruleOf i s = .ok u ∧ t = u.retire .record i := by
  have hw := not_waitForm_of_family hf
  rw [exec_around hw, pointersOf_of_family hf] at ht
  cases hrule : ruleOf i s with
  | ok u => exact ⟨u, rfl, (Host.Outcome.next.inj ((Ready.runs hr rfl hrule).symm.trans ht)).symm⟩
  | error e =>
    obtain ⟨hav, hp, hq⟩ := hr
    have hquiet : Quiet (syncOf i) s := by cases hh : syncOf i <;> simpa [Quiet, hh] using hq
    simp [around, hav, hp, hquiet.trapsBefore, hquiet.entering, hrule] at ht

/-- With none of the flags unmasked before and one after, the stack and memory are as they were. -/
theorem rule_stops {i : Instr} {s u : State} (hf : familyOf i ≠ .control) (hu : ruleOf i s = .ok u)
    (hc : Clear (stopsOnDenormal i) s) :
    u.cw = s.cw ∧ (Clear (stopsOnDenormal i) u ∨ (StackKept s u ∧ u.mem = s.mem)) := by
  have hstops := stops_shapeOf hf
  have hcalc := holds_calcHost hf
  unfold ruleOf at hu
  cases hs : shapeOf i with
  | compute f =>
    rw [hs] at hstops hcalc hu
    obtain rfl := Except.ok.inj hu
    exact ⟨(hcalc s).cw, (hstops s hc).imp_right fun h => ⟨h, (hcalc s).mem⟩⟩
  | load f =>
    rw [hs] at hstops hcalc hu
    obtain ⟨-, rfl⟩ := loading_cases hu
    exact ⟨(hcalc _ s).cw, (hstops _ s hc).imp_right fun h => ⟨h, (hcalc _ s).mem⟩⟩
  | store f =>
    rw [hs] at hstops hcalc hu
    obtain ⟨-, rfl⟩ | ⟨bs, hbs, -, rfl⟩ := storing_cases hu
    · exact ⟨(hcalc s).cw, (hstops s hc).imp_right fun h => ⟨h.2, (hcalc s).mem⟩⟩
    · refine ⟨(hcalc s).cw, .inl ((hstops s hc).resolve_right fun h => ?_)⟩
      rw [h.1] at hbs
      exact absurd hbs nofun

theorem stopsOnDenormal_of_ne {i : Instr} (h : ∀ a, i ≠ .fldM32 a ∧ i ≠ .fldM64 a) : stopsOnDenormal i = true := by
  cases i
  case fldM32 a => exact absurd rfl (h a).1
  case fldM64 a => exact absurd rfl (h a).2
  all_goals rfl

theorem unmasked_stops {i : Instr} {s t : State} (hf : familyOf i ≠ .control) (hr : Ready i s) (hes : s.es = false)
    (ht : exec i s = .next t)
    (h : (t.sw.ie = true ∧ s.cw.getLsbD 0 = false) ∨ (t.sw.ze = true ∧ s.cw.getLsbD 2 = false) ∨
      (t.sw.de = true ∧ s.cw.getLsbD 1 = false ∧ ∀ a, i ≠ .fldM32 a ∧ i ≠ .fldM64 a)) :
    t.regs = s.regs ∧ t.tags = s.tags ∧ t.sw.top = s.sw.top ∧ MemoryKept s t := by
  obtain ⟨u, hu, rfl⟩ := rule_of_next hf hr ht
  obtain ⟨hcw, ⟨hie, hze, hde⟩ | ⟨⟨hregs, htags, htop⟩, hmem⟩⟩ := rule_stops hf hu (clear_of_es hes _)
  · rw [retire_sw] at h
    rw [hcw] at hie hze hde
    rcases h with ⟨h, hm⟩ | ⟨h, hm⟩ | ⟨h, hm, hi⟩
    · exact absurd h (by rw [hie hm]; decide)
    · exact absurd h (by rw [hze hm]; decide)
    · exact absurd h (by rw [hde (stopsOnDenormal_of_ne hi) hm]; decide)
  · refine ⟨(retire_regs ..).trans hregs, (retire_tags ..).trans htags, ?_, fun a => ?_⟩
    · rw [retire_sw]
      exact htop
    · rw [State.byteAt, State.byteAt, retire_mem, hmem]

end Sys2Proof.Laws.Unmasked
end

section
/-! Denormal operands with DM = 0 (rules R17, R523): the instruction ends with DE set, C1 clear and the stack and memory as
they were. -/

namespace Sys2Proof.Laws.DenormalStop

open Sys2Proof.Machine Sys2Proof.Laws Sys2Proof.Laws.Shapes Sys2Proof.Laws.Frame Sys2Proof.Laws.SignBit
open Sys2Proof.Laws.Answers Sys2Proof.Laws.Moves Sys2Proof.Laws.Values Sys2Proof.Laws.Sources Sys2Proof.Laws.Operands
open Sys2Proof.Laws.Comparison Sys2Proof.Laws.Refused Sys2Proof.Laws.Special Sys2Proof.Laws.Rounding
open Sys2Proof.Laws.Logarithms Sys2Proof.Laws.Unmasked

/-- The state that an unmasked denormal exception leaves. -/
def denormalFlagged (s : State) : State := { s with sw := { s.sw with de := true, c1 := false } }

theorem denormalTest_ends {s : State} (hm : s.cw.getLsbD 1 = false) (go : State → State) :
    s.denormalTest true go = denormalFlagged s := by
  rw [State.denormalTest, if_pos rfl, State.raiseDenormal]
  dsimp only
  rw [if_neg (by rw [hm]; decide)]
  rfl

/-! ### The operands -/

/-- Every memory operand has a register value, which the rules read. -/
theorem sourceBits_operandOf {k : SourceKind} (hk : Plain k) (a : Addr) (s : State) :
    SourceBits k a s (operandOf k a s).bits := by
  cases k with
  | reg j => exact rfl
  | zero => exact (by decide : zeroOf false = 0#80)
  | int w =>
    obtain ⟨heq, hlt⟩ := intAt_spec (hk.imp_right .inl) a s
    obtain ⟨hval, hsign, -⟩ := intToExt_spec hlt
    have hbits : (operandOf (.int w) a s).bits = intToExt (intAt w a s) := congrArg intToExt heq
    rw [hbits]
    exact ⟨hsign, hval⟩
  | real f =>
    rcases (expoOf_le f (leNat (s.bytesAt a f.bytes))).lt_or_eq with hlt | hmax
    · have hv := (formatValue_iff f (leNat (s.bytesAt a f.bytes)) _).2 ⟨hlt, rfl⟩
      obtain ⟨hval, hsign, -, -⟩ := toExt_value hk hv
      exact ⟨hsign, by rw [if_neg hlt.ne]; exact ⟨_, hv, hval⟩⟩
    · obtain ⟨hsign, hexpo, hsig⟩ := toExt_special_fields hk hmax
      have hb := special_bound hk (leNat (s.bytesAt a f.bytes))
      refine ⟨hsign, ?_⟩
      rw [if_pos hmax]
      refine ⟨hexpo, ?_, ?_⟩
      · rw [intBit_eq, decide_eq_true_eq]
        exact hsig.symm ▸ Nat.le_add_right _ _
      · rw [fracOf_eq]
        refine (congrArg (· % 2 ^ 63) hsig).trans ?_
        rw [Nat.add_mod_left, Nat.mod_eq_of_lt hb]

/-- An operand of class denormal is a finite nonzero number. -/
theorem operandOf_denormal_finite {k : SourceKind} (hk : Plain k) {a : Addr} {s : State}
    (h : (operandOf k a s).denormal = true) : IsFiniteNonzero (operandOf k a s).bits := by
  rw [Operand.denormal, Bool.or_eq_true, decide_eq_true_eq] at h
  rcases h with hden | hclass
  · cases k with
    | reg j => exact Bool.noConfusion hden
    | zero => exact Bool.noConfusion hden
    | int w => exact Bool.noConfusion hden
    | real f =>
      have hden' : (f.toExt (leNat (s.bytesAt a f.bytes))).denMem = true := hden
      rcases (expoOf_le f (leNat (s.bytesAt a f.bytes))).lt_or_eq with hlt | hmax
      · have hv := (formatValue_iff f (leNat (s.bytesAt a f.bytes)) _).2 ⟨hlt, rfl⟩
        obtain ⟨hval, -, -, -⟩ := toExt_value hk hv
        rw [toExt_finite hlt, Bool.and_eq_true, decide_eq_true_eq, decide_eq_true_eq] at hden'
        obtain ⟨hexpo, hfrac⟩ := hden'
        have hne : signed (f.negOf (leNat (s.bytesAt a f.bytes)))
            (mantOf f (leNat (s.bytesAt a f.bytes)) * 2 ^ spacingOf f (leNat (s.bytesAt a f.bytes))) ≠ 0 := by
          rw [← abs_pos, signed_abs _ (by positivity), mantOf, if_pos hexpo]
          exact mul_pos (by exact_mod_cast Nat.pos_of_ne_zero hfrac) (two_zpow_pos _)
        rcases HasValue.finite hval hne with hc | hc
        · exact List.mem_cons.2 (.inl hc)
        · exact List.mem_cons.2 (.inr (List.mem_singleton.2 hc))
      · rw [toExt_special hmax] at hden'
        exact Bool.noConfusion hden'
  · exact List.mem_cons.2 (.inr (List.mem_singleton.2 hclass))

theorem finiteNonzero_classes {x : Ext} (h : IsFiniteNonzero x) : classOf x ≠ .zero ∧ classOf x ≠ .infinity := by
  simp only [IsFiniteNonzero, List.mem_cons, List.not_mem_nil, or_false] at h
  rcases h with h | h <;> rw [h] <;> decide

theorem invalid_of_finite (op : ArithOp) {a b : Ext} (h : IsFiniteNonzero a ∨ IsFiniteNonzero b) :
    op.invalid a b = false := by
  rcases h with h | h <;> obtain ⟨hz, hi⟩ := finiteNonzero_classes h <;>
    cases op <;> simp [ArithOp.invalid, addInvalid, mulInvalid, divInvalid, hz, hi]

theorem zeroDivide_of_divisor {op : ArithOp} {a b : Ext} (h1 : op = .div → classOf b ≠ .zero)
    (h2 : op = .divr → classOf a ≠ .zero) : op.zeroDivide a b = false := by
  cases op with
  | div => simp [ArithOp.zeroDivide, divZero, h1 rfl]
  | divr => simp [ArithOp.zeroDivide, divZero, h2 rfl]
  | _ => rfl

/-! ### Arithmetic and comparison -/

section
variable {i : Instr} {s : State}

/-- The registers of an arithmetic instruction are among those it reads. -/
theorem arithRow_sources {row : ArithRow} (h : arithRow i = some row) :
    row.dest ∈ sources i ∧ (∀ j, row.source = .reg j → j ∈ sources i) ∧ sourceOf i = some row.source := by
  cases i <;> cases h <;> exact ⟨by simp [sources], by simp [sources], rfl⟩

theorem compareRow_sources {row : CompareRow} (h : compareRow i = some row) :
    0#3 ∈ sources i ∧ (∀ j, row.source = .reg j → j ∈ sources i) ∧ sourceOf i = some row.source := by
  cases i <;> cases h <;> exact ⟨by simp [sources], by simp [sources], rfl⟩

theorem source_full {k : SourceKind} (h : ∀ j, k = .reg j → s.isEmpty j = false) : k.isEmpty s = false := by
  cases k with
  | reg j => exact h j rfl
  | _ => rfl

theorem arith_ends {row : ArithRow} (hrow : arithRow i = some row) (hm : s.cw.getLsbD 1 = false)
    (h : RaisesDenormal i s) : Shows (denormalFlagged s) (afterOf i s) := by
  obtain ⟨-, -, hden, hregs, -, hsrc, hdivr, -⟩ := h
  obtain ⟨hd, hj, ho⟩ := arithRow_sources hrow
  obtain ⟨hb, hdiv⟩ := hsrc row.source _ ho (sourceBits_operandOf (arithRow_plain hrow) _ s)
  have he : (s.isEmpty row.dest || (sourceIn row.source (addressOf i) s).isEmpty s) = false := by
    rw [(hregs _ hd).1, sourceIn_isEmpty, source_full fun j h => (hregs j (hj j h)).1]
    rfl
  have hfin : IsFiniteNonzero (s.st row.dest) ∨ IsFiniteNonzero (operandOf row.source (addressOf i) s).bits := by
    rw [denormalOperand_arith hrow, Bool.or_eq_true, decide_eq_true_eq] at hden
    exact hden.imp (fun h => List.mem_cons.2 (.inr (List.mem_singleton.2 h)))
      (operandOf_denormal_finite (arithRow_plain hrow))
  have harith : s.arith row.op row.dest (sourceIn row.source (addressOf i) s) row.pop = denormalFlagged s := by
    rw [arith_numbers he (hregs _ hd).2 hb]
    change (if row.op.invalid _ (operandOf row.source (addressOf i) s).bits then _
      else if row.op.zeroDivide _ (operandOf row.source (addressOf i) s).bits then _
      else s.denormalTest (_ || (operandOf row.source (addressOf i) s).denormal) _) = _
    rw [invalid_of_finite _ hfin, if_neg (by decide), zeroDivide_of_divisor (hdiv row hrow) (hdivr row hrow),
      if_neg (by decide), ← denormalOperand_arith hrow, hden, denormalTest_ends hm]
  rw [afterOf_arith hrow, harith]
  exact shows_openC023 _

theorem openResultFlags_shows (dst : ResultTo) (u : State) : Shows u (State.openResultFlags dst u) := by
  cases dst <;> exact ⟨rfl, rfl, rfl, fun f => by cases f <;> rfl, rfl, rfl⟩

theorem compare_ends {row : CompareRow} (hrow : compareRow i = some row) (hm : s.cw.getLsbD 1 = false)
    (h : RaisesDenormal i s) : Shows (denormalFlagged s) (afterOf i s) := by
  obtain ⟨-, -, hden, hregs, -, hsrc, -⟩ := h
  obtain ⟨h0, hj, ho⟩ := compareRow_sources hrow
  obtain ⟨hb, -⟩ := hsrc row.source _ ho (sourceBits_operandOf (compareRow_plain hrow) _ s)
  have he : (s.isEmpty 0#3 || (sourceIn row.source (addressOf i) s).isEmpty s) = false := by
    rw [(hregs _ h0).1, sourceIn_isEmpty, source_full fun j h => (hregs j (hj j h)).1]
    rfl
  obtain ⟨ha1, -, ha2, ha3⟩ := isNumber_classes (hregs _ h0).2
  obtain ⟨hb1, -, hb2, hb3⟩ := isNumber_classes hb
  have hinv : compareInvalid row.quiet (s.st 0#3) (operandOf row.source (addressOf i) s).bits = false := by
    simp [compareInvalid, ha1, hb1, ha2, hb2, ha3, hb3]
  rw [denormalOperand_compare hrow] at hden
  have hcompare : s.compare (sourceIn row.source (addressOf i) s) row.quiet (CompareRow.target row) row.pops =
      State.openResultFlags (CompareRow.target row) (denormalFlagged s) := by
    rw [State.compare, if_neg (by rw [he]; decide)]
    change (if compareInvalid row.quiet (s.st 0#3) (operandOf row.source (addressOf i) s).bits then _
      else if isQNaN (s.st 0#3) || isQNaN (operandOf row.source (addressOf i) s).bits then _
      else if decide (classOf (s.st 0#3) = .denormal) || (operandOf row.source (addressOf i) s).denormal then _
      else _) = _
    rw [hinv, if_neg (by decide), ha3, hb3, if_neg (by decide), if_pos hden, State.raiseDenormal]
    dsimp only
    rw [if_neg (by rw [hm]; decide)]
    rfl
  rw [afterOf_compare hrow, hcompare]
  exact openResultFlags_shows _ _

end

/-! ### The other instructions -/

section
variable {s : State}

theorem unary_ends (hm : s.cw.getLsbD 1 = false) (h0 : s.isEmpty 0#3 = false) (hd : classOf (s.st 0#3) = .denormal)
    {invalid : Ext → Bool} (hinv : invalid (s.st 0#3) = false) (f : Ext → State → State) :
    s.unary invalid f = denormalFlagged s := by
  rw [unary_number h0 (isNumber_of_class hd (by decide)), hinv, if_neg (by decide), decide_eq_true hd, denormalTest_ends hm]

theorem f2xm1_ends (hm : s.cw.getLsbD 1 = false) (h0 : s.isEmpty 0#3 = false) (hd : classOf (s.st 0#3) = .denormal) :
    s.f2xm1 = denormalFlagged s := by
  rw [State.f2xm1, if_neg (by rw [h0]; decide), if_neg (by rw [hd]; decide), if_neg (by rw [hd]; decide),
    decide_eq_true hd, denormalTest_ends hm]

theorem trig_ends (hm : s.cw.getLsbD 1 = false) (h0 : s.isEmpty 0#3 = false) (hd : classOf (s.st 0#3) = .denormal)
    (bad zero : State → State) (f : Ext → Rounding → Trans) : s.trig bad zero f = denormalFlagged s := by
  rw [State.trig, if_neg (by rw [h0]; decide), if_neg (by rw [hd]; decide), if_neg (by rw [hd]; decide),
    if_neg (by rw [hd]; decide), decide_eq_true hd, denormalTest_ends hm]

theorem trigPair_ends (hm : s.cw.getLsbD 1 = false) (h0 : s.isEmpty 0#3 = false) (h7 : s.isEmpty 7#3 = true)
    (hd : classOf (s.st 0#3) = .denormal) (takes : Ext → State → Bool) (f : Ext → State → State) :
    s.trigPair takes f = denormalFlagged s := by
  rw [State.trigPair, if_neg (by rw [h0]; decide), if_neg (by rw [h7]; decide), if_neg (by rw [hd]; decide),
    if_neg (by rw [hd]; decide), decide_eq_true hd, denormalTest_ends hm]

theorem xtract_ends (hm : s.cw.getLsbD 1 = false) (h0 : s.isEmpty 0#3 = false) (h7 : s.isEmpty 7#3 = true)
    (hd : classOf (s.st 0#3) = .denormal) : s.xtract = denormalFlagged s := by
  rw [State.xtract, if_neg (by rw [h0]; decide), if_neg (by rw [h7]; decide), if_neg (by rw [hd]; decide),
    if_neg (by rw [hd]; decide), decide_eq_true hd, denormalTest_ends hm]

/-- One of the two operands is a denormal. -/
abbrev DenormalPair (s : State) : Prop :=
  (decide (classOf (s.st 0#3) = .denormal) || decide (classOf (s.st 1#3) = .denormal)) = true

theorem prem_ends (hm : s.cw.getLsbD 1 = false) (he : BothFull s) (hn : BothNumbers s) (hd : DenormalPair s)
    (hinv : ¬(classOf (s.st 0#3) = .infinity ∨ classOf (s.st 1#3) = .zero)) (nearest : Bool) :
    s.prem nearest = denormalFlagged s := by
  rw [State.prem, if_neg (by rw [he.test]; decide), if_neg hn.classes.1, if_neg hn.classes.2, if_neg hinv, hd,
    denormalTest_ends hm]

theorem scale_ends (hm : s.cw.getLsbD 1 = false) (he : BothFull s) (hn : BothNumbers s) (hd : DenormalPair s)
    (hinv : ¬InvalidPair .fscale (s.st 0#3) (s.st 1#3)) : s.scale = denormalFlagged s := by
  have hscale : scaleInvalid (s.st 0#3) (s.st 1#3) = false := by
    by_contra hne
    refine hinv ?_
    simp only [scaleInvalid, Bool.not_eq_false, Bool.or_eq_true, Bool.and_eq_true, decide_eq_true_eq] at hne
    rcases hne with ⟨h1, h2⟩ | ⟨h1, h2⟩ <;> simp [InvalidPair, h1, h2]
  rw [State.scale, if_neg (by rw [he.test]; decide), if_neg hn.classes.1, if_neg hn.classes.2, hscale, if_neg (by decide),
    hd, denormalTest_ends hm]

theorem arctan_ends (hm : s.cw.getLsbD 1 = false) (hd : DenormalPair s) :
    s.arctan (s.st 1#3) (s.st 0#3) = denormalFlagged s := by
  rw [State.arctan, eitherDenormal, hd, denormalTest_ends hm]

theorem yl2x_ends (hm : s.cw.getLsbD 1 = false) (hn : BothNumbers s) (hd : DenormalPair s)
    (hinv : ¬InvalidPair .fyl2x (s.st 0#3) (s.st 1#3)) (hz : classOf (s.st 0#3) ≠ .zero) :
    s.yl2x (s.st 1#3) (s.st 0#3) = denormalFlagged s := by
  have hvalid : yl2xInvalid (s.st 1#3) (s.st 0#3) = false := by
    by_contra hne
    refine hinv (.inr (.inr (.inr (.inr (.inl ⟨rfl, hn.1, hn.2, ?_⟩)))))
    simp only [yl2xInvalid, Bool.not_eq_false, Bool.or_eq_true, Bool.and_eq_true, decide_eq_true_eq] at hne
    rcases hne with (h | ⟨h1, h2⟩) | ⟨⟨h1, h2⟩, h3⟩
    · exact .inl h
    · exact .inr (.inl ⟨h1, by rcases h2 with h | h <;> rw [h] <;> decide⟩)
    · rw [isFinite, Bool.or_eq_true, decide_eq_true_eq, decide_eq_true_eq] at h2
      have hv := hasValue_of_class (.inr h2)
      exact .inr (.inr ⟨h1, (isOne_iff hv).1 h3 ▸ hv⟩)
  rw [State.yl2x, hvalid, if_neg (by decide), if_neg (fun h => hz h.1), eitherDenormal, hd, denormalTest_ends hm]

theorem yl2xp1_ends {a : ℝ} (hm : s.cw.getLsbD 1 = false) (hd : DenormalPair s)
    (hinv : ¬InvalidPair .fyl2xp1 (s.st 0#3) (s.st 1#3)) (ha : HasValue (s.st 0#3) a)
    (hle : |a| ≤ 1 - Real.sqrt 2 / 2) : s.yl2xp1 (s.st 1#3) (s.st 0#3) = denormalFlagged s := by
  rw [State.yl2xp1, if_neg (by rw [yl2xp1_inRange ha hle]; simp [class_ne_infinity ha]),
    if_neg (fun h => hinv (by simp [InvalidPair, h.1, h.2])), eitherDenormal, hd, denormalTest_ends hm]

end

/-- The rule of an instruction that reads registers only. -/
theorem register_ends {i : Instr} {s : State} (hf : familyOf i ∈ [Family.other, .transcend]) (hm : s.cw.getLsbD 1 = false)
    (h : RaisesDenormal i s) : Shows (denormalFlagged s) (afterOf i s) := by
  obtain ⟨-, hsign, hden, hregs, hpush, -, -, hinv, hyl2x, hyl2xp1⟩ := h
  have one : ∀ j : Instr, sources j = [0#3] → sourceOf j = none → denormalOperand j s = true →
      (∀ k ∈ sources j, s.isEmpty k = false ∧ IsNumber (s.st k)) →
      classOf (s.st 0#3) = .denormal ∧ s.isEmpty 0#3 = false := fun j hs ho hd hr => by
    rw [denormal_one hs ho, decide_eq_true_eq] at hd
    exact ⟨hd, (hr 0#3 (by rw [hs]; decide)).1⟩
  have two : ∀ j : Instr, sources j = [0#3, 1#3] → sourceOf j = none → denormalOperand j s = true →
      (∀ k ∈ sources j, s.isEmpty k = false ∧ IsNumber (s.st k)) →
      DenormalPair s ∧ BothFull s ∧ BothNumbers s := fun j hs ho hd hr => by
    have h0 := hr 0#3 (by rw [hs]; decide)
    have h1 := hr 1#3 (by rw [hs]; decide)
    rw [denormal_two hs ho] at hd
    exact ⟨hd, ⟨h0.1, h1.1⟩, h0.2, h1.2⟩
  have hne : ∀ g ∉ [Family.other, .transcend], familyOf i ≠ g := fun g hg he => hg (he ▸ hf)
  have hctl := hne .control (by decide)
  have harith := hne .arith (by decide)
  have hcompare := hne .compare (by decide)
  have hload := hne .load (by decide)
  have hstore := hne .store (by decide)
  have hmove := hne .move (by decide)
  cases i <;> first
    | exact absurd rfl hctl
    | exact absurd rfl harith
    | exact absurd rfl hcompare
    | exact absurd rfl hload
    | exact absurd rfl hstore
    | exact absurd rfl hmove
    | exact absurd (List.mem_cons_self ..) hsign
    | exact absurd (List.mem_cons_of_mem _ (List.mem_cons_self ..)) hsign
    | skip
  case frndint =>
    obtain ⟨hd, h0⟩ := one _ rfl rfl hden hregs
    have heq : afterOf .frndint s = (denormalFlagged s).openC023 :=
      congrArg State.openC023 (unary_ends hm h0 hd (invalid := fun _ => false) rfl State.roundInt)
    exact heq ▸ shows_openC023 _
  case fsqrt =>
    obtain ⟨hd, h0⟩ := one _ rfl rfl hden hregs
    have hvalid : sqrtInvalid (s.st 0#3) = false := by
      by_contra hne
      simp only [sqrtInvalid, Bool.not_eq_false, Bool.and_eq_true, decide_eq_true_eq] at hne
      exact hinv (.inl ⟨rfl, hne.1, isNumber_of_class hd (by decide), hne.2⟩)
    have heq : afterOf .fsqrt s = (denormalFlagged s).openC023 :=
      congrArg State.openC023 (unary_ends hm h0 hd hvalid State.squareRoot)
    exact heq ▸ shows_openC023 _
  case fxtract =>
    obtain ⟨hd, h0⟩ := one _ rfl rfl hden hregs
    have heq : afterOf .fxtract s = (denormalFlagged s).openC023 :=
      congrArg State.openC023 (xtract_ends hm h0 (hpush (by decide)) hd)
    exact heq ▸ shows_openC023 _
  case f2xm1 =>
    obtain ⟨hd, h0⟩ := one _ rfl rfl hden hregs
    have heq : afterOf .f2xm1 s = (denormalFlagged s).openC023 := congrArg State.openC023 (f2xm1_ends hm h0 hd)
    exact heq ▸ shows_openC023 _
  case fsin =>
    obtain ⟨hd, h0⟩ := one _ rfl rfl hden hregs
    have heq : afterOf .fsin s = (denormalFlagged s).openC03 := congrArg State.openC03 (trig_ends hm h0 hd _ _ _)
    exact heq ▸ (shows_openC03 _).1
  case fcos =>
    obtain ⟨hd, h0⟩ := one _ rfl rfl hden hregs
    have heq : afterOf .fcos s = (denormalFlagged s).openC03 := congrArg State.openC03 (trig_ends hm h0 hd _ _ _)
    exact heq ▸ (shows_openC03 _).1
  case fptan =>
    obtain ⟨hd, h0⟩ := one _ rfl rfl hden hregs
    have heq : afterOf .fptan s = (denormalFlagged s).openC03 :=
      congrArg State.openC03 (trigPair_ends hm h0 (hpush (by decide)) hd _ _)
    exact heq ▸ (shows_openC03 _).1
  case fsincos =>
    obtain ⟨hd, h0⟩ := one _ rfl rfl hden hregs
    have heq : afterOf .fsincos s = (denormalFlagged s).openC03 :=
      congrArg State.openC03 (trigPair_ends hm h0 (hpush (by decide)) hd _ _)
    exact heq ▸ (shows_openC03 _).1
  case fprem | fprem1 =>
    obtain ⟨hd, he, hn⟩ := two _ rfl rfl hden hregs
    have heq := prem_ends hm he hn hd (fun h => hinv (.inr (.inl ⟨by decide, hn.1, hn.2, h⟩)))
    exact (heq _).symm ▸ Shows.refl _
  case fscale =>
    obtain ⟨hd, he, hn⟩ := two _ rfl rfl hden hregs
    have heq : afterOf .fscale s = (denormalFlagged s).openC023 := congrArg State.openC023 (scale_ends hm he hn hd hinv)
    exact heq ▸ shows_openC023 _
  case fpatan =>
    obtain ⟨hd, he, hn⟩ := two _ rfl rfl hden hregs
    have heq : afterOf .fpatan s = (denormalFlagged s).openC023 :=
      congrArg State.openC023 ((pairFront_numbers he hn).trans (arctan_ends hm hd))
    exact heq ▸ shows_openC023 _
  case fyl2x =>
    obtain ⟨hd, he, hn⟩ := two _ rfl rfl hden hregs
    have heq : afterOf .fyl2x s = (denormalFlagged s).openC023 :=
      congrArg State.openC023 ((pairFront_numbers he hn).trans (yl2x_ends hm hn hd hinv (hyl2x rfl)))
    exact heq ▸ shows_openC023 _
  case fyl2xp1 =>
    obtain ⟨hd, he, hn⟩ := two _ rfl rfl hden hregs
    obtain ⟨a, ha, hle⟩ := hyl2xp1 rfl
    have heq : afterOf .fyl2xp1 s = (denormalFlagged s).openC023 :=
      congrArg State.openC023 ((pairFront_numbers he hn).trans (yl2xp1_ends hm hd hinv ha hle))
    exact heq ▸ shows_openC023 _

/-- The rule of every instruction that raises DE. -/
theorem denormal_ends {i : Instr} {s : State} (hm : s.cw.getLsbD 1 = false) (h : RaisesDenormal i s) :
    Shows (denormalFlagged s) (afterOf i s) := by
  have hfam := h.1
  simp only [List.mem_cons, List.not_mem_nil, or_false] at hfam
  rcases hfam with hf | hf | hf | hf
  · obtain ⟨row, hrow⟩ := exists_arithRow hf
    exact arith_ends hrow hm h
  · exact register_ends (by rw [hf]; decide) hm h
  · exact register_ends (by rw [hf]; decide) hm h
  · obtain rfl | ⟨row, hrow⟩ := exists_compareRow hf
    · exact absurd h.2.2.1 (by simp [denormalOperand, sources, sourceOf, arithRow, compareRow])
    · exact compare_ends hrow hm h

/-- No rule writes CW. -/
theorem rule_cw {i : Instr} {s u : State} (hf : familyOf i ≠ .control) (hu : ruleOf i s = .ok u) : u.cw = s.cw := by
  have hcalc := holds_calcHost hf
  unfold ruleOf at hu
  cases hs : shapeOf i with
  | compute f =>
    rw [hs] at hcalc hu
    obtain rfl := Except.ok.inj hu
    exact (hcalc s).cw
  | load f =>
    rw [hs] at hcalc hu
    obtain ⟨-, rfl⟩ := loading_cases hu
    exact (hcalc _ s).cw
  | store f =>
    rw [hs] at hcalc hu
    obtain ⟨-, rfl⟩ | ⟨bs, -, -, rfl⟩ := storing_cases hu
    · exact (hcalc s).cw
    · exact (hcalc s).cw

/-- Settles O10: `rule_stops` for what an unmasked exception leaves, `denormal_ends` for DM = 0. -/
theorem unmaskedStopsWithoutEffect : Obligations.UnmaskedStopsWithoutEffect := by
  unfold Obligations.UnmaskedStopsWithoutEffect
  refine ⟨fun i s t hf hr hes ht h => unmasked_stops hf hr hes ht h, fun i s hr ho hm h => ?_⟩
  have hf : familyOf i ≠ .control := fun he => by
    have hfam := h.1
    rw [he] at hfam
    exact absurd hfam (by decide)
  obtain ⟨t, ht, hshow⟩ := runs_shows hf hr ho (denormal_ends hm h)
  have hde : t.sw.de = true := hshow.de
  have hcw : t.cw = s.cw := by
    obtain ⟨u, hu, rfl⟩ := rule_of_next hf hr ht
    exact (retire_cw ..).trans (rule_cw hf hu)
  refine ⟨t, ht, hde, ?_, hshow.c1, fun f hne => (hshow.flag f).trans ?_,
    hshow.untouched (untouched_of_eq rfl rfl rfl rfl)⟩
  · rw [(Invariant.swWord_summary t).1, State.es, hde, hcw, hm]
    simp
  · cases f <;> first | rfl | contradiction

end Sys2Proof.Laws.DenormalStop
end

section
/-! ZF, PF and CF are the host's (10_state.md rule R57): but for the FCOMI family and the FCMOVcc no instruction reads or
writes them. Each operation is shown to commute with a change of the three flags, then each shape of a rule, then the step
around it. -/

namespace Sys2Proof.Laws.HostFlags

open Sys2Proof.Machine Sys2Proof.Laws Sys2Proof.Laws.Shapes Sys2Proof.Laws.Frame
open Sys2Proof.Laws.HostAx (ite_map onNext)

/-- The state with other values in ZF, PF and CF. -/
def withFlags (v : Bool × Bool × Bool) (s : State) : State := { s with zf := v.1, pf := v.2.1, cf := v.2.2 }

/-- The operation does the same whatever the host flags are, and leaves them as they are. -/
abbrev Blind (f : State → State) : Prop := ∀ v s, f (withFlags v s) = withFlags v (f s)

/-- The same of an operation that also answers the bytes to store. -/
abbrev BlindStore (f : State → State × Option (List Byte)) : Prop :=
  ∀ v s, f (withFlags v s) = (f s).map (withFlags v) id

/-- The same of the rule of an instruction: whether and how it faults does not depend on the host flags. -/
abbrev BlindRule (body : State → Except Fault State) : Prop :=
  ∀ v s, body (withFlags v s) = (body s).map (withFlags v)

/-- The same of a step. A trap ends the run, for a handler may do otherwise. -/
abbrev BlindStep (step : State → Host.Outcome State Fault Refusal) : Prop :=
  ∀ v s, s.cfg.fpTrap = .stop → step (withFlags v s) = onNext (withFlags v) (step s)

/-! ### Flags, registers and the stack -/

section
variable (i : BitVec 3) (x : Ext) (b : Bool)

theorem withC0_blind : Blind (State.withC0 b) := fun _ _ => rfl
theorem withC1_blind : Blind (State.withC1 b) := fun _ _ => rfl
theorem withC2_blind : Blind (State.withC2 b) := fun _ _ => rfl
theorem withC3_blind : Blind (State.withC3 b) := fun _ _ => rfl
theorem openC0_blind : Blind State.openC0 := fun _ _ => rfl
theorem openC1_blind : Blind State.openC1 := fun _ _ => rfl
theorem openC2_blind : Blind State.openC2 := fun _ _ => rfl
theorem openC3_blind : Blind State.openC3 := fun _ _ => rfl
theorem setSt_blind : Blind (fun s => s.setSt i x) := fun _ _ => rfl
theorem push_blind : Blind (fun s => s.push x) := fun _ _ => rfl
theorem pop_blind : Blind State.pop := fun _ _ => rfl
theorem bothResults_blind : Blind (State.bothResults x) := fun _ _ => rfl
theorem indefSt0_blind : Blind State.indefSt0 := fun _ _ => rfl
theorem exchange_blind : Blind (State.exchange i) := fun _ _ => rfl
theorem fillEmpty_blind : Blind (State.fillEmpty i) := fun _ _ => ite_map (fun _ => rfl) fun _ => rfl
theorem popIf_blind : Blind (State.popIf b) := fun _ _ => ite_map (fun _ => rfl) fun _ => rfl
theorem inexactOr_blind (up : Bool) : Blind (State.inexactOr b up) := fun _ _ =>
  ite_map (fun _ => rfl) fun _ => rfl

theorem pops_blind : ∀ n, Blind (State.pops n)
  | 0, _, _ => rfl
  | n + 1, v, s => pops_blind n v s.pop

end

section
variable {f g : State → State}

/-- One operation after another. -/
theorem Blind.then (h : Blind f) (k : Blind g) : Blind fun s => g (f s) := fun v s =>
  (congrArg g (h v s)).trans (k v (f s))

theorem openC03_blind : Blind State.openC03 := openC0_blind.then openC3_blind
theorem openC023_blind : Blind State.openC023 := (openC0_blind.then openC2_blind).then openC3_blind
theorem openC0123_blind : Blind State.openC0123 :=
  ((openC0_blind.then openC1_blind).then openC2_blind).then openC3_blind

theorem Blind.openC03 (h : Blind f) : Blind fun s => (f s).openC03 := h.then openC03_blind
theorem Blind.openC023 (h : Blind f) : Blind fun s => (f s).openC023 := h.then openC023_blind
theorem Blind.openC0123 (h : Blind f) : Blind fun s => (f s).openC0123 := h.then openC0123_blind

/-- The answer of an instruction that may pop. -/
theorem answer_blind (i : BitVec 3) (x : Ext) (b : Bool) : Blind fun s => State.popIf b (s.setSt i x) :=
  (setSt_blind i x).then (popIf_blind b)

/-! ### Exceptions -/

theorem raiseStack_blind (o : Bool) (h : Blind f) : Blind (State.raiseStack o f) := fun v s =>
  ite_map (fun _ => h v { s with sw := { s.sw with ie := true, sf := true, c1 := o } }) fun _ => rfl

theorem raiseInvalid_blind (h : Blind f) : Blind (State.raiseInvalid f) := fun v s =>
  ite_map (fun _ => h v { s with sw := { s.sw with ie := true, c1 := false } }) fun _ => rfl

theorem raiseZeroDivide_blind (h : Blind f) : Blind (State.raiseZeroDivide f) := fun v s =>
  ite_map (fun _ => h v { s with sw := { s.sw with ze := true, c1 := false } }) fun _ => rfl

theorem raiseDenormal_blind (h : Blind f) (k : Blind g) : Blind (State.raiseDenormal f g) := fun v s =>
  ite_map (fun _ => h v { s with sw := { s.sw with de := true } })
    fun _ => k v (State.withC1 false { s with sw := { s.sw with de := true } })

theorem denormalTest_blind (den : Bool) (h : Blind f) : Blind (State.denormalTest den f) := fun v s =>
  ite_map (fun _ => raiseDenormal_blind h (fun _ _ => rfl) v s) fun _ => h v s

theorem nanOne_blind (a : Ext) {write : Ext → State → State} (h : ∀ x, Blind (write x)) :
    Blind (State.nanOne a write) := fun v s =>
  ite_map (fun _ => raiseInvalid_blind (h _) v s) fun _ => ((withC1_blind false).then (h a)) v s

theorem nanTwo_blind (a b : Ext) {write : Ext → State → State} (h : ∀ x, Blind (write x)) :
    Blind (State.nanTwo a b write) := fun v s =>
  ite_map (fun _ => raiseInvalid_blind (h _) v s) fun _ => ((withC1_blind false).then (h (nan2 a b))) v s

end

/-! ### Delivery -/

section
variable (i : BitVec 3) (neg : Bool)

theorem openResult_blind : Blind (State.openResult i) := fun _ _ => rfl

theorem openDelivery_blind : Blind (State.openDelivery i) :=
  (((Blind.then (f := State.openSt i) (fun _ _ => rfl) (g := State.openOE) fun _ _ => rfl).then
    (g := State.openUE) fun _ _ => rfl).then (g := State.openPE) fun _ _ => rfl).then openC1_blind

theorem setScaled_blind (m : Nat) (e : Int) : Blind (State.setScaled i neg m e) := fun _ _ =>
  ite_map (fun _ => rfl) fun _ => rfl

theorem settle_blind (x : Mag) (r : Rounded) (p : Nat) : Blind (State.settle i neg x r p) := fun v s =>
  ite_map (fun _ => ite_map (fun _ => rfl) fun _ =>
      (setScaled_blind i neg _ _).then (inexactOr_blind _ _) v s.flagOverflow) fun _ =>
    ite_map (fun _ => ite_map (fun _ => ite_map (fun _ => rfl) fun _ => rfl) fun _ =>
      (setScaled_blind i neg _ _).then (inexactOr_blind _ _) v s.flagUnderflow) fun _ =>
    (setSt_blind i _).then (inexactOr_blind _ _) v s

theorem deliver_blind (x : Mag) (p : Nat) : Blind (State.deliver i neg x p) := fun v s =>
  settle_blind i neg x (x.roundPrec neg p (rounding s.cw)) p v s

theorem finish_blind (t : Trans) : Blind (State.finish i t) := settle_blind i _ _ _ _

theorem finishPop_blind (t : Trans) : Blind fun s => (s.finish i t).pop := (finish_blind i t).then pop_blind

theorem deliverPC_blind (x : Mag) : Blind (State.deliverPC i neg x) := by
  intro v s
  have hcw : (withFlags v s).cw = s.cw := rfl
  unfold State.deliverPC
  rw [hcw]
  cases precision s.cw with
  | some p => exact deliver_blind i neg x p v s
  | none => exact openDelivery_blind i v s

end

/-! ### Basic arithmetic and comparison -/

theorem arithResult_blind (op : ArithOp) (d : BitVec 3) (a b : Ext) : Blind (State.arithResult op d a b) := by
  intro v s
  unfold State.arithResult
  cases op.special a b with
  | some r => rfl
  | none =>
    cases op.exact a b with
    | some y => exact deliverPC_blind d y.1 y.2 v s
    | none => rfl

theorem source_blind (src : Source) (v : Bool × Bool × Bool) (s : State) :
    src.operand (withFlags v s) = src.operand s ∧ src.isEmpty (withFlags v s) = src.isEmpty s := by
  cases src <;> exact ⟨rfl, rfl⟩

theorem arith_blind (op : ArithOp) (d : BitVec 3) (src : Source) (pop : Bool) : Blind (State.arith op d src pop) := by
  intro v s
  obtain ⟨hoperand, hempty⟩ := source_blind src v s
  unfold State.arith
  rw [hoperand, hempty]
  exact
    ite_map (fun _ => raiseStack_blind false (answer_blind d _ pop) v s) fun _ =>
    ite_map (fun _ => raiseInvalid_blind (answer_blind d _ pop) v s) fun _ =>
    ite_map (fun _ => nanTwo_blind _ _ (fun x => answer_blind d x pop) v s) fun _ =>
    ite_map (fun _ => raiseInvalid_blind (answer_blind d _ pop) v s) fun _ =>
    ite_map (fun _ => raiseZeroDivide_blind (answer_blind d _ pop) v s) fun _ =>
    denormalTest_blind _ ((arithResult_blind op d _ _).then (popIf_blind pop)) v s

/-- A compare instruction that answers in C0, C2 and C3. -/
theorem compare_blind (src : Source) (quietOk : Bool) (npop : Nat) : Blind (State.compare src quietOk .codes npop) := by
  intro v s
  have answer : ∀ rel, Blind fun t => State.pops npop (t.setResult .codes rel) := fun rel =>
    Blind.then (fun _ _ => rfl) (pops_blind npop)
  obtain ⟨hoperand, hempty⟩ := source_blind src v s
  unfold State.compare
  rw [hoperand, hempty]
  exact
    ite_map (fun _ => raiseStack_blind false (answer .unordered) v s) fun _ =>
    ite_map (fun _ => raiseInvalid_blind (answer .unordered) v s) fun _ =>
    ite_map (fun _ => answer .unordered v s) fun _ =>
    ite_map (fun _ => raiseDenormal_blind (answer _) (fun _ _ => rfl) v s) fun _ => answer _ v s

/-! ### Other arithmetic -/

theorem unary_blind (invalid : Ext → Bool) {f : Ext → State → State} (h : ∀ a, Blind (f a)) :
    Blind (State.unary invalid f) := fun v s =>
  ite_map (fun _ => raiseStack_blind false (setSt_blind 0#3 _) v s) fun _ =>
  ite_map (fun _ => raiseInvalid_blind (setSt_blind 0#3 _) v s) fun _ =>
  ite_map (fun _ => nanOne_blind _ (setSt_blind 0#3) v s) fun _ =>
  ite_map (fun _ => raiseInvalid_blind (setSt_blind 0#3 _) v s) fun _ => denormalTest_blind _ (h _) v s

theorem onSign_blind (f : Ext → Ext) : Blind (State.onSign f) := fun v s =>
  ite_map (fun _ => raiseStack_blind false (setSt_blind 0#3 indef) v s) fun _ => rfl

theorem roundInt_blind (a : Ext) : Blind (State.roundInt a) := fun v s =>
  ite_map (fun _ => rfl) fun _ => ((setSt_blind 0#3 _).then (inexactOr_blind _ _)) v s

theorem squareRoot_blind (a : Ext) : Blind (State.squareRoot a) := by
  intro v s
  have hcw : (withFlags v s).cw = s.cw := rfl
  unfold State.squareRoot
  rw [hcw]
  refine ite_map (fun _ => rfl) fun _ => ?_
  cases precision s.cw with
  | some p => exact deliver_blind _ _ _ p v s
  | none => rfl

theorem deliverRemainder_blind (a : Ext) (x : Dyad) : Blind (State.deliverRemainder a x) := fun v s =>
  ite_map (fun _ => rfl) fun _ => deliver_blind _ _ _ _ v s

theorem reduce_blind (nearest : Bool) (a b : Ext) : Blind (State.reduce nearest a b) := fun v s =>
  ite_map (fun _ => ((((deliverRemainder_blind a _).then (withC2_blind _)).then (withC0_blind _)).then
      (withC3_blind _)).then (withC1_blind _) v s) fun _ =>
    ((((deliverRemainder_blind a _).then (withC2_blind _)).then openC0_blind).then openC1_blind).then openC3_blind v s

theorem prem_blind (nearest : Bool) : Blind (State.prem nearest) := by
  refine fun v s =>
    ite_map (fun _ => raiseStack_blind false (setSt_blind 0#3 _) v s) fun _ =>
    ite_map (fun _ => raiseInvalid_blind (setSt_blind 0#3 _) v s) fun _ =>
    ite_map (fun _ => nanTwo_blind _ _ (setSt_blind 0#3) v s) fun _ =>
    ite_map (fun _ => raiseInvalid_blind (setSt_blind 0#3 _) v s) fun _ =>
    denormalTest_blind _ (fun v t => ?_) v s
  exact
    ite_map (fun _ => rfl) fun _ =>
    ite_map (fun _ => (((withC0_blind false).then (withC2_blind false)).then (withC3_blind false)).then
      (deliver_blind _ _ _ _) v t) fun _ => reduce_blind nearest _ _ v t

theorem scale_blind : Blind State.scale := by
  refine fun v s =>
    ite_map (fun _ => raiseStack_blind false (setSt_blind 0#3 _) v s) fun _ =>
    ite_map (fun _ => raiseInvalid_blind (setSt_blind 0#3 _) v s) fun _ =>
    ite_map (fun _ => nanTwo_blind _ _ (setSt_blind 0#3) v s) fun _ =>
    ite_map (fun _ => raiseInvalid_blind (setSt_blind 0#3 _) v s) fun _ =>
    denormalTest_blind _ (fun v t => ?_) v s
  exact
    ite_map (fun _ => rfl) fun _ => ite_map (fun _ => rfl) fun _ => deliver_blind _ _ _ _ v t

theorem xtract_blind : Blind State.xtract := by
  refine fun v s =>
    ite_map (fun _ => raiseStack_blind false (bothResults_blind _) v s) fun _ =>
    ite_map (fun _ => raiseStack_blind true (bothResults_blind _) v s) fun _ =>
    ite_map (fun _ => raiseInvalid_blind (bothResults_blind _) v s) fun _ =>
    ite_map (fun _ => nanOne_blind _ bothResults_blind v s) fun _ =>
    denormalTest_blind _ (fun v t => ?_) v s
  exact
    ite_map (fun _ => raiseZeroDivide_blind (fun _ _ => rfl) v t) fun _ =>
    ite_map (fun _ => rfl) fun _ => rfl

/-! ### Transcendental instructions -/

theorem f2xm1_blind : Blind State.f2xm1 := by
  refine fun v s =>
    ite_map (fun _ => raiseStack_blind false (setSt_blind 0#3 _) v s) fun _ =>
    ite_map (fun _ => raiseInvalid_blind (setSt_blind 0#3 _) v s) fun _ =>
    ite_map (fun _ => nanOne_blind _ (setSt_blind 0#3) v s) fun _ =>
    denormalTest_blind _ (fun v t => ?_) v s
  exact
    ite_map (fun _ => rfl) fun _ => ite_map (fun _ => openResult_blind 0#3 v t) fun _ => finish_blind _ _ v t

/-- The operations of the trigonometric instructions, which end by clearing C2. -/
theorem trigInvalid_blind {f : State → State} (h : Blind f) : Blind (State.trigInvalid f) :=
  (raiseInvalid_blind h).then (withC2_blind false)

theorem trigNaN_blind (x : Ext) {write : Ext → State → State} (h : ∀ y, Blind (write y)) :
    Blind (State.trigNaN x write) := (nanOne_blind x h).then (withC2_blind false)

theorem trig_blind {badFormat zero : State → State} (hbad : Blind badFormat) (hzero : Blind zero)
    (f : Ext → Rounding → Trans) : Blind (State.trig badFormat zero f) := by
  refine fun v s =>
    ite_map (fun _ => raiseStack_blind false (setSt_blind 0#3 _) v s) fun _ =>
    ite_map (fun _ => hbad v s) fun _ =>
    ite_map (fun _ => trigNaN_blind _ (setSt_blind 0#3) v s) fun _ =>
    ite_map (fun _ => trigInvalid_blind (setSt_blind 0#3 _) v s) fun _ =>
    denormalTest_blind _ (fun v t => ?_) v s
  exact
    ite_map (fun _ => (hzero.then (withC1_blind false)).then (withC2_blind false) v t) fun _ =>
    ite_map (fun _ => rfl) fun _ => (finish_blind 0#3 _).then (withC2_blind false) v t

theorem trigPair_blind {takes : Ext → State → Bool} (htakes : ∀ x v s, takes x (withFlags v s) = takes x s)
    {f : Ext → State → State} (h : ∀ x, Blind (f x)) : Blind (State.trigPair takes f) := by
  refine fun v s =>
    ite_map (fun _ => raiseStack_blind false (bothResults_blind _) v s) fun _ =>
    ite_map (fun _ => raiseStack_blind true (bothResults_blind _) v s) fun _ =>
    ite_map (fun _ => trigInvalid_blind (bothResults_blind _) v s) fun _ =>
    ite_map (fun _ => trigNaN_blind _ bothResults_blind v s) fun _ => denormalTest_blind _ (fun v t => ?_) v s
  rw [htakes]
  exact
    ite_map (fun _ => rfl) fun _ =>
    ite_map (fun _ => ((openResult_blind 0#3).then (push_blind one)).then openC2_blind v t) fun _ =>
    ite_map (fun _ => rfl) fun _ => (h _).then (withC2_blind false) v t

theorem tangent_blind (x : Ext) : Blind (State.tangent x) := fun v s =>
  (finish_blind 0#3 (transTan x (rounding s.cw))).then (push_blind one) v s

theorem pushCosine_blind (c : Trans) : Blind fun s => s.pushCosine c := fun _ _ =>
  ite_map (fun _ => rfl) fun _ => rfl

theorem sineCosine_blind (x : Ext) : Blind (State.sineCosine x) := fun v s =>
  (finish_blind 0#3 (transSin x (rounding s.cw))).then (pushCosine_blind _) v s

/-- The answer of an instruction that replaces ST(1) and pops. -/
theorem pairAnswer_blind (x : Ext) : Blind fun s => (s.setSt 1#3 x).pop := fun _ _ => rfl

theorem pairFront_blind {f : Ext → Ext → State → State} (h : ∀ y x, Blind (f y x)) : Blind (State.pairFront f) :=
  fun v s =>
  ite_map (fun _ => raiseStack_blind false (pairAnswer_blind _) v s) fun _ =>
  ite_map (fun _ => raiseInvalid_blind (pairAnswer_blind _) v s) fun _ =>
  ite_map (fun _ => nanTwo_blind _ _ pairAnswer_blind v s) fun _ => h _ _ v s

theorem arctan_blind (y x : Ext) : Blind (State.arctan y x) := denormalTest_blind _ fun v t =>
  ite_map (fun _ => (openResult_blind 1#3).then pop_blind v t) fun _ =>
  ite_map (fun _ => rfl) fun _ => finishPop_blind _ _ v t

theorem yl2x_blind (y x : Ext) : Blind (State.yl2x y x) := by
  refine fun v s =>
    ite_map (fun _ => raiseInvalid_blind (pairAnswer_blind _) v s) fun _ =>
    ite_map (fun _ => raiseZeroDivide_blind (pairAnswer_blind _) v s) fun _ =>
    denormalTest_blind _ (fun v t => ?_) v s
  cases yl2xExact y x with
  | some r => rfl
  | none => exact finishPop_blind _ _ v t

theorem yl2xp1Open_blind : Blind State.yl2xp1Open := fun v s =>
  ite_map (fun _ => rfl) fun _ => (openDelivery_blind 1#3).then pop_blind v
    { s with
      sw := { s.sw with
        ie := s.sw.ie || Config.freeBit s.draws
        de := s.sw.de || Config.freeBit (s.draws + 1)
        ze := s.sw.ze || Config.freeBit (s.draws + 2) }
      draws := s.draws + 3 }

theorem yl2xp1_blind (y x : Ext) : Blind (State.yl2xp1 y x) := by
  refine fun v s =>
    ite_map (fun _ => yl2xp1Open_blind v s) fun _ =>
    ite_map (fun _ => raiseInvalid_blind (pairAnswer_blind _) v s) fun _ =>
    denormalTest_blind _ (fun v t => ?_) v s
  exact
    ite_map (fun _ => rfl) fun _ => ite_map (fun _ => rfl) fun _ => finishPop_blind _ _ v t

/-! ### Data transfer -/

theorem load_blind (x : Ext) : Blind (State.load x) := fun v s =>
  ite_map (fun _ => raiseStack_blind true (push_blind indef) v s) fun _ => rfl

theorem loadBcd_blind (bs : List Byte) : Blind (State.loadBcd bs) := fun v s =>
  ite_map (fun _ => load_blind _ v s) fun _ => ite_map (fun _ => load_blind _ v s) fun _ =>
    (load_blind _).then (g := State.drawn) (fun _ _ => rfl) v s

theorem loadReal_blind (b : Operand) : Blind (State.loadReal b) := by
  have flagged : Blind fun s => if b.denMem then s.raiseDenormal id id else s := fun v s =>
    ite_map (fun _ => raiseDenormal_blind (fun _ _ => rfl) (fun _ _ => rfl) v s) fun _ => rfl
  exact fun v s =>
    ite_map (fun _ => raiseStack_blind true (push_blind indef) v s) fun _ =>
    ite_map (fun _ => raiseInvalid_blind (push_blind _) v s) fun _ =>
    (flagged.then (push_blind b.bits)).then (withC1_blind false) v s

theorem loadSt_blind (i : BitVec 3) : Blind (State.loadSt i) := fun v s =>
  ite_map (fun _ => raiseStack_blind false (push_blind indef) v s) fun _ => load_blind _ v s

theorem copyTo_blind (i : BitVec 3) (pop : Bool) : Blind (State.copyTo i pop) := fun v s =>
  ite_map (fun _ => raiseStack_blind false (answer_blind i indef pop) v s) fun _ =>
    ((setSt_blind i (s.st 0#3)).then (withC1_blind false)).then (popIf_blind pop) v s

theorem swap_blind (i : BitVec 3) : Blind (State.swap i) := fun v s =>
  ite_map (fun _ => raiseStack_blind false
      (((fillEmpty_blind 0#3).then (fillEmpty_blind i)).then (exchange_blind i)) v s) fun _ =>
    (exchange_blind i).then (withC1_blind false) v s

/-! ### Stores -/

section
variable {f : State → State} (bs : List Byte) (pop : Bool)

theorem openAfter_blind {f : State → State × Option (List Byte)} (h : BlindStore f) :
    BlindStore fun s => openAfter (f s) := fun v s => congrArg openAfter (h v s)

theorem storeStack_blind : BlindStore fun s => s.storeStack bs pop := fun v s =>
  Prod.ext (raiseStack_blind false (popIf_blind pop) v s) rfl

theorem storeInvalid_blind : BlindStore fun s => s.storeInvalid bs pop := fun v s =>
  Prod.ext (raiseInvalid_blind (popIf_blind pop) v s) rfl

/-- A store that is carried out. -/
theorem bytes_blind (h : Blind f) {bytes : State → List Byte} (hb : ∀ v s, bytes (withFlags v s) = bytes s) :
    BlindStore fun s => (f s, some (bytes s)) := fun v s => Prod.ext (h v s) (congrArg some (hb v s))

/-- What a store does to the flags, then the pop. -/
theorem popAfter_blind (h : Blind f) : BlindStore fun s => (State.popIf pop (f s), some bs) :=
  bytes_blind (h.then (popIf_blind pop)) fun _ _ => rfl

theorem storeRounded_blind (fits : Nat → Bool) (image : Nat → List Byte) :
    BlindStore (State.storeRounded fits image bs pop) := fun v s =>
  ite_map (fun _ => storeStack_blind bs pop v s) fun _ =>
  ite_map (fun _ => storeInvalid_blind bs pop v s) fun _ =>
  ite_map (fun _ => storeInvalid_blind bs pop v s) fun _ => popAfter_blind _ pop (inexactOr_blind _ _) v s

theorem storeInt_blind (w : Nat) : BlindStore (State.storeInt w pop) := fun v s => by
  unfold State.storeInt
  exact storeRounded_blind _ pop _ _ v s

theorem storeBcd_blind : BlindStore State.storeBcd := fun v s => storeRounded_blind _ true _ _ v s

/-- The flags of a masked underflow of a store. -/
theorem flagTiny_blind (inexact up : Bool) :
    Blind fun s => if inexact then s.flagUnderflow.raiseInexact up else s.withC1 false := fun _ _ =>
  ite_map (fun _ => rfl) fun _ => rfl

theorem storeFinite_blind (f : RealFmt) (a : Ext) : BlindStore (State.storeFinite f pop a) := fun v s =>
  ite_map (fun _ => ite_map (fun _ =>
    popAfter_blind (f := fun s => s.flagOverflow.raiseInexact _) _ pop (fun _ _ => rfl) v s) fun _ => rfl) fun _ =>
  ite_map (fun _ => ite_map (fun _ => popAfter_blind _ pop (flagTiny_blind _ _) v s) fun _ => rfl) fun _ =>
  popAfter_blind _ pop (inexactOr_blind _ _) v s

theorem storeReal_blind (f : RealFmt) : BlindStore (State.storeReal f pop) := fun v s =>
  ite_map (fun _ => storeStack_blind _ pop v s) fun _ =>
  ite_map (fun _ => storeInvalid_blind _ pop v s) fun _ =>
  ite_map (fun _ => storeInvalid_blind _ pop v s) fun _ =>
  ite_map (fun _ => storeFinite_blind pop f _ v s) fun _ => popAfter_blind _ pop (withC1_blind false) v s

theorem storeExt_blind : BlindStore State.storeExt := fun v s =>
  ite_map (fun _ => storeStack_blind _ true v s) fun _ => rfl

end

/-! ### Control instructions -/

section
variable (small : Bool) (bs : List Byte)

theorem initialise_blind : Blind State.initialise := fun _ _ => ite_map (fun _ => rfl) fun _ => rfl

theorem loadEnv_blind : Blind (State.loadEnv small bs) := fun _ _ =>
  ite_map (fun _ => ite_map (fun _ => rfl) fun _ => rfl) fun _ => ite_map (fun _ => rfl) fun _ => rfl

theorem restore_blind : Blind (State.restore small bs) := fun v s =>
  loadEnv_blind small bs v { s with
    regs := loadedRegs (envSize small) (Status.ofWord (word16At bs (if small then 2 else 4))).top.toNat bs }

theorem imageDrawn_blind : Blind (State.imageDrawn small) := fun _ _ => ite_map (fun _ => rfl) fun _ => rfl

theorem storeEnv_blind : BlindStore (State.storeEnv small) :=
  bytes_blind (Blind.openC0123 (f := fun s => { s.imageDrawn small with cw := s.cw ||| 0x003F#16 })
    fun _ _ => by cases small <;> rfl) fun _ _ => rfl

theorem save_blind : BlindStore (State.save small) :=
  bytes_blind ((imageDrawn_blind small).then initialise_blind) fun _ _ => rfl

theorem onlyOn_blind (g : Gen) {f : State → State} (h : Blind f) : Blind fun s => if s.cfg.gen = g then f s else s :=
  fun v s => ite_map (fun _ => h v s) fun _ => rfl

end

/-! ### Rules -/

/-- The rule does not depend on the host flags, whatever its shape. -/
def BlindShape : Shape → Prop
  | .compute f => Blind f
  | .load f => ∀ bs, Blind (f bs)
  | .store f => BlindStore f

theorem loading_blind (a : Addr) (n : Nat) {f : List Byte → State → State} (h : ∀ bs, Blind (f bs)) :
    BlindRule (loading a n f) := fun v s =>
  ite_map (fun _ => congrArg Except.ok (h _ v s)) fun _ => rfl

theorem storing_blind (a : Addr) (n : Nat) {f : State → State × Option (List Byte)} (h : BlindStore f) :
    BlindRule (storing a n f) := by
  intro v s
  unfold storing
  rw [h]
  obtain ⟨t, bytes⟩ := f s
  cases bytes with
  | none => rfl
  | some bs => exact ite_map (fun _ => rfl) fun _ => rfl

theorem ruleOf_blind {i : Instr} (h : BlindShape (shapeOf i)) : BlindRule (ruleOf i) := fun v s => by
  unfold ruleOf
  cases hs : shapeOf i with
  | compute f => exact congrArg Except.ok ((hs ▸ h : BlindShape (.compute f)) v s)
  | load f => exact loading_blind _ _ (hs ▸ h : BlindShape (.load f)) v s
  | store f => exact storing_blind _ _ (hs ▸ h : BlindShape (.store f)) v s

theorem blind_withSource {k : SourceKind} {f : Source → State → State} (h : ∀ src, Blind (f src)) :
    BlindShape (withSource k f) := by
  cases k with
  | reg j => exact h _
  | zero => exact h _
  | real f => exact fun bs => h _
  | int w => exact fun bs => h _

/-- The instructions that read or write the host flags. -/
def UsesHost (i : Instr) : Prop :=
  ∃ k, i ∈ [Instr.fcomi k, .fcomip k, .fucomi k, .fucomip k, .fcmovb k, .fcmove k, .fcmovbe k, .fcmovu k, .fcmovnb k,
    .fcmovne k, .fcmovnbe k, .fcmovnu k]

theorem compareRow_target {i : Instr} {row : CompareRow} (h : compareRow i = some row) (hh : ¬UsesHost i) :
    CompareRow.target row = .codes := by
  cases i <;> cases h <;> first | rfl | exact absurd ⟨_, by simp; rfl⟩ hh

/-- No rule depends on the host flags but those of the instructions that use them. -/
theorem blind_shapeOf {i : Instr} (hh : ¬UsesHost i) : BlindShape (shapeOf i) := by
  by_cases ha : familyOf i = .arith
  · obtain ⟨row, hr⟩ := exists_arithRow ha
    rw [shapeOf_arith hr]
    exact blind_withSource fun src => (arith_blind _ _ src _).openC023
  by_cases hc : familyOf i = .compare
  · obtain rfl | ⟨row, hr⟩ := exists_compareRow hc
    · exact fun _ _ => rfl
    · rw [shapeOf_compare hr, compareRow_target hr hh]
      exact blind_withSource fun src => compare_blind src _ _
  cases i <;> first
    | exact absurd rfl ha
    | exact absurd rfl hc
    | skip
  -- transcendental instructions
  case f2xm1 => exact f2xm1_blind.openC023
  case fcos => exact (trig_blind (raiseInvalid_blind indefSt0_blind) (setSt_blind 0#3 one) _).openC03
  case fsin => exact (trig_blind (trigInvalid_blind indefSt0_blind) (fun _ _ => rfl) _).openC03
  case fptan => exact (trigPair_blind (fun _ _ _ => rfl) tangent_blind).openC03
  case fsincos => exact (trigPair_blind (fun _ _ _ => rfl) sineCosine_blind).openC03
  case fpatan => exact (pairFront_blind arctan_blind).openC023
  case fyl2x => exact (pairFront_blind yl2x_blind).openC023
  case fyl2xp1 => exact (pairFront_blind yl2xp1_blind).openC023
  -- other arithmetic
  case fabs | fchs => exact (onSign_blind _).openC023
  case fprem | fprem1 => exact prem_blind _
  case frndint => exact (unary_blind _ roundInt_blind).openC023
  case fsqrt => exact (unary_blind _ squareRoot_blind).openC023
  case fscale => exact scale_blind.openC023
  case fxtract => exact xtract_blind.openC023
  -- loads
  case fbld => exact fun bs => (loadBcd_blind bs).openC023
  case fildM16 | fildM32 | fildM64 | fldM80 => exact fun bs => (load_blind _).openC023
  case fldM32 | fldM64 => exact fun bs => (loadReal_blind _).openC023
  case fldSt => exact (loadSt_blind _).openC023
  case fld1 | fldz => exact (load_blind _).openC023
  case fldl2t | fldl2e | fldpi | fldlg2 | fldln2 =>
    exact Blind.openC023 (f := fun s => s.load (constantFor _ _ (rounding s.cw))) fun v s => load_blind _ v s
  -- stores
  case fbstp => exact openAfter_blind storeBcd_blind
  case fistM16 | fistM32 | fistpM16 | fistpM32 | fistpM64 => exact openAfter_blind (storeInt_blind _ _)
  case fstM32 | fstM64 | fstpM32 | fstpM64 => exact openAfter_blind (storeReal_blind _ _)
  case fstpM80 => exact openAfter_blind storeExt_blind
  -- moves
  case fcmovb k | fcmove k | fcmovbe k | fcmovu k | fcmovnb k | fcmovne k | fcmovnbe k | fcmovnu k =>
    exact absurd ⟨k, by simp⟩ hh
  case fstSt | fstpSt => exact (copyTo_blind _ _).openC023
  case fxch => exact (swap_blind _).openC023
  -- control instructions
  case fdecstp => exact Blind.openC023 (f := fun s => (s.setTop (s.sw.top - 1#3)).withC1 false) fun _ _ => rfl
  case fincstp => exact Blind.openC023 (f := fun s => (s.setTop (s.sw.top + 1#3)).withC1 false) fun _ _ => rfl
  case ffree k => exact Blind.openC0123 (f := fun s => s.setTag (s.phys k) .empty) fun _ _ => rfl
  case fldcw =>
    exact fun bs => Blind.openC0123 (f := fun s => { s with cw := cwKeep s.cfg.gen (word16At bs 0) }) fun _ _ => rfl
  case fldenv | fldenvO66 => exact fun bs v s => loadEnv_blind (effSize16 s.cfg _) bs v s
  case frstor | frstorO66 => exact fun bs v s => restore_blind (effSize16 s.cfg _) bs v s
  case fnstenv | fnstenvO66 => exact fun v s => storeEnv_blind (effSize16 s.cfg _) v s
  case fnsave | fnsaveO66 => exact fun v s => save_blind (effSize16 s.cfg _) v s
  case fnstcw => exact bytes_blind openC0123_blind (bytes := fun s => half2 (cwKeep s.cfg.gen s.cw)) fun _ _ => rfl
  case fnstswM16 => exact bytes_blind openC0123_blind (bytes := fun s => half2 s.swWord) fun _ _ => rfl
  case fnstswAx => exact Blind.openC0123 (f := fun s => { s with ax := s.swWord }) fun _ _ => rfl
  case fnclex => exact Blind.openC0123 (f := fun s => { s with sw := { s.sw with
    ie := false, de := false, ze := false, oe := false, ue := false, pe := false, sf := false } }) fun _ _ => rfl
  case fninit => exact initialise_blind
  case fndisi | fneni => exact onlyOn_blind .g8087 (f := State.setIem _) fun _ _ => rfl
  case fsetpm => exact onlyOn_blind .g287 (f := fun s => { s with pm287 := true }) fun _ _ => rfl
  -- FNOP, FWAIT, and FWAIT for each wait form
  all_goals exact openC0123_blind

/-! ### Steps -/

theorem retire_blind (ptr : Pointers) (i : Instr) : Blind (State.retire ptr i) := by
  intro v s
  cases ptr with
  | keep => rfl
  | record =>
    unfold State.retire State.recordPointers
    cases i.operand <;> rfl

theorem takeTrap_blind : BlindStep State.takeTrap := fun v s hs => by
  have hv : (withFlags v s).cfg.fpTrap = .stop := hs
  simp only [State.takeTrap, hs, hv]
  rfl

theorem entering_blind (sync : Sync) : Blind (State.entering sync) := fun v s => by
  cases sync with
  | waiting => rfl
  | noWait => exact ite_map (fun _ => rfl) fun _ => rfl

theorem trapsBefore_withFlags (sync : Sync) (v : Bool × Bool × Bool) (s : State) :
    (withFlags v s).trapsBefore sync = s.trapsBefore sync := by cases sync <;> rfl

/-- The step around a rule that does not depend on the host flags. -/
theorem around_blind (sync : Sync) (ptr : Pointers) (i : Instr) {body : State → Except Fault State}
    (h : BlindRule body) : BlindStep (around sync ptr i body) := by
  intro v s hs
  unfold around
  rw [trapsBefore_withFlags, entering_blind, h]
  refine ite_map (fun _ => rfl) fun _ => ite_map (fun _ => rfl) fun _ => ite_map (fun _ => ?_) fun _ => ?_
  · exact takeTrap_blind v s hs
  · cases body (s.entering sync) with
    | error f => rfl
    | ok t => exact congrArg Host.Outcome.next (retire_blind ptr i v t)

theorem pointersOf_withFlags (i : Instr) (v : Bool × Bool × Bool) (s : State) :
    pointersOf i (withFlags v s) = pointersOf i s := by cases i <;> rfl

theorem exec_blind_of_not_waitForm {i : Instr} (hw : i.isWaitForm = false) (hh : ¬UsesHost i) : BlindStep (exec i) :=
  fun v s hs => by
  rw [exec_around hw, exec_around hw, pointersOf_withFlags]
  exact around_blind _ _ i (ruleOf_blind (blind_shapeOf hh)) v s hs

/-- A wait form (rule R145): FWAIT, then a no-wait form that does not depend on the host flags. -/
theorem waitThen_blind {next : State → Host.Outcome State Fault Refusal} (h : BlindStep next) :
    BlindStep (waitThen execFwait next) := by
  intro v s hs
  have hf : execFwait (withFlags v s) = onNext (withFlags v) (execFwait s) :=
    exec_blind_of_not_waitForm (i := .fwait) rfl (by rintro ⟨k, hk⟩; simp at hk) v s hs
  refine ite_map (fun _ => hf) fun _ => ?_
  rw [hf]
  cases ht : execFwait s with
  | fault f => rfl
  | refused r => rfl
  | next t =>
    have hn := h v t (by rw [HostAx.execFwait_cfg hs ht]; exact hs)
    simp only [onNext, hn]
    cases next t <;> rfl

theorem not_usesHost_of_waitForm {i w : Instr} (h : i.waitForm = some w) : ¬UsesHost i := by
  rintro ⟨k, hk⟩
  cases i <;> cases h <;> simp at hk

theorem exec_blind {i : Instr} (hh : ¬UsesHost i) : BlindStep (exec i) := by
  cases hw : i.isWaitForm
  · exact exec_blind_of_not_waitForm hw hh
  · obtain ⟨n, hn⟩ := exists_of_isWaitForm hw
    intro v s hs
    rw [exec_waitForm hn, exec_waitForm hn]
    exact waitThen_blind (exec_blind_of_not_waitForm (isWaitForm_of_waitForm hn).1 (not_usesHost_of_waitForm hn)) v s hs

/-- Settles O13: every rule but those of `UsesHost` commutes with a change of the host flags (`blind_shapeOf`), and so does
the step around it. -/
theorem onlyFcomiAndFcmovTouchHostFlags : Obligations.OnlyFcomiAndFcmovTouchHostFlags := by
  unfold Obligations.OnlyFcomiAndFcmovTouchHostFlags
  intro i s z p c hs hcom hcmov
  have hh : ¬UsesHost i := fun ⟨k, hk⟩ => by
    have := hcom k
    have := hcmov k
    simp_all
  calc exec i (withFlags (z, p, c) s)
    _ = onNext (withFlags (z, p, c)) (exec i s) := exec_blind hh _ s hs
    _ = _ := by cases exec i s <;> rfl

end Sys2Proof.Laws.HostFlags
end
